-- ==== Sys2Proof/Word.lean ====
section
/-! DEFINITION. The word types of the HAC (spec/00_scope.md R8, R9): bytes, 64-bit register words, and the
plainest placing of bits in a word. -/

namespace Sys2Proof

/-- A byte: a symbol 0..255, or a byte of a port. -/
abbrev Byte := BitVec 8

/-- A register word: every register is 64 bits wide (10_state R20). -/
abbrev Word := BitVec 64

end Sys2Proof
end

