-- ==== Sys2Proof/Syntax.lean ====
section
/-! DEFINITION. The instruction set: the 21 commands of HAC-CMD revision 1 (spec/30_encoding.md R114), one
constructor per row of spec/opcode_table.json. -/

namespace Sys2Proof

/-- A command with its operands. SYM and CNT are the 8-bit fields of the command word (30_encoding R111);
the operand A is no field of the word (R117) and so stands in the state. -/
inductive Instr where
  | nop
  | freqClear
  | freqAccum (sym : Byte)
  | freqAccumStream
  | freqLoad (sym : Byte)
  | freqRead (sym : Byte)
  | wrBits (cnt : Byte)
  | wrFlush
  | rdBits (cnt : Byte)
  | rdAlign
  | rdDrain
  | treeBuild
  | treeNode
  | codeGen
  | codeLookup (sym : Byte) (cnt : Byte)
  | hdrWrite
  | encSym (sym : Byte)
  | encStream
  | hdrRead
  | decSym
  | decStream
  deriving DecidableEq, Repr

end Sys2Proof
end

