-- ==== Sys2Proof/WellFormed.lean ====
section
/-! DEFINITION. Which commands are well formed: the count ranges of spec/30_encoding.md R115. -/

namespace Sys2Proof

/-- MAX_BITS, the largest bit count of WR_BITS and RD_BITS (00_scope R8). -/
def maxBits : Nat := 64

/-- The largest word index of CODE_LOOKUP (30_encoding R115). -/
def maxCodeWord : Nat := 3

/-- The count operand is in the range R115 gives it. SYM takes all its 256 values (R111), so it needs no check. -/
def Instr.wf : Instr → Bool
  | .wrBits n => decide (n.toNat ≤ maxBits)
  | .rdBits n => decide (n.toNat ≤ maxBits)
  | .codeLookup _ w => decide (w.toNat ≤ maxCodeWord)
  | .nop | .freqClear | .freqAccum _ | .freqAccumStream | .freqLoad _ | .freqRead _ => true
  | .wrFlush | .rdAlign | .rdDrain | .treeBuild | .treeNode | .codeGen => true
  | .hdrWrite | .encSym _ | .encStream | .hdrRead | .decSym | .decStream => true

end Sys2Proof
end

