-- ==== Sys2Proof/Decode.lean ====
section
/-! DEFINITION. Decoding and encoding of the 64-bit command word CMD64 (spec/30_encoding.md R111..R116, R122). -/

namespace Sys2Proof

/-- OP, bits 7:0 of the command word (R111). -/
def opOf (w : Word) : Byte := w.extractLsb' 0 8

/-- SYM, bits 15:8 of the command word (R111). -/
def symOf (w : Word) : Byte := w.extractLsb' 8 8

/-- CNT, bits 23:16 of the command word (R111). -/
def cntOf (w : Word) : Byte := w.extractLsb' 16 8

/-- RSV, bits 63:24 of the command word (R111). -/
def rsvOf (w : Word) : BitVec 40 := w.extractLsb' 24 40

/-- Why a command word is no command (R116). The HAC reports all five as ILLEGAL_CMD. -/
inductive DecodeError where
  /-- OP is not in the table of R114. -/
  | unknownOpcode
  /-- RSV ≠ 0 (R112). -/
  | reservedNonzero
  /-- The command does not use SYM and SYM ≠ 0 (R113). -/
  | symNonzero
  /-- The command does not use CNT and CNT ≠ 0 (R113). -/
  | cntNonzero
  /-- CNT is beyond the range of R115. -/
  | cntRange
  deriving DecidableEq, Repr

/-- The checks of R116 on a command without operands. -/
def plainForm (w : Word) (i : Instr) : Except DecodeError Instr :=
  if rsvOf w ≠ 0#40 then .error .reservedNonzero
  else if symOf w ≠ 0#8 then .error .symNonzero
  else if cntOf w ≠ 0#8 then .error .cntNonzero
  else .ok i

/-- The checks of R116 on a command with the operand SYM. -/
def symForm (w : Word) (mk : Byte → Instr) : Except DecodeError Instr :=
  if rsvOf w ≠ 0#40 then .error .reservedNonzero
  else if cntOf w ≠ 0#8 then .error .cntNonzero
  else .ok (mk (symOf w))

/-- The checks of R116 on a command with the operand CNT, at most `limit`. -/
def cntForm (w : Word) (limit : Nat) (mk : Byte → Instr) : Except DecodeError Instr :=
  if rsvOf w ≠ 0#40 then .error .reservedNonzero
  else if symOf w ≠ 0#8 then .error .symNonzero
  else if limit < (cntOf w).toNat then .error .cntRange
  else .ok (mk (cntOf w))

/-- The checks of R116 on a command with both operands, CNT at most `limit`. -/
def symCntForm (w : Word) (limit : Nat) (mk : Byte → Byte → Instr) : Except DecodeError Instr :=
  if rsvOf w ≠ 0#40 then .error .reservedNonzero
  else if limit < (cntOf w).toNat then .error .cntRange
  else .ok (mk (symOf w) (cntOf w))

/-- The decoder: the opcode map of R114 with the checks of R116. -/
def decode (w : Word) : Except DecodeError Instr :=
  match (opOf w).toNat with
  | 0x00 => plainForm w .nop
  | 0x01 => plainForm w .freqClear
  | 0x02 => symForm w .freqAccum
  | 0x03 => plainForm w .freqAccumStream
  | 0x04 => symForm w .freqLoad
  | 0x05 => symForm w .freqRead
  | 0x10 => cntForm w maxBits .wrBits
  | 0x11 => plainForm w .wrFlush
  | 0x12 => cntForm w maxBits .rdBits
  | 0x13 => plainForm w .rdAlign
  | 0x14 => plainForm w .rdDrain
  | 0x20 => plainForm w .treeBuild
  | 0x21 => plainForm w .treeNode
  | 0x30 => plainForm w .codeGen
  | 0x31 => symCntForm w maxCodeWord .codeLookup
  | 0x40 => plainForm w .hdrWrite
  | 0x41 => symForm w .encSym
  | 0x42 => plainForm w .encStream
  | 0x43 => plainForm w .hdrRead
  | 0x44 => plainForm w .decSym
  | 0x45 => plainForm w .decStream
  | _ => .error .unknownOpcode

/-- The opcode of a command (R114). -/
def opcode : Instr → Byte
  | .nop => 0x00#8
  | .freqClear => 0x01#8
  | .freqAccum _ => 0x02#8
  | .freqAccumStream => 0x03#8
  | .freqLoad _ => 0x04#8
  | .freqRead _ => 0x05#8
  | .wrBits _ => 0x10#8
  | .wrFlush => 0x11#8
  | .rdBits _ => 0x12#8
  | .rdAlign => 0x13#8
  | .rdDrain => 0x14#8
  | .treeBuild => 0x20#8
  | .treeNode => 0x21#8
  | .codeGen => 0x30#8
  | .codeLookup _ _ => 0x31#8
  | .hdrWrite => 0x40#8
  | .encSym _ => 0x41#8
  | .encStream => 0x42#8
  | .hdrRead => 0x43#8
  | .decSym => 0x44#8
  | .decStream => 0x45#8

/-- The SYM field a command is encoded with: 0 where it takes no symbol (R113, R122). -/
def symField : Instr → Byte
  | .freqAccum s | .freqLoad s | .freqRead s | .codeLookup s _ | .encSym s => s
  | .nop | .freqClear | .freqAccumStream | .wrBits _ | .wrFlush | .rdBits _ | .rdAlign | .rdDrain => 0#8
  | .treeBuild | .treeNode | .codeGen | .hdrWrite | .encStream | .hdrRead | .decSym | .decStream => 0#8

/-- The CNT field a command is encoded with: 0 where it takes no count (R113, R122). -/
def cntField : Instr → Byte
  | .wrBits n | .rdBits n | .codeLookup _ n => n
  | .nop | .freqClear | .freqAccum _ | .freqAccumStream | .freqLoad _ | .freqRead _ | .wrFlush | .rdAlign => 0#8
  | .rdDrain | .treeBuild | .treeNode | .codeGen | .hdrWrite | .encSym _ | .encStream | .hdrRead => 0#8
  | .decSym | .decStream => 0#8

/-- The word with the fields OP, SYM, CNT and RSV = 0 (R111). -/
def cmdWord (op sym cnt : Byte) : Word := 0#40 ++ cnt ++ sym ++ op

/-- The encoder of R122: enc(MNEMONIC, SYM = s, CNT = n) = OP | (s << 8) | (n << 16). -/
def encode (i : Instr) : Word := cmdWord (opcode i) (symField i) (cntField i)

/-- The command the decoder reads from an instruction of `nbits` bits `w`, numbered as spec/opcode_table.json
numbers them: one 64-bit word, every bit above `nbits` 0 (R119). -/
def decodeTableWord (nbits w : Nat) : Option Instr :=
  match decode (BitVec.ofNat 64 (w % 2 ^ nbits)) with
  | .ok i => some i
  | .error _ => none

end Sys2Proof
end

