-- ==== Sys2Proof/Config.lean ====
section
/-! DEFINITION. What an implementation fixes (spec/00_scope.md R8, the OPEN parameters) and the free values.
None of these constants has a body, so a claim that holds of them holds whatever they are. -/

namespace Sys2Proof

/-- BASE is 256 times this number: BASE is OPEN and 256-byte aligned (00_scope R8, 20_memory R71; log entry 1). -/
opaque Config.basePage : Nat

/-- IN_DEPTH is one more than this number, so 1 ≤ IN_DEPTH ≤ 65535 (00_scope R8; log entry 1). -/
opaque Config.inDepthLess1 : Fin 65535

/-- OUT_DEPTH is one more than this number, so 1 ≤ OUT_DEPTH ≤ 65535 (00_scope R8; log entry 1). -/
opaque Config.outDepthLess1 : Fin 65535

/-- FREE VALUE. What the n-th "any value" read returns: RESULT0, RESULT1, BUDGET, SYMCNT, TOTAL and STATUS bits
5, 6, 24..34 while BUSY = 1 (10_state R38, R39, R45, R46; 93 U2; log entry 4). -/
opaque Config.anyRead : Nat → Word

/-- FREE VALUE. What a 64-bit result register holds after a rule writes it a count of n ≥ 2^64 tokens, which no
rule states (40_bitio R140, 44_codec R212; 00_scope R9; log entry 7). -/
opaque Config.countPastWord : Nat → Word

end Sys2Proof
end

