-- ==== Sys2Proof/Machine/State.lean ====
section
/-! DEFINITION. The state of the HAC as plain data (spec/10_state.md), the progress points of its commands
(R58), and the state after reset (R59). -/

namespace Sys2Proof.Machine

/-- The OPEN parameters of an instance (00_scope R8), fixed for its life (70_reset R293). The encoding by "less one"
keeps 1 ≤ IN_DEPTH, OUT_DEPTH ≤ 65535 and BASE 256-byte aligned by construction. -/
structure Params where
  basePage : Nat
  inDepthLess1 : Fin 65535
  outDepthLess1 : Fin 65535
  deriving DecidableEq, Repr

/-- A token of the IN FIFO (20_memory R80): `Byte(b)` or `End`. -/
inductive Token where
  | byte (b : Byte)
  | fin
  deriving DecidableEq, Repr

/-- The kind of an arena node (10_state R41): 0 = leaf, 1 = internal. -/
inductive NodeKind where
  | leaf
  | internal
  deriving DecidableEq, Repr

/-- A record of the node arena (10_state R41). -/
structure Node where
  kind : NodeKind
  sym : Byte
  f : Word
  left : BitVec 9
  right : BitVec 9
  deriving DecidableEq, Repr

/-- A record of the code table (10_state R43). -/
structure Code where
  len : Byte
  bits : BitVec 255
  deriving DecidableEq, Repr

/-- Where an HDR_READ stands between two bits (44_codec R213). -/
structure HdrPoint where
  /-- none: the count field is being read; some m: m entries, this one included, are still to be read. -/
  entries : Option Nat
  /-- The symbol of the entry before; none stands for the rule's −1. -/
  prev : Option Byte
  /-- The bytes read so far of the count field or of this entry, oldest first. -/
  got : List Byte
  /-- The rule's `used`: whole header bytes read so far. -/
  used : Nat
  /-- The bits of the byte being read, as the number they form, and how many they are (40_bitio R135). -/
  r : Nat
  k : Nat
  deriving DecidableEq, Repr

/-- Where a tree walk stands between two bits (44_codec R214): the node, the bits of this symbol, the bits of the command. -/
structure DecPoint where
  i : BitVec 9
  k : Nat
  used : Nat
  deriving DecidableEq, Repr

/-- The progress point of the current command with its local variables (10_state R58). -/
inductive Prog where
  /-- No command in progress. -/
  | none
  /-- Issued, nothing done yet (30_encoding R110). -/
  | start
  /-- WR_BITS, HDR_WRITE, ENC_SYM: held in OutPush, with these bits still to be written, first bit first. -/
  | writing (todo : List Bool)
  /-- WR_FLUSH: held in OutPush. -/
  | flushing
  /-- RD_BITS: held in InPeek, k bits read, forming r. -/
  | reading (r k : Nat)
  /-- RD_DRAIN: held in InPop, d bytes dropped. -/
  | draining (d : Nat)
  /-- FREQ_ACCUM_STREAM: held in InPop, count bytes counted. -/
  | counting (count : Nat)
  /-- ENC_STREAM: held in InPop, count bytes encoded. -/
  | encodePop (count : Nat)
  /-- ENC_STREAM: held in OutPush within the code of one byte, count bytes encoded before it. -/
  | encodeBits (count : Nat) (todo : List Bool)
  /-- HDR_READ: held in InPeek. -/
  | header (h : HdrPoint)
  /-- DEC_SYM: held in InPeek. -/
  | decSym (p : DecPoint)
  /-- DEC_STREAM: held in InPeek, count symbols pushed. -/
  | decBits (count : Nat) (p : DecPoint)
  /-- DEC_STREAM: held in OutPush of `sym`, count symbols pushed before it, used bits consumed. -/
  | decPush (count used : Nat) (sym : Byte)
  deriving DecidableEq, Repr

/-- The error kinds of 60_exceptions R251. -/
inductive ErrKind where
  | illegalCmd
  | emptyInput
  | emptyTable
  | corruptHeader
  | emptyArchive
  | countOverflow
  | noTree
  | noCodes
  | symbolAbsent
  | truncatedStream
  | budgetExhausted
  | invalidCode
  | badIndex
  deriving DecidableEq, Repr

/-- The sixteen registers (10_state R20). -/
inductive Reg where
  | id | ctrl | status | cmd | arg0 | budget | result0 | result1
  | symCnt | total | errInfo | inData | inEnd | outData | fifoStat | cfg
  deriving DecidableEq, Repr

/-- One item of the interleaving of HOST and CORE steps still to come (00_scope R7, 20_memory R87, R99).
`addr` is a byte address on the host's bus, `width` the access's width in bits. -/
inductive Turn where
  /-- The CORE's turn. -/
  | core
  /-- A HOST read. -/
  | read (addr width : Nat)
  /-- A HOST write of v. -/
  | write (addr width : Nat) (v : Word)
  /-- The reset input is pulled (70_reset R290). -/
  | rstN
  deriving DecidableEq, Repr

/-- The state. The last three fields are the model's own record of the outside world (log entries 3 and 4). -/
structure State where
  /-- BASE, IN_DEPTH, OUT_DEPTH (00_scope R8). -/
  params : Params
  /-- CTRL.IE_DONE and CTRL.IE_ERR (R22). -/
  ieDone : Bool
  ieErr : Bool
  /-- STATUS bits 0..8 (R23..R31). -/
  busy : Bool
  done : Bool
  err : Bool
  cmdOvr : Bool
  inOvf : Bool
  treeValid : Bool
  codesValid : Bool
  waitIn : Bool
  waitOut : Bool
  /-- STATUS.ERRCODE (R32) and STATUS.PAD (R35). -/
  errCode : Byte
  pad : BitVec 3
  /-- ARG0 (R37), BUDGET (R38), RESULT0 and RESULT1 (R39), ERRINFO (R47). -/
  arg0 : Word
  budget : Word
  result0 : Word
  result1 : Word
  errInfo : Word
  /-- SYMCNT (R45) and TOTAL (R46). -/
  symCnt : BitVec 9
  total : Word
  /-- FREQ[0..255] (R40). -/
  freq : Vector Word 256
  /-- NODE[0..510] (R41), ROOT and NODECNT (R42). -/
  node : Vector Node 511
  root : BitVec 9
  nodeCnt : BitVec 10
  /-- CODE[0..255] (R43). -/
  code : Vector Code 256
  /-- C and A (R53). -/
  c : Word
  a : Word
  /-- The bit writer (R54); WK passes through 8 while a full byte waits in OutPush (40_bitio R131; log entry 5). -/
  wacc : Byte
  wk : BitVec 4
  /-- The bit reader (R55). -/
  racc : Byte
  rk : BitVec 4
  /-- The FIFOs, heads first (R56). -/
  inFifo : List Token
  outFifo : List Byte
  /-- The progress point (R58). -/
  prog : Prog
  /-- The steps still to come, first one first. -/
  agenda : List Turn
  /-- The values HOST reads returned, first one first (70_reset R307). -/
  busReads : List Word
  /-- How many "any value" reads were made. -/
  draws : Nat
  deriving DecidableEq, Repr

/-- No step of the HAC stops with a fault: every error is the failing completion of a command, a next state
(60_exceptions R250..R253), so this type has no constructor. -/
inductive Fault where
  deriving DecidableEq, Repr

/-- Why a step has no meaning. -/
inductive Refusal where
  /-- An instruction without a meaning, by its mnemonic. Raised by no arm: every command has its meaning. Safe. -/
  | notModelled (mnemonic : String)
  /-- A HOST access that is not 64 bits wide, not 8-byte aligned, or outside the aperture: raised by the bus, which
  the spec tells a model to refuse (20_memory R73, R99; 93 U9). Safe: the model stops where the bus answers an error. -/
  | unsupportedAccess (addr width : Nat)
  deriving DecidableEq, Repr

/-- An arena record of zeros: what NODE holds at reset (the spec says "unspecified": log entry 2). -/
def Node.zero : Node := { kind := .leaf, sym := 0#8, f := 0#64, left := 0#9, right := 0#9 }

/-- A code record of zeros: the code of an absent symbol (R43), and what CODE holds at reset (log entry 2). -/
def Code.zero : Code := { len := 0#8, bits := 0#255 }

/-- The state after reset (R59, 70_reset R291, R292): idle, no command, everything zero or empty. -/
def State.reset : State where
  params := { basePage := Config.basePage, inDepthLess1 := Config.inDepthLess1, outDepthLess1 := Config.outDepthLess1 }
  ieDone := false
  ieErr := false
  busy := false
  done := false
  err := false
  cmdOvr := false
  inOvf := false
  treeValid := false
  codesValid := false
  waitIn := false
  waitOut := false
  errCode := 0#8
  pad := 0#3
  arg0 := 0#64
  budget := 0#64
  result0 := 0#64
  result1 := 0#64
  errInfo := 0#64
  symCnt := 0#9
  total := 0#64
  freq := Vector.replicate 256 0#64
  node := Vector.replicate 511 Node.zero
  root := 0#9
  nodeCnt := 0#10
  code := Vector.replicate 256 Code.zero
  c := 0#64
  a := 0#64
  wacc := 0#8
  wk := 0#4
  racc := 0#8
  rk := 0#4
  inFifo := []
  outFifo := []
  prog := .none
  agenda := []
  busReads := []
  draws := 0

end Sys2Proof.Machine
end

