-- ==== Sys2Proof/Machine/Ops.lean ====
section
/-! DEFINITION. The named operations over the state: completion and error completion (spec/60_exceptions.md),
issue (30_encoding R110), holds and ports (20_memory R80..R84), reset (70_reset R291) and the frequency table
(41_frequency R150, R151). -/

namespace Sys2Proof.Machine

/-! ## Parameters (00_scope R8) -/

/-- BASE, the address of the aperture. -/
def Params.base (p : Params) : Nat := 256 * p.basePage

/-- IN_DEPTH, in tokens. -/
def Params.inDepth (p : Params) : Nat := p.inDepthLess1.val + 1

/-- OUT_DEPTH, in bytes. -/
def Params.outDepth (p : Params) : Nat := p.outDepthLess1.val + 1

/-! ## Completion, error completion and return (60_exceptions R252, R253, R256) -/

/-- The error codes of R251. -/
def ErrKind.code : ErrKind → Byte
  | .illegalCmd => 0x01#8
  | .emptyInput => 0x02#8
  | .emptyTable => 0x03#8
  | .corruptHeader => 0x04#8
  | .emptyArchive => 0x05#8
  | .countOverflow => 0x06#8
  | .noTree => 0x07#8
  | .noCodes => 0x08#8
  | .symbolAbsent => 0x09#8
  | .truncatedStream => 0x0A#8
  | .budgetExhausted => 0x0B#8
  | .invalidCode => 0x0C#8
  | .badIndex => 0x0D#8

/-- `complete` (R252): the progress point is discarded, the command is over. -/
def State.complete (s : State) : State :=
  { s with prog := .none, waitIn := false, waitOut := false, busy := false, done := true }

/-- `raise E(info)` (R253), the HAC's one trap entry: the error is recorded and the command is over. -/
def State.raise (s : State) (e : ErrKind) (info : Word) : State :=
  { s with
    errCode := e.code, errInfo := info, err := true
    prog := .none, waitIn := false, waitOut := false, busy := false, done := true }

/-- The return from an error (R256): writing 1 to STATUS bit 2. It restores nothing else. -/
def State.clearErr (s : State) : State := { s with err := false, errCode := 0#8, errInfo := 0#64 }

/-! ## Issue (30_encoding R110, R117) -/

/-- The accepted command word w is latched with its operand; the command stands at its start. -/
def State.latch (s : State) (w : Word) : State :=
  { s with c := w, a := s.arg0, done := false, busy := true, prog := .start }

/-- A command issue attempt with word w (R110): dropped with CMD_OVR while BUSY = 1 or ERR = 1. -/
def State.issue (s : State) (w : Word) : State :=
  if s.busy || s.err then { s with cmdOvr := true } else s.latch w

/-! ## Holds and ports (20_memory R80..R86) -/

/-- The core holds on an empty IN FIFO at progress point p (R82). -/
def State.holdIn (s : State) (p : Prog) : State := { s with prog := p, waitIn := true }

/-- The core holds on a full OUT FIFO at progress point p (R84). -/
def State.holdOut (s : State) (p : Prog) : State := { s with prog := p, waitOut := true }

/-- InPop() of the head of a FIFO whose tail is `rest` (R82). -/
def State.popped (s : State) (rest : List Token) : State := { s with inFifo := rest, waitIn := false }

/-- The OUT FIFO holds OUT_DEPTH bytes (R84). -/
def State.outFull (s : State) : Bool := decide (s.params.outDepth ≤ s.outFifo.length)

/-- The IN FIFO holds IN_DEPTH tokens (10_state R48). -/
def State.inFull (s : State) : Bool := decide (s.params.inDepth ≤ s.inFifo.length)

/-- OutPush(b) (R84): none where the core must hold. -/
def State.outPush (s : State) (b : Byte) : Option State :=
  if s.outFull then none else some { s with outFifo := s.outFifo ++ [b], waitOut := false }

/-- The host appends a token (10_state R48, R49): dropped with IN_OVF where the FIFO is full. The token ends a hold
on the empty FIFO (60_exceptions R267; log entry 6). -/
def State.pushIn (s : State) (t : Token) : State :=
  if s.inFull then { s with inOvf := true } else { s with inFifo := s.inFifo ++ [t], waitIn := false }

/-- The core has a step (20_memory R86). -/
def State.coreEnabled (s : State) : Bool := s.busy && !s.waitIn && !s.waitOut

/-! ## Reset (70_reset R291, R293) -/

/-- Both resets: every piece of the HAC's state takes its value of 10_state R59; the parameters are fixed, and the
outside world's schedule and record are no state of the HAC. -/
def State.resetCore (s : State) : State :=
  { State.reset with params := s.params, agenda := s.agenda, busReads := s.busReads, draws := s.draws }

/-! ## The frequency table (41_frequency) -/

/-- FREQ[s]. -/
def State.freqAt (s : State) (x : Byte) : Word := s.freq[x.toNat]'x.isLt

/-- The table with FREQ[x] = v. -/
def setFreq (t : Vector Word 256) (x : Byte) (v : Word) : Vector Word 256 := t.set x.toNat v x.isLt

/-- TOTAL = 2^64 − 1: no further byte can be counted (R151). -/
def State.totalFull (s : State) : Bool := decide (s.total = BitVec.allOnes 64)

/-- `accumulate(x)` (R151) past its check; like every write to FREQ it invalidates the tree and the codes (R150). -/
def State.accumulate (s : State) (x : Byte) : State :=
  { s with
    symCnt := if s.freqAt x = 0#64 then s.symCnt + 1#9 else s.symCnt
    freq := setFreq s.freq x (s.freqAt x + 1#64)
    total := s.total + 1#64
    treeValid := false
    codesValid := false }

/-- The empty table: the action of FREQ_CLEAR (R152) and of HDR_READ's `clearTable()` (44_codec R213), each of
which also clears TREE_VALID and CODES_VALID. -/
def State.clearTable (s : State) : State :=
  { s with freq := Vector.replicate 256 0#64, symCnt := 0#9, total := 0#64, treeValid := false, codesValid := false }

/-- HDR_READ accepts an entry (44_codec R213): FREQ[x] <- f, SYMCNT and TOTAL follow. -/
def State.loadEntry (s : State) (x : Byte) (f : Word) : State :=
  { s with
    freq := setFreq s.freq x f
    symCnt := s.symCnt + 1#9
    total := s.total + f
    treeValid := false
    codesValid := false }

/-- The present symbols of a table with their frequencies, ascending (10_state R40, 42_tree R171). -/
def present (t : Vector Word 256) : List (Byte × Word) :=
  (t.toList.zipIdx.filter fun e => e.1 != 0#64).map fun e => (BitVec.ofNat 8 e.2, e.1)

end Sys2Proof.Machine
end

