-- ==== Sys2Proof/Machine/Operands.lean ====
section
/-! DEFINITION. Operand and result forms: bit strings and their numbers (spec/00_scope.md R10), the
little-endian bytes of archive integers (20_memory R74), arena and code records by index, and counts in result
registers. -/

namespace Sys2Proof.Machine

/-- The n least significant bits of v, most significant first: what `writeBits(v, n)` writes (40_bitio R132). -/
def msbBits (v : Nat) : Nat → List Bool
  | 0 => []
  | n + 1 => v.testBit n :: msbBits v n

/-- `bits(c)`: the number a bit string is held as, its first bit the most significant (00_scope R10). -/
def pathValue (c : List Bool) : Nat := c.foldl (fun v b => 2 * v + b.toNat) 0

/-- The n bytes of an archive integer, least significant first (20_memory R74, R94, R95). -/
def leBytes (v : Nat) : Nat → List Byte
  | 0 => []
  | n + 1 => BitVec.ofNat 8 v :: leBytes (v / 256) n

/-- The archive integer of some bytes, least significant first (20_memory R74, R94, R95). -/
def ofLeBytes : List Byte → Nat
  | [] => 0
  | b :: bs => b.toNat + 256 * ofLeBytes bs

/-- A symbol or byte as a 64-bit word: zero-extended (30_encoding R117). -/
def wordOf (b : Byte) : Word := b.setWidth 64

/-- A count in a 64-bit result register. A count past the word, which no rule states, is a free value (log entry 7). -/
def countWord (n : Nat) : Word := if n < 2 ^ 64 then BitVec.ofNat 64 n else Config.countPastWord n

/-- NODE[i] (10_state R41). The arena has no entry 511; no tree names it. -/
def State.nodeAt (s : State) (i : BitVec 9) : Node := (s.node[i.toNat]?).getD Node.zero

/-- CODE[x] (10_state R43). -/
def State.codeAt (s : State) (x : Byte) : Code := s.code[x.toNat]'x.isLt

/-- The code as a bit string, first bit first (43_codegen R192). -/
def Code.path (k : Code) : List Bool := msbBits k.bits.toNat k.len.toNat

/-- The record that holds code c (43_codegen R192). -/
def Code.ofPath (c : List Bool) : Code :=
  { len := BitVec.ofNat 8 c.length, bits := BitVec.ofNat 255 (pathValue c) }

end Sys2Proof.Machine
end

