-- ==== Sys2Proof/Machine/Flags.lean ====
section
/-! DEFINITION. The status word: STATUS as it is read (spec/10_state.md R23..R35) and written (W1C), CTRL (R22)
and the interrupt output (60_exceptions R259). -/

namespace Sys2Proof.Machine

/-- A flag at bit i of a word. -/
def flagBit (b : Bool) (i : Nat) : Word := if b then 1#64 <<< i else 0#64

/-- A field whose lowest bit is bit i of a word. -/
def fieldBits {n : Nat} (v : BitVec n) (i : Nat) : Word := v.setWidth 64 <<< i

/-- STATUS as R23..R35 lay it out; the reserved bits are 0. -/
def State.statusWord (s : State) : Word :=
  flagBit s.busy 0 ||| flagBit s.done 1 ||| flagBit s.err 2 ||| flagBit s.cmdOvr 3 ||| flagBit s.inOvf 4
    ||| flagBit s.treeValid 5 ||| flagBit s.codesValid 6 ||| flagBit s.waitIn 7 ||| flagBit s.waitOut 8
    ||| fieldBits s.errCode 16 ||| fieldBits (s.wk.setWidth 3) 24 ||| fieldBits s.rk 28 ||| fieldBits s.pad 32

/-- STATUS bits 5, 6 and 24..34, which return any value while BUSY = 1 (70_reset R296; log entry 4). -/
def statusLooseBits : Word := 0x00000007FF000060#64

/-- STATUS as a read returns it: while BUSY = 1 the loose bits are those of the draw. -/
def State.statusRead (s : State) (draw : Word) : Word :=
  if s.busy then (s.statusWord &&& ~~~statusLooseBits) ||| (draw &&& statusLooseBits) else s.statusWord

/-- A write of v to STATUS: W1C of bits 1..4, bit 2 with ERRCODE and ERRINFO (R24..R27, R35; 60_exceptions R256). -/
def State.writeStatus (s : State) (v : Word) : State :=
  let s1 := if v.getLsbD 1 then { s with done := false } else s
  let s2 := if v.getLsbD 2 then s1.clearErr else s1
  let s3 := if v.getLsbD 3 then { s2 with cmdOvr := false } else s2
  if v.getLsbD 4 then { s3 with inOvf := false } else s3

/-- CTRL as it is read: SRST and the reserved bits read 0 (R22). -/
def State.ctrlWord (s : State) : Word := flagBit s.ieDone 0 ||| flagBit s.ieErr 1

/-- A write of v to CTRL: with SRST a soft reset, and then the enables of the same write are discarded (R22). -/
def State.writeCtrl (s : State) (v : Word) : State :=
  if v.getLsbD 8 then s.resetCore else { s with ieDone := v.getLsbD 0, ieErr := v.getLsbD 1 }

/-- The interrupt output (60_exceptions R259). -/
def State.irq (s : State) : Bool := (s.ieDone && s.done) || (s.ieErr && (s.err || s.cmdOvr || s.inOvf))

end Sys2Proof.Machine
end

