-- ==== Sys2Proof/Machine/Bus.lean ====
section
/-! DEFINITION. The MMIO aperture: the HOST's accesses to the sixteen registers (spec/10_state.md R20..R52,
20_memory.md R71..R76). -/

namespace Sys2Proof.Machine

/-- The register at an offset (20_memory R71); none at the reserved offsets 0x80..0xFF. -/
def regAt : Nat → Option Reg
  | 0x00 => some .id
  | 0x08 => some .ctrl
  | 0x10 => some .status
  | 0x18 => some .cmd
  | 0x20 => some .arg0
  | 0x28 => some .budget
  | 0x30 => some .result0
  | 0x38 => some .result1
  | 0x40 => some .symCnt
  | 0x48 => some .total
  | 0x50 => some .errInfo
  | 0x58 => some .inData
  | 0x60 => some .inEnd
  | 0x68 => some .outData
  | 0x70 => some .fifoStat
  | 0x78 => some .cfg
  | _ => none

/-- ID (10_state R21). -/
def idWord : Word := 0x0000000148554646#64

/-- CFG (10_state R52): IN_DEPTH, OUT_DEPTH, MAX_BITS = 64. -/
def Params.cfgWord (p : Params) : Word :=
  BitVec.ofNat 64 p.inDepth ||| BitVec.ofNat 64 p.outDepth <<< 16 ||| 64#64 <<< 32

/-- FIFO_STAT (10_state R51). -/
def State.fifoStat (s : State) : Word :=
  BitVec.ofNat 64 s.inFifo.length ||| BitVec.ofNat 64 s.outFifo.length <<< 16

/-- A read of a register that returns any value while BUSY = 1 (70_reset R296): a fresh draw then, and the register's
value v otherwise (log entry 4). -/
def State.looseRead (s : State) (v : Word) : Word × State :=
  if s.busy then (Config.anyRead s.draws, { s with draws := s.draws + 1 }) else (v, s)

/-- OUT_DATA (10_state R50): pops a byte, or returns 0. The byte's room ends a hold (60_exceptions R267; log entry 6). -/
def State.readOut (s : State) : Word × State :=
  match s.outFifo with
  | [] => (0#64, s)
  | b :: rest => (0x100#64 ||| wordOf b, { s with outFifo := rest, waitOut := false })

/-- What a read of a register returns and leaves (10_state R21..R52). -/
def State.readReg (s : State) : Reg → Word × State
  | .id => (idWord, s)
  | .ctrl => (s.ctrlWord, s)
  | .status =>
    if s.busy then (s.statusRead (Config.anyRead s.draws), { s with draws := s.draws + 1 }) else (s.statusWord, s)
  | .cmd => (0#64, s)
  | .arg0 => (s.arg0, s)
  | .budget => s.looseRead s.budget
  | .result0 => s.looseRead s.result0
  | .result1 => s.looseRead s.result1
  | .symCnt => s.looseRead (s.symCnt.setWidth 64)
  | .total => s.looseRead s.total
  | .errInfo => (s.errInfo, s)
  | .inData => (0#64, s)
  | .inEnd => (0#64, s)
  | .outData => s.readOut
  | .fifoStat => (s.fifoStat, s)
  | .cfg => (s.params.cfgWord, s)

/-- What a write of v to a register does (10_state R22..R52; 20_memory R76). -/
def State.writeReg (s : State) (v : Word) : Reg → State
  | .ctrl => s.writeCtrl v
  | .status => s.writeStatus v
  | .cmd => s.issue v
  | .arg0 => { s with arg0 := v }
  | .budget => if s.busy then s else { s with budget := v }
  | .inData => s.pushIn (.byte (v.setWidth 8))
  | .inEnd => s.pushIn .fin
  | .id | .result0 | .result1 | .symCnt | .total | .errInfo | .outData | .fifoStat | .cfg => s

/-- The accesses the aperture supports: 64 bits wide, 8-byte aligned, within BASE..BASE+0xFF (20_memory R71..R73). -/
def Params.supports (p : Params) (addr width : Nat) : Bool :=
  decide (width = 64 ∧ addr % 8 = 0 ∧ p.base ≤ addr ∧ addr < p.base + 0x100)

/-- A HOST read (20_memory R72): its value goes to the host; a reserved offset reads 0 (R75). -/
def State.hostRead (s : State) (addr width : Nat) : Host.Outcome State Fault Refusal :=
  if s.params.supports addr width then
    match regAt (addr - s.params.base) with
    | none => .next { s with busReads := s.busReads ++ [0#64] }
    | some r => .next { (s.readReg r).2 with busReads := s.busReads ++ [(s.readReg r).1] }
  else .refused (.unsupportedAccess addr width)

/-- A HOST write (20_memory R72); a reserved offset ignores it (R75). -/
def State.hostWrite (s : State) (addr width : Nat) (v : Word) : Host.Outcome State Fault Refusal :=
  if s.params.supports addr width then
    match regAt (addr - s.params.base) with
    | none => .next s
    | some r => .next (s.writeReg v r)
  else .refused (.unsupportedAccess addr width)

end Sys2Proof.Machine
end

