-- ==== Sys2Proof/Machine/BitIO.lean ====
section
/-! DEFINITION. The bit writer, the bit reader and their commands (spec/40_bitio.md). -/

namespace Sys2Proof.Machine

/-! ## The writer (R131..R133) -/

/-- The first half of `writeBit(b)` (R131): b goes to the most significant unwritten position. -/
def State.appendBit (s : State) (b : Bool) : State :=
  { s with
    wacc := if b then s.wacc ||| (0x80#8 >>> s.wk.toNat) else s.wacc &&& ~~~(0x80#8 >>> s.wk.toNat)
    wk := s.wk + 1#4 }

/-- OutPush(WACC), after which the writer is empty (R131, R133): none where the core must hold. -/
def State.pushWacc (s : State) : Option State :=
  match s.outPush s.wacc with
  | none => none
  | some t => some { t with wacc := 0#8, wk := 0#4 }

/-- The second half of `writeBit(b)` (R131): a full byte goes out. -/
def State.flushFull (s : State) : Option State := if s.wk = 8#4 then s.pushWacc else some s

/-- How a run of the writer ends: all bits written, or held in OutPush with bits still to be written. -/
inductive WriteRes where
  | done (s : State)
  | held (todo : List Bool) (s : State)
  deriving DecidableEq, Repr

/-- `writeBits` (R132) of the bits given, first one first, from wherever the writer stands: a full byte that waits
for OUT space goes first. -/
def writeBits : List Bool → State → WriteRes
  | [], s =>
    match s.flushFull with
    | none => .held [] s
    | some t => .done t
  | b :: bs, s =>
    match s.flushFull with
    | none => .held (b :: bs) s
    | some t => writeBits bs (t.appendBit b)

/-- The padding `closeWriter()` returns (R133): p = 8 − WK, or 0 where no partial byte is held. -/
def State.padding (s : State) : Nat := if s.wk = 0#4 then 0 else 8 - s.wk.toNat

/-! ## The reader (R134, R135) -/

/-- How `readBit()` ends: held on an empty IN FIFO, at the end of the stream, or with a bit. -/
inductive BitRes where
  | empty
  | eos
  | bit (b : Bool) (s : State)
  deriving DecidableEq, Repr

/-- `readBit()` (R134). -/
def State.readBit (s : State) : BitRes :=
  if s.rk = 0#4 then
    match s.inFifo with
    | [] => .empty
    | .fin :: _ => .eos
    | .byte b :: rest => .bit (b.getLsbD 7) { s.popped rest with racc := b, rk := 7#4 }
  else .bit (s.racc.getLsbD (s.rk.toNat - 1)) { s with rk := s.rk - 1#4 }

/-- How a run of the reader ends; r is the number the k bits read so far form (R135). -/
inductive ReadRes where
  | held (r k : Nat) (s : State)
  | eos (r k : Nat) (s : State)
  | got (r : Nat) (s : State)
  deriving DecidableEq, Repr

/-- `readBits` (R135): `left` more bits after k bits that form r. -/
def readBits : (left r k : Nat) → State → ReadRes
  | 0, r, _, s => .got r s
  | left + 1, r, k, s =>
    match s.readBit with
    | .empty => .held r k s
    | .eos => .eos r k s
    | .bit b t => readBits left (2 * r + b.toNat) (k + 1) t

/-! ## The commands -/

/-- The bits WR_BITS still has to write: those of A at its start (R136). -/
def State.wrBitsTodo (s : State) (n : Byte) : List Bool :=
  match s.prog with
  | .writing todo => todo
  | _ => msbBits s.a.toNat n.toNat

/-- WR_BITS n (R136). -/
def execWrBits (n : Byte) (s : State) : Host.Outcome State Fault Refusal :=
  match writeBits (s.wrBitsTodo n) s with
  | .held todo t => .next (t.holdOut (.writing todo))
  | .done t => .next t.complete

/-- WR_FLUSH (R137, R133). A hold in its OutPush changes nothing, so it resumes from its start. -/
def execWrFlush (s : State) : Host.Outcome State Fault Refusal :=
  if s.wk = 0#4 then .next { s with pad := 0#3, result0 := 0#64, result1 := 0#64 }.complete
  else
    match s.pushWacc with
    | none => .next (s.holdOut .flushing)
    | some t =>
      .next { t with pad := BitVec.ofNat 3 s.padding, result0 := BitVec.ofNat 64 s.padding,
                     result1 := if s.padding = 0 then 0#64 else 1#64 }.complete

/-- The bits RD_BITS has read: none at its start (R138). -/
def State.rdBitsSoFar (s : State) : Nat × Nat :=
  match s.prog with
  | .reading r k => (r, k)
  | _ => (0, 0)

/-- RD_BITS n (R138). -/
def execRdBits (n : Byte) (s : State) : Host.Outcome State Fault Refusal :=
  match readBits (n.toNat - s.rdBitsSoFar.2) s.rdBitsSoFar.1 s.rdBitsSoFar.2 s with
  | .held r k t => .next (t.holdIn (.reading r k))
  | .eos r k t => .next ({ t with result0 := BitVec.ofNat 64 r, result1 := BitVec.ofNat 64 k }.raise .truncatedStream (BitVec.ofNat 64 k))
  | .got r t => .next { t with result0 := BitVec.ofNat 64 r, result1 := wordOf n }.complete

/-- RD_ALIGN (R139). -/
def execRdAlign (s : State) : Host.Outcome State Fault Refusal :=
  .next { s with result0 := s.rk.setWidth 64, rk := 0#4 }.complete

/-- The loop of RD_DRAIN (R140) over the tokens of the IN FIFO, d bytes dropped so far. -/
def drainLoop : List Token → Nat → State → State
  | [], d, s => (s.popped []).holdIn (.draining d)
  | .fin :: rest, d, s => { s.popped rest with result0 := countWord d }.complete
  | .byte _ :: rest, d, s => drainLoop rest (d + 1) s

/-- RD_DRAIN (R140): RESULT1 and RK are written at its start only. -/
def execRdDrain (s : State) : Host.Outcome State Fault Refusal :=
  match s.prog with
  | .draining d => .next (drainLoop s.inFifo d s)
  | _ => .next (drainLoop s.inFifo 0 { s with result1 := s.rk.setWidth 64, rk := 0#4 })

end Sys2Proof.Machine
end

