-- ==== Sys2Proof/Machine/Codec.lean ====
section
/-! DEFINITION. The archive header, payload encoding and decoding (spec/44_codec.md). -/

namespace Sys2Proof.Machine

/-! ## Encoding side -/

/-- The header of a table (R210; 20_memory R94, R95): the count in 4 bytes, then 9 bytes an entry. -/
def headerBytes (count : Nat) (t : Vector Word 256) : List Byte :=
  leBytes count 4 ++ (present t).flatMap fun e => e.1 :: leBytes e.2.toNat 8

/-- Bytes as the bits `writeBits(b, 8)` writes of each (40_bitio R132). -/
def byteBits (bs : List Byte) : List Bool := bs.flatMap fun b => msbBits b.toNat 8

/-- The end of HDR_WRITE and of ENC_SYM: the bits are written, then RESULT0 and completion; or a hold. -/
def finishWrite (r : Word) : WriteRes → State
  | .held todo t => t.holdOut (.writing todo)
  | .done t => { t with result0 := r }.complete

/-- RESULT0 of HDR_WRITE: the header length 4 + 9·SYMCNT (R210). -/
def State.headerLength (s : State) : Word := BitVec.ofNat 64 (4 + 9 * s.symCnt.toNat)

/-- HDR_WRITE (R210). -/
def execHdrWrite (s : State) : Host.Outcome State Fault Refusal :=
  match s.prog with
  | .writing todo => .next (finishWrite s.headerLength (writeBits todo s))
  | _ =>
    if s.symCnt = 0#9 then .next (s.raise .emptyTable 0#64)
    else .next (finishWrite s.headerLength (writeBits (byteBits (headerBytes s.symCnt.toNat s.freq)) s))

/-- ENC_SYM x (R211). -/
def execEncSym (x : Byte) (s : State) : Host.Outcome State Fault Refusal :=
  match s.prog with
  | .writing todo => .next (finishWrite (wordOf (s.codeAt x).len) (writeBits todo s))
  | _ =>
    if s.codesValid = false then .next (s.raise .noCodes 0#64)
    else if (s.codeAt x).len = 0#8 then .next (s.raise .symbolAbsent (wordOf x))
    else .next (finishWrite (wordOf (s.codeAt x).len) (writeBits (s.codeAt x).path s))

/-- The loop of ENC_STREAM (R212) over the tokens of the IN FIFO, n bytes encoded so far. -/
def encodeLoop : List Token → Nat → State → State
  | [], n, s => (s.popped []).holdIn (.encodePop n)
  | .fin :: rest, n, s => { s.popped rest with result0 := countWord n }.complete
  | .byte b :: rest, n, s =>
    if (s.codeAt b).len = 0#8 then { s.popped rest with result0 := countWord n }.raise .symbolAbsent (wordOf b)
    else
      match writeBits (s.codeAt b).path (s.popped rest) with
      | .held todo t => t.holdOut (.encodeBits n todo)
      | .done t => encodeLoop rest (n + 1) t

/-- ENC_STREAM (R212). -/
def execEncStream (s : State) : Host.Outcome State Fault Refusal :=
  match s.prog with
  | .encodePop n => .next (encodeLoop s.inFifo n s)
  | .encodeBits n todo =>
    match writeBits todo s with
    | .held todo' t => .next (t.holdOut (.encodeBits n todo'))
    | .done t => .next (encodeLoop t.inFifo (n + 1) t)
  | _ => if s.codesValid = false then .next (s.raise .noCodes 0#64) else .next (encodeLoop s.inFifo 0 s)

/-! ## HDR_READ (R213) -/

/-- HDR_READ at its start: no byte read. -/
def HdrPoint.start : HdrPoint := { entries := none, prev := none, got := [], used := 0, r := 0, k := 0 }

/-- How a run of `rdByte()` ends. -/
inductive BytesRes where
  | held (h : HdrPoint) (s : State)
  | eos (used : Nat) (s : State)
  | got (h : HdrPoint) (s : State)
  deriving DecidableEq, Repr

/-- `rdByte()` (R213), m times, each through `readBits(8)`. -/
def readBytes : Nat → HdrPoint → State → BytesRes
  | 0, h, s => .got h s
  | m + 1, h, s =>
    match readBits (8 - h.k) h.r h.k s with
    | .held r k t => .held { h with r := r, k := k } t
    | .eos _ _ t => .eos h.used t
    | .got r t => readBytes m { h with got := h.got ++ [BitVec.ofNat 8 r], used := h.used + 1, r := 0, k := 0 } t

/-- A failing header: `clearTable()` and the error (R213). -/
def State.rejectHeader (s : State) (e : ErrKind) (used : Nat) : State := s.clearTable.raise e (BitVec.ofNat 64 used)

/-- The symbol of a whole entry: its first byte (20_memory R95). -/
def HdrPoint.sym (h : HdrPoint) : Byte := h.got.head?.getD 0

/-- The frequency of a whole entry: its other eight bytes (20_memory R95). -/
def HdrPoint.freq (h : HdrPoint) : Nat := ofLeBytes h.got.tail

/-- `s <= prev` of R213, prev being −1 before the first entry. -/
def HdrPoint.notAscending (h : HdrPoint) : Bool :=
  match h.prev with
  | none => false
  | some p => decide (h.sym.toNat ≤ p.toNat)

/-- The check of R213 on a whole entry. -/
def State.badEntry (s : State) (h : HdrPoint) : Bool :=
  h.notAscending || decide (h.freq = 0) || decide (2 ^ 64 ≤ s.total.toNat + h.freq)

/-- The entry loop of R213, m entries still to be read. -/
def readEntries : Nat → HdrPoint → State → State
  | 0, _, s => { s with result0 := s.symCnt.setWidth 64, result1 := s.headerLength }.complete
  | m + 1, h, s =>
    match readBytes (9 - h.got.length) h s with
    | .held h' t => t.holdIn (.header { h' with entries := some (m + 1) })
    | .eos used t => t.rejectHeader .corruptHeader used
    | .got h' t =>
      if t.badEntry h' then t.rejectHeader .corruptHeader h'.used
      else readEntries m { h' with prev := some h'.sym, got := [] } (t.loadEntry h'.sym (BitVec.ofNat 64 h'.freq))

/-- The count field of R213, then its entries. -/
def readHeader (h : HdrPoint) (s : State) : State :=
  match readBytes (4 - h.got.length) h s with
  | .held h' t => t.holdIn (.header h')
  | .eos used t => t.rejectHeader .corruptHeader used
  | .got h' t =>
    if ofLeBytes h'.got = 0 then t.rejectHeader .emptyArchive 4
    else if 256 < ofLeBytes h'.got then t.rejectHeader .corruptHeader 4
    else readEntries (ofLeBytes h'.got) { h' with got := [] } t

/-- HDR_READ (R213). -/
def execHdrRead (s : State) : Host.Outcome State Fault Refusal :=
  match s.prog with
  | .header h =>
    match h.entries with
    | none => .next (readHeader h s)
    | some m => .next (readEntries m h s)
  | _ => .next (readHeader HdrPoint.start s.clearTable)

/-! ## Decoding (R214..R216) -/

/-- How `decodeOne()` ends (R214): held in `readBit()`, `Err(E, info)` or `Sym(x)`, with the bits used. -/
inductive DecRes where
  | held (p : DecPoint) (s : State)
  | err (e : ErrKind) (info used : Nat) (s : State)
  | sym (x : Byte) (used : Nat) (s : State)
  deriving DecidableEq, Repr

/-- The child a bit names (R214): 0 left, 1 right. -/
def Node.child (n : Node) (b : Bool) : BitVec 9 := if b then n.right else n.left

/-- BUDGET after a bit is taken, `left` bits still to be used (R214). -/
def State.spend (s : State) (left : Nat) : State := { s with budget := BitVec.ofNat 64 left }

/-- `decodeOne()` (R214) from a point of its walk, `budget` being BUDGET as a number. At a root that is a leaf the
one bit must be 0; everywhere else the walk follows the bit until it meets a leaf. -/
def decodeOne : (budget : Nat) → DecPoint → State → DecRes
  | 0, p, s => .err .budgetExhausted p.k p.used s
  | budget + 1, p, s =>
    match s.readBit with
    | .empty => .held p s
    | .eos => .err .truncatedStream p.used p.used s
    | .bit b t =>
      match (s.nodeAt p.i).kind with
      | .leaf =>
        if b then .err .invalidCode 1 (p.used + 1) (t.spend budget)
        else .sym (s.nodeAt p.i).sym (p.used + 1) (t.spend budget)
      | .internal =>
        match (s.nodeAt ((s.nodeAt p.i).child b)).kind with
        | .leaf => .sym (s.nodeAt ((s.nodeAt p.i).child b)).sym (p.used + 1) (t.spend budget)
        | .internal =>
          decodeOne budget { i := (s.nodeAt p.i).child b, k := p.k + 1, used := p.used + 1 } (t.spend budget)

/-- The walk at the root, `used` bits consumed by the command before it (R214). -/
def State.rootPoint (s : State) (used : Nat) : DecPoint := { i := s.root, k := 0, used := used }

/-- The end of DEC_SYM (R215). -/
def finishDecSym : DecRes → State
  | .held p t => t.holdIn (.decSym p)
  | .err e info _ t => t.raise e (BitVec.ofNat 64 info)
  | .sym x used t => { t with result0 := wordOf x, result1 := BitVec.ofNat 64 used }.complete

/-- DEC_SYM (R215). -/
def execDecSym (s : State) : Host.Outcome State Fault Refusal :=
  match s.prog with
  | .decSym p => .next (finishDecSym (decodeOne s.budget.toNat p s))
  | _ =>
    if s.treeValid = false then .next (s.raise .noTree 0#64)
    else .next (finishDecSym (decodeOne s.budget.toNat (s.rootPoint 0) s))

/-- The normal end of DEC_STREAM (R216). -/
def State.finishDecStream (s : State) (count used : Nat) : State :=
  { s with result0 := BitVec.ofNat 64 count, result1 := BitVec.ofNat 64 used }.complete

/-- The loop of DEC_STREAM (R216) from a point of a walk, `count` symbols pushed. Every symbol takes at least one
bit of BUDGET, so BUDGET + 1 turns are more than it makes. -/
def decodeLoop : (turns count : Nat) → DecPoint → State → State
  | 0, count, p, s => s.finishDecStream count p.used
  | turns + 1, count, p, s =>
    match decodeOne s.budget.toNat p s with
    | .held p' t => t.holdIn (.decBits count p')
    | .err e info used t =>
      { t with result0 := BitVec.ofNat 64 count, result1 := BitVec.ofNat 64 used }.raise e (BitVec.ofNat 64 info)
    | .sym x used t =>
      match t.outPush x with
      | none => t.holdOut (.decPush count used x)
      | some u =>
        if u.budget = 0#64 then u.finishDecStream (count + 1) used
        else decodeLoop turns (count + 1) (u.rootPoint used) u

/-- DEC_STREAM at its loop head (R216): `while BUDGET > 0`. -/
def State.decodeFrom (s : State) (count used : Nat) : State :=
  if s.budget = 0#64 then s.finishDecStream count used
  else decodeLoop (s.budget.toNat + 1) count (s.rootPoint used) s

/-- DEC_STREAM (R216). -/
def execDecStream (s : State) : Host.Outcome State Fault Refusal :=
  match s.prog with
  | .decBits count p => .next (decodeLoop (s.budget.toNat + 1) count p s)
  | .decPush count used x =>
    match s.outPush x with
    | none => .next (s.holdOut (.decPush count used x))
    | some t => .next (t.decodeFrom (count + 1) used)
  | _ => if s.treeValid = false then .next (s.raise .noTree 0#64) else .next (s.decodeFrom 0 0)

end Sys2Proof.Machine
end

