-- ==== Sys2Proof/Machine/Codegen.lean ====
section
/-! DEFINITION. The code generator and the code table (spec/43_codegen.md). -/

namespace Sys2Proof.Machine

/-- The depth-first traversal of R193 from a stack of (index, path), left subtree first: the leaves met, with the
path to each. `n` bounds the nodes visited; a tree has at most 511 (42_tree R172). -/
def walkTree (s : State) : Nat → List (BitVec 9 × List Bool) → List (Byte × List Bool)
  | 0, _ => []
  | _ + 1, [] => []
  | n + 1, (i, p) :: stack =>
    match (s.nodeAt i).kind with
    | .leaf => ((s.nodeAt i).sym, p) :: walkTree s n stack
    | .internal => walkTree s n (((s.nodeAt i).left, p ++ [false]) :: ((s.nodeAt i).right, p ++ [true]) :: stack)

/-- The codes of the tree at ROOT (R190, R193); a tree of one leaf has the code "0" (R191). -/
def State.treeCodes (s : State) : List (Byte × List Bool) :=
  match (s.nodeAt s.root).kind with
  | .leaf => [((s.nodeAt s.root).sym, [false])]
  | .internal => walkTree s 511 [(s.root, [])]

/-- The code table that holds these codes, every other symbol absent (R192, R193). -/
def codeTable (cs : List (Byte × List Bool)) : Vector Code 256 :=
  cs.foldl (fun t e => t.set e.1.toNat (Code.ofPath e.2) e.1.isLt) (Vector.replicate 256 Code.zero)

/-- maxlen of R193. -/
def longestCode (cs : List (Byte × List Bool)) : Nat := cs.foldl (fun m e => max m e.2.length) 0

/-- CODE_GEN (R193). -/
def execCodeGen (s : State) : Host.Outcome State Fault Refusal :=
  if s.treeValid = false then .next (s.raise .noTree 0#64)
  else
    .next { s with
      code := codeTable s.treeCodes
      codesValid := true
      result0 := BitVec.ofNat 64 (longestCode s.treeCodes)
      result1 := s.symCnt.setWidth 64 }.complete

/-- CODE_LOOKUP x, w (R194): the 64-bit word w of the code, bit 255 reading 0. -/
def execCodeLookup (x w : Byte) (s : State) : Host.Outcome State Fault Refusal :=
  if s.codesValid = false then .next (s.raise .noCodes 0#64)
  else
    .next { s with
      result0 := ((s.codeAt x).bits.setWidth 256).extractLsb' (64 * w.toNat) 64
      result1 := wordOf (s.codeAt x).len }.complete

end Sys2Proof.Machine
end

