-- ==== Sys2Proof/Machine/Control.lean ====
section
/-! DEFINITION. The control command (spec/45_control.md). -/

namespace Sys2Proof.Machine

/-- NOP (R240): completes, and does nothing else. -/
def execNop (s : State) : Host.Outcome State Fault Refusal := .next s.complete

end Sys2Proof.Machine
end

