-- ==== Sys2Proof/Machine/Frequency.lean ====
section
/-! DEFINITION. The frequency commands (spec/41_frequency.md). -/

namespace Sys2Proof.Machine

/-- FREQ_CLEAR (R152). -/
def execFreqClear (s : State) : Host.Outcome State Fault Refusal := .next s.clearTable.complete

/-- FREQ_ACCUM x (R153, R151). -/
def execFreqAccum (x : Byte) (s : State) : Host.Outcome State Fault Refusal :=
  if s.totalFull then .next (s.raise .countOverflow (wordOf x))
  else .next { s.accumulate x with result0 := (s.accumulate x).freqAt x }.complete

/-- The loop of FREQ_ACCUM_STREAM (R154) over the tokens of the IN FIFO, n bytes counted so far. -/
def countLoop : List Token → Nat → State → State
  | [], n, s => (s.popped []).holdIn (.counting n)
  | .fin :: rest, n, s =>
    if n = 0 then { s.popped rest with result0 := BitVec.ofNat 64 n }.raise .emptyInput 0#64
    else { s.popped rest with result0 := BitVec.ofNat 64 n }.complete
  | .byte b :: rest, n, s =>
    if s.totalFull then { s.popped rest with result0 := BitVec.ofNat 64 n }.raise .countOverflow (wordOf b)
    else countLoop rest (n + 1) (s.accumulate b)

/-- The bytes FREQ_ACCUM_STREAM has counted: none at its start (R154). -/
def State.counted (s : State) : Nat :=
  match s.prog with
  | .counting n => n
  | _ => 0

/-- FREQ_ACCUM_STREAM (R154). -/
def execFreqAccumStream (s : State) : Host.Outcome State Fault Refusal :=
  .next (countLoop s.inFifo s.counted s)

/-- The TOTAL after FREQ[x] <- A, as a number (R155). -/
def State.totalAfterLoad (s : State) (x : Byte) : Nat := s.total.toNat - (s.freqAt x).toNat + s.a.toNat

/-- The SYMCNT after FREQ[x] <- A (R155). -/
def State.symCntAfterLoad (s : State) (x : Byte) : BitVec 9 :=
  if s.freqAt x = 0#64 ∧ s.a ≠ 0#64 then s.symCnt + 1#9
  else if s.freqAt x ≠ 0#64 ∧ s.a = 0#64 then s.symCnt - 1#9
  else s.symCnt

/-- FREQ_LOAD x (R155). -/
def execFreqLoad (x : Byte) (s : State) : Host.Outcome State Fault Refusal :=
  if 2 ^ 64 ≤ s.totalAfterLoad x then .next (s.raise .countOverflow (wordOf x))
  else
    .next { s with
      freq := setFreq s.freq x s.a
      total := BitVec.ofNat 64 (s.totalAfterLoad x)
      symCnt := s.symCntAfterLoad x
      treeValid := false
      codesValid := false
      result0 := s.freqAt x }.complete

/-- FREQ_READ x (R156). -/
def execFreqRead (x : Byte) (s : State) : Host.Outcome State Fault Refusal :=
  .next { s with result0 := s.freqAt x }.complete

end Sys2Proof.Machine
end

