-- ==== Sys2Proof/Machine/Tree.lean ====
section
/-! DEFINITION. The Huffman tree builder (spec/42_tree.md). -/

namespace Sys2Proof.Machine

/-- The leaf of a present symbol (R171). -/
def leafNode (e : Byte × Word) : Node := { kind := .leaf, sym := e.1, f := e.2, left := 0#9, right := 0#9 }

/-- The internal node over `a` (left) and `b` (right) with frequency f (R175, R177). -/
def mergedNode (f : Word) (a b : Nat) : Node :=
  { kind := .internal, sym := 0#8, f := f, left := BitVec.ofNat 9 a, right := BitVec.ofNat 9 b }

/-- An element of the priority queue with its key (frequency, arena index) (R174). -/
structure Key where
  f : Word
  idx : Nat
  deriving DecidableEq, Repr

/-- Key order (R174): lower frequency first, then lower arena index. -/
def Key.before (a b : Key) : Bool := decide (a.f.toNat < b.f.toNat ∨ (a.f = b.f ∧ a.idx < b.idx))

/-- The element with the least key, and the queue without it (R173, R174). -/
def extractMin : List Key → Option (Key × List Key)
  | [] => none
  | k :: ks =>
    match extractMin ks with
    | none => some (k, [])
    | some (m, rest) => if k.before m then some (k, ks) else some (m, k :: rest)

/-- The merge loop of R177, for at most `n` merges: the arena grows at its end, and the queue shrinks by one a merge. -/
def mergeLoop : Nat → List Node → List Key → List Node × List Key
  | 0, arena, pq => (arena, pq)
  | n + 1, arena, pq =>
    match extractMin pq with
    | none => (arena, pq)
    | some (a, pq1) =>
      match extractMin pq1 with
      | none => (arena, pq)
      | some (b, pq2) =>
        mergeLoop n (arena ++ [mergedNode (a.f + b.f) a.idx b.idx])
          ({ f := a.f + b.f, idx := arena.length } :: pq2)

/-- The leaves of a table, at arena indices 0..N−1 (R171). -/
def leaves (t : Vector Word 256) : List Node := (present t).map leafNode

/-- The priority queue at its start: the leaves' indices with their keys (R173). -/
def initialQueue (ls : List Node) : List Key := ls.zipIdx.map fun e => { f := e.1.f, idx := e.2 }

/-- The tree of a table (R170..R177): the arena from index 0 on, and what is left of the queue, the root alone. -/
def buildTree (t : Vector Word 256) : List Node × List Key :=
  mergeLoop ((leaves t).length - 1) (leaves t) (initialQueue (leaves t))

/-- The arena index of the root (R177): the only element of the queue. -/
def rootOf (pq : List Key) : Nat := (pq.head?.map Key.idx).getD 0

/-- NODE with its first entries written; the entries from NODECNT on keep what they held (R177). -/
def writeArena (old : Vector Node 511) (arena : List Node) : Vector Node 511 :=
  Vector.ofFn fun i => (arena[i.val]?).getD old[i]

/-- TREE_BUILD (R177). -/
def execTreeBuild (s : State) : Host.Outcome State Fault Refusal :=
  if s.symCnt = 0#9 then .next (s.raise .emptyTable 0#64)
  else
    .next { s with
      node := writeArena s.node (buildTree s.freq).1
      root := BitVec.ofNat 9 (rootOf (buildTree s.freq).2)
      nodeCnt := BitVec.ofNat 10 (buildTree s.freq).1.length
      codesValid := false
      treeValid := true
      result0 := BitVec.ofNat 64 (rootOf (buildTree s.freq).2)
      result1 := BitVec.ofNat 64 (buildTree s.freq).1.length }.complete

/-- The kind of a node as a bit (10_state R41). -/
def NodeKind.isInternal : NodeKind → Bool
  | .leaf => false
  | .internal => true

/-- RESULT1 of TREE_NODE (R178): kind, is-root, sym, left, right. -/
def nodeWord (n : Node) (isRoot : Bool) : Word :=
  flagBit n.kind.isInternal 0 ||| flagBit isRoot 1 ||| fieldBits n.sym 8 ||| fieldBits n.left 16 ||| fieldBits n.right 32

/-- TREE_NODE (R178): the index A is compared in full 64 bits. -/
def execTreeNode (s : State) : Host.Outcome State Fault Refusal :=
  if s.treeValid = false then .next (s.raise .noTree 0#64)
  else if s.nodeCnt.toNat ≤ s.a.toNat then .next (s.raise .badIndex s.a)
  else
    .next { s with
      result0 := (s.nodeAt (s.a.setWidth 9)).f
      result1 := nodeWord (s.nodeAt (s.a.setWidth 9)) (decide (s.a = s.root.setWidth 64)) }.complete

end Sys2Proof.Machine
end

