-- ==== Sys2Proof/Machine/Dispatch.lean ====
section
/-! DEFINITION. One arm per command: a CORE step of the command runs its rule from the progress point to the next
hold or to completion (spec/20_memory.md R86). -/

namespace Sys2Proof.Machine

def exec (i : Instr) (s : State) : Host.Outcome State Fault Refusal :=
  match i with
  -- 45_control
  | .nop => Sys2Proof.Machine.execNop s
  -- 41_frequency
  | .freqClear => Sys2Proof.Machine.execFreqClear s
  | .freqAccum x => Sys2Proof.Machine.execFreqAccum x s
  | .freqAccumStream => Sys2Proof.Machine.execFreqAccumStream s
  | .freqLoad x => Sys2Proof.Machine.execFreqLoad x s
  | .freqRead x => Sys2Proof.Machine.execFreqRead x s
  -- 40_bitio
  | .wrBits n => Sys2Proof.Machine.execWrBits n s
  | .wrFlush => Sys2Proof.Machine.execWrFlush s
  | .rdBits n => Sys2Proof.Machine.execRdBits n s
  | .rdAlign => Sys2Proof.Machine.execRdAlign s
  | .rdDrain => Sys2Proof.Machine.execRdDrain s
  -- 42_tree
  | .treeBuild => Sys2Proof.Machine.execTreeBuild s
  | .treeNode => Sys2Proof.Machine.execTreeNode s
  -- 43_codegen
  | .codeGen => Sys2Proof.Machine.execCodeGen s
  | .codeLookup x w => Sys2Proof.Machine.execCodeLookup x w s
  -- 44_codec
  | .hdrWrite => Sys2Proof.Machine.execHdrWrite s
  | .encSym x => Sys2Proof.Machine.execEncSym x s
  | .encStream => Sys2Proof.Machine.execEncStream s
  | .hdrRead => Sys2Proof.Machine.execHdrRead s
  | .decSym => Sys2Proof.Machine.execDecSym s
  | .decStream => Sys2Proof.Machine.execDecStream s

end Sys2Proof.Machine
end

