-- ==== Sys2Proof/Machine/Engine.lean ====
section
/-! DEFINITION. Who steps: the CORE's turn with its decoding (spec/30_encoding.md R116, 20_memory.md R86), the HOST's
accesses, and the reset input. -/

namespace Sys2Proof.Machine

/-- A CORE turn. Where the core has no step (R86: no command in progress, or held) nothing happens; an illegal
command word raises ILLEGAL_CMD with the word (30_encoding R116); any other runs its rule. C does not change while
the command is in progress (20_memory R91), so decoding it again at a resumption gives the same command. -/
def State.coreTurn (s : State) : Host.Outcome State Fault Refusal :=
  if s.coreEnabled then
    match decode s.c with
    | .error _ => .next (s.raise .illegalCmd s.c)
    | .ok i => exec i s
  else .next s

/-- The next step: the first item of the agenda, or, where it is empty, the CORE's turn (70_reset R306). -/
def State.takeTurn (s : State) : Host.Outcome State Fault Refusal :=
  match s.agenda with
  | [] => s.coreTurn
  | .core :: rest => { s with agenda := rest }.coreTurn
  | .read addr width :: rest => { s with agenda := rest }.hostRead addr width
  | .write addr width v :: rest => { s with agenda := rest }.hostWrite addr width v
  | .rstN :: rest => .next { s with agenda := rest }.resetCore

/-- The command word w issued, and the CORE's turn next: where a step fetches its command (log entry 8). -/
def State.withCommand (s : State) (w : Word) : State :=
  { s.latch w with waitIn := false, waitOut := false, agenda := .core :: s.agenda }

end Sys2Proof.Machine
end

