-- ==== Sys2Proof/Machine/Step.lean ====
section
/-! DEFINITION. One step of the machine, and a command placed where the next step runs it. -/

namespace Sys2Proof.Machine

/-- One step of HOST or CORE (spec/00_scope.md R7, 20_memory.md R87). -/
def step (s : State) : Host.Outcome State Fault Refusal := s.takeTurn

/-- s with the command of `nbits` bits `w` issued (30_encoding R110) and the CORE's turn next, so that the next step
runs it. It stands for the HOST's write to CMD (log entry 8). -/
def State.withFetchWord (s : State) (nbits w : Nat) : State := s.withCommand (BitVec.ofNat 64 (w % 2 ^ nbits))

end Sys2Proof.Machine
end

