-- ==== Sys2Proof/Safety.lean ====
section
/-! DEFINITION. The terms claims are made in: the bit streams at the ports (spec/20_memory.md R96, 40_bitio R131,
R134) and the invariants of a sound run (10_state.md R60). -/

namespace Sys2Proof.Machine

/-! ## Bit streams -/

/-- The bits the writer holds: the WK leading bits of WACC (10_state R54). -/
def State.writerBits (s : State) : List Bool := (msbBits s.wacc.toNat 8).take s.wk.toNat

/-- The output bit stream not yet drained: the bytes of the OUT FIFO, then the writer's bits. -/
def State.sentBits (s : State) : List Bool := byteBits s.outFifo ++ s.writerBits

/-- The bits the reader holds: the RK low bits of RACC, the highest first (10_state R55). -/
def State.readerBits (s : State) : List Bool := msbBits s.racc.toNat s.rk.toNat

/-- The bits of the byte tokens up to the first End. -/
def tokenBits : List Token → List Bool
  | .byte b :: ts => msbBits b.toNat 8 ++ tokenBits ts
  | .fin :: _ => []
  | [] => []

/-- The bits that `readBit()` will still return from what has been supplied (40_bitio R134). -/
def State.pendingBits (s : State) : List Bool := s.readerBits ++ tokenBits s.inFifo

/-- The OUT FIFO has room for every byte that fills up when `bits` more bits are written (20_memory R84). -/
def State.HasRoom (s : State) (bits : Nat) : Prop :=
  (s.wk.toNat + bits) / 8 + s.outFifo.length ≤ s.params.outDepth

/-- The codes of a byte sequence, one after the other (20_memory R96). -/
def State.codeBits (s : State) (bs : List Byte) : List Bool := bs.flatMap fun b => (s.codeAt b).path

/-- Tokens that carry these bytes. -/
def byteTokens (bs : List Byte) : List Token := bs.map Token.byte

/-- From s to t the reader took bytes and no End, and a byte only where it needed a bit of it: at most 7 bits are left in
RACC, or none was taken (20_memory R85, 40_bitio R134). -/
def State.TakesBytes (s t : State) : Prop :=
  ∃ taken, s.inFifo = byteTokens taken ++ t.inFifo ∧ (t.rk.toNat ≤ 7 ∨ (taken = [] ∧ t.rk.toNat ≤ s.rk.toNat))

/-- The reader came from s to stand before `rest`. With the bits read this fixes RK and the tokens taken. -/
def State.ReadsUpTo (s : State) (rest : List Bool) (t : State) : Prop := t.pendingBits = rest ∧ s.TakesBytes t

/-! ## The frequency table (10_state R60 V1, V2) -/

/-- Σ_s FREQ[s]. -/
def tableSum (t : Vector Word 256) : Nat := (t.toList.map BitVec.toNat).sum

/-- V1 and V2: SYMCNT counts the present symbols, TOTAL is the sum. -/
def State.TableOk (s : State) : Prop :=
  s.symCnt.toNat = (present s.freq).length ∧ s.total.toNat = tableSum s.freq

/-! ## Headers (20_memory R94, R95; 44_codec R213) -/

/-- The bytes of header entries (20_memory R95). -/
def entryBytes (es : List (Byte × Word)) : List Byte := es.flatMap fun e => e.1 :: leBytes e.2.toNat 8

/-- Entries that HDR_READ accepts one after the other: ascending symbols, no frequency 0, a sum within 64 bits. -/
def GoodEntries (es : List (Byte × Word)) : Prop :=
  es.Pairwise (fun a b => a.1.toNat < b.1.toNat) ∧ (∀ e ∈ es, e.2 ≠ 0#64) ∧ (es.map fun e => e.2.toNat).sum < 2 ^ 64

/-- Header bytes after which HDR_READ still wants more: the count field is not whole, or it is good, and so are the
entries so far, and fewer than it says are whole. -/
def HeaderOpen (bs : List Byte) : Prop :=
  bs.length < 4 ∨ ∃ (cnt : Nat) (es : List (Byte × Word)) (got : List Byte),
    bs = leBytes cnt 4 ++ entryBytes es ++ got ∧ GoodEntries es ∧ es.length < cnt ∧ cnt ≤ 256 ∧ got.length < 9

/-- HDR_READ has read `bits`, from its first bit on: nothing at its start; at a hold whole bytes `bs` and part of one more,
with the entries among them in FREQ. -/
def State.HeaderRead (s : State) (bits : List Bool) : Prop :=
  (s.prog = .start ∧ bits = []) ∨
    ∃ (h : HdrPoint) (bs : List Byte),
      s.prog = .header h ∧ bits = byteBits bs ++ msbBits h.r h.k ∧ h.k < 8 ∧ h.r < 2 ^ h.k ∧ h.used = bs.length ∧
        s.TableOk ∧ s.treeValid = false ∧ s.codesValid = false ∧
        h.prev = (present s.freq).getLast?.map Prod.fst ∧
        ((h.entries = none ∧ present s.freq = [] ∧ h.got = bs ∧ bs.length < 4) ∨
          ∃ cnt : Nat, h.entries = some (cnt - (present s.freq).length) ∧ (present s.freq).length < cnt ∧ cnt ≤ 256 ∧
            bs = leBytes cnt 4 ++ entryBytes (present s.freq) ++ h.got ∧ h.got.length < 9)

/-- A held HDR_READ has read part of a header. -/
def State.HdrOk (s : State) : Prop := ∀ h, s.prog = .header h → ∃ bits, s.HeaderRead bits

/-! ## Tree and codes (10_state R60 V3, V4) -/

/-- V3: a valid tree is what TREE_BUILD makes of the table. -/
def State.TreeOk (s : State) : Prop :=
  s.treeValid = true →
    s.symCnt ≠ 0#9 ∧ s.nodeCnt.toNat = 2 * s.symCnt.toNat - 1 ∧
      (∀ i : Nat, i < s.nodeCnt.toNat → s.node[i]? = (buildTree s.freq).1[i]?) ∧
      s.root.toNat = rootOf (buildTree s.freq).2

/-- V4: valid codes come with a valid tree and are what CODE_GEN makes of it. -/
def State.CodesOk (s : State) : Prop :=
  s.codesValid = true → s.treeValid = true ∧ s.code = codeTable s.treeCodes

/-- The node a bit string leads to from node i: the walk of 44_codec R214, and the path of 43_codegen R190. -/
def State.follow (s : State) : BitVec 9 → List Bool → BitVec 9
  | i, [] => i
  | i, b :: bs => s.follow ((s.nodeAt i).child b) bs

/-- Arena entry j still waits in the queue when entry i is made: it stands before i, and no internal node made before
i has it as a child (42_tree R173); the internal nodes are the entries from n on. -/
def State.Waiting (s : State) (n : Nat) (i j : BitVec 9) : Prop :=
  j.toNat < i.toNat ∧
    ∀ k : BitVec 9, n ≤ k.toNat → k.toNat < i.toNat → (s.nodeAt k).left ≠ j ∧ (s.nodeAt k).right ≠ j

/-- key(i) ≤ key(j): lower frequency first, among equal frequencies the lower arena index (42_tree R174). -/
def State.KeyLe (s : State) (i j : BitVec 9) : Prop :=
  (s.nodeAt i).f.toNat < (s.nodeAt j).f.toNat ∨ ((s.nodeAt i).f = (s.nodeAt j).f ∧ i.toNat ≤ j.toNat)

/-- c is the rest of a walk from node i to the leaf that holds x: the path to it, through internal nodes (44_codec R214);
or "0" where node i is itself the leaf (43_codegen R191). -/
def State.WalkTo (s : State) (i : BitVec 9) (x : Byte) (c : List Bool) : Prop :=
  match (s.nodeAt i).kind with
  | .leaf => (s.nodeAt i).sym = x ∧ c = [false]
  | .internal =>
    (s.nodeAt (s.follow i c)).kind = .leaf ∧ (s.nodeAt (s.follow i c)).sym = x ∧
      ∀ q, q <+: c → q ≠ c → (s.nodeAt (s.follow i q)).kind = .internal

/-- c is the code of symbol x: the walk from ROOT to its leaf (43_codegen R190, R191). -/
def State.IsCode (s : State) (x : Byte) (c : List Bool) : Prop := s.WalkTo s.root x c

/-- A walk from node i is not over after the bits q: there are none, or every node met is internal (44_codec R214). -/
def State.WalkOpen (s : State) (i : BitVec 9) (q : List Bool) : Prop :=
  q = [] ∨ ∀ q', q' <+: q → (s.nodeAt (s.follow i q')).kind = .internal

/-! ## Where the stream commands stand (44_codec R212, R215, R216) -/

/-- ENC_STREAM stands where, once the bits `todo` are written, n bytes are encoded: at its start, between two bytes, or
inside the code of one. -/
def State.EncStreamAt (s : State) (n : Nat) (todo : List Bool) : Prop :=
  (s.prog = .start ∧ s.codesValid = true ∧ n = 0 ∧ todo = []) ∨ (s.prog = .encodePop n ∧ todo = []) ∨
    ∃ m, s.prog = .encodeBits m todo ∧ n = m + 1

/-- DEC_SYM stands at point p of its walk: at its start, or inside the code. -/
def State.DecSymAt (s : State) (p : DecPoint) : Prop :=
  (s.prog = .start ∧ s.treeValid = true ∧ p = s.rootPoint 0) ∨ s.prog = .decSym p

/-- DEC_STREAM, with n symbols pushed and `used` bits consumed, comes to the head of its loop by taking `bits` and pushing
`out`: from its start, from inside the code of a symbol, or from before the push of one. -/
def State.DecStreamTo (s : State) (n used : Nat) (out : List Byte) (bits : List Bool) : Prop :=
  ∃ (first : List Byte) (c : List Bool) (cs : List (Byte × List Bool)),
    out = first ++ cs.map Prod.fst ∧ bits = c ++ cs.flatMap Prod.snd ∧ (∀ e ∈ cs, s.IsCode e.1 e.2) ∧
      ((s.prog = .start ∧ s.treeValid = true ∧ n = 0 ∧ used = 0 ∧ first = [] ∧ c = []) ∨
        (∃ i k x, s.prog = .decBits n { i := i, k := k, used := used } ∧ s.WalkTo i x c ∧ first = [x]) ∨
        ∃ x, s.prog = .decPush n used x ∧ first = [x] ∧ c = [])

/-- DEC_STREAM, with n symbols pushed, comes to point p of a walk by taking `bits` and pushing `out`. -/
def State.DecStreamAt (s : State) (n : Nat) (out : List Byte) (bits : List Bool) (p : DecPoint) : Prop :=
  (∃ used, s.DecStreamTo n used out bits ∧ p = s.rootPoint (used + bits.length)) ∨
    (s.prog = .decBits n p ∧ out = [] ∧ bits = [])

/-! ## Ports, status and accumulators (10_state R23..R32, R54..R56, R60 V5, V6) -/

/-- The FIFOs are within their depths (R56). -/
def State.FifosOk (s : State) : Prop :=
  s.inFifo.length ≤ s.params.inDepth ∧ s.outFifo.length ≤ s.params.outDepth

/-- BUSY says whether a command is in progress (R23, R58); a busy core has no error and no completion pending
(30_encoding R110); without an error there is no code or detail (V6); a held core is held for a reason (R30, R31). -/
def State.StatusOk (s : State) : Prop :=
  (s.busy = false ↔ s.prog = .none) ∧
    (s.busy = true → s.err = false ∧ s.done = false) ∧
    (s.err = false → s.errCode = 0#8 ∧ s.errInfo = 0#64) ∧
    (s.waitIn = true → s.busy = true ∧ s.inFifo = []) ∧
    (s.waitOut = true → s.busy = true ∧ s.outFull = true) ∧
    ¬ (s.waitIn = true ∧ s.waitOut = true)

/-- The hold points of a command (40_bitio to 45_control). -/
def progFits : Instr → Prog → Bool
  | _, .none => true
  | _, .start => true
  | .wrBits _, .writing _ => true
  | .hdrWrite, .writing _ => true
  | .encSym _, .writing _ => true
  | .wrFlush, .flushing => true
  | .rdBits _, .reading _ _ => true
  | .rdDrain, .draining _ => true
  | .freqAccumStream, .counting _ => true
  | .encStream, .encodePop _ => true
  | .encStream, .encodeBits _ _ => true
  | .hdrRead, .header _ => true
  | .decSym, .decSym _ => true
  | .decStream, .decBits _ _ => true
  | .decStream, .decPush _ _ _ => true
  | _, _ => false

/-- The progress point is one of the latched command's own; an illegal word has none but its start (R58). -/
def State.CommandOk (s : State) : Prop :=
  match decode s.c with
  | .ok i => progFits i s.prog = true
  | .error _ => s.prog = .none ∨ s.prog = .start

/-- The error codes a command's own rule can raise (the column "raised by" of 60_exceptions R251). -/
def errorsOf : Instr → List Byte
  | .freqAccumStream => [0x02#8, 0x06#8]
  | .treeBuild | .hdrWrite => [0x03#8]
  | .hdrRead => [0x04#8, 0x05#8]
  | .freqAccum _ | .freqLoad _ => [0x06#8]
  | .treeNode => [0x07#8, 0x0D#8]
  | .codeGen => [0x07#8]
  | .codeLookup _ _ => [0x08#8]
  | .encSym _ | .encStream => [0x08#8, 0x09#8]
  | .rdBits _ => [0x0A#8]
  | .decSym | .decStream => [0x07#8, 0x0A#8, 0x0B#8, 0x0C#8]
  | .nop | .freqClear | .freqRead _ | .wrBits _ | .wrFlush | .rdAlign | .rdDrain => []

/-- s with what every command's progress, completion and error write, taken from t (60_exceptions R252, R253;
20_memory R82, R84). -/
def State.withProgress (s t : State) : State :=
  { s with
    prog := t.prog, waitIn := t.waitIn, waitOut := t.waitOut, busy := t.busy, done := t.done
    err := t.err, errCode := t.errCode, errInfo := t.errInfo }

/-- The core stands inside `writeBits`. -/
def Prog.isWriting : Prog → Bool
  | .writing _ => true
  | .encodeBits _ _ => true
  | _ => false

/-- The unwritten bits of WACC are 0 (10_state R54). -/
def State.AccLow (s : State) : Prop := ∀ i : Nat, i + s.wk.toNat < 8 → s.wacc.getLsbD i = false

/-- V5, at every step: WK ≤ 7 but for a full byte that waits in OutPush, the unwritten bits of WACC are 0, RK ≤ 8. -/
def State.AccOk (s : State) : Prop :=
  s.wk.toNat ≤ 8 ∧ (s.wk.toNat = 8 → s.prog.isWriting = true) ∧
    s.AccLow ∧ s.rk.toNat ≤ 8

/-! ## The whole -/

/-- A sound state: every state a run from reset reaches is one. -/
structure State.Inv (s : State) : Prop where
  fifos : s.FifosOk
  status : s.StatusOk
  command : s.CommandOk
  acc : s.AccOk
  table : s.TableOk
  hdr : s.HdrOk
  tree : s.TreeOk
  codes : s.CodesOk

end Sys2Proof.Machine
end

