-- ==== Sys2Proof/Certificates/Slice0/Obligations.lean ====
section
/-! DEFINITION. The statements about the HAC, for the provers. `s.complete` and `s.raise` are what
`Obligations.CompletionEntries` says they are. -/

open Sys2Proof Sys2Proof.Machine

/-! ## Encoding -/

/-- Decoding the encoding of a well-formed command gives it back, every operand included (30_encoding R111..R115, R122). -/
def Obligations.DecodeEncodeRoundTrip : Prop :=
  ∀ i : Instr, i.wf = true → decode (encode i) = .ok i

/-- Every legal command word is the one encoding of its command (30_encoding R113). -/
def Obligations.LegalWordIsUniqueEncoding : Prop :=
  ∀ (w : Word) (i : Instr), decode w = .ok i → i.wf = true ∧ encode i = w

/-- The decode of 30_encoding R116, on the word's numbers: the illegal words, what they do, and that every other word
runs its command. -/
def Obligations.IllegalWordsRaise : Prop :=
  ∀ s : State, s.coreEnabled = true →
    let op := s.c.toNat % 256
    let sym := s.c.toNat / 256 % 256
    let cnt := s.c.toNat / 65536 % 256
    let rsv := s.c.toNat / 16777216
    let illegal : Prop :=
      op ∉ [0x00, 0x01, 0x02, 0x03, 0x04, 0x05, 0x10, 0x11, 0x12, 0x13, 0x14, 0x20, 0x21, 0x30, 0x31, 0x40, 0x41, 0x42,
          0x43, 0x44, 0x45] ∨
        rsv ≠ 0 ∨ (op ∉ [0x02, 0x04, 0x05, 0x31, 0x41] ∧ sym ≠ 0) ∨ (op ∉ [0x10, 0x12, 0x31] ∧ cnt ≠ 0) ∨
        (op ∈ [0x10, 0x12] ∧ 64 < cnt) ∨ (op = 0x31 ∧ 3 < cnt)
    (illegal →
      s.coreTurn = .next { s with
        errCode := 0x01#8, errInfo := s.c, err := true
        prog := .none, waitIn := false, waitOut := false, busy := false, done := true }) ∧
    (¬ illegal → ∃ i, (opcode i).toNat = op ∧ decode s.c = .ok i ∧ s.coreTurn = exec i s)

/-- The words 30_encoding R122 writes out, and one more of each family, its fields placed by R111 and R114: each is the
encoding of its command and decodes to it. -/
def Obligations.WordsOfTheSpecDecode : Prop :=
  (∀ e ∈ [(Instr.freqAccum 0x68#8, 0x0000000000006802#64), (.wrBits 8#8, 0x0000000000080010#64),
      (.codeLookup 0x20#8 3#8, 0x0000000000032031#64), (.treeBuild, 0x0000000000000020#64)],
    encode e.1 = e.2 ∧ decode e.2 = .ok e.1) ∧
  ∀ e ∈ [(Instr.nop, 0x0000000000000000#64), (.freqLoad 0x61#8, 0x0000000000006104#64),
      (.rdBits 64#8, 0x0000000000400012#64), (.treeNode, 0x0000000000000021#64), (.codeGen, 0x0000000000000030#64),
      (.encSym 0xFF#8, 0x000000000000FF41#64), (.decStream, 0x0000000000000045#64)],
    encode e.1 = e.2 ∧ decode e.2 = .ok e.1

/-! ## Steps -/

/-- A CORE turn with a legal command word in C runs that command; the agenda moves on (20_memory R86, 30_encoding R116). -/
def Obligations.StepRunsCommand : Prop :=
  ∀ (s : State) (i : Instr), s.coreEnabled = true → decode s.c = .ok i →
    (s.agenda = [] → step s = exec i s) ∧
    ∀ rest, s.agenda = .core :: rest → step s = exec i { s with agenda := rest }

/-- The command `withFetchWord` places is the one the next step runs, issued as 30_encoding R110 says (log entry 8: the
placing itself is the model's). -/
def Obligations.PlacedCommandRuns : Prop :=
  ∀ (s : State) (nbits w : Nat) (i : Instr), nbits ≤ 64 → w < 2 ^ nbits → decode (BitVec.ofNat 64 w) = .ok i →
    step (s.withFetchWord nbits w) = exec i { s with
      c := BitVec.ofNat 64 w, a := s.arg0, done := false, busy := true, prog := .start
      waitIn := false, waitOut := false }

/-- Where no command is in progress or the core is held, a CORE turn changes nothing (20_memory R82, R84, R86). -/
def Obligations.HeldCoreWaits : Prop :=
  ∀ s : State, s.busy = false ∨ s.waitIn = true ∨ s.waitOut = true →
    (s.agenda = [] → step s = .next s) ∧
    ∀ rest, s.agenda = .core :: rest → step s = .next { s with agenda := rest }

/-- Every command, on every state, runs to its completion or to a hold: on an empty IN FIFO or on a full OUT FIFO
(20_memory R86). -/
def Obligations.CommandEndsOrHolds : Prop :=
  ∀ (i : Instr) (s : State), ∃ t, exec i s = .next t ∧
    ((t.prog = .none ∧ t.busy = false ∧ t.done = true ∧ t.waitIn = false ∧ t.waitOut = false) ∨
      (t.prog ≠ .none ∧ t.prog ≠ .start ∧ t.busy = s.busy ∧ t.done = s.done ∧ t.waitIn = true ∧ t.inFifo = []) ∨
      (t.prog ≠ .none ∧ t.prog ≠ .start ∧ t.busy = s.busy ∧ t.done = s.done ∧ t.waitOut = true ∧
        t.params.outDepth ≤ t.outFifo.length))

/-- The model refuses exactly the accesses the aperture does not support (20_memory R73, R99); every other step
answers a next state. -/
def Obligations.UnsupportedAccessRefused : Prop :=
  ∀ s : State,
    (∀ addr width rest, s.agenda = .read addr width :: rest →
      ¬ (width = 64 ∧ addr % 8 = 0 ∧ s.params.base ≤ addr ∧ addr < s.params.base + 256) →
        step s = .refused (.unsupportedAccess addr width)) ∧
    (∀ addr width v rest, s.agenda = .write addr width v :: rest →
      ¬ (width = 64 ∧ addr % 8 = 0 ∧ s.params.base ≤ addr ∧ addr < s.params.base + 256) →
        step s = .refused (.unsupportedAccess addr width)) ∧
    ((∃ t, step s = .next t) ∨ ∃ addr width, step s = .refused (.unsupportedAccess addr width) ∧
      ¬ (width = 64 ∧ addr % 8 = 0 ∧ s.params.base ≤ addr ∧ addr < s.params.base + 256))

/-! ## Registers -/

/-- A write to CMD (30_encoding R110, 10_state R36): dropped with CMD_OVR while BUSY = 1 or ERR = 1; otherwise the word and
ARG0 are latched, and the CORE's next turn decodes the word. A read of CMD returns 0. -/
def Obligations.CmdWriteIssues : Prop :=
  ∀ (s : State) (w : Word) (rest : List Turn),
    (s.agenda = .write (s.params.base + 0x18) 64 w :: rest →
      (s.busy = true ∨ s.err = true → step s = .next { s with agenda := rest, cmdOvr := true }) ∧
      (s.busy = false → s.err = false → ∃ t, step s = .next t ∧
        t = { s with agenda := rest, c := w, a := s.arg0, done := false, busy := true, prog := .start } ∧
        (s.waitIn = false → s.waitOut = false →
          t.coreTurn = match decode w with
            | .ok i => exec i t
            | .error _ => .next (t.raise .illegalCmd w)))) ∧
    (s.agenda = .read (s.params.base + 0x18) 64 :: rest →
      step s = .next { s with agenda := rest, busReads := s.busReads ++ [0#64] })

/-- A write to STATUS clears exactly the bits 1..4 written as 1; bit 2 takes ERRCODE and ERRINFO with it, and nothing else
changes (10_state R24..R27, R35; 60_exceptions R256). -/
def Obligations.StatusWriteClears : Prop :=
  ∀ (s : State) (v : Word) (rest : List Turn), s.agenda = .write (s.params.base + 0x10) 64 v :: rest →
    step s = .next { s with
      agenda := rest
      done := s.done && !v.getLsbD 1
      err := s.err && !v.getLsbD 2
      errCode := if v.getLsbD 2 = true then 0#8 else s.errCode
      errInfo := if v.getLsbD 2 = true then 0#64 else s.errInfo
      cmdOvr := s.cmdOvr && !v.getLsbD 3
      inOvf := s.inOvf && !v.getLsbD 4 }

/-- CTRL and both resets (10_state R22; 70_reset R290, R291, R293): a write sets the two enables or resets, the reset
input resets, a read returns the enables. NODE and CODE, which R59 leaves unspecified (log entry 2), are left open; that
the agenda, the record of reads and the draws are kept is the model's own (log entries 3 and 4). -/
def Obligations.CtrlAndReset : Prop :=
  ∀ (s : State) (v : Word) (rest : List Turn),
    let resets : Prop := ∃ t, step s = .next t ∧
      t = { State.reset with
        params := s.params, agenda := rest, busReads := s.busReads, draws := s.draws, node := t.node, code := t.code }
    (s.agenda = .write (s.params.base + 0x08) 64 v :: rest →
      (v.getLsbD 8 = true → resets) ∧
      (v.getLsbD 8 = false → step s = .next { s with agenda := rest, ieDone := v.getLsbD 0, ieErr := v.getLsbD 1 })) ∧
    (s.agenda = .rstN :: rest → resets) ∧
    (s.agenda = .read (s.params.base + 0x08) 64 :: rest →
      step s = .next { s with
        agenda := rest, busReads := s.busReads ++ [BitVec.ofNat 64 (s.ieDone.toNat + 2 * s.ieErr.toNat)] })

/-- The state after reset (10_state R59). NODE and CODE, which the rule leaves unspecified, are not in it. -/
def Obligations.ResetValues : Prop :=
  let s := State.reset
  s.ieDone = false ∧ s.ieErr = false ∧ s.statusWord = 0#64 ∧ s.arg0 = 0#64 ∧ s.budget = 0#64 ∧ s.result0 = 0#64 ∧
    s.result1 = 0#64 ∧ s.errInfo = 0#64 ∧ s.symCnt = 0#9 ∧ s.total = 0#64 ∧ (∀ x : Byte, s.freqAt x = 0#64) ∧
    s.root = 0#9 ∧ s.nodeCnt = 0#10 ∧ s.c = 0#64 ∧ s.a = 0#64 ∧ s.wacc = 0#8 ∧ s.wk = 0#4 ∧ s.racc = 0#8 ∧
    s.rk = 0#4 ∧ s.inFifo = [] ∧ s.outFifo = [] ∧ s.prog = .none ∧ s.irq = false

/-- ARG0 is written whatever the core does and the latched A is not; BUDGET is written only while BUSY = 0 (10_state R37,
R38; 70_reset R297, R298). -/
def Obligations.OperandWrites : Prop :=
  ∀ (s : State) (v : Word) (rest : List Turn),
    (s.agenda = .write (s.params.base + 0x20) 64 v :: rest → step s = .next { s with agenda := rest, arg0 := v }) ∧
    (s.agenda = .write (s.params.base + 0x28) 64 v :: rest →
      step s = .next { s with agenda := rest, budget := if s.busy = true then s.budget else v })

/-- IN_DATA and IN_END (10_state R48, R49): the token goes to the tail, or is dropped with IN_OVF; reads return 0. That
the token ends a hold is log entry 6. -/
def Obligations.InPortWrites : Prop :=
  ∀ (s : State) (v : Word) (rest : List Turn),
    let pushed (t : Token) : State :=
      if s.inFifo.length < s.params.inDepth then { s with agenda := rest, inFifo := s.inFifo ++ [t], waitIn := false }
      else { s with agenda := rest, inOvf := true }
    (s.agenda = .write (s.params.base + 0x58) 64 v :: rest →
      step s = .next (pushed (.byte (BitVec.ofNat 8 v.toNat)))) ∧
    (s.agenda = .write (s.params.base + 0x60) 64 v :: rest → step s = .next (pushed .fin)) ∧
    (s.agenda = .read (s.params.base + 0x58) 64 :: rest ∨ s.agenda = .read (s.params.base + 0x60) 64 :: rest →
      step s = .next { s with agenda := rest, busReads := s.busReads ++ [0#64] })

/-- OUT_DATA (10_state R50): a read pops the head byte b and returns 0x100 | b, or returns 0 and changes nothing; a write
is ignored. That the room ends a hold is log entry 6. -/
def Obligations.OutDataRead : Prop :=
  ∀ (s : State) (v : Word) (rest : List Turn),
    (s.agenda = .read (s.params.base + 0x68) 64 :: rest →
      (s.outFifo = [] → step s = .next { s with agenda := rest, busReads := s.busReads ++ [0#64] }) ∧
      ∀ b bs, s.outFifo = b :: bs → step s = .next { s with
        agenda := rest, outFifo := bs, waitOut := false
        busReads := s.busReads ++ [BitVec.ofNat 64 (0x100 + b.toNat)] }) ∧
    (s.agenda = .write (s.params.base + 0x68) 64 v :: rest → step s = .next { s with agenda := rest })

/-- Writes to read-only registers and to reserved offsets are ignored; a reserved offset reads 0 (20_memory R75, R76). -/
def Obligations.ReadOnlyWritesIgnored : Prop :=
  ∀ (s : State) (off : Nat) (v : Word) (rest : List Turn),
    (off ∈ [0x00, 0x30, 0x38, 0x40, 0x48, 0x50, 0x68, 0x70, 0x78] ∨ (off % 8 = 0 ∧ 0x80 ≤ off ∧ off < 0x100) →
      s.agenda = .write (s.params.base + off) 64 v :: rest → step s = .next { s with agenda := rest }) ∧
    (off % 8 = 0 ∧ 0x80 ≤ off ∧ off < 0x100 →
      s.agenda = .read (s.params.base + off) 64 :: rest →
        step s = .next { s with agenda := rest, busReads := s.busReads ++ [0#64] })

/-- The registers that read exactly at every moment: ID, ARG0, ERRINFO, FIFO_STAT and CFG (10_state R21, R37, R47, R51,
R52). The two sums are within 64 bits, their fields apart, wherever the FIFOs are within their depths. -/
def Obligations.ExactReads : Prop :=
  ∀ (s : State) (rest : List Turn), s.FifosOk →
    let reads (off : Nat) (n : Nat) : Prop :=
      s.agenda = .read (s.params.base + off) 64 :: rest →
        n < 2 ^ 64 ∧ step s = .next { s with agenda := rest, busReads := s.busReads ++ [BitVec.ofNat 64 n] }
    reads 0x00 0x0000000148554646 ∧ reads 0x20 s.arg0.toNat ∧ reads 0x50 s.errInfo.toNat ∧
      reads 0x70 (s.inFifo.length + 2 ^ 16 * s.outFifo.length) ∧ s.inFifo.length < 2 ^ 16 ∧ s.outFifo.length < 2 ^ 16 ∧
      reads 0x78 (s.params.inDepth + 2 ^ 16 * s.params.outDepth + 2 ^ 32 * 64) ∧
      1 ≤ s.params.inDepth ∧ s.params.inDepth < 2 ^ 16 ∧ 1 ≤ s.params.outDepth ∧ s.params.outDepth < 2 ^ 16

/-- BUDGET, RESULT0, RESULT1, SYMCNT and TOTAL read exactly while BUSY = 0; while BUSY = 1 a read returns some value and
changes no register (10_state R38, R39, R45, R46; 70_reset R296; the value is free: log entry 4). -/
def Obligations.LooseReads : Prop :=
  ∀ (s : State) (off : Nat) (v : Word) (rest : List Turn),
    (off, v) ∈ [(0x28, s.budget), (0x30, s.result0), (0x38, s.result1), (0x40, s.symCnt.setWidth 64), (0x48, s.total)] →
    s.agenda = .read (s.params.base + off) 64 :: rest →
      (s.busy = false → step s = .next { s with agenda := rest, busReads := s.busReads ++ [v] }) ∧
      (s.busy = true → ∃ u, step s = .next { s with
        agenda := rest, busReads := s.busReads ++ [u], draws := s.draws + 1 })

/-- STATUS as it reads (10_state R23..R35): each flag and field at its bits, the reserved bits 0; while BUSY = 1 the bits
5, 6 and 24..34 are any value (70_reset R296; log entry 4). -/
def Obligations.StatusRead : Prop :=
  ∀ (s : State) (rest : List Turn), s.agenda = .read (s.params.base + 0x10) 64 :: rest →
    ∃ v : Word, step s = .next { s with
        agenda := rest, busReads := s.busReads ++ [v], draws := if s.busy = true then s.draws + 1 else s.draws } ∧
      v.getLsbD 0 = s.busy ∧ v.getLsbD 1 = s.done ∧ v.getLsbD 2 = s.err ∧ v.getLsbD 3 = s.cmdOvr ∧
      v.getLsbD 4 = s.inOvf ∧ v.getLsbD 7 = s.waitIn ∧ v.getLsbD 8 = s.waitOut ∧ v.extractLsb' 16 8 = s.errCode ∧
      v.extractLsb' 9 7 = 0#7 ∧ v.extractLsb' 35 29 = 0#29 ∧
      (s.busy = false → v.getLsbD 5 = s.treeValid ∧ v.getLsbD 6 = s.codesValid ∧ v.extractLsb' 24 3 = s.wk.setWidth 3 ∧
        v.getLsbD 27 = false ∧ v.extractLsb' 28 4 = s.rk ∧ v.extractLsb' 32 3 = s.pad)

/-- The interrupt output (60_exceptions R259): its level, that a completion raises it under IE_DONE, an error under IE_ERR
too, and that the W1C writes of STATUS lower it. -/
def Obligations.InterruptLevel : Prop :=
  (∀ s : State, s.irq = true ↔
    (s.ieDone = true ∧ s.done = true) ∨ (s.ieErr = true ∧ (s.err = true ∨ s.cmdOvr = true ∨ s.inOvf = true))) ∧
  (∀ (i : Instr) (s t : State), exec i s = .next t → t.prog = .none →
    (s.ieDone = true → t.irq = true) ∧ (s.ieErr = true → t.err = true → t.irq = true)) ∧
  (∀ (s : State) (rest : List Turn), s.agenda = .write (s.params.base + 0x10) 64 0x1E#64 :: rest →
    ∃ t, step s = .next t ∧ t.irq = false)

/-- No HOST access but a reset changes the internal memories, the accumulators or the results (20_memory R70, R78; 10_state
R37, R39): a command alone does. -/
def Obligations.HostAccessKeepsInternals : Prop :=
  ∀ (s t : State),
    (∀ addr width, s.hostRead addr width = .next t →
      t = { s with outFifo := t.outFifo, waitOut := t.waitOut, busReads := t.busReads, draws := t.draws }) ∧
    (∀ addr width v, s.hostWrite addr width v = .next t → ¬ (addr = s.params.base + 0x08 ∧ v.getLsbD 8 = true) →
      t = { s with
        ieDone := t.ieDone, ieErr := t.ieErr, busy := t.busy, done := t.done, err := t.err, cmdOvr := t.cmdOvr
        inOvf := t.inOvf, waitIn := t.waitIn, errCode := t.errCode, errInfo := t.errInfo, arg0 := t.arg0
        budget := t.budget, c := t.c, a := t.a, inFifo := t.inFifo, prog := t.prog })

/-! ## Completion and errors -/

/-- What completion and error completion write (60_exceptions R252, R253), and the error codes of R251. -/
def Obligations.CompletionEntries : Prop :=
  (∀ s : State, s.complete = { s with prog := .none, waitIn := false, waitOut := false, busy := false, done := true }) ∧
  (∀ (s : State) (e : ErrKind) (info : Word), s.raise e info = { s with
    errCode := e.code, errInfo := info, err := true
    prog := .none, waitIn := false, waitOut := false, busy := false, done := true }) ∧
  [ErrKind.illegalCmd, .emptyInput, .emptyTable, .corruptHeader, .emptyArchive, .countOverflow, .noTree, .noCodes,
    .symbolAbsent, .truncatedStream, .budgetExhausted, .invalidCode, .badIndex].map ErrKind.code =
    [0x01#8, 0x02#8, 0x03#8, 0x04#8, 0x05#8, 0x06#8, 0x07#8, 0x08#8, 0x09#8, 0x0A#8, 0x0B#8, 0x0C#8, 0x0D#8]

/-- A command raises only the errors the table of 60_exceptions R251 gives it; without one, ERR, ERRCODE and ERRINFO stay. -/
def Obligations.ErrorsOfEachCommand : Prop :=
  ∀ (i : Instr) (s t : State), exec i s = .next t →
    (t.err = s.err ∧ t.errCode = s.errCode ∧ t.errInfo = s.errInfo) ∨
      (t.err = true ∧ t.errCode ∈ errorsOf i ∧ t.prog = .none ∧ t.busy = false ∧ t.done = true)

/-! ## Commands without a stream -/

/-- NOP, FREQ_CLEAR, FREQ_READ and RD_ALIGN: their whole effect (45_control R240; 41_frequency R152, R156; 40_bitio R139). -/
def Obligations.PlainCommands : Prop :=
  ∀ (s : State) (x : Byte),
    exec .nop s = .next s.complete ∧
    (∃ t, exec .freqClear s = .next t ∧ (∀ y : Byte, t.freqAt y = 0#64) ∧
      t = { s with
        freq := t.freq, symCnt := 0#9, total := 0#64, treeValid := false, codesValid := false }.complete) ∧
    exec (.freqRead x) s = .next { s with result0 := s.freqAt x }.complete ∧
    exec .rdAlign s = .next { s with result0 := BitVec.ofNat 64 s.rk.toNat, rk := 0#4 }.complete

/-- FREQ_ACCUM x (41_frequency R151, R153). -/
def Obligations.FreqAccumCounts : Prop :=
  ∀ (s : State) (x : Byte),
    (s.total.toNat = 2 ^ 64 - 1 →
      exec (.freqAccum x) s = .next (s.raise .countOverflow (BitVec.ofNat 64 x.toNat))) ∧
    (s.total.toNat ≠ 2 ^ 64 - 1 → ∃ t, exec (.freqAccum x) s = .next t ∧
      (∀ y : Byte, t.freqAt y = if y = x then s.freqAt y + 1#64 else s.freqAt y) ∧
      t.total.toNat = s.total.toNat + 1 ∧ (s.TableOk → t.TableOk ∧ (t.freqAt x).toNat = (s.freqAt x).toNat + 1) ∧
      t = { s with
        freq := t.freq, total := t.total, symCnt := if s.freqAt x = 0#64 then s.symCnt + 1#9 else s.symCnt
        treeValid := false, codesValid := false, result0 := t.freqAt x }.complete)

/-- FREQ_LOAD x (41_frequency R155), on a table that keeps V1 and V2. -/
def Obligations.FreqLoadReplaces : Prop :=
  ∀ (s : State) (x : Byte), s.TableOk →
    (2 ^ 64 ≤ s.total.toNat - (s.freqAt x).toNat + s.a.toNat →
      exec (.freqLoad x) s = .next (s.raise .countOverflow (BitVec.ofNat 64 x.toNat))) ∧
    (s.total.toNat - (s.freqAt x).toNat + s.a.toNat < 2 ^ 64 → ∃ t, exec (.freqLoad x) s = .next t ∧
      (∀ y : Byte, t.freqAt y = if y = x then s.a else s.freqAt y) ∧ t.TableOk ∧
      t.total.toNat + (s.freqAt x).toNat = s.total.toNat + s.a.toNat ∧
      t = { s with
        freq := t.freq, total := t.total, symCnt := t.symCnt, treeValid := false, codesValid := false
        result0 := s.freqAt x }.complete)

/-! ## Counting a stream -/

/-- FREQ_ACCUM_STREAM counts the bytes before End and takes the End (41_frequency R154), from its start or from a hold. -/
def Obligations.StreamIsCounted : Prop :=
  ∀ (s : State) (n : Nat) (bs : List Byte) (rest : List Token),
    (s.prog = .start ∧ n = 0) ∨ s.prog = .counting n → s.inFifo = byteTokens bs ++ .fin :: rest → s.TableOk →
    n + bs.length ≠ 0 → s.total.toNat + bs.length < 2 ^ 64 →
    ∃ t, exec .freqAccumStream s = .next t ∧ t.TableOk ∧ t.total.toNat = s.total.toNat + bs.length ∧
      (∀ x : Byte, (t.freqAt x).toNat = (s.freqAt x).toNat + bs.count x) ∧
      t = { s with
        freq := t.freq, symCnt := t.symCnt, total := t.total, inFifo := rest
        treeValid := if bs = [] then s.treeValid else false, codesValid := if bs = [] then s.codesValid else false
        result0 := BitVec.ofNat 64 (n + bs.length) }.complete

/-- FREQ_ACCUM_STREAM's errors (41_frequency R154): the empty stream, and the byte that would take TOTAL past 2^64 − 1. -/
def Obligations.StreamCountingErrors : Prop :=
  ∀ (s : State) (rest : List Token),
    (s.prog = .start → s.inFifo = .fin :: rest →
      exec .freqAccumStream s =
        .next ({ s with inFifo := rest, result0 := 0#64 }.raise .emptyInput 0#64)) ∧
    ∀ (n : Nat) (bs : List Byte) (b : Byte),
      (s.prog = .start ∧ n = 0) ∨ s.prog = .counting n → s.inFifo = byteTokens bs ++ .byte b :: rest → s.TableOk →
      s.total.toNat + bs.length = 2 ^ 64 - 1 →
      ∃ t, exec .freqAccumStream s = .next t ∧ (∀ x : Byte, (t.freqAt x).toNat = (s.freqAt x).toNat + bs.count x) ∧
        t.TableOk ∧ t.total.toNat = 2 ^ 64 - 1 ∧
        t = { s with
          freq := t.freq, symCnt := t.symCnt, total := t.total, inFifo := rest
          treeValid := if bs = [] then s.treeValid else false, codesValid := if bs = [] then s.codesValid else false
          result0 := BitVec.ofNat 64 (n + bs.length) }.raise .countOverflow (BitVec.ofNat 64 b.toNat)

/-- The grouping of the host's writes does not matter to the count (41_frequency R157): the bytes `bs` and then, after the
hold, the tokens `ts` leave what `bs ++ ts` at once leaves. -/
def Obligations.CountingInPieces : Prop :=
  ∀ (s : State) (n : Nat) (bs : List Byte) (ts : List Token),
    (s.prog = .start ∧ n = 0) ∨ s.prog = .counting n → s.total.toNat + bs.length < 2 ^ 64 →
    ∃ t, exec .freqAccumStream { s with inFifo := byteTokens bs } = .next t ∧ t.waitIn = true ∧ t.inFifo = [] ∧
      t.prog = .counting (n + bs.length) ∧
      exec .freqAccumStream { t with inFifo := ts, waitIn := false } =
        exec .freqAccumStream { s with inFifo := byteTokens bs ++ ts }

/-! ## The bit writer -/

/-- WR_BITS n (40_bitio R131, R132, R136), from its start or from a hold: where the OUT FIFO has room the bits follow the
output stream, most significant first, and the command completes. -/
def Obligations.WrBitsWrites : Prop :=
  ∀ (s : State) (n : Byte) (todo : List Bool),
    (s.prog = .start ∧ todo = msbBits s.a.toNat n.toNat) ∨ s.prog = .writing todo →
    s.wk.toNat ≤ 8 → s.AccLow → s.HasRoom todo.length →
    ∃ t, exec (.wrBits n) s = .next t ∧ t.sentBits = s.sentBits ++ todo ∧ t.wk.toNat ≤ 7 ∧ t.AccLow ∧
      t = { s with wacc := t.wacc, wk := t.wk, outFifo := t.outFifo }.complete

/-- The writing commands hold where the OUT FIFO has no room for all their bytes (20_memory R84, R86): the bits written
and the bits kept are those asked for, a full byte waits, and nothing is lost. ENC_STREAM holds inside the code of the last
byte it took, `now`, or inside the code it was resumed in. -/
def Obligations.WritersHoldOnFullOut : Prop :=
  (∀ (i : Instr) (s : State) (todo : List Bool),
    (∃ n, i = .wrBits n ∧ ((s.prog = .start ∧ todo = msbBits s.a.toNat n.toNat) ∨ s.prog = .writing todo)) ∨
      (i = .hdrWrite ∧ ((s.prog = .start ∧ s.symCnt ≠ 0#9 ∧
        todo = byteBits (headerBytes s.symCnt.toNat s.freq)) ∨ s.prog = .writing todo)) ∨
      (∃ x, i = .encSym x ∧ ((s.prog = .start ∧ s.codesValid = true ∧ (s.codeAt x).len ≠ 0#8 ∧
        todo = (s.codeAt x).path) ∨ s.prog = .writing todo)) →
    s.wk.toNat ≤ 8 → s.AccLow → s.outFifo.length ≤ s.params.outDepth → ¬ s.HasRoom todo.length →
    ∃ t left, exec i s = .next t ∧ t.prog = .writing left ∧ t.waitOut = true ∧ t.outFifo.length = s.params.outDepth ∧
      t.sentBits ++ left = s.sentBits ++ todo ∧ t.wk = 8#4 ∧ t.AccLow ∧
      t = { s with wacc := t.wacc, wk := t.wk, outFifo := t.outFifo, waitOut := t.waitOut, prog := t.prog }) ∧
  ∀ (s : State) (n : Nat) (todo : List Bool) (bs : List Byte) (ts : List Token), s.EncStreamAt n todo →
    s.inFifo = byteTokens bs ++ ts → (∀ b ∈ bs, (s.codeAt b).len ≠ 0#8) →
    s.wk.toNat ≤ 8 → (s.wk.toNat = 8 → s.prog.isWriting = true) → s.AccLow → s.waitIn = false →
    s.outFifo.length ≤ s.params.outDepth → ¬ s.HasRoom (todo.length + (s.codeBits bs).length) →
    ∃ (t : State) (m : Nat) (taken later : List Byte) (now left : List Bool), exec .encStream s = .next t ∧
      bs = taken ++ later ∧ n + taken.length = m + 1 ∧
      ((taken = [] ∧ now = todo) ∨ ∃ front b, taken = front ++ [b] ∧ now = (s.codeAt b).path) ∧ left <:+ now ∧
      t.sentBits ++ left = s.sentBits ++ todo ++ s.codeBits taken ∧ t.wk = 8#4 ∧ t.AccLow ∧
      t.outFifo.length = s.params.outDepth ∧
      t = { s with
        wacc := t.wacc, wk := t.wk, outFifo := t.outFifo, inFifo := byteTokens later ++ ts, waitOut := true
        prog := .encodeBits m left }

/-- WR_FLUSH (40_bitio R133, R137): nothing to do, the padded byte, or a hold. -/
def Obligations.WrFlushPads : Prop :=
  ∀ s : State, s.wk.toNat ≤ 7 →
    (s.wk = 0#4 → exec .wrFlush s = .next { s with pad := 0#3, result0 := 0#64, result1 := 0#64 }.complete) ∧
    (s.wk ≠ 0#4 → s.params.outDepth ≤ s.outFifo.length →
      exec .wrFlush s = .next { s with prog := .flushing, waitOut := true }) ∧
    (s.wk ≠ 0#4 → s.outFifo.length < s.params.outDepth → ∃ t, exec .wrFlush s = .next t ∧
      (s.AccLow → t.sentBits = s.sentBits ++ List.replicate (8 - s.wk.toNat) false) ∧
      t = { s with
        outFifo := s.outFifo ++ [s.wacc], wacc := 0#8, wk := 0#4, pad := BitVec.ofNat 3 (8 - s.wk.toNat)
        result0 := BitVec.ofNat 64 (8 - s.wk.toNat), result1 := 1#64 }.complete)

/-! ## The bit reader -/

/-- RD_BITS n (40_bitio R134, R135, R138; 20_memory R85), from its start or with k bits read that form r: the next bits of the stream, a
hold where the bytes run out, or TRUNCATED_STREAM with End left at the head. -/
def Obligations.RdBitsReads : Prop :=
  ∀ (s : State) (n : Byte) (r k : Nat),
    (s.prog = .start ∧ r = 0 ∧ k = 0) ∨ s.prog = .reading r k → k ≤ n.toNat → s.rk.toNat ≤ 8 →
    let left := n.toNat - k
    let have' := s.pendingBits.length
    (left ≤ have' → ∃ t, exec (.rdBits n) s = .next t ∧ s.ReadsUpTo (s.pendingBits.drop left) t ∧
      t = { s with
        racc := t.racc, rk := t.rk, inFifo := t.inFifo
        result0 := BitVec.ofNat 64 (r * 2 ^ left + pathValue (s.pendingBits.take left))
        result1 := BitVec.ofNat 64 n.toNat }.complete) ∧
    (have' < left → ∀ bs, s.inFifo = byteTokens bs → ∃ t, exec (.rdBits n) s = .next t ∧
      t = { s with
        racc := t.racc, rk := 0#4, inFifo := [], waitIn := true
        prog := .reading (r * 2 ^ have' + pathValue s.pendingBits) (k + have') }) ∧
    (have' < left → ∀ bs rest, s.inFifo = byteTokens bs ++ .fin :: rest → ∃ t, exec (.rdBits n) s = .next t ∧
      t = { s with
        racc := t.racc, rk := 0#4, inFifo := .fin :: rest
        result0 := BitVec.ofNat 64 (r * 2 ^ have' + pathValue s.pendingBits)
        result1 := BitVec.ofNat 64 (k + have') }.raise .truncatedStream (BitVec.ofNat 64 (k + have')))

/-- RD_DRAIN (40_bitio R140), from its start or with d bytes dropped: to and with the End, or a hold. That RACC, which the
rule does not mention and 93 U6 leaves open, is kept is the model's choice (log entry 14). -/
def Obligations.RdDrainDrops : Prop :=
  ∀ (s : State) (bs : List Byte) (rest : List Token),
    (s.prog = .start → s.inFifo = byteTokens bs ++ .fin :: rest → bs.length < 2 ^ 64 →
      exec .rdDrain s = .next { s with
        inFifo := rest, result1 := BitVec.ofNat 64 s.rk.toNat, rk := 0#4
        result0 := BitVec.ofNat 64 bs.length }.complete) ∧
    (s.prog = .start → s.inFifo = byteTokens bs →
      exec .rdDrain s = .next { s with
        inFifo := [], result1 := BitVec.ofNat 64 s.rk.toNat, rk := 0#4, waitIn := true
        prog := .draining bs.length }) ∧
    ∀ d : Nat, s.prog = .draining d →
      (s.inFifo = byteTokens bs ++ .fin :: rest → d + bs.length < 2 ^ 64 →
        exec .rdDrain s = .next { s with inFifo := rest, result0 := BitVec.ofNat 64 (d + bs.length) }.complete) ∧
      (s.inFifo = byteTokens bs →
        exec .rdDrain s = .next { s with inFifo := [], waitIn := true, prog := .draining (d + bs.length) })

/-! ## The tree -/

/-- TREE_BUILD (42_tree R171, R172, R176, R177, R179): the leaves in ascending symbol order, the internal nodes over
earlier entries with the sums of their frequencies, the root last with TOTAL; EMPTY_TABLE where no symbol is present. -/
def Obligations.TreeIsBuilt : Prop :=
  (∀ s : State, s.symCnt = 0#9 → exec .treeBuild s = .next (s.raise .emptyTable 0#64)) ∧
  ∀ s : State, s.TableOk → s.symCnt ≠ 0#9 →
    ∃ t, exec .treeBuild s = .next t ∧
      (present s.freq).length = s.symCnt.toNat ∧
      (∀ (j : Nat) (e : Byte × Word), (present s.freq)[j]? = some e →
        t.node[j]? = some { kind := .leaf, sym := e.1, f := e.2, left := 0#9, right := 0#9 }) ∧
      (∀ i : BitVec 9, s.symCnt.toNat ≤ i.toNat → i.toNat < 2 * s.symCnt.toNat - 1 →
        (t.nodeAt i).kind = .internal ∧ (t.nodeAt i).sym = 0#8 ∧ (t.nodeAt i).left.toNat < i.toNat ∧
          (t.nodeAt i).right.toNat < i.toNat ∧
          (t.nodeAt i).f.toNat = (t.nodeAt (t.nodeAt i).left).f.toNat + (t.nodeAt (t.nodeAt i).right).f.toNat) ∧
      (t.nodeAt t.root).f = s.total ∧
      t = { s with
        node := t.node, root := BitVec.ofNat 9 (2 * s.symCnt.toNat - 2)
        nodeCnt := BitVec.ofNat 10 (2 * s.symCnt.toNat - 1), treeValid := true, codesValid := false
        result0 := BitVec.ofNat 64 (2 * s.symCnt.toNat - 2)
        result1 := BitVec.ofNat 64 (2 * s.symCnt.toNat - 1) }.complete

/-- The order of extraction and the order of the children (42_tree R173, R174, R175): each internal node of the tree
TREE_BUILD makes has, at the left, the least key of all the nodes that wait when it is made, and, at the right, the least
of the others. -/
def Obligations.LeastKeysAreMerged : Prop :=
  ∀ s t : State, s.TableOk → s.symCnt ≠ 0#9 → exec .treeBuild s = .next t →
    ∀ i : BitVec 9, s.symCnt.toNat ≤ i.toNat → i.toNat < 2 * s.symCnt.toNat - 1 →
      let l := (t.nodeAt i).left
      let r := (t.nodeAt i).right
      t.Waiting s.symCnt.toNat i l ∧ t.Waiting s.symCnt.toNat i r ∧ l ≠ r ∧
        ∀ j : BitVec 9, t.Waiting s.symCnt.toNat i j → t.KeyLe l j ∧ (j ≠ l → t.KeyLe r j)

/-- TREE_NODE (42_tree R178), with the layout of RESULT1. -/
def Obligations.TreeNodeReads : Prop :=
  ∀ s : State,
    (s.treeValid = false → exec .treeNode s = .next (s.raise .noTree 0#64)) ∧
    (s.treeValid = true → s.nodeCnt.toNat ≤ s.a.toNat → exec .treeNode s = .next (s.raise .badIndex s.a)) ∧
    (s.treeValid = true → ∀ i : BitVec 9, s.a.toNat = i.toNat → i.toNat < s.nodeCnt.toNat →
      ∃ t, exec .treeNode s = .next t ∧
        t = { s with result0 := (s.nodeAt i).f, result1 := t.result1 }.complete ∧
        t.result1.toNat = (if (s.nodeAt i).kind = .internal then 1 else 0) + (if i = s.root then 2 else 0) +
          2 ^ 8 * (s.nodeAt i).sym.toNat + 2 ^ 16 * (s.nodeAt i).left.toNat + 2 ^ 32 * (s.nodeAt i).right.toNat)

/-! ## The codes -/

/-- CODE_GEN (43_codegen R190..R193): each present symbol gets the path to its leaf, each absent one nothing; RESULT0 is the
greatest length; NO_TREE without a tree. -/
def Obligations.CodesAreThePaths : Prop :=
  (∀ s : State, s.treeValid = false → exec .codeGen s = .next (s.raise .noTree 0#64)) ∧
  ∀ s : State, s.treeValid = true → s.TableOk → s.TreeOk →
    ∃ t, exec .codeGen s = .next t ∧
      (∀ x : Byte, s.freqAt x ≠ 0#64 → ∃ c, s.IsCode x c ∧ 1 ≤ c.length ∧ c.length ≤ 255 ∧
        (t.codeAt x).len.toNat = c.length ∧ (t.codeAt x).bits.toNat = pathValue c ∧
        c.length ≤ t.result0.toNat) ∧
      (∀ x : Byte, s.freqAt x = 0#64 → t.codeAt x = { len := 0#8, bits := 0#255 }) ∧
      (∃ x : Byte, t.result0.toNat = (t.codeAt x).len.toNat) ∧
      t = { s with
        code := t.code, codesValid := true, result0 := t.result0
        result1 := BitVec.ofNat 64 s.symCnt.toNat }.complete

/-- Prefix-freedom and the Kraft sum (43_codegen R195), the sum scaled by 2^255. -/
def Obligations.CodesArePrefixFree : Prop :=
  ∀ s : State, s.TableOk → s.TreeOk → s.CodesOk → s.codesValid = true →
    (∀ x y : Byte, x ≠ y → s.freqAt x ≠ 0#64 → s.freqAt y ≠ 0#64 → ¬ (s.codeAt x).path <+: (s.codeAt y).path) ∧
    ((present s.freq).map fun e => 2 ^ (255 - (s.codeAt e.1).len.toNat)).sum =
      if s.symCnt = 1#9 then 2 ^ 254 else 2 ^ 255

/-- CODE_LOOKUP x, w (43_codegen R194): word w of the code, and its length; NO_CODES without codes. -/
def Obligations.CodeLookupReads : Prop :=
  ∀ (s : State) (x w : Byte),
    (s.codesValid = false → exec (.codeLookup x w) s = .next (s.raise .noCodes 0#64)) ∧
    (s.codesValid = true → exec (.codeLookup x w) s = .next { s with
      result0 := BitVec.ofNat 64 ((s.codeAt x).bits.toNat / 2 ^ (64 * w.toNat))
      result1 := BitVec.ofNat 64 (s.codeAt x).len.toNat }.complete)

/-! ## Encoding an archive -/

/-- HDR_WRITE (44_codec R210; 20_memory R94, R95): the count in four bytes, then each present symbol with its frequency in
eight, little-endian; EMPTY_TABLE where no symbol is present. -/
def Obligations.HeaderIsWritten : Prop :=
  (∀ s : State, s.prog = .start → s.symCnt = 0#9 → exec .hdrWrite s = .next (s.raise .emptyTable 0#64)) ∧
  ∀ (s : State) (todo : List Bool),
    (s.prog = .start ∧ s.symCnt ≠ 0#9 ∧
        todo = byteBits (leBytes s.symCnt.toNat 4 ++ (present s.freq).flatMap fun e => e.1 :: leBytes e.2.toNat 8)) ∨
      s.prog = .writing todo →
    s.wk.toNat ≤ 8 → s.AccLow → s.HasRoom todo.length →
    ∃ t, exec .hdrWrite s = .next t ∧ t.sentBits = s.sentBits ++ todo ∧ t.wk.toNat ≤ 7 ∧ t.AccLow ∧
      t = { s with
        wacc := t.wacc, wk := t.wk, outFifo := t.outFifo
        result0 := BitVec.ofNat 64 (4 + 9 * s.symCnt.toNat) }.complete

/-- ENC_SYM x (44_codec R211): the code's bits, first bit first; NO_CODES, then SYMBOL_ABSENT. -/
def Obligations.EncSymWritesCode : Prop :=
  ∀ (s : State) (x : Byte),
    (s.prog = .start → s.codesValid = false → exec (.encSym x) s = .next (s.raise .noCodes 0#64)) ∧
    (s.prog = .start → s.codesValid = true → (s.codeAt x).len = 0#8 →
      exec (.encSym x) s = .next (s.raise .symbolAbsent (BitVec.ofNat 64 x.toNat))) ∧
    ∀ todo, (s.prog = .start ∧ s.codesValid = true ∧ (s.codeAt x).len ≠ 0#8 ∧
        todo = msbBits (s.codeAt x).bits.toNat (s.codeAt x).len.toNat) ∨ s.prog = .writing todo →
      s.wk.toNat ≤ 8 → s.AccLow → s.HasRoom todo.length →
      ∃ t, exec (.encSym x) s = .next t ∧ t.sentBits = s.sentBits ++ todo ∧ t.wk.toNat ≤ 7 ∧ t.AccLow ∧
        t = { s with
          wacc := t.wacc, wk := t.wk, outFifo := t.outFifo
          result0 := BitVec.ofNat 64 (s.codeAt x).len.toNat }.complete

/-- ENC_STREAM (44_codec R212; 20_memory R82), from its start, between two bytes or inside a code: the bits it still owes and
then the codes of the bytes, one after the other, to the End, which is taken; without an End it holds after them. -/
def Obligations.StreamIsEncoded : Prop :=
  ∀ (s : State) (n : Nat) (todo : List Bool) (bs : List Byte), s.EncStreamAt n todo →
    (∀ b ∈ bs, (s.codeAt b).len ≠ 0#8) → s.wk.toNat ≤ 8 → (s.wk.toNat = 8 → s.prog.isWriting = true) → s.AccLow →
    s.HasRoom (todo.length + (s.codeBits bs).length) →
    (∀ rest, s.inFifo = byteTokens bs ++ .fin :: rest → n + bs.length < 2 ^ 64 →
      ∃ t, exec .encStream s = .next t ∧ t.sentBits = s.sentBits ++ todo ++ s.codeBits bs ∧ t.wk.toNat ≤ 7 ∧ t.AccLow ∧
        t = { s with
          wacc := t.wacc, wk := t.wk, outFifo := t.outFifo, inFifo := rest
          result0 := BitVec.ofNat 64 (n + bs.length) }.complete) ∧
    (s.inFifo = byteTokens bs → s.waitOut = false →
      ∃ t, exec .encStream s = .next t ∧ t.sentBits = s.sentBits ++ todo ++ s.codeBits bs ∧ t.wk.toNat ≤ 7 ∧ t.AccLow ∧
        t = { s with
          wacc := t.wacc, wk := t.wk, outFifo := t.outFifo, inFifo := [], waitIn := true
          prog := .encodePop (n + bs.length) })

/-- ENC_STREAM's errors (44_codec R212): no codes, and a byte without a code, which is taken, wherever the command stood
before; the bits before it stay. -/
def Obligations.StreamEncodingErrors : Prop :=
  ∀ s : State,
    (s.prog = .start → s.codesValid = false → exec .encStream s = .next (s.raise .noCodes 0#64)) ∧
    ∀ (n : Nat) (todo : List Bool) (bs : List Byte) (b : Byte) (rest : List Token), s.EncStreamAt n todo →
      s.inFifo = byteTokens bs ++ .byte b :: rest → (∀ y ∈ bs, (s.codeAt y).len ≠ 0#8) → (s.codeAt b).len = 0#8 →
      s.wk.toNat ≤ 8 → (s.wk.toNat = 8 → s.prog.isWriting = true) → s.AccLow →
      s.HasRoom (todo.length + (s.codeBits bs).length) → n + bs.length < 2 ^ 64 →
      ∃ t, exec .encStream s = .next t ∧ t.sentBits = s.sentBits ++ todo ++ s.codeBits bs ∧
        t = { s with
          wacc := t.wacc, wk := t.wk, outFifo := t.outFifo, inFifo := rest
          result0 := BitVec.ofNat 64 (n + bs.length) }.raise .symbolAbsent (BitVec.ofNat 64 b.toNat)

/-! ## Decoding an archive -/

/-- HDR_READ reads back the header of any non-empty table whose sum fits, whatever RK and however much of it was read before a
hold; where the header is good so far and the bytes run out, it holds with all of them read (44_codec R210, R213; 20_memory
R82, R94, R95). -/
def Obligations.HeaderReadsBack : Prop :=
  ∀ (s : State) (bits : List Bool), s.HeaderRead bits → s.rk.toNat ≤ 8 →
    (∀ (table : Vector Word 256) (rest : List Bool), present table ≠ [] → tableSum table < 2 ^ 64 →
      bits ++ s.pendingBits = byteBits (leBytes (present table).length 4 ++ entryBytes (present table)) ++ rest →
      ∃ t, exec .hdrRead s = .next t ∧ t.TableOk ∧ s.ReadsUpTo rest t ∧ t.rk.toNat ≤ 7 ∧
        t = { s with
          freq := table, symCnt := BitVec.ofNat 9 (present table).length, total := BitVec.ofNat 64 (tableSum table)
          treeValid := false, codesValid := false, racc := t.racc, rk := t.rk, inFifo := t.inFifo
          result0 := BitVec.ofNat 64 (present table).length
          result1 := BitVec.ofNat 64 (4 + 9 * (present table).length) }.complete) ∧
    ∀ (bs ts : List Byte) (part : List Bool), HeaderOpen bs → part.length < 8 →
      bits ++ s.pendingBits = byteBits bs ++ part → s.inFifo = byteTokens ts →
      ∃ t, exec .hdrRead s = .next t ∧ t.HeaderRead (byteBits bs ++ part) ∧ t.prog ≠ .start ∧
        t = { s with
          freq := t.freq, symCnt := t.symCnt, total := t.total, treeValid := false, codesValid := false
          racc := t.racc, rk := 0#4, inFifo := [], waitIn := true, prog := t.prog }

/-- HDR_READ's errors (44_codec R213), whatever RK and however much was read before a hold: the count field or an entry cut
short by End, which stays; a count of 0 or past 256; after the good entries `es` a whole one that is out of order, zero or
past the sum. The table is left empty. -/
def Obligations.BadHeaderRejected : Prop :=
  ∀ (s : State) (bits : List Bool), s.HeaderRead bits → s.rk.toNat ≤ 8 →
    let rejected (e : ErrKind) (used : Nat) (rest : List Bool) : Prop :=
      ∃ t, exec .hdrRead s = .next t ∧ (∀ x : Byte, t.freqAt x = 0#64) ∧ s.ReadsUpTo rest t ∧ t.rk.toNat ≤ 7 ∧
        t = { s with
          freq := t.freq, symCnt := 0#9, total := 0#64, treeValid := false, codesValid := false
          racc := t.racc, rk := t.rk, inFifo := t.inFifo }.raise e (BitVec.ofNat 64 used)
    (∀ (bs ts : List Byte) (part : List Bool) (more : List Token), HeaderOpen bs → part.length < 8 →
      bits ++ s.pendingBits = byteBits bs ++ part → s.inFifo = byteTokens ts ++ .fin :: more →
      ∃ t, exec .hdrRead s = .next t ∧ (∀ x : Byte, t.freqAt x = 0#64) ∧
        t = { s with
          freq := t.freq, symCnt := 0#9, total := 0#64, treeValid := false, codesValid := false
          racc := t.racc, rk := 0#4, inFifo := .fin :: more }.raise .corruptHeader (BitVec.ofNat 64 bs.length)) ∧
    (∀ (cnt : Nat) (rest : List Bool), cnt < 2 ^ 32 → bits ++ s.pendingBits = byteBits (leBytes cnt 4) ++ rest →
      (cnt = 0 → rejected .emptyArchive 4 rest) ∧ (256 < cnt → rejected .corruptHeader 4 rest)) ∧
    ∀ (cnt : Nat) (es : List (Byte × Word)) (x : Byte) (f : Word) (rest : List Bool),
      GoodEntries es → es.length < cnt → cnt ≤ 256 →
      bits ++ s.pendingBits = byteBits (leBytes cnt 4 ++ entryBytes es ++ x :: leBytes f.toNat 8) ++ rest →
      (∃ e ∈ es, x.toNat ≤ e.1.toNat) ∨ f = 0#64 ∨ 2 ^ 64 ≤ (es.map fun e => e.2.toNat).sum + f.toNat →
      rejected .corruptHeader (4 + 9 * es.length + 9) rest

/-- DEC_SYM (44_codec R214, R215; 20_memory R82, R85), from its start or from a hold inside the code: where the stream goes on with
the rest of a symbol's code, the symbol; its bits leave the stream and BUDGET; where the bits run out inside the code, a hold
at the node they lead to. -/
def Obligations.DecSymFollowsCode : Prop :=
  ∀ (s : State) (p : DecPoint), s.DecSymAt p → s.rk.toNat ≤ 8 →
    (∀ (x : Byte) (c rest : List Bool), s.WalkTo p.i x c → s.pendingBits = c ++ rest → c.length ≤ s.budget.toNat →
      ∃ t, exec .decSym s = .next t ∧ s.ReadsUpTo rest t ∧
        t.budget.toNat + c.length = s.budget.toNat ∧
        t = { s with
          racc := t.racc, rk := t.rk, inFifo := t.inFifo, budget := t.budget
          result0 := BitVec.ofNat 64 x.toNat, result1 := BitVec.ofNat 64 (p.used + c.length) }.complete) ∧
    ∀ (q : List Bool) (bs : List Byte), s.WalkOpen p.i q → s.pendingBits = q → s.inFifo = byteTokens bs →
      q.length < s.budget.toNat →
      ∃ t, exec .decSym s = .next t ∧
        t = { s with
          racc := t.racc, rk := 0#4, inFifo := [], budget := BitVec.ofNat 64 (s.budget.toNat - q.length), waitIn := true
          prog := .decSym { i := s.follow p.i q, k := p.k + q.length, used := p.used + q.length } }

/-- DEC_STREAM (44_codec R214, R216; 20_memory R82, R84, R85), from its start, inside a walk or before a push: where the stream goes
on with the rest of that symbol's code and the codes of further ones, and BUDGET is their length, the symbols go out; it
holds before a push where OUT is full, and inside a walk where the bits run out. -/
def Obligations.DecStreamFollowsCodes : Prop :=
  ∀ (s : State) (n used : Nat) (out : List Byte) (bits : List Bool), s.rk.toNat ≤ 8 →
    (∀ rest, s.DecStreamTo n used out bits → s.pendingBits = bits ++ rest → s.budget.toNat = bits.length →
      s.outFifo.length + out.length ≤ s.params.outDepth →
      ∃ t, exec .decStream s = .next t ∧ s.ReadsUpTo rest t ∧
        t = { s with
          racc := t.racc, rk := t.rk, inFifo := t.inFifo, budget := 0#64, outFifo := s.outFifo ++ out
          result0 := BitVec.ofNat 64 (n + out.length), result1 := BitVec.ofNat 64 (used + bits.length) }.complete) ∧
    (∀ (x : Byte) (rest : List Bool), s.DecStreamTo n used (out ++ [x]) bits → s.pendingBits = bits ++ rest →
      bits.length ≤ s.budget.toNat → s.outFifo.length + out.length = s.params.outDepth → s.waitIn = false →
      ∃ t, exec .decStream s = .next t ∧ s.ReadsUpTo rest t ∧
        t = { s with
          racc := t.racc, rk := t.rk, inFifo := t.inFifo, budget := BitVec.ofNat 64 (s.budget.toNat - bits.length)
          outFifo := s.outFifo ++ out, waitOut := true, prog := .decPush (n + out.length) (used + bits.length) x }) ∧
    ∀ (p : DecPoint) (q : List Bool) (bs : List Byte), s.DecStreamAt n out bits p → s.WalkOpen p.i q →
      s.pendingBits = bits ++ q → s.inFifo = byteTokens bs → bits.length + q.length < s.budget.toNat →
      s.outFifo.length + out.length ≤ s.params.outDepth → s.waitOut = false →
      ∃ t, exec .decStream s = .next t ∧
        t = { s with
          racc := t.racc, rk := 0#4, inFifo := [], outFifo := s.outFifo ++ out, waitIn := true
          budget := BitVec.ofNat 64 (s.budget.toNat - (bits.length + q.length))
          prog := .decBits (n + out.length)
            { i := s.follow p.i q, k := p.k + q.length, used := p.used + q.length } }

/-- The errors of decoding one symbol (44_codec R214, R215; 20_memory R85), from the start of DEC_SYM or from a hold inside the code: no tree;
and at a node that the bits `q` lead to through internal nodes, BUDGET used up or End met; with a single-leaf tree also the
bit 1. -/
def Obligations.DecSymErrors : Prop :=
  ∀ s : State,
    (s.prog = .start → s.treeValid = false → exec .decSym s = .next (s.raise .noTree 0#64)) ∧
    ∀ p : DecPoint, s.DecSymAt p → s.rk.toNat ≤ 8 →
      (∀ q rest : List Bool, s.WalkOpen p.i q → s.pendingBits = q ++ rest → s.budget.toNat = q.length →
        ∃ t, exec .decSym s = .next t ∧ s.ReadsUpTo rest t ∧
          t = { s with
            racc := t.racc, rk := t.rk, inFifo := t.inFifo
            budget := 0#64 }.raise .budgetExhausted (BitVec.ofNat 64 (p.k + q.length))) ∧
      (∀ (q : List Bool) (bs : List Byte) (more : List Token), s.WalkOpen p.i q → s.pendingBits = q →
        s.inFifo = byteTokens bs ++ .fin :: more → q.length < s.budget.toNat →
        ∃ t, exec .decSym s = .next t ∧
          t = { s with
            racc := t.racc, rk := 0#4, inFifo := .fin :: more
            budget := BitVec.ofNat 64 (s.budget.toNat - q.length) }.raise
              .truncatedStream (BitVec.ofNat 64 (p.used + q.length))) ∧
      ((s.nodeAt p.i).kind = .leaf → ∀ rest : List Bool, s.pendingBits = true :: rest → 1 ≤ s.budget.toNat →
        ∃ t, exec .decSym s = .next t ∧ s.ReadsUpTo rest t ∧
          t = { s with
            racc := t.racc, rk := t.rk, inFifo := t.inFifo
            budget := BitVec.ofNat 64 (s.budget.toNat - 1) }.raise .invalidCode 1#64)

/-- The errors of DEC_STREAM (44_codec R214, R216; 20_memory R85), from its start, inside a walk or before a push: no tree; and after `bits`,
which bring it to point p of a walk with `out` pushed, and the bits `q` of that walk, BUDGET used up or End met; at a
single-leaf tree the bit 1. The symbols before stay in OUT, RESULT0 counts them and RESULT1 the bits. -/
def Obligations.DecStreamErrors : Prop :=
  ∀ s : State,
    (s.prog = .start → s.treeValid = false → exec .decStream s = .next (s.raise .noTree 0#64)) ∧
    ∀ (n : Nat) (out : List Byte) (bits : List Bool) (p : DecPoint), s.DecStreamAt n out bits p → s.rk.toNat ≤ 8 →
      s.outFifo.length + out.length ≤ s.params.outDepth →
      (∀ q rest : List Bool, s.WalkOpen p.i q → q ≠ [] → s.pendingBits = bits ++ q ++ rest →
        s.budget.toNat = bits.length + q.length →
        ∃ t, exec .decStream s = .next t ∧ s.ReadsUpTo rest t ∧
          t = { s with
            racc := t.racc, rk := t.rk, inFifo := t.inFifo, budget := 0#64, outFifo := s.outFifo ++ out
            result0 := BitVec.ofNat 64 (n + out.length)
            result1 := BitVec.ofNat 64 (p.used + q.length) }.raise
              .budgetExhausted (BitVec.ofNat 64 (p.k + q.length))) ∧
      (∀ (q : List Bool) (bs : List Byte) (more : List Token), s.WalkOpen p.i q → s.pendingBits = bits ++ q →
        s.inFifo = byteTokens bs ++ .fin :: more → bits.length + q.length < s.budget.toNat →
        ∃ t, exec .decStream s = .next t ∧
          t = { s with
            racc := t.racc, rk := 0#4, inFifo := .fin :: more, outFifo := s.outFifo ++ out
            budget := BitVec.ofNat 64 (s.budget.toNat - (bits.length + q.length))
            result0 := BitVec.ofNat 64 (n + out.length)
            result1 := BitVec.ofNat 64 (p.used + q.length) }.raise
              .truncatedStream (BitVec.ofNat 64 (p.used + q.length))) ∧
      ((s.nodeAt p.i).kind = .leaf → ∀ rest : List Bool, s.pendingBits = bits ++ true :: rest →
        bits.length + 1 ≤ s.budget.toNat →
        ∃ t, exec .decStream s = .next t ∧ s.ReadsUpTo rest t ∧
          t = { s with
            racc := t.racc, rk := t.rk, inFifo := t.inFifo, outFifo := s.outFifo ++ out
            budget := BitVec.ofNat 64 (s.budget.toNat - (bits.length + 1))
            result0 := BitVec.ofNat 64 (n + out.length)
            result1 := BitVec.ofNat 64 (p.used + 1) }.raise .invalidCode 1#64)

/-- What ENC_STREAM writes, DEC_STREAM reads back, on any two sound states with the same table (44_codec R220). -/
def Obligations.PayloadRoundTrip : Prop :=
  ∀ (s d e : State) (bs : List Byte) (more : List Token) (rest : List Bool),
    s.Inv → s.prog = .start → s.codesValid = true → s.inFifo = byteTokens bs ++ .fin :: more →
    (∀ b ∈ bs, s.freqAt b ≠ 0#64) → s.HasRoom (s.codeBits bs).length → bs.length < 2 ^ 64 →
    exec .encStream s = .next e →
    d.Inv → d.prog = .start → d.treeValid = true → d.freq = s.freq →
    d.pendingBits = e.sentBits.drop s.sentBits.length ++ rest →
    d.budget.toNat = e.sentBits.length - s.sentBits.length → d.outFifo.length + bs.length ≤ d.params.outDepth →
    e.err = s.err ∧ ∃ t, exec .decStream d = .next t ∧ t.err = d.err ∧ t.prog = .none ∧ t.budget = 0#64 ∧
      t.outFifo = d.outFifo ++ bs ∧ d.ReadsUpTo rest t ∧ t.result0 = BitVec.ofNat 64 bs.length

/-! ## Frames -/

/-- No command changes the parameters, CTRL, CMD_OVR, IN_OVF, ARG0, the latched C and A, or the outside world's record
(10_state R22, R26, R27, R37, R53; 60_exceptions R261; 70_reset R293). -/
def Obligations.CommandsKeepHostState : Prop :=
  ∀ (i : Instr) (s t : State), exec i s = .next t →
    t.params = s.params ∧ t.ieDone = s.ieDone ∧ t.ieErr = s.ieErr ∧ t.cmdOvr = s.cmdOvr ∧ t.inOvf = s.inOvf ∧
      t.arg0 = s.arg0 ∧ t.c = s.c ∧ t.a = s.a ∧ t.agenda = s.agenda ∧ t.busReads = s.busReads ∧ t.draws = s.draws

/-- The ports keep their order (20_memory R81, R82, R84, R85): a command takes tokens off the head of the IN FIFO and
appends bytes to the tail of the OUT FIFO, and does nothing else to them. -/
def Obligations.PortsKeepOrder : Prop :=
  ∀ (i : Instr) (s t : State), exec i s = .next t →
    (∃ taken, s.inFifo = taken ++ t.inFifo) ∧ ∃ sent, t.outFifo = s.outFifo ++ sent

/-- What NOP and the table commands leave alone (45_control R240; 41_frequency R150..R156; 42_tree R177, R178; 43_codegen
R193, R194): everything but the fields named, `withProgress` being the command's progress, completion and error. -/
def Obligations.TableCommandFrames : Prop :=
  ∀ s t : State,
    (exec .nop s = .next t → t = s.withProgress t) ∧
    (exec .freqClear s = .next t → t = { s.withProgress t with
      freq := t.freq, symCnt := t.symCnt, total := t.total, treeValid := t.treeValid, codesValid := t.codesValid }) ∧
    (∀ x : Byte, exec (.freqAccum x) s = .next t ∨ exec (.freqLoad x) s = .next t →
      (∀ y : Byte, y ≠ x → t.freqAt y = s.freqAt y) ∧
      t = { s.withProgress t with
        freq := t.freq, symCnt := t.symCnt, total := t.total, treeValid := t.treeValid, codesValid := t.codesValid
        result0 := t.result0 }) ∧
    (∀ x : Byte, exec (.freqRead x) s = .next t → t = { s.withProgress t with result0 := t.result0 }) ∧
    (exec .freqAccumStream s = .next t →
      (∀ y : Byte, .byte y ∉ s.inFifo → t.freqAt y = s.freqAt y) ∧
      t = { s.withProgress t with
        freq := t.freq, symCnt := t.symCnt, total := t.total, treeValid := t.treeValid, codesValid := t.codesValid
        result0 := t.result0, inFifo := t.inFifo }) ∧
    (exec .treeBuild s = .next t → t = { s.withProgress t with
      node := t.node, root := t.root, nodeCnt := t.nodeCnt, treeValid := t.treeValid, codesValid := t.codesValid
      result0 := t.result0, result1 := t.result1 }) ∧
    (exec .treeNode s = .next t → t = { s.withProgress t with result0 := t.result0, result1 := t.result1 }) ∧
    (exec .codeGen s = .next t → t = { s.withProgress t with
      code := t.code, codesValid := t.codesValid, result0 := t.result0, result1 := t.result1 }) ∧
    (∀ x w : Byte, exec (.codeLookup x w) s = .next t →
      t = { s.withProgress t with result0 := t.result0, result1 := t.result1 })

/-- What the bit and archive commands leave alone (40_bitio R130..R140; 44_codec R210..R216): everything but the fields
named, `withProgress` being the command's progress, completion and error. That RD_DRAIN keeps RACC, which R140 does not
mention and 93 U6 leaves open, is the model's choice (log entry 14). -/
def Obligations.PortCommandFrames : Prop :=
  ∀ s t : State,
    (∀ n : Byte, exec (.wrBits n) s = .next t →
      t = { s.withProgress t with wacc := t.wacc, wk := t.wk, outFifo := t.outFifo }) ∧
    (exec .wrFlush s = .next t → t = { s.withProgress t with
      wacc := t.wacc, wk := t.wk, outFifo := t.outFifo, pad := t.pad, result0 := t.result0, result1 := t.result1 }) ∧
    (∀ n : Byte, exec (.rdBits n) s = .next t → t = { s.withProgress t with
      racc := t.racc, rk := t.rk, inFifo := t.inFifo, result0 := t.result0, result1 := t.result1 }) ∧
    (exec .rdAlign s = .next t → t = { s.withProgress t with rk := t.rk, result0 := t.result0 }) ∧
    (exec .rdDrain s = .next t → t = { s.withProgress t with
      rk := t.rk, inFifo := t.inFifo, result0 := t.result0, result1 := t.result1 }) ∧
    (exec .hdrWrite s = .next t ∨ (∃ x, exec (.encSym x) s = .next t) → t = { s.withProgress t with
      wacc := t.wacc, wk := t.wk, outFifo := t.outFifo, result0 := t.result0 }) ∧
    (exec .encStream s = .next t → t = { s.withProgress t with
      wacc := t.wacc, wk := t.wk, outFifo := t.outFifo, inFifo := t.inFifo, result0 := t.result0 }) ∧
    (exec .hdrRead s = .next t → t = { s.withProgress t with
      freq := t.freq, symCnt := t.symCnt, total := t.total, treeValid := t.treeValid, codesValid := t.codesValid
      racc := t.racc, rk := t.rk, inFifo := t.inFifo, result0 := t.result0, result1 := t.result1 }) ∧
    (exec .decSym s = .next t → t = { s.withProgress t with
      racc := t.racc, rk := t.rk, inFifo := t.inFifo, budget := t.budget
      result0 := t.result0, result1 := t.result1 }) ∧
    (exec .decStream s = .next t → t = { s.withProgress t with
      racc := t.racc, rk := t.rk, inFifo := t.inFifo, budget := t.budget, outFifo := t.outFifo
      result0 := t.result0, result1 := t.result1 })

/-! ## Invariants -/

/-- The state after reset is sound (10_state R59, R60). -/
def Obligations.ResetIsSound : Prop := State.reset.Inv

/-- Every step keeps V1..V6 of 10_state R60 and what they need while a command is in progress: from every sound state,
whatever step is taken, the next state is sound. -/
def Obligations.StepKeepsInvariants : Prop :=
  ∀ s t : State, s.Inv → step s = .next t → t.Inv

/-- A table change makes tree and codes invalid (41_frequency R150): after any command that left an entry of FREQ
different, TREE_VALID = CODES_VALID = 0. -/
def Obligations.TableChangeInvalidates : Prop :=
  ∀ (i : Instr) (s t : State), exec i s = .next t → t.freq ≠ s.freq → t.treeValid = false ∧ t.codesValid = false

/-- What NODE and CODE hold while no tree is valid is unobservable (10_state R41, R43, R59; 70_reset R291): a command from
its start, or from a hold, answers the same whatever they hold, and a tree it builds is the same. ENC_SYM, ENC_STREAM, DEC_SYM
and DEC_STREAM, which hold only after they have found the codes or the tree valid (44_codec R211, R212, R215, R216), are taken
from their start. -/
def Obligations.InvalidTablesUnobservable : Prop :=
  ∀ (i : Instr) (s : State) (node : Vector Node 511) (code : Vector Code 256),
    (s.prog = .start ∨ ((∀ x, i ≠ .encSym x) ∧ i ≠ .encStream ∧ i ≠ .decSym ∧ i ≠ .decStream)) →
    s.treeValid = false → s.codesValid = false →
    ∃ t u, exec i s = .next t ∧ exec i { s with node := node, code := code } = .next u ∧
      u = { t with node := u.node, code := u.code } ∧ t.codesValid = false ∧
      (t.treeValid = true → ∀ j : Nat, j < t.nodeCnt.toNat → u.node[j]? = t.node[j]?)
end

