-- ==== Sys2Proof/Laws/BitIO.lean ====
section
/-! SUPPORT. What the bit writer and the bit reader do (spec/40_bitio.md R131..R135). -/

namespace Sys2Proof.Machine

/-! ## Bit strings -/

@[simp] theorem msbBits_length (v n : Nat) : (msbBits v n).length = n := by
  induction n with
  | zero => rfl
  | succ n ih => simp [msbBits, ih]

theorem msbBits_getElem (v n i : Nat) (h : i < (msbBits v n).length) :
    (msbBits v n)[i] = v.testBit (n - 1 - i) := by
  induction n generalizing i with
  | zero => simp at h
  | succ n ih =>
    cases i with
    | zero => simp [msbBits]
    | succ i =>
      simp only [msbBits, List.getElem_cons_succ]
      rw [ih]
      congr 1
      omega

theorem msbBits_take (v n k : Nat) (h : k ≤ n) : (msbBits v n).take k = msbBits (v >>> (n - k)) k := by
  apply List.ext_getElem
  · simp [h]
  · intro i h1 h2
    simp at h1 h2
    simp only [List.getElem_take, msbBits_getElem, Nat.testBit_shiftRight]
    congr 1
    omega

theorem pathValue_append (c d : List Bool) : pathValue (c ++ d) = pathValue c * 2 ^ d.length + pathValue d := by
  have key : ∀ (d : List Bool) (v : Nat),
      d.foldl (fun v b => 2 * v + b.toNat) v = v * 2 ^ d.length + d.foldl (fun v b => 2 * v + b.toNat) 0 := by
    intro d
    induction d with
    | nil => simp
    | cons b d ih =>
      intro v
      simp only [List.foldl_cons, List.length_cons, Nat.mul_zero, Nat.zero_add]
      rw [ih (2 * v + b.toNat), ih b.toNat, Nat.pow_succ, Nat.add_mul]
      ring
  simp only [pathValue, List.foldl_append]
  rw [key]

theorem pathValue_lt (c : List Bool) : pathValue c < 2 ^ c.length := by
  induction c using List.reverseRecOn with
  | nil => simp [pathValue]
  | append_singleton c b ih =>
    rw [pathValue_append]
    cases b <;> simp [pathValue, Nat.pow_succ] at * <;> omega

theorem pathValue_msbBits (v n : Nat) : pathValue (msbBits v n) = v % 2 ^ n := by
  induction n with
  | zero => simp [msbBits, pathValue, Nat.mod_one]
  | succ n ih =>
    rw [show msbBits v (n + 1) = [v.testBit n] ++ msbBits v n from rfl, pathValue_append, ih, msbBits_length,
      Nat.mod_pow_succ, ← Nat.toNat_testBit]
    cases v.testBit n <;> simp [pathValue, Nat.add_comm]

theorem msbBits_pathValue (c : List Bool) : msbBits (pathValue c) c.length = c := by
  have h : ∀ c d : List Bool, c.length = d.length → pathValue c = pathValue d → c = d := by
    intro c
    induction c with
    | nil => intro d h _; cases d <;> simp_all
    | cons b c ih =>
      intro d hl hv
      cases d with
      | nil => simp at hl
      | cons b' d =>
        have hl' : c.length = d.length := by simpa using hl
        have e1 := pathValue_append [b] c
        have e2 := pathValue_append [b'] d
        simp only [List.singleton_append] at e1 e2
        rw [e1, e2, hl'] at hv
        have l1 := pathValue_lt c
        have l2 := pathValue_lt d
        rw [hl'] at l1
        have hb : b = b' := by
          cases b <;> cases b' <;> simp [pathValue] at hv ⊢ <;> simp [pathValue] at l1 l2 <;> omega
        subst hb
        rw [ih d hl' (by omega)]
  apply h
  · simp
  · rw [pathValue_msbBits, Nat.mod_eq_of_lt (pathValue_lt c)]

/-! ## The writer -/

theorem oneBit_getLsbD (k i : Nat) : (0x80#8 >>> k).getLsbD i = decide (i + k = 7) := by
  rw [BitVec.getLsbD_ushiftRight]
  by_cases h : k + i < 8
  · have : ∀ j < 8, (0x80#8).getLsbD j = decide (j = 7) := by decide
    rw [this _ h, Nat.add_comm]
  · rw [BitVec.getLsbD_of_ge _ _ (by omega)]
    simp; omega

theorem appendBit_wacc (s : State) (b : Bool) (i : Nat) (hi : i < 8) :
    (s.appendBit b).wacc.getLsbD i = if i + s.wk.toNat = 7 then b else s.wacc.getLsbD i := by
  cases b
  · simp only [State.appendBit, Bool.false_eq_true, if_false, BitVec.getLsbD_and, BitVec.getLsbD_not, oneBit_getLsbD]
    by_cases h : i + s.wk.toNat = 7 <;> simp [h, hi]
  · simp only [State.appendBit, if_true, BitVec.getLsbD_or, oneBit_getLsbD]
    by_cases h : i + s.wk.toNat = 7 <;> simp [h]

theorem appendBit_wk (s : State) (b : Bool) (h : s.wk.toNat ≤ 7) : (s.appendBit b).wk.toNat = s.wk.toNat + 1 := by
  simp [State.appendBit, BitVec.toNat_add]
  omega

theorem writerBits_length (s : State) (h : s.wk.toNat ≤ 8) : s.writerBits.length = s.wk.toNat := by
  simp [State.writerBits, h]

theorem writerBits_getElem (s : State) (i : Nat) (h : i < s.writerBits.length) :
    s.writerBits[i] = s.wacc.getLsbD (7 - i) := by
  simp [State.writerBits, msbBits_getElem, BitVec.getLsbD]

theorem appendBit_writerBits (s : State) (b : Bool) (h : s.wk.toNat ≤ 7) :
    (s.appendBit b).writerBits = s.writerBits ++ [b] := by
  have hk := appendBit_wk s b h
  apply List.ext_getElem
  · rw [writerBits_length _ (by omega), List.length_append, writerBits_length _ (by omega), hk]; rfl
  · intro i h1 h2
    rw [writerBits_length _ (by omega), hk] at h1
    rw [writerBits_getElem, appendBit_wacc _ _ _ (by omega)]
    rw [List.getElem_append]
    simp only [writerBits_length s (show s.wk.toNat ≤ 8 by omega)]
    by_cases hi : i < s.wk.toNat
    · rw [dif_pos hi, writerBits_getElem, if_neg (by omega)]
    · rw [dif_neg hi, if_pos (by omega)]
      simp

theorem appendBit_accLow (s : State) (b : Bool) (h : s.wk.toNat ≤ 7) (hl : s.AccLow) : (s.appendBit b).AccLow := by
  intro i hi
  rw [appendBit_wk s b h] at hi
  rw [appendBit_wacc _ _ _ (by omega), if_neg (by omega)]
  exact hl i (by omega)

theorem appendBit_sentBits (s : State) (b : Bool) (h : s.wk.toNat ≤ 7) :
    (s.appendBit b).sentBits = s.sentBits ++ [b] := by
  have : (s.appendBit b).outFifo = s.outFifo := rfl
  simp [State.sentBits, appendBit_writerBits s b h, this]

theorem byteBits_append (a b : List Byte) : byteBits (a ++ b) = byteBits a ++ byteBits b := by
  simp [byteBits]

theorem byteBits_length (a : List Byte) : (byteBits a).length = 8 * a.length := by
  induction a with
  | nil => rfl
  | cons x a ih => simp [byteBits] at ih ⊢; omega

/-- OutPush appends where there is room, and is what the core holds in where there is none (20_memory R84). -/
theorem outPush_cases (s : State) (b : Byte) :
    (s.outFull = true ∧ s.outPush b = none) ∨
      (s.outFull = false ∧ s.outPush b = some { s with outFifo := s.outFifo ++ [b], waitOut := false }) := by
  unfold State.outPush
  cases h : s.outFull <;> simp

/-- What `pushWacc` does: the accumulator's byte goes out and the writer is empty. -/
theorem pushWacc_cases (s : State) :
    (s.outFull = true ∧ s.pushWacc = none) ∨
      (s.outFull = false ∧ s.pushWacc =
        some { s with outFifo := s.outFifo ++ [s.wacc], waitOut := false, wacc := 0, wk := 0 }) := by
  unfold State.pushWacc
  rcases outPush_cases s s.wacc with ⟨h, e⟩ | ⟨h, e⟩ <;> simp [e, h]

/-- What `flushFull` does. -/
theorem flushFull_cases (s : State) :
    (s.wk ≠ 8 ∧ s.flushFull = some s) ∨ (s.wk = 8 ∧ s.outFull = true ∧ s.flushFull = none) ∨
      (s.wk = 8 ∧ s.outFull = false ∧ s.flushFull =
        some { s with outFifo := s.outFifo ++ [s.wacc], waitOut := false, wacc := 0, wk := 0 }) := by
  unfold State.flushFull
  by_cases h8 : s.wk = 8#4
  · right
    rcases pushWacc_cases s with ⟨h, e⟩ | ⟨h, e⟩ <;> simp [e, h, h8]
  · exact Or.inl ⟨h8, if_neg h8⟩

/-- `flushFull` keeps the output bit stream, and leaves the writer with WK ≤ 7. -/
theorem flushFull_some (s t : State) (hk : s.wk.toNat ≤ 8) (hl : s.AccLow) (h : s.flushFull = some t) :
    t.sentBits = s.sentBits ∧ t.wk.toNat ≤ 7 ∧ t.AccLow := by
  rcases flushFull_cases s with ⟨h8, e⟩ | ⟨_, _, e⟩ | ⟨h8, _, e⟩
  · rw [e] at h; cases h
    refine ⟨rfl, ?_, hl⟩
    have : s.wk.toNat ≠ 8 := fun hc => h8 (BitVec.eq_of_toNat_eq (by simpa using hc))
    omega
  · rw [e] at h; cases h
  · rw [e] at h; cases h
    refine ⟨?_, by simp, by intro i _; simp⟩
    simp [State.sentBits, State.writerBits, h8, byteBits]

/-- Only the writer, the OUT FIFO and WAIT_OUT change in a run of the writer. -/
theorem flushFull_frame (s t : State) (h : s.flushFull = some t) :
    t = { s with wacc := t.wacc, wk := t.wk, outFifo := t.outFifo, waitOut := t.waitOut } := by
  rcases flushFull_cases s with ⟨_, e⟩ | ⟨_, _, e⟩ | ⟨_, _, e⟩ <;> rw [e] at h <;> cases h <;> rfl

/-- The state a run of the writer ends in, finished or held. -/
def WriteRes.state : WriteRes → State
  | .done t => t
  | .held _ t => t

theorem writeBits_frame (bs : List Bool) (s : State) :
    (writeBits bs s).state = { s with
      wacc := (writeBits bs s).state.wacc, wk := (writeBits bs s).state.wk
      outFifo := (writeBits bs s).state.outFifo, waitOut := (writeBits bs s).state.waitOut } := by
  induction bs generalizing s with
  | nil =>
    unfold writeBits
    cases h : s.flushFull with
    | none => rfl
    | some t => exact flushFull_frame s t h
  | cons b bs ih =>
    unfold writeBits
    cases h : s.flushFull with
    | none => rfl
    | some t =>
      have e := flushFull_frame s t h
      simp only
      rw [ih (t.appendBit b)]
      simp only [State.appendBit]
      rw [e]

/-- `writeBits` (R131, R132) finished: the output bit stream has grown by exactly the bits given. -/
theorem writeBits_done (bs : List Bool) (s t : State) (hk : s.wk.toNat ≤ 8) (hl : s.AccLow)
    (h : writeBits bs s = .done t) : t.sentBits = s.sentBits ++ bs ∧ t.wk.toNat ≤ 7 ∧ t.AccLow := by
  induction bs generalizing s with
  | nil =>
    unfold writeBits at h
    cases hf : s.flushFull with
    | none => simp [hf] at h
    | some u =>
      simp [hf] at h
      subst h
      simpa using flushFull_some s u hk hl hf
  | cons b bs ih =>
    unfold writeBits at h
    cases hf : s.flushFull with
    | none => simp [hf] at h
    | some u =>
      simp [hf] at h
      obtain ⟨e, hu, hul⟩ := flushFull_some s u hk hl hf
      have := ih (u.appendBit b) (by rw [appendBit_wk u b hu]; omega) (appendBit_accLow u b hu hul) h
      rw [appendBit_sentBits u b hu, e] at this
      simpa using this

/-- `writeBits` held: the stream with the bits still to be written is the stream that was asked for; a full byte
waits, and the OUT FIFO is full (20_memory R84). -/
theorem writeBits_held (bs todo : List Bool) (s t : State) (hk : s.wk.toNat ≤ 8) (hl : s.AccLow)
    (h : writeBits bs s = .held todo t) :
    t.sentBits ++ todo = s.sentBits ++ bs ∧ t.wk = 8 ∧ t.AccLow ∧ t.outFull = true := by
  have key : ∀ u : State, u.flushFull = none → u.wk = 8 ∧ u.outFull = true := by
    intro u hu
    rcases flushFull_cases u with ⟨_, e⟩ | ⟨h8, hf, _⟩ | ⟨_, _, e⟩
    · rw [e] at hu; cases hu
    · exact ⟨h8, hf⟩
    · rw [e] at hu; cases hu
  induction bs generalizing s with
  | nil =>
    unfold writeBits at h
    cases hf : s.flushFull with
    | none =>
      simp [hf] at h
      obtain ⟨rfl, rfl⟩ := h
      exact ⟨rfl, (key _ hf).1, hl, (key _ hf).2⟩
    | some u => simp [hf] at h
  | cons b bs ih =>
    unfold writeBits at h
    cases hf : s.flushFull with
    | none =>
      simp [hf] at h
      obtain ⟨rfl, rfl⟩ := h
      exact ⟨rfl, (key _ hf).1, hl, (key _ hf).2⟩
    | some u =>
      simp [hf] at h
      obtain ⟨e, hu, hul⟩ := flushFull_some s u hk hl hf
      have := ih (u.appendBit b) (by rw [appendBit_wk u b hu]; omega) (appendBit_accLow u b hu hul) h
      rw [appendBit_sentBits u b hu, e] at this
      simpa using this

theorem sentBits_length (s : State) (h : s.wk.toNat ≤ 8) :
    s.sentBits.length = 8 * s.outFifo.length + s.wk.toNat := by
  simp [State.sentBits, byteBits_length, writerBits_length s h]

/-- Where the OUT FIFO has room for every byte that fills up, `writeBits` does not hold (20_memory R84). -/
theorem writeBits_room (bs : List Bool) (s : State) (hk : s.wk.toNat ≤ 8) (hl : s.AccLow)
    (h : (s.wk.toNat + bs.length) / 8 + s.outFifo.length ≤ s.params.outDepth) : ∃ t, writeBits bs s = .done t := by
  cases hw : writeBits bs s with
  | done t => exact ⟨t, rfl⟩
  | held todo t =>
    exfalso
    obtain ⟨e, h8, -, hf⟩ := writeBits_held bs todo s t hk hl hw
    have hfr := writeBits_frame bs s
    rw [hw] at hfr
    have hp : t.params = s.params := by
      have := congrArg State.params hfr
      simpa [WriteRes.state] using this
    have hlen := congrArg List.length e
    rw [List.length_append, List.length_append, sentBits_length s hk, sentBits_length t (by simp [h8])] at hlen
    simp [State.outFull, hp] at hf
    have : t.wk.toNat = 8 := by simp [h8]
    omega

/-! ## The reader -/

/-- What `readBit()` does (R134). -/
theorem readBit_cases (s : State) (hk : s.rk.toNat ≤ 8) :
    (s.readBit = .empty ∧ s.rk = 0 ∧ s.inFifo = [] ∧ s.pendingBits = []) ∨
      (s.readBit = .eos ∧ s.rk = 0 ∧ s.pendingBits = [] ∧ ∃ rest, s.inFifo = .fin :: rest) ∨
      (∃ b t, s.readBit = .bit b t ∧ s.pendingBits = b :: t.pendingBits ∧ t.rk.toNat ≤ 7 ∧
        t = { s with racc := t.racc, rk := t.rk, inFifo := t.inFifo, waitIn := t.waitIn }) := by
  unfold State.readBit
  by_cases h0 : s.rk = 0#4
  · simp only [h0]
    match hf : s.inFifo with
    | [] => left; simp [State.pendingBits, State.readerBits, h0, hf, msbBits, tokenBits]
    | .fin :: rest => right; left; simp [State.pendingBits, State.readerBits, h0, hf, msbBits, tokenBits]
    | .byte b :: rest =>
      right; right
      refine ⟨_, _, rfl, ?_, by simp, by simp [State.popped]⟩
      simp [State.pendingBits, State.readerBits, State.popped, h0, hf, msbBits, tokenBits, BitVec.getLsbD]
  · right; right
    simp only [h0]
    have hpos : s.rk.toNat ≠ 0 := fun hc => h0 (BitVec.eq_of_toNat_eq (by simpa using hc))
    have hsub : (s.rk - 1#4).toNat = s.rk.toNat - 1 := by
      rw [BitVec.toNat_sub, BitVec.toNat_ofNat]; omega
    refine ⟨_, _, rfl, ?_, by show (s.rk - 1#4).toNat ≤ 7; omega, rfl⟩
    simp only [State.pendingBits, State.readerBits, hsub]
    obtain ⟨m, hm⟩ := Nat.exists_eq_succ_of_ne_zero hpos
    rw [hm]
    simp [msbBits, BitVec.getLsbD]

/-- The state a run of the reader ends in. -/
def ReadRes.state : ReadRes → State
  | .held _ _ t => t
  | .eos _ _ t => t
  | .got _ t => t

theorem readBit_frame (s t : State) (b : Bool) (h : s.readBit = .bit b t) :
    t = { s with racc := t.racc, rk := t.rk, inFifo := t.inFifo, waitIn := t.waitIn } := by
  unfold State.readBit at h
  split at h
  · split at h <;> cases h
    rfl
  · cases h; rfl

/-- Only the reader, the IN FIFO and WAIT_IN change in a run of the reader. -/
theorem readBits_frame (left r k : Nat) (s : State) :
    (readBits left r k s).state = { s with
      racc := (readBits left r k s).state.racc, rk := (readBits left r k s).state.rk
      inFifo := (readBits left r k s).state.inFifo, waitIn := (readBits left r k s).state.waitIn } := by
  induction left generalizing r k s with
  | zero => rfl
  | succ n ih =>
    unfold readBits
    cases h : s.readBit with
    | empty => rfl
    | eos => rfl
    | bit b t =>
      have e := readBit_frame s t b h
      simp only
      rw [ih _ _ t]
      rw [e]

/-- What `readBits` does (R135): it takes bits off the front of the stream, and r grows by their number; it holds on
an empty IN FIFO and fails at End only when the stream has no further bit. -/
theorem readBits_cases (left r k : Nat) (s : State) (hk : s.rk.toNat ≤ 8) :
    (∃ t, readBits left r k s = .got (r * 2 ^ left + pathValue (s.pendingBits.take left)) t ∧
        left ≤ s.pendingBits.length ∧ t.pendingBits = s.pendingBits.drop left ∧ t.rk.toNat ≤ 8) ∨
      (s.pendingBits.length < left ∧ ∃ t,
        ((readBits left r k s = .held (r * 2 ^ s.pendingBits.length + pathValue s.pendingBits)
              (k + s.pendingBits.length) t ∧ t.inFifo = []) ∨
          (readBits left r k s = .eos (r * 2 ^ s.pendingBits.length + pathValue s.pendingBits)
              (k + s.pendingBits.length) t ∧ ∃ rest, t.inFifo = .fin :: rest)) ∧ t.rk = 0) := by
  induction left generalizing r k s with
  | zero => left; exact ⟨s, by simp [readBits, pathValue], by simp, by simp, hk⟩
  | succ n ih =>
    rcases readBit_cases s hk with ⟨e, h0, hf, hp⟩ | ⟨e, h0, hp, hf⟩ | ⟨b, u, e, hp, hu, -⟩
    · right
      refine ⟨by simp [hp], s, Or.inl ⟨by simp [readBits, e, hp, pathValue], hf⟩, h0⟩
    · right
      refine ⟨by simp [hp], s, Or.inr ⟨by simp [readBits, e, hp, pathValue], hf⟩, h0⟩
    · have hv : ∀ c : List Bool, pathValue (b :: c) = b.toNat * 2 ^ c.length + pathValue c := by
        intro c
        have := pathValue_append [b] c
        simpa [pathValue] using this
      rcases ih (2 * r + b.toNat) (k + 1) u (by omega) with ⟨t, e', hl, ht, hkt⟩ | ⟨hl, t, h', h0⟩
      · left
        refine ⟨t, ?_, by simp [hp, hl], by simp [hp, ht], hkt⟩
        simp only [readBits, e, e', hp, List.take_succ_cons, hv, List.length_take, Nat.min_eq_left hl, Nat.pow_succ]
        congr 1
        ring
      · right
        refine ⟨by simp [hp, hl], t, ?_, h0⟩
        have hr : r * 2 ^ (b :: u.pendingBits).length + pathValue (b :: u.pendingBits)
            = (2 * r + b.toNat) * 2 ^ u.pendingBits.length + pathValue u.pendingBits := by
          rw [hv, List.length_cons, Nat.pow_succ]; ring
        have hkk : k + (b :: u.pendingBits).length = k + 1 + u.pendingBits.length := by simp; omega
        simp only [readBits, e, hp, hr, hkk]
        exact h'

end Sys2Proof.Machine
end

