-- ==== Sys2Proof/Laws/Table.lean ====
section
/-! SUPPORT. The frequency table: reads after writes, the present symbols and the sum (spec/10_state.md R40, R60 V1, V2). -/

namespace Sys2Proof.Machine

theorem setFreq_self (t : Vector Word 256) (x : Byte) (v : Word) : (setFreq t x v)[x.toNat]'x.isLt = v := by
  simp [setFreq]

theorem setFreq_other (t : Vector Word 256) (x y : Byte) (v : Word) (h : y ≠ x) :
    (setFreq t x v)[y.toNat]'y.isLt = t[y.toNat]'y.isLt := by
  have : x.toNat ≠ y.toNat := fun e => h (BitVec.eq_of_toNat_eq e.symm)
  simp [setFreq, this]

theorem present_length (t : Vector Word 256) : (present t).length = t.toList.countP (fun v => v != 0#64) := by
  have h : ∀ (l : List Word) (k : Nat),
      ((l.zipIdx k).filter fun e => e.1 != 0#64).length = l.countP (fun v => v != 0#64) := by
    intro l
    induction l with
    | nil => simp
    | cons a l ih => intro k; by_cases ha : a = 0#64 <;> simp [List.zipIdx_cons, ha, ih]
  simp [present, h]

theorem list_set_split (t : Vector Word 256) (x : Byte) (v : Word) :
    (setFreq t x v).toList = t.toList.take x.toNat ++ v :: t.toList.drop (x.toNat + 1) ∧
      t.toList = t.toList.take x.toNat ++ (t[x.toNat]'x.isLt) :: t.toList.drop (x.toNat + 1) := by
  have hx : x.toNat < 256 := x.isLt
  constructor
  · rw [setFreq, Vector.toList_set, List.set_eq_take_append_cons_drop, if_pos (by simpa using hx)]
  · have hg : t.toList[x.toNat]'(by simpa using hx) = t[x.toNat]'x.isLt := by simp
    rw [← hg, List.cons_getElem_drop_succ, List.take_append_drop]

theorem present_length_setFreq (t : Vector Word 256) (x : Byte) (v : Word) :
    (present (setFreq t x v)).length + (if (t[x.toNat]'x.isLt) = 0#64 then 0 else 1)
      = (present t).length + (if v = 0#64 then 0 else 1) := by
  obtain ⟨h1, h2⟩ := list_set_split t x v
  have key : ∀ a : Word, List.countP (fun v : Word => v != 0#64) (t.toList.take x.toNat ++ a :: t.toList.drop (x.toNat + 1))
      = List.countP (fun v : Word => v != 0#64) (t.toList.take x.toNat ++ t.toList.drop (x.toNat + 1))
        + (if a = 0#64 then 0 else 1) := by
    intro a
    by_cases ha : a = 0#64 <;> simp [ha, Nat.add_assoc]
  have e2 := congrArg (List.countP fun v : Word => v != 0#64) h2
  rw [key] at e2
  rw [present_length, present_length, h1, key, e2]
  omega

theorem tableSum_setFreq (t : Vector Word 256) (x : Byte) (v : Word) :
    tableSum (setFreq t x v) + (t[x.toNat]'x.isLt).toNat = tableSum t + v.toNat := by
  obtain ⟨h1, h2⟩ := list_set_split t x v
  have e2 := congrArg (fun l => (l.map BitVec.toNat).sum) h2
  rw [tableSum, tableSum, h1, e2]
  simp only [List.map_append, List.sum_append, List.map_cons, List.sum_cons]
  omega

theorem freq_le_tableSum (t : Vector Word 256) (x : Byte) : (t[x.toNat]'x.isLt).toNat ≤ tableSum t := by
  have := tableSum_setFreq t x 0#64
  have h0 : (0#64).toNat = 0 := rfl
  omega

theorem present_length_le (t : Vector Word 256) : (present t).length ≤ 256 := by
  rw [present_length]
  have := List.countP_le_length (p := fun v : Word => v != 0#64) (l := t.toList)
  simpa using this

@[simp] theorem present_empty : present (Vector.replicate 256 0#64) = [] := by decide +kernel

@[simp] theorem tableSum_empty : tableSum (Vector.replicate 256 0#64) = 0 := by decide +kernel

theorem mem_present (t : Vector Word 256) (x : Byte) (f : Word) :
    (x, f) ∈ present t ↔ (t[x.toNat]'x.isLt) = f ∧ f ≠ 0#64 := by
  simp only [present, List.mem_map, List.mem_filter, Prod.mk.injEq, bne_iff_ne]
  constructor
  · rintro ⟨⟨a, i⟩, ⟨hm, hne⟩, hi, rfl⟩
    rw [List.mem_zipIdx_iff_getElem?] at hm
    obtain ⟨hlt, hv⟩ := List.getElem?_eq_some_iff.mp hm
    simp only [Vector.length_toList, Vector.getElem_toList] at hlt hv
    subst hi
    refine ⟨?_, hne⟩
    simpa [Nat.mod_eq_of_lt hlt] using hv
  · rintro ⟨rfl, hne⟩
    refine ⟨(t[x.toNat]'x.isLt, x.toNat), ⟨?_, hne⟩, by simp, rfl⟩
    rw [List.mem_zipIdx_iff_getElem?]
    simp

theorem present_sum (t : Vector Word 256) : ((present t).map fun e => e.2.toNat).sum = tableSum t := by
  have h : ∀ (l : List Word) (k : Nat),
      ((((l.zipIdx k).filter fun e => e.1 != 0#64).map fun e => (BitVec.ofNat 8 e.2, e.1)).map
        fun e : Byte × Word => e.2.toNat).sum = (l.map BitVec.toNat).sum := by
    intro l
    induction l with
    | nil => simp
    | cons a l ih => intro k; by_cases ha : a = 0#64 <;> simp [List.zipIdx_cons, ha] <;> simpa using ih (k + 1)
  exact h t.toList 0

/-- The present symbols stand in strictly ascending order (42_tree R171). -/
theorem present_ascending (t : Vector Word 256) : (present t).Pairwise fun a b => a.1.toNat < b.1.toNat := by
  have h : ∀ (l : List Word) (k : Nat), k + l.length ≤ 256 →
      ((((l.zipIdx k).filter fun e => e.1 != 0#64).map fun e => (BitVec.ofNat 8 e.2, e.1)) :
        List (Byte × Word)).Pairwise fun a b => a.1.toNat < b.1.toNat := by
    intro l
    induction l with
    | nil => simp
    | cons a l ih =>
      intro k hk
      simp at hk
      have ht := ih (k + 1) (by omega)
      by_cases ha : a = 0#64
      · simpa [List.zipIdx_cons, ha] using ht
      · simp only [List.zipIdx_cons, bne_iff_ne, ne_eq, ha, not_false_eq_true, List.filter_cons_of_pos, List.map_cons,
          List.pairwise_cons]
        refine ⟨?_, by simpa using ht⟩
        intro e he
        simp only [List.mem_map, List.mem_filter] at he
        obtain ⟨⟨b, i⟩, ⟨hm, -⟩, rfl⟩ := he
        have := List.mem_zipIdx hm
        simp
        omega
  exact h t.toList 0 (by simp)

end Sys2Proof.Machine
end

