-- ==== Sys2Proof/Laws/Tree.lean ====
section
/-! SUPPORT. What the tree builder makes (spec/42_tree.md R170..R177): a tree, as a term, that the arena represents. -/

namespace Sys2Proof.Machine

/-- A Huffman tree as a term: what NODE represents. -/
inductive HTree where
  | leaf (sym : Byte) (f : Word)
  | node (f : Word) (l r : HTree)

/-- The leaves, left to right. -/
def HTree.leaves : HTree → List (Byte × Word)
  | .leaf x f => [(x, f)]
  | .node _ l r => l.leaves ++ r.leaves

/-- The node count. -/
def HTree.size : HTree → Nat
  | .leaf _ _ => 1
  | .node _ l r => l.size + r.size + 1

/-- The frequency at the top. -/
def HTree.freq : HTree → Word
  | .leaf _ f => f
  | .node f _ _ => f

/-- The codes with the path `p` before them, leaves left to right. -/
def HTree.codes : HTree → List Bool → List (Byte × List Bool)
  | .leaf x _, p => [(x, p)]
  | .node _ l r, p => l.codes (p ++ [false]) ++ r.codes (p ++ [true])

theorem HTree.leaves_pos (t : HTree) : 1 ≤ t.leaves.length := by
  induction t with
  | leaf => simp [HTree.leaves]
  | node _ l r ihl ihr => simp [HTree.leaves]; omega

theorem HTree.size_eq (t : HTree) : t.size + 1 = 2 * t.leaves.length := by
  induction t with
  | leaf => simp [HTree.leaves, HTree.size]
  | node _ l r ihl ihr => simp [HTree.leaves, HTree.size]; omega

/-- Arena entry `i` represents a tree. -/
inductive Rep (arena : List Node) : Nat → HTree → Prop where
  | leaf (i : Nat) (x : Byte) (f : Word) (h : arena[i]? = some (leafNode (x, f))) : Rep arena i (.leaf x f)
  | node (i a b : Nat) (f : Word) (l r : HTree) (h : arena[i]? = some (mergedNode f a b)) (ha : a < i) (hb : b < i)
      (hl : Rep arena a l) (hr : Rep arena b r) (hf : f.toNat = l.freq.toNat + r.freq.toNat) :
      Rep arena i (.node f l r)

theorem Rep.mono {arena more : List Node} {i : Nat} {t : HTree} (h : Rep arena i t) : Rep (arena ++ more) i t := by
  have get : ∀ (i : Nat) (n : Node), arena[i]? = some n → (arena ++ more)[i]? = some n := by
    intro i n h
    rw [List.getElem?_append_left (List.getElem?_eq_some_iff.mp h).1]
    exact h
  induction h with
  | leaf i x f h => exact .leaf i x f (get _ _ h)
  | node i a b f l r h ha hb _ _ hf ihl ihr => exact .node i a b f l r (get _ _ h) ha hb ihl ihr hf

theorem Rep.lt {arena : List Node} {i : Nat} {t : HTree} (h : Rep arena i t) : i < arena.length := by
  cases h with
  | leaf _ _ _ h => exact (List.getElem?_eq_some_iff.mp h).1
  | node _ _ _ _ _ _ h => exact (List.getElem?_eq_some_iff.mp h).1

/-- The extraction (R173, R174): an element whose key no other's precedes, and the others. -/
theorem extractMin_spec (pq : List Key) (m : Key) (rest : List Key) (h : extractMin pq = some (m, rest)) :
    (m :: rest).Perm pq ∧ ∀ k ∈ rest, k.before m = false := by
  have trans : ∀ a b c : Key, a.before b = true → b.before c = true → a.before c = true := by
    intro a b c h1 h2
    simp only [Key.before, decide_eq_true_eq] at *
    rcases h1 with h1 | ⟨e1, h1⟩ <;> rcases h2 with h2 | ⟨e2, h2⟩
    · left; omega
    · left; rw [← e2]; exact h1
    · left; rw [e1]; exact h2
    · right; exact ⟨e1.trans e2, by omega⟩
  have irr : ∀ a b : Key, a.before b = true → b.before a = false := by
    intro a b h1
    simp only [Key.before, decide_eq_true_eq, decide_eq_false_iff_not, not_or, not_and] at *
    rcases h1 with h1 | ⟨e1, h1⟩
    · exact ⟨by omega, fun e => by rw [e] at h1; omega⟩
    · exact ⟨by rw [e1]; omega, fun _ => by omega⟩
  induction pq generalizing m rest with
  | nil => simp [extractMin] at h
  | cons k ks ih =>
    unfold extractMin at h
    cases hm : extractMin ks with
    | none =>
      simp [hm] at h
      obtain ⟨rfl, rfl⟩ := h
      cases ks with
      | nil => simp
      | cons a l =>
        exfalso
        unfold extractMin at hm
        split at hm
        · cases hm
        · split at hm <;> cases hm
    | some p =>
      obtain ⟨m', rest'⟩ := p
      obtain ⟨hp, hmin⟩ := ih m' rest' hm
      simp only [hm] at h
      split at h
      · rename_i hb
        simp at h
        obtain ⟨rfl, rfl⟩ := h
        refine ⟨List.Perm.refl _, ?_⟩
        intro x hx
        rcases List.mem_cons.mp (hp.mem_iff.mpr hx) with rfl | hx'
        · exact irr _ _ hb
        · cases hxk : x.before k with
          | false => rfl
          | true => exact absurd (hmin x hx') (by simp [trans x k m' hxk hb])
      · rename_i hb
        simp at h
        obtain ⟨rfl, rfl⟩ := h
        refine ⟨(List.Perm.swap _ _ _).trans (hp.cons k), ?_⟩
        intro x hx
        rcases List.mem_cons.mp hx with rfl | hx'
        · simpa using hb
        · exact hmin x hx'

theorem extractMin_some (pq : List Key) (h : pq ≠ []) : ∃ m rest, extractMin pq = some (m, rest) := by
  cases pq with
  | nil => exact absurd rfl h
  | cons k ks =>
    unfold extractMin
    split
    · exact ⟨_, _, rfl⟩
    · split <;> exact ⟨_, _, rfl⟩

/-- The queue's elements, each with the tree its arena entry represents. -/
def Forest (arena : List Node) (pq : List Key) (ts : List HTree) : Prop :=
  List.Forall₂ (fun k t => Rep arena k.idx t ∧ k.f = t.freq) pq ts

theorem Forest.perm {arena : List Node} {pq pq' : List Key} {ts : List HTree} (hp : pq'.Perm pq)
    (h : Forest arena pq ts) : ∃ ts', Forest arena pq' ts' ∧ ts'.Perm ts := by
  induction hp generalizing ts with
  | nil => exact ⟨ts, h, List.Perm.refl _⟩
  | cons k _ ih =>
    cases h with
    | cons ht hts =>
      obtain ⟨ts', h1, h2⟩ := ih hts
      exact ⟨_ :: ts', List.Forall₂.cons ht h1, h2.cons _⟩
  | swap a b l =>
    cases h with
    | cons ha hl =>
      cases hl with
      | cons hb hl => exact ⟨_, List.Forall₂.cons hb (List.Forall₂.cons ha hl), List.Perm.swap _ _ _⟩
  | trans _ _ ih1 ih2 =>
    obtain ⟨t2, h2, p2⟩ := ih2 h
    obtain ⟨t1, h1, p1⟩ := ih1 h2
    exact ⟨t1, h1, p1.trans p2⟩

/-- The sum of the frequencies at the tops. -/
def forestSum (ts : List HTree) : Nat := (ts.map fun t => t.freq.toNat).sum

theorem forestSum_perm {ts ts' : List HTree} (h : ts.Perm ts') : forestSum ts = forestSum ts' :=
  (h.map _).sum_eq

/-- What the merge loop makes (R177): with n merges it leaves one element, and the arena, grown by n internal nodes,
represents one tree over all the leaves; after a merge the root is the last entry. -/
theorem mergeLoop_spec (n : Nat) (arena : List Node) (pq : List Key) (ts : List HTree)
    (hlen : pq.length = n + 1) (hf : Forest arena pq ts) (hsum : forestSum ts < 2 ^ 64) :
    ∃ k t more, mergeLoop n arena pq = (arena ++ more, [k]) ∧ more.length = n ∧
      Rep (arena ++ more) k.idx t ∧ t.leaves.Perm (ts.flatMap HTree.leaves) ∧
      t.freq.toNat = forestSum ts ∧ (n ≠ 0 → k.idx + 1 = (arena ++ more).length) ∧
      (∀ k0, pq = [k0] → k = k0) ∧
      ∀ j, arena.length ≤ j → j < (arena ++ more).length → ∃ f a b na nb,
        (arena ++ more)[j]? = some (mergedNode f a b) ∧ a < j ∧ b < j ∧ (arena ++ more)[a]? = some na ∧
          (arena ++ more)[b]? = some nb ∧ f.toNat = na.f.toNat + nb.f.toNat := by
  induction n generalizing arena pq ts with
  | zero =>
    match pq, hlen with
    | [k], _ =>
      cases hf with
      | cons hk hnil =>
        cases hnil
        rename_i t
        refine ⟨k, t, [], ?_, rfl, ?_, ?_, ?_, ?_, ?_, ?_⟩
        · simp [mergeLoop]
        · simpa using hk.1
        · simp
        · simp [forestSum]
        · simp
        · intro k0 h; simpa using h
        · intro j h1 h2; simp at h2; omega
  | succ n ih =>
    obtain ⟨a, pq1, e1⟩ := extractMin_some pq (by intro h; simp [h] at hlen)
    have p1 := (extractMin_spec pq a pq1 e1).1
    have l1 : pq1.length = n + 1 := by have := p1.length_eq; simp at this; omega
    obtain ⟨b, pq2, e2⟩ := extractMin_some pq1 (by intro h; simp [h] at l1)
    have p2 := (extractMin_spec pq1 b pq2 e2).1
    have l2 : pq2.length = n := by have := p2.length_eq; simp at this; omega
    obtain ⟨ts1, hf1, hp1⟩ := Forest.perm (p1) hf
    cases hf1 with
    | @cons _ ta _ ts1' ha hf1 =>
      obtain ⟨ts2, hf2, hp2⟩ := Forest.perm p2 hf1
      cases hf2 with
      | @cons _ tb _ ts2' hb hf2 =>
        have hsum1 : forestSum ts = ta.freq.toNat + (tb.freq.toNat + forestSum ts2') := by
          rw [← forestSum_perm hp1]
          have := forestSum_perm hp2
          simp [forestSum] at this ⊢
          omega
        have hadd : (a.f + b.f).toNat = ta.freq.toNat + tb.freq.toNat := by
          rw [BitVec.toNat_add, ha.2, hb.2]
          apply Nat.mod_eq_of_lt
          omega
        have hnew : (arena ++ [mergedNode (a.f + b.f) a.idx b.idx])[arena.length]? =
            some (mergedNode (a.f + b.f) a.idx b.idx) := by simp
        have hrep : Rep (arena ++ [mergedNode (a.f + b.f) a.idx b.idx]) arena.length
            (.node (a.f + b.f) ta tb) :=
          .node _ _ _ _ _ _ hnew ha.1.lt hb.1.lt ha.1.mono hb.1.mono hadd
        have hforest : Forest (arena ++ [mergedNode (a.f + b.f) a.idx b.idx])
            ({ f := a.f + b.f, idx := arena.length } :: pq2) (.node (a.f + b.f) ta tb :: ts2') :=
          List.Forall₂.cons ⟨hrep, rfl⟩ (hf2.imp fun _ _ h => ⟨h.1.mono, h.2⟩)
        have hsum2 : forestSum (.node (a.f + b.f) ta tb :: ts2') = forestSum ts := by
          have : (HTree.node (a.f + b.f) ta tb).freq = a.f + b.f := rfl
          rw [hsum1]
          simp only [forestSum, List.map_cons, List.sum_cons, this, hadd]
          omega
        obtain ⟨k, t, more, em, lm, hr, hlv, hfr, hidx, hone, hin⟩ :=
          ih _ _ (.node (a.f + b.f) ta tb :: ts2') (by simp [l2]) hforest (by omega)
        refine ⟨k, t, mergedNode (a.f + b.f) a.idx b.idx :: more, ?_, by simp [lm], ?_, ?_, by omega, ?_, ?_, ?_⟩
        · simp [mergeLoop, e1, e2, em]
        · simpa using hr
        · refine hlv.trans ?_
          have q1 : (ts.flatMap HTree.leaves).Perm (ta.leaves ++ (tb.leaves ++ ts2'.flatMap HTree.leaves)) := by
            refine (hp1.symm.flatMap_right _).trans ?_
            simp only [List.flatMap_cons]
            exact (List.Perm.append_left _ ((hp2.symm.flatMap_right _)))
          refine List.Perm.trans ?_ q1.symm
          simp [HTree.leaves]
        · intro _
          by_cases hn : n = 0
          · subst hn
            have hk : k = { f := a.f + b.f, idx := arena.length } := by
              apply hone
              have : pq2 = [] := by simpa using l2
              simp [this]
            have : more = [] := by simpa using lm
            simp [hk, this]
          · have := hidx hn
            simpa using this
        · intro k0 h0
          simp [h0] at hlen
        · intro j h1 h2
          have happ : arena ++ mergedNode (a.f + b.f) a.idx b.idx :: more =
              arena ++ [mergedNode (a.f + b.f) a.idx b.idx] ++ more := by simp
          rw [happ] at h2 ⊢
          by_cases hj : j = arena.length
          · subst hj
            have nodeF : ∀ (i : Nat) (t : HTree), Rep arena i t → ∃ nd, arena[i]? = some nd ∧ nd.f = t.freq := by
              intro i t h
              cases h with
              | leaf _ _ _ h => exact ⟨_, h, rfl⟩
              | node _ _ _ _ _ _ h => exact ⟨_, h, rfl⟩
            obtain ⟨na, hna, fa⟩ := nodeF _ _ ha.1
            obtain ⟨nb, hnb, fb⟩ := nodeF _ _ hb.1
            have up : ∀ (i : Nat) (nd : Node), arena[i]? = some nd →
                (arena ++ [mergedNode (a.f + b.f) a.idx b.idx] ++ more)[i]? = some nd := by
              intro i nd h
              rw [List.append_assoc, List.getElem?_append_left (List.getElem?_eq_some_iff.mp h).1]
              exact h
            refine ⟨a.f + b.f, a.idx, b.idx, na, nb, ?_, ha.1.lt, hb.1.lt, up _ _ hna, up _ _ hnb, ?_⟩
            · rw [List.getElem?_append_left (by simp)]; exact hnew
            · rw [hadd, fa, fb]
          · exact hin j (by simp; omega) h2

/-- The leaves' queue represents the leaves' trees. -/
theorem initial_forest (es : List (Byte × Word)) :
    Forest (es.map leafNode) (initialQueue (es.map leafNode)) (es.map fun e => .leaf e.1 e.2) := by
  have h : ∀ (es pre : List (Byte × Word)), List.Forall₂
      (fun k t => Rep ((pre ++ es).map leafNode) k.idx t ∧ k.f = t.freq)
      (((es.map leafNode).zipIdx pre.length).map fun e => ({ f := e.1.f, idx := e.2 } : Key))
      (es.map fun e => HTree.leaf e.1 e.2) := by
    intro es
    induction es with
    | nil => intro pre; exact List.Forall₂.nil
    | cons e es ih =>
      intro pre
      simp only [List.map_cons, List.zipIdx_cons]
      refine List.Forall₂.cons ⟨.leaf _ _ _ (by simp), rfl⟩ ?_
      have := ih (pre ++ [e])
      simpa using this
  have := h es []
  simpa [Forest, initialQueue] using this

/-- The tree of a table (R170..R177, R179): 2N − 1 entries, the root at 2N − 2, the leaves first in ascending symbol
order, every later entry internal over two earlier ones with the sum of their frequencies, and one tree over all. -/
theorem buildTree_spec (t : Vector Word 256) (hne : present t ≠ []) (hsum : tableSum t < 2 ^ 64) :
    ∃ k tree more, buildTree t = (leaves t ++ more, [k]) ∧
      more.length = (present t).length - 1 ∧ k.idx = 2 * (present t).length - 2 ∧
      Rep (leaves t ++ more) k.idx tree ∧ tree.leaves.Perm (present t) ∧ tree.freq.toNat = tableSum t ∧
      ∀ j, (present t).length ≤ j → j < (leaves t ++ more).length → ∃ f a b na nb,
        (leaves t ++ more)[j]? = some (mergedNode f a b) ∧ a < j ∧ b < j ∧ (leaves t ++ more)[a]? = some na ∧
          (leaves t ++ more)[b]? = some nb ∧ f.toNat = na.f.toNat + nb.f.toNat := by
  have hpos : 1 ≤ (present t).length := List.length_pos_iff.mpr hne
  have hll : (leaves t).length = (present t).length := by simp [leaves]
  have hfl : ∀ es : List (Byte × Word),
      forestSum (es.map fun e => HTree.leaf e.1 e.2) = (es.map fun e => e.2.toNat).sum := by
    intro es; simp [forestSum, HTree.freq, Function.comp_def]
  have hlv : ∀ es : List (Byte × Word), (es.map fun e => HTree.leaf e.1 e.2).flatMap HTree.leaves = es := by
    intro es; induction es <;> simp_all [HTree.leaves]
  have hfor : Forest (leaves t) (initialQueue (leaves t)) ((present t).map fun e => HTree.leaf e.1 e.2) :=
    initial_forest (present t)
  obtain ⟨k, tree, more, e, hm, hr, hp, hf, hidx, hone, hin⟩ :=
    mergeLoop_spec ((leaves t).length - 1) (leaves t) (initialQueue (leaves t))
      ((present t).map fun e => HTree.leaf e.1 e.2) (by simp [initialQueue]; omega) hfor
      (by rw [hfl, present_sum]; exact hsum)
  refine ⟨k, tree, more, e, by omega, ?_, hr, by rwa [hlv] at hp, by rw [hf, hfl, present_sum], ?_⟩
  · by_cases h1 : (present t).length = 1
    · obtain ⟨n, hn⟩ := List.length_eq_one_iff.mp (hll.trans h1)
      rw [hone { f := n.f, idx := 0 } (by simp [initialQueue, hn]), h1]
    · have := hidx (by omega)
      simp at this
      omega
  · intro j h1 h2
    exact hin j (by omega) h2

/-- The tree is nonempty wherever SYMCNT is not 0. -/
theorem present_ne_nil (s : State) (h : s.TableOk) (h0 : s.symCnt ≠ 0#9) : present s.freq ≠ [] := by
  intro hc
  have := h.1
  rw [hc] at this
  exact h0 (BitVec.eq_of_toNat_eq (by simpa using this))

theorem tableSum_lt (s : State) (h : s.TableOk) : tableSum s.freq < 2 ^ 64 := by
  rw [← h.2]; exact s.total.isLt

theorem writeArena_get (old : Vector Node 511) (arena : List Node) (i : Nat) (hi : i < arena.length)
    (hl : arena.length ≤ 511) : (writeArena old arena)[i]? = arena[i]? := by
  have h5 : i < 511 := by omega
  rw [List.getElem?_eq_getElem hi, Vector.getElem?_eq_getElem h5]
  simp [writeArena, hi]

end Sys2Proof.Machine
end

