-- ==== Sys2Proof/Laws/Codegen.lean ====
section
/-! SUPPORT. The codes of a sound tree: paths, prefix-free, one for each present symbol (spec/43_codegen.md R190..R195). -/

namespace Sys2Proof.Machine

/-! ## Codes of a tree as a term -/

theorem HTree.codes_path (t : HTree) (p : List Bool) :
    ∀ e ∈ t.codes p, ∃ q, e.2 = p ++ q ∧ q.length < t.leaves.length := by
  induction t generalizing p with
  | leaf x f => intro e he; simp [HTree.codes] at he; exact ⟨[], by simp [he], by simp [HTree.leaves]⟩
  | node f l r ihl ihr =>
    intro e he
    have h1 := l.leaves_pos
    have h2 := r.leaves_pos
    simp only [HTree.codes, List.mem_append] at he
    rcases he with he | he
    · obtain ⟨q, hq, hl⟩ := ihl _ e he
      exact ⟨false :: q, by simp [hq], by simp [HTree.leaves]; omega⟩
    · obtain ⟨q, hq, hl⟩ := ihr _ e he
      exact ⟨true :: q, by simp [hq], by simp [HTree.leaves]; omega⟩

theorem HTree.codes_syms (t : HTree) (p : List Bool) : (t.codes p).map Prod.fst = t.leaves.map Prod.fst := by
  induction t generalizing p with
  | leaf => rfl
  | node f l r ihl ihr => simp [HTree.codes, HTree.leaves, ihl, ihr]

/-- No code of a tree is a prefix of another's (R195). -/
theorem HTree.codes_prefixFree (t : HTree) (p : List Bool) :
    (t.codes p).Pairwise fun a b => ¬ a.2 <+: b.2 ∧ ¬ b.2 <+: a.2 := by
  induction t generalizing p with
  | leaf => simp [HTree.codes]
  | node f l r ihl ihr =>
    rw [HTree.codes, List.pairwise_append]
    refine ⟨ihl _, ihr _, ?_⟩
    intro a ha b hb
    obtain ⟨q, hq, -⟩ := l.codes_path _ a ha
    obtain ⟨q', hq', -⟩ := r.codes_path _ b hb
    rw [hq, hq']
    constructor <;> intro h <;> simp [List.append_assoc, List.prefix_append_right_inj] at h

/-- The codes fill the code space (R195): Σ 2^(m − len) = 2^(m − |p|). -/
theorem HTree.codes_kraft (t : HTree) (p : List Bool) (m : Nat) (hm : p.length + t.leaves.length ≤ m + 1) :
    ((t.codes p).map fun e => 2 ^ (m - e.2.length)).sum = 2 ^ (m - p.length) := by
  induction t generalizing p with
  | leaf => simp [HTree.codes]
  | node f l r ihl ihr =>
    have h1 := l.leaves_pos
    have h2 := r.leaves_pos
    simp only [HTree.leaves, List.length_append] at hm
    rw [HTree.codes, List.map_append, List.sum_append, ihl _ (by simp; omega), ihr _ (by simp; omega)]
    have : m - p.length = (m - (p.length + 1)) + 1 := by omega
    simp only [List.length_append, List.length_cons, List.length_nil, Nat.zero_add]
    rw [this, Nat.pow_succ]
    omega

/-! ## A sound state's tree -/

/-- The arena of a state, as the tree builder made it, and the tree it represents. -/
structure SoundTree (s : State) (arena : List Node) (tree : HTree) : Prop where
  rep : Rep arena s.root.toNat tree
  get : ∀ i, i < arena.length → s.node[i]? = arena[i]?
  len : arena.length ≤ 511
  leaves : tree.leaves.Perm (present s.freq)
  freq : tree.freq = s.total

/-- The arena and the tree are functions of the table. -/
theorem soundTree_of_table (s : State) (ht : s.TableOk) (hk : s.TreeOk) (hv : s.treeValid = true) :
    ∃ arena tree, ∀ d : State, d.freq = s.freq → d.TableOk → d.TreeOk → d.treeValid = true → SoundTree d arena tree := by
  obtain ⟨h0, -, -, -⟩ := hk hv
  obtain ⟨k, tree, more, e, hm, hi, hrep, hp, hf, -⟩ :=
    buildTree_spec s.freq (present_ne_nil s ht h0) (tableSum_lt s ht)
  have hle := present_length_le s.freq
  have hll : (Machine.leaves s.freq).length = (present s.freq).length := by simp [Machine.leaves]
  have hpos : 1 ≤ (present s.freq).length := List.length_pos_iff.mpr (present_ne_nil s ht h0)
  refine ⟨Machine.leaves s.freq ++ more, tree, fun d hd hdt hdk hdv => ?_⟩
  obtain ⟨-, hn, hg, hr⟩ := hdk hdv
  rw [hd, e] at hg hr
  refine ⟨?_, ?_, ?_, by rw [hd]; exact hp, ?_⟩
  · have : d.root.toNat = k.idx := by rw [hr]; simp [rootOf]
    rwa [this]
  · intro i hi'
    apply hg
    rw [hn, hdt.1, hd]
    simp at hi'
    omega
  · simp; omega
  · apply BitVec.eq_of_toNat_eq
    rw [hf, hdt.2, hd]

theorem soundTree_of_ok (s : State) (ht : s.TableOk) (hk : s.TreeOk) (hv : s.treeValid = true) :
    ∃ arena tree, SoundTree s arena tree := by
  obtain ⟨arena, tree, h⟩ := soundTree_of_table s ht hk hv
  exact ⟨arena, tree, h s rfl ht hk hv⟩

theorem nodeAt_of_get {s : State} {arena : List Node} (hg : ∀ i, i < arena.length → s.node[i]? = arena[i]?)
    {i : BitVec 9} {n : Node} (h : arena[i.toNat]? = some n) : s.nodeAt i = n := by
  have := hg i.toNat (List.getElem?_eq_some_iff.mp h).1
  simp [State.nodeAt, this, h]

/-- At an internal node the children lie in the arena, and the 9-bit index names them. -/
theorem child_toNat {arena : List Node} (hl : arena.length ≤ 511) {f : Word} {a b i : Nat} (hi : i < arena.length)
    (ha : a < i) (hb : b < i) :
    ((mergedNode f a b).child false).toNat = a ∧ ((mergedNode f a b).child true).toNat = b := by
  simp [Node.child, mergedNode]
  omega

/-- The traversal reads the arena alone. -/
theorem walkTree_congr {s t : State} (hn : t.node = s.node) (n : Nat) (stack : List (BitVec 9 × List Bool)) :
    walkTree t n stack = walkTree s n stack := by
  have ha : ∀ i, t.nodeAt i = s.nodeAt i := fun i => by simp [State.nodeAt, hn]
  induction n generalizing stack with
  | zero => rfl
  | succ n ih =>
    cases stack with
    | nil => rfl
    | cons e stack => simp only [walkTree, ha, ih]

theorem treeCodes_congr {s t : State} (hn : t.node = s.node) (hr : t.root = s.root) : t.treeCodes = s.treeCodes := by
  have ha : ∀ i, t.nodeAt i = s.nodeAt i := fun i => by simp [State.nodeAt, hn]
  simp only [State.treeCodes, ha, hr, walkTree_congr hn]

theorem codesOk_congr {s t : State} (hn : t.node = s.node) (hr : t.root = s.root) (hc : t.code = s.code)
    (ht : t.treeValid = s.treeValid) (hv : t.codesValid = s.codesValid) (h : s.CodesOk) : t.CodesOk := by
  intro h1
  obtain ⟨h2, h3⟩ := h (hv ▸ h1)
  exact ⟨ht.trans h2, by rw [hc, h3, treeCodes_congr hn hr]⟩

/-- The traversal of R193 meets the leaves of a subtree with their paths, and goes on with its stack. -/
theorem walkTree_rep {s : State} {arena : List Node} (hg : ∀ i, i < arena.length → s.node[i]? = arena[i]?)
    (hl : arena.length ≤ 511) (t : HTree) (i : BitVec 9) (hr : Rep arena i.toNat t) (p : List Bool) (n : Nat)
    (st : List (BitVec 9 × List Bool)) :
    walkTree s (t.size + n) ((i, p) :: st) = t.codes p ++ walkTree s n st := by
  induction t generalizing i p n st with
  | leaf x f =>
    cases hr with
    | leaf _ _ _ h =>
      have := nodeAt_of_get hg h
      rw [HTree.size, Nat.add_comm]
      simp [walkTree, this, leafNode, HTree.codes]
  | node f l r ihl ihr =>
    cases hr with
    | node _ a b _ _ _ h ha hb hra hrb _ =>
      have hi := (List.getElem?_eq_some_iff.mp h).1
      have hn := nodeAt_of_get hg h
      obtain ⟨ca, cb⟩ := child_toNat hl (f := f) hi ha hb
      have hle : (mergedNode f a b).left.toNat = a := by simpa [Node.child] using ca
      have hre : (mergedNode f a b).right.toNat = b := by simpa [Node.child] using cb
      have e : (HTree.node f l r).size + n = (l.size + (r.size + n)) + 1 := by simp [HTree.size]; omega
      rw [e]
      have hk : (mergedNode f a b).kind = .internal := rfl
      simp only [walkTree, hn, hk]
      rw [ihl _ (by rwa [hle]) _ _ _, ihr _ (by rwa [hre]) _ _ _]
      simp [HTree.codes]

/-- Following a code from a subtree's node leads to its symbol's leaf through internal nodes only (R190). -/
theorem follow_rep {s : State} {arena : List Node} (hg : ∀ i, i < arena.length → s.node[i]? = arena[i]?)
    (hl : arena.length ≤ 511) (t : HTree) (i : BitVec 9) (hr : Rep arena i.toNat t) (p q : List Bool) (x : Byte)
    (h : (x, p ++ q) ∈ t.codes p) :
    (s.nodeAt (s.follow i q)).kind = .leaf ∧ (s.nodeAt (s.follow i q)).sym = x ∧
      ∀ q', q' <+: q → q' ≠ q → (s.nodeAt (s.follow i q')).kind = .internal := by
  induction t generalizing i p q with
  | leaf y f =>
    cases hr with
    | leaf _ _ _ hn =>
      simp [HTree.codes] at h
      obtain ⟨rfl, rfl⟩ := h
      have := nodeAt_of_get hg hn
      simp [State.follow, this, leafNode]
  | node f l r ihl ihr =>
    cases hr with
    | node _ a b _ _ _ hn ha hb hra hrb _ =>
      have hi := (List.getElem?_eq_some_iff.mp hn).1
      have hnode := nodeAt_of_get hg hn
      obtain ⟨ca, cb⟩ := child_toNat hl (f := f) hi ha hb
      have hroot : (s.nodeAt (s.follow i [])).kind = .internal := by simp [State.follow, hnode, mergedNode]
      have step : ∀ (c : Bool) (q1 : List Bool),
          ((s.nodeAt (s.follow ((mergedNode f a b).child c) q1)).kind = .leaf ∧
            (s.nodeAt (s.follow ((mergedNode f a b).child c) q1)).sym = x ∧
            ∀ q', q' <+: q1 → q' ≠ q1 → (s.nodeAt (s.follow ((mergedNode f a b).child c) q')).kind = .internal) →
          ((s.nodeAt (s.follow i (c :: q1))).kind = .leaf ∧ (s.nodeAt (s.follow i (c :: q1))).sym = x ∧
            ∀ q', q' <+: c :: q1 → q' ≠ c :: q1 → (s.nodeAt (s.follow i q')).kind = .internal) := by
        intro c q1 ⟨h1, h2, h3⟩
        refine ⟨by simpa [State.follow, hnode] using h1, by simpa [State.follow, hnode] using h2, ?_⟩
        intro q' hp hne
        cases q' with
        | nil => exact hroot
        | cons d q2 =>
          obtain ⟨rfl, hp'⟩ := List.cons_prefix_cons.mp hp
          have := h3 q2 hp' (by intro e; exact hne (by rw [e]))
          simpa [State.follow, hnode] using this
      simp only [HTree.codes, List.mem_append] at h
      rcases h with h | h
      · obtain ⟨q1, hq, -⟩ := l.codes_path _ _ h
        have : q = false :: q1 := by simpa using hq
        subst this
        exact step false q1 (ihl _ (by rwa [ca]) (p ++ [false]) q1 (by simpa using h))
      · obtain ⟨q1, hq, -⟩ := r.codes_path _ _ h
        have : q = true :: q1 := by simpa using hq
        subst this
        exact step true q1 (ihr _ (by rwa [cb]) (p ++ [true]) q1 (by simpa using h))

/-- The codes of a sound tree (R190, R191, R193). -/
theorem treeCodes_sound {s : State} {arena : List Node} {tree : HTree} (h : SoundTree s arena tree) :
    (tree.leaves.length = 1 ∧ ∃ x f, tree = .leaf x f ∧ s.treeCodes = [(x, [false])]) ∨
      (2 ≤ tree.leaves.length ∧ s.treeCodes = tree.codes []) := by
  have hr := h.rep
  cases hr with
  | leaf _ x f hn =>
    left
    refine ⟨rfl, x, f, rfl, ?_⟩
    have := nodeAt_of_get h.get hn
    simp [State.treeCodes, this, leafNode]
  | node _ a b f l r hn ha hb hra hrb hf =>
    right
    have hnode := nodeAt_of_get h.get hn
    have hk : (s.nodeAt s.root).kind = .internal := by rw [hnode]; rfl
    have h1 := l.leaves_pos
    have h2 := r.leaves_pos
    refine ⟨by simp [HTree.leaves]; omega, ?_⟩
    have hsz := (HTree.node f l r).size_eq
    have hpl := h.leaves.length_eq
    have hle := present_length_le s.freq
    have : 511 = (HTree.node f l r).size + (511 - (HTree.node f l r).size) := by omega
    simp only [State.treeCodes, hk]
    rw [this, walkTree_rep h.get h.len _ _ h.rep [] _ []]
    cases 511 - (HTree.node f l r).size <;> simp [walkTree]

/-! ## The code table -/

theorem ofPath_path (c : List Bool) (h : c.length ≤ 255) : (Code.ofPath c).path = c := by
  have h1 : c.length % 256 = c.length := by omega
  have h2 : pathValue c < 2 ^ 255 := Nat.lt_of_lt_of_le (pathValue_lt c) (Nat.pow_le_pow_right (by decide) h)
  simp only [Code.path, Code.ofPath, BitVec.toNat_ofNat]
  rw [Nat.mod_eq_of_lt h2, h1, msbBits_pathValue]

theorem ofPath_len (c : List Bool) (h : c.length ≤ 255) : (Code.ofPath c).len.toNat = c.length := by
  simp [Code.ofPath]; omega

/-- The table holds the last code listed for a symbol; a symbol not listed is absent. -/
theorem codeTable_get (cs : List (Byte × List Bool)) (x : Byte) (hd : (cs.map Prod.fst).Nodup) :
    (∀ p, (x, p) ∈ cs → (codeTable cs)[x.toNat]'x.isLt = Code.ofPath p) ∧
      (x ∉ cs.map Prod.fst → (codeTable cs)[x.toNat]'x.isLt = Code.zero) := by
  have key : ∀ (cs : List (Byte × List Bool)) (t : Vector Code 256), (cs.map Prod.fst).Nodup →
      (∀ p, (x, p) ∈ cs →
        (cs.foldl (fun t e => t.set e.1.toNat (Code.ofPath e.2) e.1.isLt) t)[x.toNat]'x.isLt = Code.ofPath p) ∧
      (x ∉ cs.map Prod.fst →
        (cs.foldl (fun t e => t.set e.1.toNat (Code.ofPath e.2) e.1.isLt) t)[x.toNat]'x.isLt = t[x.toNat]'x.isLt) := by
    intro cs
    induction cs with
    | nil => intro t _; simp
    | cons e cs ih =>
      intro t hd
      simp only [List.map_cons, List.nodup_cons] at hd
      obtain ⟨ih1, ih2⟩ := ih (t.set e.1.toNat (Code.ofPath e.2) e.1.isLt) hd.2
      simp only [List.foldl_cons]
      constructor
      · intro p hp
        rcases List.mem_cons.mp hp with rfl | hp
        · rw [ih2 hd.1]; simp
        · exact ih1 p hp
      · intro hn
        simp only [List.map_cons, List.mem_cons, not_or] at hn
        rw [ih2 hn.2]
        have : e.1.toNat ≠ x.toNat := fun hc => hn.1 (BitVec.eq_of_toNat_eq hc.symm)
        simp [this]
  have := key cs (Vector.replicate 256 Code.zero) hd
  simpa [codeTable] using this

theorem present_syms_nodup (t : Vector Word 256) : ((present t).map Prod.fst).Nodup := by
  rw [List.nodup_iff_pairwise_ne, List.pairwise_map]
  exact (present_ascending t).imp fun {a b} h e => by rw [e] at h; omega

/-- The codes are a function of the table (44_codec R220, 70_reset R304). -/
theorem treeCodes_of_table {s d : State} (hf : d.freq = s.freq) (ht : s.TableOk) (hk : s.TreeOk) (hv : s.treeValid = true)
    (hdt : d.TableOk) (hdk : d.TreeOk) (hdv : d.treeValid = true) : d.treeCodes = s.treeCodes := by
  obtain ⟨arena, tree, h⟩ := soundTree_of_table s ht hk hv
  rcases treeCodes_sound (h s rfl ht hk hv) with ⟨-, x, f, e, e1⟩ | ⟨h2, e1⟩ <;>
    rcases treeCodes_sound (h d hf hdt hdk hdv) with ⟨h3, y, g, e', e2⟩ | ⟨h3, e2⟩
  · rw [e] at e'
    cases e'
    rw [e1, e2]
  · simp [e, HTree.leaves] at h3
  · omega
  · rw [e1, e2]

/-- What the code table of a sound state holds: for a present symbol its code, of 1 to 255 bits, listed in
`treeCodes`; for an absent one nothing (10_state R43, R192). -/
theorem codeTable_sound {s : State} {arena : List Node} {tree : HTree} (h : SoundTree s arena tree) (x : Byte) :
    (s.treeCodes.map Prod.fst).Nodup ∧
    (s.freqAt x ≠ 0#64 → ∃ c, (x, c) ∈ s.treeCodes ∧ 1 ≤ c.length ∧ c.length ≤ 255 ∧
        (codeTable s.treeCodes)[x.toNat]'x.isLt = Code.ofPath c) ∧
      (s.freqAt x = 0#64 → (codeTable s.treeCodes)[x.toNat]'x.isLt = Code.zero) := by
  have hmem : x ∈ tree.leaves.map Prod.fst ↔ s.freqAt x ≠ 0#64 := by
    have h1 : x ∈ tree.leaves.map Prod.fst ↔ x ∈ (present s.freq).map Prod.fst := (h.leaves.map _).mem_iff
    rw [h1]
    simp only [List.mem_map, Prod.exists, exists_and_right, exists_eq_right]
    constructor
    · rintro ⟨f, hf⟩
      rw [mem_present] at hf
      intro hc
      exact hf.2 (by rw [← hf.1]; exact hc)
    · intro hne
      exact ⟨_, (mem_present s.freq x _).mpr ⟨rfl, hne⟩⟩
  have hsyms : s.treeCodes.map Prod.fst = tree.leaves.map Prod.fst := by
    rcases treeCodes_sound h with ⟨-, y, f, rfl, e⟩ | ⟨-, e⟩
    · simp [e, HTree.leaves]
    · rw [e, HTree.codes_syms]
  have hnd : (s.treeCodes.map Prod.fst).Nodup := by
    rw [hsyms, (h.leaves.map Prod.fst).nodup_iff]
    exact present_syms_nodup s.freq
  have hle := h.leaves.length_eq
  have h256 := present_length_le s.freq
  have hlen : ∀ e ∈ s.treeCodes, 1 ≤ e.2.length ∧ e.2.length ≤ 255 := by
    rcases treeCodes_sound h with ⟨-, y, f, rfl, e⟩ | ⟨h2, e⟩
    · rw [e]; simp
    · rw [e]
      intro a ha
      obtain ⟨q, hq, hql⟩ := tree.codes_path [] a ha
      refine ⟨?_, by rw [hq]; simp; omega⟩
      cases htree : tree with
      | leaf y f => rw [htree] at h2; simp [HTree.leaves] at h2
      | node f l r =>
        rw [htree] at ha
        simp only [HTree.codes, List.mem_append] at ha
        rcases ha with ha | ha
        · obtain ⟨q1, hq1, -⟩ := l.codes_path _ a ha
          rw [hq1]; simp
        · obtain ⟨q1, hq1, -⟩ := r.codes_path _ a ha
          rw [hq1]; simp
  refine ⟨hnd, ?_, ?_⟩
  · intro hne
    have : x ∈ s.treeCodes.map Prod.fst := by rw [hsyms]; exact hmem.mpr hne
    obtain ⟨⟨y, c⟩, hc, hy⟩ := List.mem_map.mp this
    simp only at hy
    subst hy
    exact ⟨c, hc, (hlen _ hc).1, (hlen _ hc).2, (codeTable_get _ _ hnd).1 c hc⟩
  · intro h0
    refine (codeTable_get _ _ hnd).2 ?_
    rw [hsyms]
    intro hc
    exact hmem.mp hc h0

end Sys2Proof.Machine
end

