-- ==== Sys2Proof/Laws/Frequency.lean ====
section
/-! SUPPORT. What the loops over IN tokens do: counting (spec/41_frequency.md R151, R154) and draining
(40_bitio.md R140). -/

namespace Sys2Proof.Machine

/-- `accumulate` (R151) keeps V1 and V2 where TOTAL is not at its limit. -/
theorem accumulate_tableOk (s : State) (x : Byte) (h : s.TableOk) (hf : s.totalFull = false) :
    (s.accumulate x).TableOk ∧ (s.accumulate x).total.toNat = s.total.toNat + 1 := by
  have hlt : s.total.toNat + 1 < 2 ^ 64 := by
    have h1 := s.total.isLt
    have h2 : s.total.toNat ≠ 2 ^ 64 - 1 := by
      intro hc
      have : s.total = BitVec.allOnes 64 := BitVec.eq_of_toNat_eq (by simpa using hc)
      simp [State.totalFull, this] at hf
    omega
  have htot : (s.accumulate x).total.toNat = s.total.toNat + 1 := by
    simp only [State.accumulate, BitVec.toNat_add, BitVec.toNat_ofNat]
    omega
  have hle : (s.freqAt x).toNat ≤ s.total.toNat := by rw [h.2]; exact freq_le_tableSum s.freq x
  have hone : (s.freqAt x + 1#64).toNat = (s.freqAt x).toNat + 1 := by
    simp only [BitVec.toNat_add, BitVec.toNat_ofNat]
    omega
  refine ⟨⟨?_, ?_⟩, htot⟩
  · have hl := present_length_setFreq s.freq x (s.freqAt x + 1#64)
    have h256 := present_length_le s.freq
    have hne : s.freqAt x + 1#64 ≠ 0#64 := by
      intro hc
      have := congrArg BitVec.toNat hc
      simp [hone] at this
    rw [if_neg hne] at hl
    have hx : s.freq[x.toNat]'x.isLt = s.freqAt x := rfl
    have hs := h.1
    rw [hx] at hl
    simp only [State.accumulate]
    by_cases h0 : s.freqAt x = 0#64
    · rw [if_pos h0] at hl ⊢
      rw [BitVec.toNat_add, BitVec.toNat_ofNat]
      omega
    · rw [if_neg h0] at hl ⊢
      omega
  · have hsum := tableSum_setFreq s.freq x (s.freqAt x + 1#64)
    have hx : s.freq[x.toNat]'x.isLt = s.freqAt x := rfl
    rw [htot, h.2]
    simp only [State.accumulate]
    rw [hone, hx] at hsum
    omega

theorem accumulate_freqAt (s : State) (x y : Byte) :
    (s.accumulate x).freqAt y = if y = x then s.freqAt y + 1#64 else s.freqAt y := by
  by_cases h : y = x
  · subst h; simp [State.accumulate, State.freqAt, setFreq]
  · rw [if_neg h]; exact setFreq_other s.freq x y _ h

/-- The fields the counting loop may change. -/
theorem countLoop_frame (ts : List Token) (n : Nat) (s : State) :
    countLoop ts n s = { s with
      symCnt := (countLoop ts n s).symCnt, freq := (countLoop ts n s).freq, total := (countLoop ts n s).total
      treeValid := (countLoop ts n s).treeValid, codesValid := (countLoop ts n s).codesValid
      inFifo := (countLoop ts n s).inFifo, result0 := (countLoop ts n s).result0
      waitIn := (countLoop ts n s).waitIn, waitOut := (countLoop ts n s).waitOut, prog := (countLoop ts n s).prog
      busy := (countLoop ts n s).busy, done := (countLoop ts n s).done, err := (countLoop ts n s).err
      errCode := (countLoop ts n s).errCode, errInfo := (countLoop ts n s).errInfo } := by
  induction ts generalizing n s with
  | nil => rfl
  | cons t ts ih =>
    cases t with
    | fin => unfold countLoop; split <;> rfl
    | byte b =>
      unfold countLoop
      split
      · rfl
      · exact ih (n + 1) (s.accumulate b)

/-- The state after `accumulate` of each byte in turn. -/
def State.accumulateAll (s : State) (bs : List Byte) : State := bs.foldl State.accumulate s

theorem accumulateAll_ok (bs : List Byte) (s : State) (h : s.TableOk)
    (hr : s.total.toNat + bs.length < 2 ^ 64) :
    (s.accumulateAll bs).TableOk ∧ (s.accumulateAll bs).total.toNat = s.total.toNat + bs.length ∧
      ∀ x, ((s.accumulateAll bs).freqAt x).toNat = (s.freqAt x).toNat + bs.count x := by
  induction bs generalizing s with
  | nil => exact ⟨h, rfl, fun _ => rfl⟩
  | cons b bs ih =>
    simp only [List.length_cons] at hr
    have hf : s.totalFull = false := by
      simp only [State.totalFull, decide_eq_false_iff_not]
      intro hc
      have := congrArg BitVec.toNat hc
      simp at this
      omega
    obtain ⟨h1, h2⟩ := accumulate_tableOk s b h hf
    obtain ⟨i1, i2, i3⟩ := ih (s.accumulate b) h1 (by omega)
    refine ⟨i1, ?_, ?_⟩
    · show ((s.accumulate b).accumulateAll bs).total.toNat = _
      rw [i2, List.length_cons]; omega
    · intro x
      show (((s.accumulate b).accumulateAll bs).freqAt x).toNat = _
      rw [i3, accumulate_freqAt, List.count_cons]
      by_cases hx : x = b
      · subst hx
        have hle : (s.freqAt x).toNat ≤ s.total.toNat := by rw [h.2]; exact freq_le_tableSum s.freq x
        simp [BitVec.toNat_add]
        omega
      · have : (b == x) = false := by simp; exact fun e => hx e.symm
        simp [hx, this]

theorem accumulateAll_frame (bs : List Byte) (s : State) : s.accumulateAll bs = { s with
    symCnt := (s.accumulateAll bs).symCnt, freq := (s.accumulateAll bs).freq, total := (s.accumulateAll bs).total
    treeValid := (s.accumulateAll bs).treeValid, codesValid := (s.accumulateAll bs).codesValid } := by
  induction bs generalizing s with
  | nil => rfl
  | cons b bs ih => exact ih (s.accumulate b)

/-- The counting loop takes bytes one by one while TOTAL has room (R154). -/
theorem countLoop_bytes (bs : List Byte) (ts : List Token) (n : Nat) (s : State)
    (hr : s.total.toNat + bs.length < 2 ^ 64) :
    countLoop (byteTokens bs ++ ts) n s = countLoop ts (n + bs.length) (s.accumulateAll bs) := by
  induction bs generalizing n s with
  | nil => rfl
  | cons b bs ih =>
    simp only [List.length_cons] at hr
    have hf : s.totalFull = false := by
      simp only [State.totalFull, decide_eq_false_iff_not]
      intro hc
      have := congrArg BitVec.toNat hc
      simp at this
      omega
    have ht : (s.accumulate b).total.toNat = s.total.toNat + 1 := by
      simp only [State.accumulate, BitVec.toNat_add, BitVec.toNat_ofNat]
      omega
    show countLoop (.byte b :: (byteTokens bs ++ ts)) n s = _
    rw [countLoop, hf]
    simp only [Bool.false_eq_true, if_false]
    rw [ih (n + 1) (s.accumulate b) (by omega), List.length_cons]
    congr 1
    omega

/-- The draining loop drops bytes one by one (R140). -/
theorem drainLoop_bytes (bs : List Byte) (ts : List Token) (d : Nat) (s : State) :
    drainLoop (byteTokens bs ++ ts) d s = drainLoop ts (d + bs.length) s := by
  induction bs generalizing d with
  | nil => rfl
  | cons b bs ih =>
    show drainLoop (.byte b :: (byteTokens bs ++ ts)) d s = _
    rw [drainLoop, ih, List.length_cons]
    congr 1
    omega

/-- Bytes hold no End. -/
theorem byteTokens_ne_fin {bs taken : List Byte} {more : List Token} : byteTokens bs ≠ byteTokens taken ++ .fin :: more := by
  intro h
  have : Token.fin ∈ byteTokens bs := by rw [h]; simp
  simp [byteTokens] at this

/-- What follows the first End is fixed. -/
theorem byteTokens_fin_inj {as bs : List Byte} {u v : List Token}
    (h : byteTokens as ++ Token.fin :: u = byteTokens bs ++ .fin :: v) : u = v := by
  induction as generalizing bs with
  | nil =>
    cases bs with
    | nil => simpa [byteTokens] using h
    | cons b bs => simp [byteTokens] at h
  | cons a as ih =>
    cases bs with
    | nil => simp [byteTokens] at h
    | cons b bs =>
      simp only [byteTokens, List.map_cons, List.cons_append, List.cons.injEq] at h
      exact ih h.2

end Sys2Proof.Machine
end

