-- ==== Sys2Proof/Laws/Codec.lean ====
section
/-! SUPPORT. What `writeBits` leaves alone, and little-endian bytes (spec/40_bitio.md R131; 20_memory.md R74). -/

namespace Sys2Proof.Machine

@[simp] theorem path_length (k : Code) : k.path.length = k.len.toNat := by simp [Code.path]

/-- `writeBits` finished: the fields it leaves alone. -/
theorem writeBits_done_frame (bs : List Bool) (s t : State) (h : writeBits bs s = .done t) :
    t = { s with wacc := t.wacc, wk := t.wk, outFifo := t.outFifo, waitOut := t.waitOut } := by
  have := writeBits_frame bs s
  rw [h] at this
  exact this

theorem writeBits_held_frame (bs todo : List Bool) (s t : State) (h : writeBits bs s = .held todo t) :
    t = { s with wacc := t.wacc, wk := t.wk, outFifo := t.outFifo, waitOut := t.waitOut } := by
  have := writeBits_frame bs s
  rw [h] at this
  exact this

theorem leBytes_length (v n : Nat) : (leBytes v n).length = n := by
  induction n generalizing v with
  | zero => rfl
  | succ n ih => simp [leBytes, ih]

/-- Little-endian bytes give the number back (20_memory R74). -/
theorem ofLeBytes_leBytes (v n : Nat) (h : v < 256 ^ n) : ofLeBytes (leBytes v n) = v := by
  induction n generalizing v with
  | zero => simp at h; simp [leBytes, ofLeBytes, h]
  | succ n ih =>
    rw [Nat.pow_succ] at h
    simp only [leBytes, ofLeBytes, BitVec.toNat_ofNat]
    rw [ih (v / 256) (by omega)]
    omega

end Sys2Proof.Machine
end

