-- ==== Sys2Proof/Laws/Walk.lean ====
section
/-! SUPPORT. What the decoding walk and its loop do (spec/44_codec.md R214..R216). -/

namespace Sys2Proof.Machine

/-- The state a walk ends in. -/
def DecRes.state : DecRes → State
  | .held _ t => t
  | .err _ _ _ t => t
  | .sym _ _ t => t

/-- Only the reader, the IN FIFO, WAIT_IN and BUDGET change in a walk. -/
theorem decodeOne_frame (n : Nat) (p : DecPoint) (s : State) :
    (decodeOne n p s).state = { s with
      racc := (decodeOne n p s).state.racc, rk := (decodeOne n p s).state.rk
      inFifo := (decodeOne n p s).state.inFifo, waitIn := (decodeOne n p s).state.waitIn
      budget := (decodeOne n p s).state.budget } := by
  induction n generalizing p s with
  | zero => rfl
  | succ n ih =>
    rw [decodeOne]
    cases hb : s.readBit with
    | empty => rfl
    | eos => rfl
    | bit b t =>
      have hf := readBit_frame s t b hb
      simp only
      split
      · split
        · simp only [DecRes.state]; rw [hf]; rfl
        · simp only [DecRes.state]; rw [hf]; rfl
      · split
        · simp only [DecRes.state]; rw [hf]; rfl
        · have := ih { i := (s.nodeAt p.i).child b, k := p.k + 1, used := p.used + 1 } (t.spend n)
          generalize (decodeOne n _ (t.spend n)).state = v at *
          refine this.trans ?_
          rw [hf]; rfl

/-- The first bit of a stream that has one. -/
theorem readBit_cons (s : State) (b : Bool) (bs : List Bool) (hk : s.rk.toNat ≤ 8) (hp : s.pendingBits = b :: bs) :
    ∃ t, s.readBit = .bit b t ∧ t.pendingBits = bs ∧ t.rk.toNat ≤ 8 ∧
      t = { s with racc := t.racc, rk := t.rk, inFifo := t.inFifo, waitIn := t.waitIn } := by
  rcases readBit_cases s hk with ⟨-, -, -, h⟩ | ⟨-, -, h, -⟩ | ⟨c, t, e, h, hr, hf⟩
  · simp [hp] at h
  · simp [hp] at h
  · rw [hp] at h
    injection h with h1 h2
    subst h1
    exact ⟨t, e, h2.symm, by omega, hf⟩

/-- A walk through internal nodes to a leaf gives the leaf's symbol, and takes exactly the path's bits (R214). -/
theorem decodeOne_path (q : List Bool) (rest : List Bool) (n : Nat) (p : DecPoint) (s : State)
    (hk : s.rk.toNat ≤ 8) (hp : s.pendingBits = q ++ rest) (hn : q.length ≤ n) (hq : q ≠ [])
    (hint : ∀ q', q' <+: q → q' ≠ q → (s.nodeAt (s.follow p.i q')).kind = .internal)
    (hleaf : (s.nodeAt (s.follow p.i q)).kind = .leaf) :
    ∃ t, decodeOne n p s = .sym (s.nodeAt (s.follow p.i q)).sym (p.used + q.length) t ∧
      t.pendingBits = rest ∧ t.rk.toNat ≤ 8 ∧
      t = { s with racc := t.racc, rk := t.rk, inFifo := t.inFifo, waitIn := t.waitIn
                   budget := BitVec.ofNat 64 (n - q.length) } := by
  induction q generalizing n p s with
  | nil => exact absurd rfl hq
  | cons b q ih =>
    obtain ⟨t, ht, htp, htk, hf⟩ := readBit_cons s b (q ++ rest) hk (by simpa using hp)
    obtain ⟨m, rfl⟩ : ∃ m, n = m + 1 := ⟨n - 1, by simp at hn; omega⟩
    let t' : State := t.spend m
    have hnode : ∀ i, t'.nodeAt i = s.nodeAt i := by intro i; simp only [t', State.spend]; rw [hf]; rfl
    have hfol : ∀ (c : List Bool) (i : BitVec 9), t'.follow i c = s.follow i c := by
      intro c
      induction c with
      | nil => intro i; rfl
      | cons d c ihc => intro i; simp only [State.follow, hnode]; exact ihc _
    have h0 : (s.nodeAt p.i).kind = .internal := hint [] (by simp) (by simp)
    have hst : decodeOne (m + 1) p s = match (s.nodeAt ((s.nodeAt p.i).child b)).kind with
        | .leaf => .sym (s.nodeAt ((s.nodeAt p.i).child b)).sym (p.used + 1) t'
        | .internal => decodeOne m { i := (s.nodeAt p.i).child b, k := p.k + 1, used := p.used + 1 } t' := by
      rw [decodeOne]
      simp only [ht, h0]
      rfl
    by_cases hq0 : q = []
    · subst hq0
      refine ⟨t', ?_, (by simpa using htp : t.pendingBits = rest), htk, ?_⟩
      · have hl : (s.nodeAt ((s.nodeAt p.i).child b)).kind = .leaf := by simpa [State.follow] using hleaf
        rw [hst, hl]
        simp [State.follow]
      · simp only [t', State.spend, List.length_cons, List.length_nil]
        rw [hf]
        simp
    · have hi : (s.nodeAt ((s.nodeAt p.i).child b)).kind = .internal := by
        have := hint [b] ⟨q, rfl⟩ (by simpa using fun e => hq0 e)
        simpa [State.follow] using this
      obtain ⟨u, hu, hup, huk, huf⟩ := ih m { i := (s.nodeAt p.i).child b, k := p.k + 1, used := p.used + 1 } t' htk
        htp (by simp at hn; omega) hq0
        (by
          intro q' hpre hne
          rw [hnode, hfol]
          have := hint (b :: q') (List.cons_prefix_cons.mpr ⟨rfl, hpre⟩) (by simpa using hne)
          simpa [State.follow] using this)
        (by rw [hnode, hfol]; simpa [State.follow] using hleaf)
      refine ⟨u, ?_, hup, huk, ?_⟩
      · rw [hst, hi]
        show decodeOne m _ t' = _
        rw [hu, hnode, hfol]
        simp only [State.follow, List.length_cons]
        congr 1
        omega
      · rw [huf]
        simp only [t', State.spend, List.length_cons]
        rw [hf]
        simp only [Nat.add_sub_add_right]

/-- At a root that is a leaf the walk takes one bit, which must be 0 (R214). -/
theorem decodeOne_leaf (b : Bool) (rest : List Bool) (n : Nat) (p : DecPoint) (s : State)
    (hk : s.rk.toNat ≤ 8) (hp : s.pendingBits = b :: rest) (hleaf : (s.nodeAt p.i).kind = .leaf) :
    ∃ t, decodeOne (n + 1) p s = (if b then .err .invalidCode 1 (p.used + 1) t
        else .sym (s.nodeAt p.i).sym (p.used + 1) t) ∧
      t.pendingBits = rest ∧ t.rk.toNat ≤ 8 ∧
      t = { s with racc := t.racc, rk := t.rk, inFifo := t.inFifo, waitIn := t.waitIn
                   budget := BitVec.ofNat 64 n } := by
  obtain ⟨t, ht, htp, htk, hf⟩ := readBit_cons s b rest hk hp
  refine ⟨t.spend n, ?_, htp, htk, by rw [State.spend, hf]⟩
  rw [decodeOne]
  simp only [ht, hleaf]

/-- A walk takes a bit (44_codec R214). -/
theorem walkTo_ne_nil {s : State} {i : BitVec 9} {x : Byte} {c : List Bool} (h : s.WalkTo i x c) : 1 ≤ c.length := by
  unfold State.WalkTo at h
  split at h
  · rw [h.2]; simp
  · rename_i hk
    cases c with
    | nil =>
      have := h.1
      simp only [State.follow] at this
      rw [hk] at this
      cases this
    | cons => simp

/-- The walk reads the path to a leaf through to its symbol (R214, 43_codegen R190, R191). -/
theorem decodeOne_walk {s : State} {p : DecPoint} {x : Byte} {c : List Bool} (h : s.WalkTo p.i x c) (rest : List Bool)
    (n : Nat) (hk : s.rk.toNat ≤ 8) (hp : s.pendingBits = c ++ rest) (hn : c.length ≤ n) :
    ∃ t, decodeOne n p s = .sym x (p.used + c.length) t ∧ t.pendingBits = rest ∧ t.rk.toNat ≤ 8 ∧
      t = { s with racc := t.racc, rk := t.rk, inFifo := t.inFifo, waitIn := t.waitIn
                   budget := BitVec.ofNat 64 (n - c.length) } := by
  have h1 := walkTo_ne_nil h
  unfold State.WalkTo at h
  split at h
  · rename_i hleaf
    obtain ⟨hx, rfl⟩ := h
    obtain ⟨m, rfl⟩ : ∃ m, n = m + 1 := ⟨n - 1, by simp at hn; omega⟩
    obtain ⟨t, ht, h1, h3, h4⟩ := decodeOne_leaf false rest m p s hk (by simpa using hp) hleaf
    exact ⟨t, by rw [ht, hx]; rfl, h1, h3, by simpa using h4⟩
  · obtain ⟨f1, f2, f3⟩ := h
    obtain ⟨t, ht, h1, h3, h4⟩ := decodeOne_path c rest n p s hk hp hn (by rintro rfl; simp at h1) f3 f1
    exact ⟨t, by rw [ht, f2], h1, h3, h4⟩

/-- The codes of a sound tree are codes in the sense of R190. -/
theorem isCode_of_mem {s : State} {arena : List Node} {tree : HTree} (h : SoundTree s arena tree) (x : Byte)
    (c : List Bool) (hc : (x, c) ∈ s.treeCodes) : s.IsCode x c := by
  have hr := h.rep
  rcases treeCodes_sound h with ⟨-, y, f, htree, e⟩ | ⟨h2, e⟩
  · rw [e] at hc
    simp only [List.mem_singleton, Prod.mk.injEq] at hc
    obtain ⟨rfl, rfl⟩ := hc
    rw [htree] at hr
    cases hr with
    | leaf _ _ _ hnode =>
      have hna := nodeAt_of_get h.get hnode
      simp [State.IsCode, State.WalkTo, hna, leafNode]
  · rw [e] at hc
    have hf := follow_rep h.get h.len tree s.root h.rep [] c x (by simpa using hc)
    cases hr with
    | leaf _ x f hn => simp [HTree.leaves] at h2
    | node _ a b f l r hn ha hb hra hrb hfr =>
      have hnode := nodeAt_of_get h.get hn
      unfold State.IsCode State.WalkTo
      rw [hnode]
      exact hf

/-- A path leads where the arena says. -/
theorem follow_of_node {s t : State} (hn : t.node = s.node) (c : List Bool) (i : BitVec 9) : t.follow i c = s.follow i c := by
  induction c generalizing i with
  | nil => rfl
  | cons d c ih => simp only [State.follow, State.nodeAt, hn]; exact ih _

/-- Walks are a function of the arena. -/
theorem walkTo_congr {s t : State} (hn : t.node = s.node) (i : BitVec 9) (x : Byte) (c : List Bool) :
    t.WalkTo i x c ↔ s.WalkTo i x c := by
  have hnode : ∀ i, t.nodeAt i = s.nodeAt i := by intro i; simp [State.nodeAt, hn]
  simp only [State.WalkTo, hnode, follow_of_node hn]

/-- The tree's codes are a function of the tree. -/
theorem isCode_congr {s t : State} (hn : t.node = s.node) (hr : t.root = s.root) (x : Byte) (c : List Bool) :
    t.IsCode x c ↔ s.IsCode x c := by rw [State.IsCode, State.IsCode, hr]; exact walkTo_congr hn _ x c

/-- Open walks are a function of the arena. -/
theorem walkOpen_congr {s t : State} (hn : t.node = s.node) (i : BitVec 9) (q : List Bool) :
    t.WalkOpen i q ↔ s.WalkOpen i q := by
  have hnode : ∀ i, t.nodeAt i = s.nodeAt i := by intro i; simp [State.nodeAt, hn]
  simp only [State.WalkOpen, hnode, follow_of_node hn]

/-! ## Tokens up to an End -/

/-- The IN FIFO holds bytes and then `tail`. -/
def State.BytesThen (s : State) (tail : List Token) : Prop := ∃ bs, s.inFifo = byteTokens bs ++ tail

/-- The reader takes no token from End on (40_bitio R134). -/
theorem readBit_bytesThen {s t : State} {b : Bool} {tail : List Token} (ht : s.BytesThen (.fin :: tail))
    (h : s.readBit = .bit b t) : t.BytesThen (.fin :: tail) := by
  obtain ⟨bs, hb⟩ := ht
  unfold State.readBit at h
  rw [hb] at h
  split at h
  · cases bs with
    | nil => cases h
    | cons c bs => cases h; exact ⟨bs, rfl⟩
  · cases h; exact ⟨bs, rfl⟩

theorem decodeOne_bytesThen {tail : List Token} (n : Nat) (p : DecPoint) (s : State) (ht : s.BytesThen (.fin :: tail)) :
    (decodeOne n p s).state.BytesThen (.fin :: tail) := by
  induction n generalizing p s with
  | zero => exact ht
  | succ n ih =>
    rw [decodeOne]
    split
    · exact ht
    · exact ht
    · rename_i b t hb
      have h : (t.spend n).BytesThen (.fin :: tail) := readBit_bytesThen (t := t) ht hb
      split
      · split <;> exact h
      · split
        · exact h
        · exact ih _ _ h

/-- Where no bit is left before End, End is the head and the accumulator is empty. -/
theorem bytesThen_drained {s : State} {tail : List Token} (ht : s.BytesThen (.fin :: tail)) (hp : s.pendingBits = []) :
    s.inFifo = .fin :: tail ∧ s.rk = 0#4 := by
  obtain ⟨bs, hb⟩ := ht
  have hl := congrArg List.length hp
  rw [State.pendingBits, hb] at hl
  cases bs with
  | nil => exact ⟨hb, BitVec.eq_of_toNat_eq (by simpa [byteTokens, tokenBits, State.readerBits] using hl)⟩
  | cons c bs => simp [byteTokens, tokenBits] at hl

/-- The reader leaves bytes where there were bytes. -/
theorem readBit_bytes {s t : State} {b : Bool} (hs : ∃ bs, s.inFifo = byteTokens bs) (h : s.readBit = .bit b t) :
    ∃ bs, t.inFifo = byteTokens bs := by
  obtain ⟨bs, hb⟩ := hs
  unfold State.readBit at h
  rw [hb] at h
  split at h
  · cases bs with
    | nil => cases h
    | cons c bs => cases h; exact ⟨bs, rfl⟩
  · cases h; exact ⟨bs, rfl⟩

theorem decodeOne_bytes (n : Nat) (p : DecPoint) (s : State) (hs : ∃ bs, s.inFifo = byteTokens bs) :
    ∃ bs, (decodeOne n p s).state.inFifo = byteTokens bs := by
  induction n generalizing p s with
  | zero => exact hs
  | succ n ih =>
    rw [decodeOne]
    split
    · exact hs
    · exact hs
    · rename_i b t hb
      have h : ∃ bs, (t.spend n).inFifo = byteTokens bs := readBit_bytes (t := t) hs hb
      split
      · split <;> exact h
      · split
        · exact h
        · exact ih _ _ h

/-- A walk takes bits that lead through internal nodes one by one and goes on from the node they lead to (R214). -/
theorem decodeOne_prefix (q rest : List Bool) (n : Nat) (p : DecPoint) (s : State) (hk : s.rk.toNat ≤ 8)
    (hp : s.pendingBits = q ++ rest) (hint : s.WalkOpen p.i q) (hb : s.budget.toNat = q.length + n) :
    ∃ t : State, decodeOne (q.length + n) p s =
        decodeOne n { i := s.follow p.i q, k := p.k + q.length, used := p.used + q.length } t ∧
      t.pendingBits = rest ∧ t.rk.toNat ≤ 8 ∧ t.budget.toNat = n ∧
      (∀ tail, s.BytesThen (.fin :: tail) → t.BytesThen (.fin :: tail)) ∧
      ((∃ bs, s.inFifo = byteTokens bs) → ∃ bs, t.inFifo = byteTokens bs) ∧
      t = { s with racc := t.racc, rk := t.rk, inFifo := t.inFifo, waitIn := t.waitIn, budget := t.budget } := by
  induction q generalizing p s with
  | nil => exact ⟨s, by simp [State.follow], by simpa using hp, hk, by simpa using hb, fun _ h => h, fun h => h, rfl⟩
  | cons b q ih =>
    have hint : ∀ q', q' <+: b :: q → (s.nodeAt (s.follow p.i q')).kind = .internal := by
      simpa [State.WalkOpen] using hint
    obtain ⟨t, ht, htp, htk, hf⟩ := readBit_cons s b (q ++ rest) hk (by simpa using hp)
    let t' : State := t.spend (q.length + n)
    have hnode : t'.node = s.node := by simp only [t', State.spend]; rw [hf]
    have h0 : (s.nodeAt p.i).kind = .internal := hint [] (by simp)
    have h1 : (s.nodeAt ((s.nodeAt p.i).child b)).kind = .internal := by
      have := hint [b] ⟨q, rfl⟩
      simpa [State.follow] using this
    have hst : decodeOne (q.length + n + 1) p s =
        decodeOne (q.length + n) { i := (s.nodeAt p.i).child b, k := p.k + 1, used := p.used + 1 } t' := by
      rw [decodeOne]
      simp only [ht, h0, h1]
      rfl
    obtain ⟨u, u1, u2, u3, u4, u5, u6, u7⟩ :=
      ih { i := (s.nodeAt p.i).child b, k := p.k + 1, used := p.used + 1 } t' htk htp
      (Or.inr fun q' hq => by
        rw [follow_of_node hnode]
        have := hint (b :: q') (List.cons_prefix_cons.mpr ⟨rfl, hq⟩)
        simpa [State.follow, State.nodeAt, hnode] using this)
      (by show (BitVec.ofNat 64 (q.length + n)).toNat = _; have := s.budget.isLt; simp at hb ⊢; omega)
    refine ⟨u, ?_, u2, u3, u4, ?_, ?_, ?_⟩
    · rw [List.length_cons, show q.length + 1 + n = q.length + n + 1 by omega, hst, u1, follow_of_node hnode]
      simp only [State.follow]
      congr 2 <;> omega
    · intro tail h
      exact u5 tail (readBit_bytesThen (t := t) h ht)
    · intro h
      exact u6 (readBit_bytes (t := t) h ht)
    · rw [u7]
      simp only [t', State.spend]
      rw [hf]

/-- End met where a bit is needed (R214). -/
theorem decodeOne_eos (n) (p) (s : State) (h : s.rk = 0#4) (hi : ∃ more, s.inFifo = .fin :: more) : decodeOne (n+1) p s = .err .truncatedStream p.used p.used s := by
  obtain ⟨more, hi⟩ := hi
  rw [decodeOne]
  have : s.readBit = .eos := by simp [State.readBit, h, hi]
  rw [this]

/-- No further bit and no End: the FIFO is empty and so is the accumulator. -/
theorem bytes_drained {s : State} {bs : List Byte} (h : s.inFifo = byteTokens bs) (hp : s.pendingBits = []) :
    s.inFifo = [] ∧ s.rk = 0#4 := by
  have hl := congrArg List.length hp
  rw [State.pendingBits, h] at hl
  cases bs with
  | nil => exact ⟨h, BitVec.eq_of_toNat_eq (by simpa [byteTokens, tokenBits, State.readerBits] using hl)⟩
  | cons c bs => simp [byteTokens, tokenBits] at hl

/-- Nothing to read where a bit is needed (R214). -/
theorem decodeOne_held (n) (p) (s : State) (h : s.rk = 0#4) (hi : s.inFifo = []) : decodeOne (n + 1) p s = .held p s := by
  rw [decodeOne]
  have : s.readBit = .empty := by simp [State.readBit, h, hi]
  rw [this]

/-- A run that reads on is not held. -/
theorem readBit_waitIn (s t : State) (b : Bool) (h : s.readBit = .bit b t) (hw : s.waitIn = false) :
    t.waitIn = false := by
  unfold State.readBit at h
  split at h
  · split at h <;> cases h
    rfl
  · cases h; exact hw

theorem decodeOne_waitIn (n : Nat) (p : DecPoint) (s : State) (h : s.waitIn = false) :
    (decodeOne n p s).state.waitIn = false := by
  induction n generalizing p s with
  | zero => exact h
  | succ n ih =>
    rw [decodeOne]
    split
    · exact h
    · exact h
    · rename_i b t hb
      have ht := readBit_waitIn _ _ _ hb h
      split
      · split <;> exact ht
      · split
        · exact ht
        · exact ih _ (t.spend n) ht

/-! ## The loop of DEC_STREAM (R216) -/

/-- DEC_STREAM at the head of its loop, `turns` being more than BUDGET. -/
def State.loopHead (s : State) (turns count used : Nat) : State :=
  if s.budget = 0#64 then s.finishDecStream count used else decodeLoop turns count (s.rootPoint used) s

/-- What a run of the loop from s to u leaves of the state: the reader, BUDGET and the OUT FIFO have moved. -/
def DecodedFrom (s u : State) (rest : List Bool) (out : List Byte) (spent : Nat) : Prop :=
  u.pendingBits = rest ∧ u.rk.toNat ≤ 8 ∧ u.outFifo = s.outFifo ++ out ∧ u.budget.toNat + spent = s.budget.toNat ∧
    (∀ tail, s.BytesThen (.fin :: tail) → u.BytesThen (.fin :: tail)) ∧
    ((∃ bs, s.inFifo = byteTokens bs) → ∃ bs, u.inFifo = byteTokens bs) ∧
    (s.waitOut = false → u.waitOut = false) ∧ (s.waitIn = false → u.waitIn = false) ∧
    u = { s with
      racc := u.racc, rk := u.rk, inFifo := u.inFifo, waitIn := u.waitIn, budget := u.budget
      outFifo := u.outFifo, waitOut := u.waitOut }

theorem DecodedFrom.refl {s : State} (hk : s.rk.toNat ≤ 8) : DecodedFrom s s s.pendingBits [] 0 :=
  ⟨rfl, hk, by simp, rfl, fun _ h => h, fun h => h, fun h => h, fun h => h, rfl⟩

theorem DecodedFrom.trans {s u v : State} {r r' : List Bool} {o o' : List Byte} {n n' : Nat}
    (h : DecodedFrom s u r o n) (g : DecodedFrom u v r' o' n') : DecodedFrom s v r' (o ++ o') (n + n') := by
  obtain ⟨-, -, h3, h4, h5, h6, h7, h8, h9⟩ := h
  obtain ⟨g1, g2, g3, g4, g5, g6, g7, g8, g9⟩ := g
  exact ⟨g1, g2, by rw [g3, h3, List.append_assoc], by omega, fun _ e => g5 _ (h5 _ e), fun e => g6 (h6 e),
    fun e => g7 (h7 e), fun e => g8 (h8 e), by rw [g9, h9]⟩

/-- The end of a walk, its symbol pushed: the loop is back at its head. -/
theorem decodeLoop_walk {s : State} {p : DecPoint} {x : Byte} {c : List Bool} (hc : s.WalkTo p.i x c) (rest : List Bool)
    (turns count : Nat) (hk : s.rk.toNat ≤ 8) (hp : s.pendingBits = c ++ rest) (hb : c.length ≤ s.budget.toNat)
    (hr : s.outFifo.length + 1 ≤ s.params.outDepth) :
    ∃ u : State, decodeLoop (turns + 1) count p s = u.loopHead turns (count + 1) (p.used + c.length) ∧
      DecodedFrom s u rest [x] c.length := by
  obtain ⟨t, ht1, ht2, ht3, ht4⟩ := decodeOne_walk hc rest s.budget.toNat hk hp hb
  have hroom : ¬ t.params.outDepth ≤ t.outFifo.length := by rw [ht4]; show ¬ s.params.outDepth ≤ s.outFifo.length; omega
  let u : State := { t with outFifo := t.outFifo ++ [x], waitOut := false }
  have hpush : t.outPush x = some u := by simp [State.outPush, State.outFull, hroom, u]
  refine ⟨u, by rw [decodeLoop]; simp only [ht1, hpush]; rfl, ht2, ht3, ?_, ?_, ?_, ?_, fun _ => rfl, ?_, ?_⟩
  · simp only [u]; rw [ht4]
  · have : u.budget = BitVec.ofNat 64 (s.budget.toNat - c.length) := by simp only [u]; rw [ht4]
    rw [this, BitVec.toNat_ofNat, Nat.mod_eq_of_lt (by have := s.budget.isLt; omega)]
    omega
  · intro tail h
    have := decodeOne_bytesThen s.budget.toNat p s h
    rw [ht1] at this
    exact this
  · intro h
    have := decodeOne_bytes s.budget.toNat p s h
    rw [ht1] at this
    exact this
  · intro h
    have := decodeOne_waitIn s.budget.toNat p s h
    rw [ht1] at this
    exact this
  · simp only [u]; rw [ht4]

/-- The loop takes codes one by one and is back at its head. -/
theorem loopHead_codes (cs : List (Byte × List Bool)) (rest : List Bool) (turns count used : Nat) (s : State)
    (hc : ∀ e ∈ cs, s.IsCode e.1 e.2) (hk : s.rk.toNat ≤ 8) (hp : s.pendingBits = cs.flatMap Prod.snd ++ rest)
    (ht : s.budget.toNat < turns) (hb : (cs.flatMap Prod.snd).length ≤ s.budget.toNat)
    (hr : s.outFifo.length + cs.length ≤ s.params.outDepth) :
    ∃ (u : State) (turns' : Nat), s.loopHead turns count used =
        u.loopHead turns' (count + cs.length) (used + (cs.flatMap Prod.snd).length) ∧ u.budget.toNat < turns' ∧
      DecodedFrom s u rest (cs.map Prod.fst) (cs.flatMap Prod.snd).length := by
  induction cs generalizing turns count used s with
  | nil =>
    have := DecodedFrom.refl hk
    rw [hp] at this
    exact ⟨s, turns, rfl, ht, this⟩
  | cons e cs ih =>
    obtain ⟨x, c⟩ := e
    simp only [List.flatMap_cons, List.length_append, List.length_cons, List.append_assoc] at hb hp hr
    have hx : s.IsCode x c := hc (x, c) (by simp)
    have h1 := walkTo_ne_nil hx
    obtain ⟨m, rfl⟩ : ∃ m, turns = m + 1 := ⟨turns - 1, by omega⟩
    obtain ⟨u, hu, hd⟩ := decodeLoop_walk (p := s.rootPoint used) hx (cs.flatMap Prod.snd ++ rest) m count hk hp
      (by omega) (by omega)
    obtain ⟨d1, d2, d3, d4, -, -, -, -, d8⟩ := id hd
    have hz : s.budget ≠ 0#64 := by intro hz; rw [hz, BitVec.toNat_ofNat] at d4; omega
    have hcode : ∀ e ∈ cs, u.IsCode e.1 e.2 := fun e he =>
      (isCode_congr (by rw [d8]) (by rw [d8]) _ _).mpr (hc e (by simp [he]))
    have hpar : u.params = s.params := by rw [d8]
    obtain ⟨v, m', hv, hm', hdv⟩ := ih m (count + 1) (used + c.length) u hcode d2 d1 (by omega) (by omega)
      (by rw [d3, hpar]; simp; omega)
    refine ⟨v, m', ?_, hm', ?_⟩
    · rw [State.loopHead, if_neg hz, hu]
      show u.loopHead m (count + 1) (used + c.length) = _
      rw [hv]
      congr 1
      · simp; omega
      · simp; omega
    · have := hd.trans hdv
      simpa using this

/-- DEC_STREAM comes to the head of its loop as `State.DecStreamTo` says. -/
theorem decStream_head {s : State} {n used : Nat} {out : List Byte} {bits : List Bool} (h : s.DecStreamTo n used out bits)
    (rest : List Bool) (hk : s.rk.toNat ≤ 8) (hp : s.pendingBits = bits ++ rest) (hb : bits.length ≤ s.budget.toNat)
    (hr : s.outFifo.length + out.length ≤ s.params.outDepth) :
    ∃ (u : State) (turns : Nat), execDecStream s = .next (u.loopHead turns (n + out.length) (used + bits.length)) ∧
      u.budget.toNat < turns ∧ DecodedFrom s u rest out bits.length := by
  obtain ⟨first, c, cs, rfl, rfl, hcs, h⟩ := h
  simp only [List.append_assoc, List.length_append, List.length_map] at hp hb hr
  have key : ∀ (w : State) (turns : Nat), execDecStream s = .next (w.loopHead turns (n + first.length) (used + c.length)) →
      w.budget.toNat < turns → DecodedFrom s w (cs.flatMap Prod.snd ++ rest) first c.length →
      ∃ (u : State) (turns' : Nat), execDecStream s = .next (u.loopHead turns' (n + (first ++ cs.map Prod.fst).length)
          (used + (c ++ cs.flatMap Prod.snd).length)) ∧
        u.budget.toNat < turns' ∧ DecodedFrom s u rest (first ++ cs.map Prod.fst) (c ++ cs.flatMap Prod.snd).length := by
    intro w turns hw ht hd
    obtain ⟨d1, d2, d3, d4, -, -, -, -, d8⟩ := id hd
    have hcode : ∀ e ∈ cs, w.IsCode e.1 e.2 := fun e he =>
      (isCode_congr (by rw [d8]) (by rw [d8]) _ _).mpr (hcs e he)
    have hpar : w.params = s.params := by rw [d8]
    obtain ⟨u, turns', hu, hu', hdu⟩ := loopHead_codes cs rest turns (n + first.length) (used + c.length) w hcode d2 d1 ht
      (by omega) (by rw [d3, hpar]; simp; omega)
    refine ⟨u, turns', ?_, hu', ?_⟩
    · rw [hw, hu]; congr 2 <;> (simp; try omega)
    · have := hd.trans hdu
      simpa using this
  rcases h with ⟨hs, hv, rfl, rfl, rfl, rfl⟩ | ⟨i, k, x, hs, hw, rfl⟩ | ⟨x, hs, rfl, rfl⟩
  · have hd := DecodedFrom.refl hk
    rw [hp] at hd
    refine key s (s.budget.toNat + 1) ?_ (by omega) hd
    simp [execDecStream, hs, hv, State.decodeFrom, State.loopHead]
  · obtain ⟨u, hu, hd⟩ := decodeLoop_walk (p := { i := i, k := k, used := used }) hw (cs.flatMap Prod.snd ++ rest)
      s.budget.toNat n hk hp (by omega) (by simp at hr; omega)
    have h1 := walkTo_ne_nil hw
    have hb' := hd.2.2.2.1
    exact key u s.budget.toNat (by simp only [execDecStream, hs]; rw [hu]; rfl) (by omega) hd
  · simp only [List.length_singleton] at hr
    have hroom : ¬ s.params.outDepth ≤ s.outFifo.length := by omega
    let u : State := { s with outFifo := s.outFifo ++ [x], waitOut := false }
    have hpush : s.outPush x = some u := by simp [State.outPush, State.outFull, hroom, u]
    refine key u (u.budget.toNat + 1) ?_ (by omega)
      ⟨(by simpa using hp : s.pendingBits = _), hk, rfl, by simp [u], fun _ h => h, fun h => h, fun _ => rfl, fun h => h, rfl⟩
    simp only [execDecStream, hs, hpush]
    rfl

/-- DEC_STREAM comes to a point of a walk as `State.DecStreamAt` says, BUDGET not yet used up. -/
theorem decStream_at {s : State} {n : Nat} {out : List Byte} {bits : List Bool} {p : DecPoint}
    (h : s.DecStreamAt n out bits p) (rest : List Bool) (hk : s.rk.toNat ≤ 8) (hp : s.pendingBits = bits ++ rest)
    (hb : bits.length < s.budget.toNat) (hr : s.outFifo.length + out.length ≤ s.params.outDepth) :
    ∃ (u : State) (turns : Nat), execDecStream s = .next (decodeLoop (turns + 1) (n + out.length) p u) ∧
      DecodedFrom s u rest out bits.length := by
  rcases h with ⟨used, h, rfl⟩ | ⟨hs, rfl, rfl⟩
  · obtain ⟨u, turns, e, ht, hd⟩ := decStream_head h rest hk hp (by omega) hr
    obtain ⟨-, -, -, d4, -, -, -, -, d9⟩ := id hd
    obtain ⟨m, rfl⟩ : ∃ m, turns = m + 1 := ⟨turns - 1, by omega⟩
    have hz : u.budget ≠ 0#64 := by intro hz; rw [hz, BitVec.toNat_ofNat] at d4; omega
    refine ⟨u, m, ?_, hd⟩
    rw [e, State.loopHead, if_neg hz]
    rw [show u.rootPoint (used + bits.length) = s.rootPoint (used + bits.length) by rw [d9]; rfl]
  · have hd := DecodedFrom.refl hk
    rw [hp] at hd
    exact ⟨s, s.budget.toNat, by simp only [execDecStream, hs]; rfl, hd⟩

/-- The push of a symbol where OUT is full (20_memory R84). -/
theorem outPush_full {s : State} (x : Byte) (h : s.outFifo.length = s.params.outDepth) : s.outPush x = none := by
  simp [State.outPush, State.outFull, h]

/-- The end of a walk where OUT is full: the loop holds before the push. -/
theorem decodeLoop_full {s : State} {p : DecPoint} {x : Byte} {c : List Bool} (hc : s.WalkTo p.i x c) (rest : List Bool)
    (turns count : Nat) (hk : s.rk.toNat ≤ 8) (hp : s.pendingBits = c ++ rest) (hb : c.length ≤ s.budget.toNat)
    (ho : s.outFifo.length = s.params.outDepth) (hw : s.waitIn = false) :
    ∃ t : State, decodeLoop (turns + 1) count p s = t ∧ t.pendingBits = rest ∧ t.rk.toNat ≤ 8 ∧
      t = { s with
        racc := t.racc, rk := t.rk, inFifo := t.inFifo, budget := BitVec.ofNat 64 (s.budget.toNat - c.length)
        waitOut := true, prog := .decPush count (p.used + c.length) x } := by
  obtain ⟨t, ht1, ht2, ht3, ht4⟩ := decodeOne_walk hc rest s.budget.toNat hk hp hb
  have hwt := decodeOne_waitIn s.budget.toNat p s hw
  rw [ht1] at hwt
  have hwt : t.waitIn = false := hwt
  have hpush : t.outPush x = none := outPush_full x (by rw [ht4]; exact ho)
  refine ⟨t.holdOut (.decPush count (p.used + c.length) x), by rw [decodeLoop]; simp only [ht1, hpush], ht2, ht3, ?_⟩
  rw [hwt] at ht4
  rw [ht4, hw]
  rfl

/-- DEC_STREAM comes to the push of x with OUT full, as `State.DecStreamTo` says, and holds. -/
theorem decStream_full {s : State} {n used : Nat} {out : List Byte} {x : Byte} {bits : List Bool}
    (h : s.DecStreamTo n used (out ++ [x]) bits) (rest : List Bool) (hk : s.rk.toNat ≤ 8)
    (hp : s.pendingBits = bits ++ rest) (hb : bits.length ≤ s.budget.toNat)
    (ho : s.outFifo.length + out.length = s.params.outDepth) (hw : s.waitIn = false) :
    ∃ t : State, execDecStream s = .next t ∧ t.pendingBits = rest ∧ t.rk.toNat ≤ 8 ∧
      t = { s with
        racc := t.racc, rk := t.rk, inFifo := t.inFifo, budget := BitVec.ofNat 64 (s.budget.toNat - bits.length)
        outFifo := s.outFifo ++ out, waitOut := true, prog := .decPush (n + out.length) (used + bits.length) x } := by
  obtain ⟨first, c, cs, hout, hbits, hcs, hat⟩ := h
  rcases List.eq_nil_or_concat cs with rfl | ⟨front, ⟨y, d⟩, rfl⟩
  · simp only [List.map_nil, List.flatMap_nil, List.append_nil] at hout hbits
    subst hbits
    have hlen := congrArg List.length hout
    rcases hat with ⟨-, -, -, -, rfl, -⟩ | ⟨i, k, z, hs, hwalk, rfl⟩ | ⟨z, hs, rfl, rfl⟩
    · simp at hlen
    · obtain rfl : out = [] := List.eq_nil_of_length_eq_zero (by simp at hlen; simpa using hlen)
      obtain rfl : x = z := by simpa using hout
      obtain ⟨t, e, h1, h2, h3⟩ := decodeLoop_full (p := { i := i, k := k, used := used }) hwalk rest s.budget.toNat n hk hp
        hb (by simpa using ho) hw
      exact ⟨t, by simp only [execDecStream, hs, e], h1, h2, by simpa using h3⟩
    · obtain rfl : out = [] := List.eq_nil_of_length_eq_zero (by simp at hlen; simpa using hlen)
      obtain rfl : x = z := by simpa using hout
      refine ⟨s.holdOut (.decPush n used x), by simp only [execDecStream, hs, outPush_full x (by simpa using ho)],
        (by simpa using hp : s.pendingBits = rest), hk, ?_⟩
      simp [State.holdOut]
  · simp only [List.concat_eq_append, List.map_append, List.map_cons, List.map_nil, List.flatMap_append, List.flatMap_cons,
      List.flatMap_nil, List.append_nil, ← List.append_assoc] at hout hbits hcs
    obtain ⟨rfl, hxy⟩ := List.append_inj' hout rfl
    obtain rfl : x = y := by simpa using hxy
    subst hbits
    have hx : s.IsCode x d := hcs (x, d) (by simp)
    have h1 := walkTo_ne_nil hx
    simp only [List.append_assoc, List.length_append] at hp hb ho
    obtain ⟨u, turns, e, ht, hd⟩ := decStream_head (n := n) (used := used) (bits := c ++ front.flatMap Prod.snd)
      ⟨first, c, front, rfl, rfl, fun e he => hcs e (by simp [he]), hat⟩ (d ++ rest) hk (by simpa using hp)
      (by simp only [List.length_append]; omega) (by simp only [List.length_append]; omega)
    obtain ⟨d1, d2, d3, d4, -, -, -, d8, d9⟩ := id hd
    simp only [List.length_append] at d4
    obtain ⟨m, rfl⟩ : ∃ m, turns = m + 1 := ⟨turns - 1, by omega⟩
    have hz : u.budget ≠ 0#64 := by intro hz; rw [hz, BitVec.toNat_ofNat] at d4; omega
    have hpar : u.params = s.params := by rw [d9]
    obtain ⟨t, e', g1, g2, g3⟩ := decodeLoop_full
      (p := u.rootPoint (used + (c ++ front.flatMap Prod.snd).length))
      ((isCode_congr (by rw [d9]) (by rw [d9]) x d).mpr hx) rest m (n + (first ++ front.map Prod.fst).length) d2 d1
      (by omega) (by rw [d3, hpar]; simp only [List.length_append]; omega) (d8 hw)
    refine ⟨t, by rw [e, State.loopHead, if_neg hz, e'], g1, g2, ?_⟩
    have hwo : u.waitIn = s.waitIn := by rw [hw, d8 hw]
    rw [hwo] at d9
    rw [g3]
    simp only [State.rootPoint, List.length_append, List.append_assoc, Nat.add_assoc]
    rw [show u.budget.toNat - d.length =
      s.budget.toNat - (c.length + ((front.flatMap Prod.snd).length + d.length)) by omega, d9, d3]

end Sys2Proof.Machine
end

