-- ==== Sys2Proof/Laws/Frames.lean ====
section
/-! SUPPORT. What the loops of the commands may change, and what they do to the ports (spec/20_memory.md R81..R86). -/

namespace Sys2Proof.Machine

/-! ## Frames of the loops -/

theorem countLoop_progress (ts : List Token) (n : Nat) (s : State) :
    countLoop ts n s = { s.withProgress (countLoop ts n s) with
      symCnt := (countLoop ts n s).symCnt, freq := (countLoop ts n s).freq, total := (countLoop ts n s).total
      treeValid := (countLoop ts n s).treeValid, codesValid := (countLoop ts n s).codesValid
      inFifo := (countLoop ts n s).inFifo, result0 := (countLoop ts n s).result0 } := countLoop_frame ts n s

theorem drainLoop_frame (ts : List Token) (d : Nat) (s : State) :
    drainLoop ts d s = { s.withProgress (drainLoop ts d s) with
      inFifo := (drainLoop ts d s).inFifo, result0 := (drainLoop ts d s).result0 } := by
  induction ts generalizing d s with
  | nil => rfl
  | cons t ts ih =>
    cases t with
    | fin => rfl
    | byte b => exact ih (d + 1) s

theorem encodeLoop_frame (ts : List Token) (n : Nat) (s : State) :
    encodeLoop ts n s = { s.withProgress (encodeLoop ts n s) with
      wacc := (encodeLoop ts n s).wacc, wk := (encodeLoop ts n s).wk, outFifo := (encodeLoop ts n s).outFifo
      inFifo := (encodeLoop ts n s).inFifo, result0 := (encodeLoop ts n s).result0 } := by
  induction ts generalizing n s with
  | nil => rfl
  | cons t ts ih =>
    cases t with
    | fin => rfl
    | byte b =>
      rw [encodeLoop]
      split
      · rfl
      · cases hw : writeBits (s.codeAt b).path (s.popped ts) with
        | held todo u =>
          have := writeBits_held_frame _ _ _ _ hw
          simp only
          rw [this]; rfl
        | done u =>
          have h1 := writeBits_done_frame _ _ _ hw
          have h2 := ih (n + 1) u
          simp only
          generalize encodeLoop ts (n + 1) u = v at *
          refine h2.trans ?_
          rw [h1]; rfl

/-- The state a run of `rdByte()` ends in. -/
def BytesRes.state : BytesRes → State
  | .held _ t => t
  | .eos _ t => t
  | .got _ t => t

theorem readBytes_frame (m : Nat) (h : HdrPoint) (s : State) :
    (readBytes m h s).state = { s with
      racc := (readBytes m h s).state.racc, rk := (readBytes m h s).state.rk
      inFifo := (readBytes m h s).state.inFifo, waitIn := (readBytes m h s).state.waitIn } := by
  induction m generalizing h s with
  | zero => rfl
  | succ m ih =>
    have hf := readBits_frame (8 - h.k) h.r h.k s
    rw [readBytes]
    cases hr : readBits (8 - h.k) h.r h.k s with
    | held r k t => rw [hr] at hf; exact hf
    | eos r k t => rw [hr] at hf; exact hf
    | got r t =>
      rw [hr] at hf
      simp only [ReadRes.state] at hf
      simp only
      have h2 := ih { h with got := h.got ++ [BitVec.ofNat 8 r], used := h.used + 1, r := 0, k := 0 } t
      generalize (readBytes m _ t).state = v at *
      refine h2.trans ?_
      rw [hf]

theorem readEntries_frame (m : Nat) (h : HdrPoint) (s : State) :
    readEntries m h s = { s.withProgress (readEntries m h s) with
      freq := (readEntries m h s).freq, symCnt := (readEntries m h s).symCnt, total := (readEntries m h s).total
      treeValid := (readEntries m h s).treeValid, codesValid := (readEntries m h s).codesValid
      racc := (readEntries m h s).racc, rk := (readEntries m h s).rk, inFifo := (readEntries m h s).inFifo
      result0 := (readEntries m h s).result0, result1 := (readEntries m h s).result1 } := by
  induction m generalizing h s with
  | zero => rfl
  | succ m ih =>
    have hf := readBytes_frame (9 - h.got.length) h s
    rw [readEntries]
    cases hr : readBytes (9 - h.got.length) h s with
    | held h' t => rw [hr] at hf; simp only [BytesRes.state] at hf ⊢; rw [hf]; rfl
    | eos used t => rw [hr] at hf; simp only [BytesRes.state] at hf ⊢; rw [hf]; rfl
    | got h' t =>
      rw [hr] at hf
      simp only [BytesRes.state] at hf
      simp only
      split
      · rw [hf]; rfl
      · have h2 := ih { h' with prev := some h'.sym, got := [] } (t.loadEntry h'.sym (BitVec.ofNat 64 h'.freq))
        generalize readEntries m _ (t.loadEntry _ _) = v at *
        refine h2.trans ?_
        rw [hf]; rfl

theorem readHeader_frame (h : HdrPoint) (s : State) :
    readHeader h s = { s.withProgress (readHeader h s) with
      freq := (readHeader h s).freq, symCnt := (readHeader h s).symCnt, total := (readHeader h s).total
      treeValid := (readHeader h s).treeValid, codesValid := (readHeader h s).codesValid
      racc := (readHeader h s).racc, rk := (readHeader h s).rk, inFifo := (readHeader h s).inFifo
      result0 := (readHeader h s).result0, result1 := (readHeader h s).result1 } := by
  have hf := readBytes_frame (4 - h.got.length) h s
  rw [readHeader]
  cases hr : readBytes (4 - h.got.length) h s with
  | held h' t => rw [hr] at hf; simp only [BytesRes.state] at hf ⊢; rw [hf]; rfl
  | eos used t => rw [hr] at hf; simp only [BytesRes.state] at hf ⊢; rw [hf]; rfl
  | got h' t =>
    rw [hr] at hf
    simp only [BytesRes.state] at hf
    simp only
    split
    · rw [hf]; rfl
    · split
      · rw [hf]; rfl
      · have h2 := readEntries_frame (ofLeBytes h'.got) { h' with got := [] } t
        generalize readEntries _ _ t = v at *
        refine h2.trans ?_
        rw [hf]; rfl

theorem outPush_frame (s t : State) (b : Byte) (h : s.outPush b = some t) :
    t = { s with outFifo := s.outFifo ++ [b], waitOut := false } ∧ s.outFull = false := by
  unfold State.outPush at h
  split at h
  · cases h
  · rename_i hf
    cases h
    exact ⟨rfl, by simpa using hf⟩

theorem outPush_none (s : State) (b : Byte) (h : s.outPush b = none) : s.outFull = true := by
  unfold State.outPush at h
  split at h
  · assumption
  · cases h

theorem decodeLoop_frame (turns count : Nat) (p : DecPoint) (s : State) :
    decodeLoop turns count p s = { s.withProgress (decodeLoop turns count p s) with
      racc := (decodeLoop turns count p s).racc, rk := (decodeLoop turns count p s).rk
      inFifo := (decodeLoop turns count p s).inFifo, budget := (decodeLoop turns count p s).budget
      outFifo := (decodeLoop turns count p s).outFifo
      result0 := (decodeLoop turns count p s).result0, result1 := (decodeLoop turns count p s).result1 } := by
  induction turns generalizing count p s with
  | zero => rfl
  | succ turns ih =>
    have hf := decodeOne_frame s.budget.toNat p s
    rw [decodeLoop]
    cases hr : decodeOne s.budget.toNat p s with
    | held p' t => rw [hr] at hf; simp only [DecRes.state] at hf ⊢; rw [hf]; rfl
    | err e info used t => rw [hr] at hf; simp only [DecRes.state] at hf ⊢; rw [hf]; rfl
    | sym x used t =>
      rw [hr] at hf
      simp only [DecRes.state] at hf
      simp only
      cases hp : t.outPush x with
      | none => simp only; rw [hf]; rfl
      | some u =>
        have hu := (outPush_frame t u x hp).1
        simp only
        split
        · rw [hu, hf]; rfl
        · have h2 := ih (count + 1) (u.rootPoint used) u
          generalize decodeLoop turns (count + 1) _ u = v at *
          refine h2.trans ?_
          rw [hu, hf]; rfl

theorem decodeFrom_frame (s : State) (count used : Nat) :
    s.decodeFrom count used = { s.withProgress (s.decodeFrom count used) with
      racc := (s.decodeFrom count used).racc, rk := (s.decodeFrom count used).rk
      inFifo := (s.decodeFrom count used).inFifo, budget := (s.decodeFrom count used).budget
      outFifo := (s.decodeFrom count used).outFifo
      result0 := (s.decodeFrom count used).result0, result1 := (s.decodeFrom count used).result1 } := by
  unfold State.decodeFrom
  split
  · rfl
  · exact decodeLoop_frame _ _ _ _

/-! ## Waiting -/

theorem flushFull_waitOut (s t : State) (h : s.flushFull = some t) (hw : s.waitOut = false) : t.waitOut = false := by
  unfold State.flushFull State.pushWacc at h
  split at h
  · split at h
    · cases h
    · rename_i u hu
      cases h
      have := (outPush_frame _ _ _ hu).1
      rw [this]
  · cases h; exact hw

theorem writeBits_waitOut (bs : List Bool) (s : State) (h : s.waitOut = false) :
    (writeBits bs s).state.waitOut = false := by
  induction bs generalizing s with
  | nil =>
    rw [writeBits]
    split
    · exact h
    · exact flushFull_waitOut _ _ (by assumption) h
  | cons b bs ih =>
    rw [writeBits]
    split
    · exact h
    · rename_i t ht
      have h2 : (t.appendBit b).waitOut = false := flushFull_waitOut s t ht h
      exact ih _ h2

theorem readBits_waitIn (left r k : Nat) (s : State) (h : s.waitIn = false) :
    (readBits left r k s).state.waitIn = false := by
  induction left generalizing r k s with
  | zero => exact h
  | succ n ih =>
    rw [readBits]
    split
    · exact h
    · exact h
    · exact ih _ _ _ (readBit_waitIn _ _ _ (by assumption) h)

theorem readBytes_waitIn (m : Nat) (h : HdrPoint) (s : State) (hw : s.waitIn = false) :
    (readBytes m h s).state.waitIn = false := by
  induction m generalizing h s with
  | zero => exact hw
  | succ m ih =>
    have := readBits_waitIn (8 - h.k) h.r h.k s hw
    rw [readBytes]
    split
    · rename_i e; rw [e] at this; exact this
    · rename_i e; rw [e] at this; exact this
    · rename_i e; rw [e] at this; exact ih _ _ this

/-! ## How a run ends -/

/-- A command's run ends with its completion or in a hold for a reason (20_memory R86). -/
def State.EndsFrom (s t : State) : Prop :=
  (t.prog = .none ∧ t.busy = false ∧ t.done = true ∧ t.waitIn = false ∧ t.waitOut = false) ∨
    (t.prog ≠ .none ∧ t.prog ≠ .start ∧ t.busy = s.busy ∧ t.done = s.done ∧ t.waitIn = true ∧ t.inFifo = [] ∧
      (s.waitOut = false → t.waitOut = false)) ∨
    (t.prog ≠ .none ∧ t.prog ≠ .start ∧ t.busy = s.busy ∧ t.done = s.done ∧ t.waitOut = true ∧
      t.params.outDepth ≤ t.outFifo.length ∧ (s.waitIn = false → t.waitIn = false))

theorem EndsFrom.mono {s s' t : State} (hb : s'.busy = s.busy) (hd : s'.done = s.done)
    (hi : s.waitIn = false → s'.waitIn = false) (ho : s.waitOut = false → s'.waitOut = false) (h : s'.EndsFrom t) :
    s.EndsFrom t := by
  unfold State.EndsFrom at *
  rw [← hb, ← hd]
  rcases h with h | ⟨h1, h2, h3, h4, h5, h6, h7⟩ | ⟨h1, h2, h3, h4, h5, h6, h7⟩
  · exact Or.inl h
  · exact Or.inr (Or.inl ⟨h1, h2, h3, h4, h5, h6, fun h => h7 (ho h)⟩)
  · exact Or.inr (Or.inr ⟨h1, h2, h3, h4, h5, h6, fun h => h7 (hi h)⟩)

theorem complete_ends (s u : State) : s.EndsFrom u.complete := Or.inl ⟨rfl, rfl, rfl, rfl, rfl⟩

theorem raise_ends (s u : State) (e : ErrKind) (i : Word) : s.EndsFrom (u.raise e i) := Or.inl ⟨rfl, rfl, rfl, rfl, rfl⟩

theorem holdIn_ends (s u : State) (p : Prog) (hp : p ≠ .none ∧ p ≠ .start) (hb : u.busy = s.busy) (hd : u.done = s.done)
    (hi : u.inFifo = []) (ho : s.waitOut = false → u.waitOut = false) : s.EndsFrom (u.holdIn p) :=
  Or.inr (Or.inl ⟨hp.1, hp.2, hb, hd, rfl, hi, ho⟩)

theorem holdOut_ends (s u : State) (p : Prog) (hp : p ≠ .none ∧ p ≠ .start) (hb : u.busy = s.busy) (hd : u.done = s.done)
    (ho : u.outFull = true) (hi : s.waitIn = false → u.waitIn = false) : s.EndsFrom (u.holdOut p) :=
  Or.inr (Or.inr ⟨hp.1, hp.2, hb, hd, rfl, (of_decide_eq_true ho : u.params.outDepth ≤ u.outFifo.length), hi⟩)

theorem writeBits_heldFull (bs todo : List Bool) (s t : State) (h : writeBits bs s = .held todo t) : t.outFull = true := by
  have flush : ∀ u : State, u.flushFull = none → u.outFull = true := by
    intro u hu
    unfold State.flushFull at hu
    split at hu
    · unfold State.pushWacc at hu
      split at hu
      · exact outPush_none _ _ (by assumption)
      · cases hu
    · cases hu
  induction bs generalizing s with
  | nil =>
    rw [writeBits] at h
    split at h
    · cases h; exact flush _ (by assumption)
    · cases h
  | cons b bs ih =>
    rw [writeBits] at h
    split at h
    · cases h; exact flush _ (by assumption)
    · exact ih _ h

theorem readBits_heldEmpty (left r k r' k' : Nat) (s t : State) (h : readBits left r k s = .held r' k' t) :
    t.inFifo = [] := by
  induction left generalizing r k s with
  | zero => cases h
  | succ n ih =>
    rw [readBits] at h
    split at h
    · rename_i hb
      cases h
      unfold State.readBit at hb
      split at hb
      · split at hb
        · assumption
        · cases hb
        · cases hb
      · cases hb
    · cases h
    · exact ih _ _ _ h

theorem readBytes_heldEmpty (m : Nat) (h h' : HdrPoint) (s t : State) (he : readBytes m h s = .held h' t) :
    t.inFifo = [] := by
  induction m generalizing h s with
  | zero => cases he
  | succ m ih =>
    rw [readBytes] at he
    split at he
    · rename_i hr
      cases he
      exact readBits_heldEmpty _ _ _ _ _ _ _ hr
    · cases he
    · exact ih _ _ he

theorem decodeOne_heldEmpty (n : Nat) (p p' : DecPoint) (s t : State) (h : decodeOne n p s = .held p' t) :
    t.inFifo = [] := by
  induction n generalizing p s with
  | zero => cases h
  | succ n ih =>
    rw [decodeOne] at h
    split at h
    · rename_i hb
      cases h
      unfold State.readBit at hb
      split at hb
      · split at hb
        · assumption
        · cases hb
        · cases hb
      · cases hb
    · cases h
    · split at h
      · split at h <;> cases h
      · split at h
        · cases h
        · exact ih _ _ h

theorem countLoop_ends (ts : List Token) (n : Nat) (s : State) : s.EndsFrom (countLoop ts n s) := by
  induction ts generalizing n s with
  | nil => exact holdIn_ends _ _ _ (by simp) rfl rfl rfl id
  | cons t ts ih =>
    cases t with
    | fin => rw [countLoop]; split; exacts [raise_ends _ _ _ _, complete_ends _ _]
    | byte b =>
      rw [countLoop]
      split
      · exact raise_ends _ _ _ _
      · exact EndsFrom.mono rfl rfl id id (ih (n + 1) (s.accumulate b))

theorem drainLoop_ends (ts : List Token) (n : Nat) (s : State) : s.EndsFrom (drainLoop ts n s) := by
  induction ts generalizing n s with
  | nil => exact holdIn_ends _ _ _ (by simp) rfl rfl rfl id
  | cons t ts ih =>
    cases t with
    | fin => exact complete_ends _ _
    | byte b => exact ih (n + 1) s

/-- A run of the writer that is held, as a hold of the command (20_memory R84). -/
theorem writeBits_holdOut (s u : State) (bs todo : List Bool) (p : Prog) (hp : p ≠ .none ∧ p ≠ .start)
    (hw : writeBits bs s = .held todo u) : s.EndsFrom (u.holdOut p) := by
  have := writeBits_held_frame _ _ _ _ hw
  exact holdOut_ends _ _ _ hp (by rw [this]) (by rw [this]) (writeBits_heldFull _ _ _ _ hw) (by rw [this]; exact id)

theorem EndsFrom.writeBits {s u t : State} {bs : List Bool} (hw : writeBits bs s = .done u) (h : u.EndsFrom t) :
    s.EndsFrom t := by
  have hf := writeBits_done_frame _ _ _ hw
  refine EndsFrom.mono (by rw [hf]) (by rw [hf]) (by rw [hf]; exact id) ?_ h
  intro ho
  have := writeBits_waitOut bs s ho
  rw [hw] at this
  exact this

theorem encodeLoop_ends (ts : List Token) (n : Nat) (s : State) : s.EndsFrom (encodeLoop ts n s) := by
  induction ts generalizing n s with
  | nil => exact holdIn_ends _ _ _ (by simp) rfl rfl rfl id
  | cons t ts ih =>
    cases t with
    | fin => exact complete_ends _ _
    | byte b =>
      rw [encodeLoop]
      split
      · exact raise_ends _ _ _ _
      · refine EndsFrom.mono (s' := s.popped ts) rfl rfl (fun _ => rfl) id ?_
        cases hw : writeBits (s.codeAt b).path (s.popped ts) with
        | held todo u => exact writeBits_holdOut _ _ _ _ _ (by simp) hw
        | done u => exact EndsFrom.writeBits hw (ih (n + 1) u)

theorem EndsFrom.readBytes {s t : State} {m : Nat} {h : HdrPoint} (he : (readBytes m h s).state.EndsFrom t) :
    s.EndsFrom t := by
  have hf := readBytes_frame m h s
  refine EndsFrom.mono (by rw [hf]) (by rw [hf]) (readBytes_waitIn m h s) (by rw [hf]; exact id) he

theorem readEntries_ends (m : Nat) (h : HdrPoint) (s : State) : s.EndsFrom (readEntries m h s) := by
  induction m generalizing h s with
  | zero => exact complete_ends _ _
  | succ m ih =>
    rw [readEntries]
    cases hr : Machine.readBytes (9 - h.got.length) h s with
    | held h' t =>
      refine EndsFrom.readBytes (m := 9 - h.got.length) (h := h) ?_
      rw [hr]
      exact holdIn_ends _ _ _ (by simp) rfl rfl (readBytes_heldEmpty _ _ _ _ _ hr) id
    | eos used t => exact raise_ends _ _ _ _
    | got h' t =>
      simp only
      split
      · exact raise_ends _ _ _ _
      · refine EndsFrom.readBytes (m := 9 - h.got.length) (h := h) ?_
        rw [hr]
        exact EndsFrom.mono rfl rfl id id (ih _ (t.loadEntry _ _))

theorem readHeader_ends (h : HdrPoint) (s : State) : s.EndsFrom (readHeader h s) := by
  rw [readHeader]
  cases hr : Machine.readBytes (4 - h.got.length) h s with
  | held h' t =>
    refine EndsFrom.readBytes (m := 4 - h.got.length) (h := h) ?_
    rw [hr]
    exact holdIn_ends _ _ _ (by simp) rfl rfl (readBytes_heldEmpty _ _ _ _ _ hr) id
  | eos used t => exact raise_ends _ _ _ _
  | got h' t =>
    simp only
    split
    · exact raise_ends _ _ _ _
    · split
      · exact raise_ends _ _ _ _
      · refine EndsFrom.readBytes (m := 4 - h.got.length) (h := h) ?_
        rw [hr]
        exact readEntries_ends _ _ _

theorem EndsFrom.decodeOne {s t : State} {n : Nat} {p : DecPoint} (he : (decodeOne n p s).state.EndsFrom t) :
    s.EndsFrom t := by
  have hf := decodeOne_frame n p s
  refine EndsFrom.mono (by rw [hf]) (by rw [hf]) (decodeOne_waitIn n p s) (by rw [hf]; exact id) he

theorem decodeLoop_ends (turns count : Nat) (p : DecPoint) (s : State) : s.EndsFrom (decodeLoop turns count p s) := by
  induction turns generalizing count p s with
  | zero => exact complete_ends _ _
  | succ turns ih =>
    rw [decodeLoop]
    cases hr : Machine.decodeOne s.budget.toNat p s with
    | held p' t =>
      refine EndsFrom.decodeOne (n := s.budget.toNat) (p := p) ?_
      rw [hr]
      exact holdIn_ends _ _ _ (by simp) rfl rfl (decodeOne_heldEmpty _ _ _ _ _ hr) id
    | err e info used t => exact raise_ends _ _ _ _
    | sym x used t =>
      refine EndsFrom.decodeOne (n := s.budget.toNat) (p := p) ?_
      rw [hr]
      show t.EndsFrom _
      simp only
      cases hp : t.outPush x with
      | none => exact holdOut_ends _ _ _ (by simp) rfl rfl (outPush_none _ _ hp) id
      | some u =>
        have hu := (outPush_frame t u x hp).1
        simp only
        split
        · exact complete_ends _ _
        · exact EndsFrom.mono (by rw [hu]) (by rw [hu]) (by rw [hu]; exact id) (by rw [hu]; exact fun _ => rfl) (ih _ _ _)

theorem decodeFrom_ends (s : State) (count used : Nat) : s.EndsFrom (s.decodeFrom count used) := by
  unfold State.decodeFrom
  split
  · exact complete_ends _ _
  · exact decodeLoop_ends _ _ _ _

end Sys2Proof.Machine
end

