-- ==== Sys2Proof/Laws/Bounds.lean ====
section
/-! SUPPORT. What every loop keeps of the progress point (spec/10_state.md R58) and of the accumulators (R54, R55, R60 V5). -/

namespace Sys2Proof.Machine

/-! ## The progress point: none, or one of the command's own holds -/

theorem progFits_countLoop (ts n s) : progFits .freqAccumStream (countLoop ts n s).prog = true := by
  induction ts generalizing n s with
  | nil => rfl
  | cons a ts ih => cases a with
    | fin => rw [countLoop]; split <;> rfl
    | byte b => rw [countLoop]; split
                · rfl
                · exact ih _ _

theorem progFits_drainLoop (ts n s) : progFits .rdDrain (drainLoop ts n s).prog = true := by
  induction ts generalizing n s with
  | nil => rfl
  | cons a ts ih => cases a with
    | fin => rfl
    | byte b => exact ih _ _

theorem progFits_encodeLoop (ts n s) : progFits .encStream (encodeLoop ts n s).prog = true := by
  induction ts generalizing n s with
  | nil => rfl
  | cons a ts ih => cases a with
    | fin => rfl
    | byte b => rw [encodeLoop]; split
                · rfl
                · split
                  · rfl
                  · exact ih _ _

theorem progFits_readEntries (m h s) : progFits .hdrRead (readEntries m h s).prog = true := by
  induction m generalizing h s with
  | zero => rfl
  | succ m ih => rw [readEntries]; split
                 · rfl
                 · rfl
                 · split
                   · rfl
                   · exact ih _ _

theorem progFits_readHeader (h s) : progFits .hdrRead (readHeader h s).prog = true := by
  rw [readHeader]; split
  · rfl
  · rfl
  · split
    · rfl
    · split
      · rfl
      · exact progFits_readEntries _ _ _

theorem progFits_decodeLoop (n c p s) : progFits .decStream (decodeLoop n c p s).prog = true := by
  induction n generalizing c p s with
  | zero => rfl
  | succ m ih => rw [decodeLoop]; split
                 · rfl
                 · rfl
                 · split
                   · rfl
                   · split
                     · rfl
                     · exact ih _ _ _

theorem progFits_decodeFrom (s : State) (c u) : progFits .decStream (s.decodeFrom c u).prog = true := by
  unfold State.decodeFrom; split
  · rfl
  · exact progFits_decodeLoop _ _ _ _

theorem finishWrite_prog (r w) : (finishWrite r w).prog = .none ∨ ∃ l, (finishWrite r w).prog = .writing l := by
  cases w
  · exact Or.inl rfl
  · exact Or.inr ⟨_, rfl⟩

/-! ## The accumulators: RK ≤ 8, WK ≤ 8, the unwritten bits 0 -/

theorem readBit_rk {s t : State} {b} (h : s.readBit = .bit b t) (hk : s.rk.toNat ≤ 8) : t.rk.toNat ≤ 8 := by
  rcases readBit_cases s hk with ⟨e, -⟩ | ⟨e, -⟩ | ⟨c, u, e, -, h7, -⟩
  · rw [e] at h; cases h
  · rw [e] at h; cases h
  · rw [e] at h; cases h; omega

theorem readBits_rk (l r k) (s : State) (hk : s.rk.toNat ≤ 8) : (readBits l r k s).state.rk.toNat ≤ 8 := by
  induction l generalizing r k s with
  | zero => exact hk
  | succ n ih => rw [readBits]; split
                 · exact hk
                 · exact hk
                 · exact ih _ _ _ (readBit_rk (by assumption) hk)

theorem readBytes_rk (m h) (s : State) (hk : s.rk.toNat ≤ 8) : (readBytes m h s).state.rk.toNat ≤ 8 := by
  induction m generalizing h s with
  | zero => exact hk
  | succ n ih =>
    have := readBits_rk (8 - h.k) h.r h.k s hk
    rw [readBytes]; split
    · rename_i e; rw [e] at this; exact this
    · rename_i e; rw [e] at this; exact this
    · rename_i e; rw [e] at this; exact ih _ _ this

theorem decodeOne_rk (n p) (s : State) (hk : s.rk.toNat ≤ 8) : (decodeOne n p s).state.rk.toNat ≤ 8 := by
  induction n generalizing p s with
  | zero => exact hk
  | succ n ih =>
    rw [decodeOne]; split
    · exact hk
    · exact hk
    · rename_i b t hb
      have h2 : (t.spend n).rk.toNat ≤ 8 := (show t.rk.toNat ≤ 8 from readBit_rk hb hk)
      split
      · split <;> exact h2
      · split
        · exact h2
        · exact ih _ _ h2

theorem readEntries_rk (m h) (s : State) (hk : s.rk.toNat ≤ 8) : (readEntries m h s).rk.toNat ≤ 8 := by
  induction m generalizing h s with
  | zero => exact hk
  | succ m ih =>
    have w := readBytes_rk (9 - h.got.length) h s hk
    rw [readEntries]; split
    · rename_i e; rw [e] at w; exact w
    · rename_i e; rw [e] at w; exact w
    · rename_i e; rw [e] at w; split
      · exact w
      · exact ih _ _ w

theorem readHeader_rk (h) (s : State) (hk : s.rk.toNat ≤ 8) : (readHeader h s).rk.toNat ≤ 8 := by
    have w := readBytes_rk (4 - h.got.length) h s hk
    rw [readHeader]; split
    · rename_i e; rw [e] at w; exact w
    · rename_i e; rw [e] at w; exact w
    · rename_i e; rw [e] at w; split
      · exact w
      · split
        · exact w
        · exact readEntries_rk _ _ _ w

theorem decodeLoop_rk (n c p) (s : State) (hk : s.rk.toNat ≤ 8) : (decodeLoop n c p s).rk.toNat ≤ 8 := by
  induction n generalizing c p s with
  | zero => exact hk
  | succ m ih =>
    have w := decodeOne_rk s.budget.toNat p s hk
    rw [decodeLoop]; split
    · rename_i e; rw [e] at w; exact w
    · rename_i e; rw [e] at w; exact w
    · rename_i e; rw [e] at w; split
      · exact w
      · rename_i hp
        have h1 := (outPush_frame _ _ _ hp).1
        have w2 := w
        split
        · rw [h1]; exact w
        · exact ih _ _ _ (by rw [h1]; exact w)

theorem decodeFrom_rk (s : State) (c u) (hk : s.rk.toNat ≤ 8) : (s.decodeFrom c u).rk.toNat ≤ 8 := by
  unfold State.decodeFrom; split
  · exact hk
  · exact decodeLoop_rk _ _ _ _ hk

/-- A run of the writer ends with WK ≤ 7, or held on a full byte with WK = 8 (40_bitio R131). -/

theorem writeBits_accLow (bs : List Bool) (s : State) (hk : s.wk.toNat ≤ 8) (hl : s.AccLow) :
    (∃ t, writeBits bs s = .done t ∧ t.wk.toNat ≤ 7 ∧ t.AccLow ∧ t.rk = s.rk) ∨ (∃ todo t, writeBits bs s = .held todo t ∧ t.wk.toNat = 8 ∧ t.AccLow ∧ t.rk = s.rk) := by
  cases hw : writeBits bs s with
  | done t => obtain ⟨_, b, c⟩ := writeBits_done _ _ _ hk hl hw; exact Or.inl ⟨t, rfl, b, c, by rw [writeBits_done_frame _ _ _ hw]⟩
  | held todo t => obtain ⟨_, b, c, _⟩ := writeBits_held _ _ _ _ hk hl hw; exact Or.inr ⟨todo, t, rfl, by rw [b]; rfl, c, by rw [writeBits_held_frame _ _ _ _ hw]⟩

theorem encodeLoop_accOk (ts n) (s : State) (hk : s.wk.toNat ≤ 7) (hl : s.AccLow) (hr : s.rk.toNat ≤ 8) : (encodeLoop ts n s).AccOk := by
  have fin : ∀ u : State, u.wk = s.wk → u.wacc = s.wacc → u.rk = s.rk → u.AccOk := by
    intro u h1 h2 h3
    exact ⟨by rw [h1]; omega, by rw [h1]; omega, by intro i; rw [h1, h2]; exact hl i, by rw [h3]; exact hr⟩
  induction ts generalizing n s with
  | nil => exact fin _ rfl rfl rfl
  | cons a ts ih => cases a with
    | fin => exact fin _ rfl rfl rfl
    | byte b =>
      rw [encodeLoop]; split
      · exact fin _ rfl rfl rfl
      · rcases writeBits_accLow (s.codeAt b).path (s.popped ts) (by show s.wk.toNat ≤ 8; omega) hl with ⟨t, e, h1, h2, h3⟩ | ⟨todo, t, e, h1, h2, h3⟩
        · rw [e]
          have h3' : t.rk.toNat ≤ 8 := by rw [h3]; exact hr
          exact ih _ _ h1 h2 h3' (fun u h4 h5 h6 => ⟨by rw [h4]; omega, by rw [h4]; omega, by intro i; rw [h4, h5]; exact h2 i, by rw [h6]; exact h3'⟩)
        · rw [e]
          refine ⟨by show t.wk.toNat ≤ 8; omega, fun _ => rfl, h2, by show t.rk.toNat ≤ 8; rw [h3]; exact hr⟩

end Sys2Proof.Machine
end

