-- ==== Sys2Proof/Laws/Ports.lean ====
section
/-! SUPPORT. What every loop does to the ports (spec/20_memory.md R81..R85): tokens leave the head of the IN FIFO, bytes
join the tail of the OUT FIFO, and the OUT FIFO stays within its depth. -/

namespace Sys2Proof.Machine

/-- t is s after some tokens were taken off the head of the IN FIFO and some bytes appended to the OUT FIFO, the latter
within its depth. -/
def PortsMoved (s t : State) : Prop :=
  (∃ taken, s.inFifo = taken ++ t.inFifo) ∧ (∃ sent, t.outFifo = s.outFifo ++ sent) ∧
    (s.outFifo.length ≤ s.params.outDepth → t.outFifo.length ≤ s.params.outDepth) ∧ t.params = s.params

theorem portsMoved_refl (s : State) : PortsMoved s s := ⟨⟨[], rfl⟩, ⟨[], by simp⟩, id, rfl⟩

theorem portsMoved_trans {s t u : State} (h : PortsMoved s t) (g : PortsMoved t u) : PortsMoved s u := by
  obtain ⟨⟨a, ha⟩, ⟨b, hb⟩, c, d⟩ := h
  obtain ⟨⟨a', ha'⟩, ⟨b', hb'⟩, c', d'⟩ := g
  exact ⟨⟨a ++ a', by rw [ha, ha']; simp⟩, ⟨b ++ b', by rw [hb', hb]; simp⟩, fun h => by rw [d] at c'; exact c' (c h), d'.trans d⟩

theorem portsMoved_same {s t : State} (h1 : t.inFifo = s.inFifo) (h2 : t.outFifo = s.outFifo) (h3 : t.params = s.params) : PortsMoved s t :=
  ⟨⟨[], by simp [h1]⟩, ⟨[], by simp [h2]⟩, by rw [h2]; exact id, h3⟩

/-- OutPush appends one byte, within the depth (20_memory R84). -/

theorem portsMoved_push {s u : State} {b} (h : s.outPush b = some u) : PortsMoved s u := by
  obtain ⟨h1, h2⟩ := outPush_frame _ _ _ h
  subst h1
  refine ⟨⟨[], rfl⟩, ⟨[b], rfl⟩, fun _ => ?_, rfl⟩
  simp [State.outFull] at h2
  show (s.outFifo ++ [b]).length ≤ _
  simp; omega

theorem portsMoved_flush {s u : State} (h : s.flushFull = some u) : PortsMoved s u := by
  unfold State.flushFull State.pushWacc at h
  split at h
  · split at h
    · cases h
    · rename_i v hv; have := portsMoved_push hv; cases h
      exact portsMoved_trans this (portsMoved_same rfl rfl rfl)
  · cases h; exact portsMoved_refl _

/-- A run of the writer appends bytes and takes no token. -/

theorem portsMoved_writeBits (bs : List Bool) (s : State) : PortsMoved s (writeBits bs s).state := by
  induction bs generalizing s with
  | nil => rw [writeBits]; split
           · exact portsMoved_refl _
           · exact portsMoved_flush (by assumption)
  | cons b bs ih => rw [writeBits]; split
                    · exact portsMoved_refl _
                    · rename_i t ht
                      exact portsMoved_trans (portsMoved_flush ht) (portsMoved_trans (portsMoved_same (t := t.appendBit b) rfl rfl rfl) (ih _))

/-- `readBit()` takes at most the head token. -/

theorem portsMoved_readBit {s t : State} {b} (h : s.readBit = .bit b t) : PortsMoved s t := by
  unfold State.readBit at h
  split at h
  · split at h <;> cases h
    rename_i b rest e
    exact ⟨⟨[.byte b], by simp [e, State.popped]⟩, ⟨[], by simp [State.popped]⟩, id, rfl⟩
  · cases h; exact portsMoved_same rfl rfl rfl

theorem portsMoved_readBits (l r k) (s : State) : PortsMoved s (readBits l r k s).state := by
  induction l generalizing r k s with
  | zero => exact portsMoved_refl _
  | succ n ih => rw [readBits]; split
                 · exact portsMoved_refl _
                 · exact portsMoved_refl _
                 · exact portsMoved_trans (portsMoved_readBit (by assumption)) (ih _ _ _)

theorem portsMoved_readBytes (m h) (s : State) : PortsMoved s (readBytes m h s).state := by
  induction m generalizing h s with
  | zero => exact portsMoved_refl _
  | succ n ih => 
    have := portsMoved_readBits (8 - h.k) h.r h.k s
    rw [readBytes]; split
    · rename_i e; rw [e] at this; exact this
    · rename_i e; rw [e] at this; exact this
    · rename_i e; rw [e] at this; exact portsMoved_trans this (ih _ _)

theorem portsMoved_decodeOne (n p) (s : State) : PortsMoved s (decodeOne n p s).state := by
  induction n generalizing p s with
  | zero => exact portsMoved_refl _
  | succ n ih =>
    rw [decodeOne]; split
    · exact portsMoved_refl _
    · exact portsMoved_refl _
    · rename_i b t hb
      have h1 := portsMoved_readBit hb
      have h2 : PortsMoved s (t.spend n) := portsMoved_trans h1 (portsMoved_same rfl rfl rfl)
      split
      · split <;> exact h2
      · split
        · exact h2
        · exact portsMoved_trans h2 (ih _ _)

theorem portsMoved_pop {s : State} {t rest} (h : s.inFifo = t :: rest) : PortsMoved s (s.popped rest) := ⟨⟨[t], by simp [h, State.popped]⟩, ⟨[], by simp [State.popped]⟩, id, rfl⟩

/-- The loop's tokens are the rest of the IN FIFO after those it has taken. -/

theorem portsMoved_count (ts : List Token) (n) (s : State) (pre : List Token) (h : s.inFifo = pre ++ ts) : PortsMoved s (countLoop ts n s) := by
  induction ts generalizing n s pre with
  | nil => exact ⟨⟨pre, by simpa [countLoop, State.popped, State.holdIn] using h⟩, ⟨[], by simp [countLoop, State.popped, State.holdIn]⟩, id, rfl⟩
  | cons a ts ih =>
    have base : ∀ u : State, u.inFifo = ts → u.outFifo = s.outFifo → u.params = s.params → PortsMoved s u := by
      intro u h1 h2 h3
      exact ⟨⟨pre ++ [a], by simp [h, h1]⟩, ⟨[], by simp [h2]⟩, by rw [h2]; exact id, h3⟩
    cases a with
    | fin => rw [countLoop]; split <;> exact base _ rfl rfl rfl
    | byte b => rw [countLoop]; split
                · exact base _ rfl rfl rfl
                · exact portsMoved_trans (portsMoved_same (t := s.accumulate b) rfl rfl rfl) (ih _ _ (pre ++ [.byte b]) (by simpa [State.accumulate] using h))

theorem portsMoved_drain (ts : List Token) (n) (s : State) (pre : List Token) (h : s.inFifo = pre ++ ts) : PortsMoved s (drainLoop ts n s) := by
  induction ts generalizing n s pre with
  | nil => exact ⟨⟨pre, by simpa [drainLoop, State.popped, State.holdIn] using h⟩, ⟨[], by simp [drainLoop, State.popped, State.holdIn]⟩, id, rfl⟩
  | cons a ts ih =>
    cases a with
    | fin => exact ⟨⟨pre ++ [.fin], by simp [h, drainLoop, State.popped, State.complete]⟩, ⟨[], by simp [drainLoop, State.popped, State.complete]⟩, id, rfl⟩
    | byte b => exact ih _ _ (pre ++ [.byte b]) (by simpa using h)

/-- The encoding loop takes tokens and appends bytes. -/

theorem portsMoved_encode (ts : List Token) (n) (s : State) (h : s.inFifo = ts) : PortsMoved s (encodeLoop ts n s) := by
  induction ts generalizing n s with
  | nil => exact portsMoved_same (by simp [encodeLoop, State.popped, State.holdIn, h]) rfl rfl
  | cons a ts ih =>
    have p := portsMoved_pop h
    cases a with
    | fin => exact portsMoved_trans p (portsMoved_same rfl rfl rfl)
    | byte b =>
      rw [encodeLoop]; split
      · exact portsMoved_trans p (portsMoved_same rfl rfl rfl)
      · have w := portsMoved_writeBits (s.codeAt b).path (s.popped ts)
        split
        · rename_i e; rw [e] at w; exact portsMoved_trans p (portsMoved_trans w (portsMoved_same rfl rfl rfl))
        · rename_i t e
          have fr := writeBits_done_frame _ _ _ e
          rw [e] at w; exact portsMoved_trans p (portsMoved_trans w (ih _ _ (by show t.inFifo = _; rw [fr]; rfl)))

theorem portsMoved_entries (m h) (s : State) : PortsMoved s (readEntries m h s) := by
  induction m generalizing h s with
  | zero => exact portsMoved_same rfl rfl rfl
  | succ m ih =>
    have w := portsMoved_readBytes (9 - h.got.length) h s
    rw [readEntries]; split
    · rename_i e; rw [e] at w; exact portsMoved_trans w (portsMoved_same rfl rfl rfl)
    · rename_i e; rw [e] at w; exact portsMoved_trans w (portsMoved_same rfl rfl rfl)
    · rename_i e; rw [e] at w; split
      · exact portsMoved_trans w (portsMoved_same rfl rfl rfl)
      · refine portsMoved_trans w (portsMoved_trans ?_ (ih _ _))
        exact portsMoved_same rfl rfl rfl

theorem portsMoved_header (h) (s : State) : PortsMoved s (readHeader h s) := by
    have w := portsMoved_readBytes (4 - h.got.length) h s
    rw [readHeader]; split
    · rename_i e; rw [e] at w; exact portsMoved_trans w (portsMoved_same rfl rfl rfl)
    · rename_i e; rw [e] at w; exact portsMoved_trans w (portsMoved_same rfl rfl rfl)
    · rename_i e; rw [e] at w; split
      · exact portsMoved_trans w (portsMoved_same rfl rfl rfl)
      · split
        · exact portsMoved_trans w (portsMoved_same rfl rfl rfl)
        · exact portsMoved_trans w (portsMoved_entries _ _ _)

/-- The loop of DEC_STREAM takes tokens and appends bytes. -/

theorem portsMoved_dloop (n c p) (s : State) : PortsMoved s (decodeLoop n c p s) := by
  induction n generalizing c p s with
  | zero => exact portsMoved_same rfl rfl rfl
  | succ m ih =>
    have w := portsMoved_decodeOne s.budget.toNat p s
    rw [decodeLoop]; split
    · rename_i e; rw [e] at w; exact portsMoved_trans w (portsMoved_same rfl rfl rfl)
    · rename_i e; rw [e] at w; exact portsMoved_trans w (portsMoved_same rfl rfl rfl)
    · rename_i e; rw [e] at w; split
      · exact portsMoved_trans w (portsMoved_same rfl rfl rfl)
      · rename_i hp
        split
        · exact portsMoved_trans w (portsMoved_trans (portsMoved_push hp) (portsMoved_same rfl rfl rfl))
        · exact portsMoved_trans w (portsMoved_trans (portsMoved_push hp) (ih _ _ _))

theorem portsMoved_dfrom (s : State) (c u) : PortsMoved s (s.decodeFrom c u) := by
  unfold State.decodeFrom; split
  · exact portsMoved_same rfl rfl rfl
  · exact portsMoved_dloop _ _ _ _

end Sys2Proof.Machine
end

