-- ==== Sys2Proof/Laws/Encode.lean ====
section
/-! SUPPORT. What ENC_STREAM does from wherever it stands (spec/44_codec.md R212; 20_memory R82, R84). -/

namespace Sys2Proof.Machine

/-- The fields that an encoding run moves. -/
def EncodedFrom (s u : State) : Prop :=
  (s.waitOut = false → u.waitOut = false) ∧ (s.waitIn = false → u.waitIn = false) ∧
    u = { s with
      wacc := u.wacc, wk := u.wk, outFifo := u.outFifo, waitOut := u.waitOut, inFifo := u.inFifo, waitIn := u.waitIn }

theorem EncodedFrom.refl (s : State) : EncodedFrom s s := ⟨id, id, rfl⟩

theorem EncodedFrom.trans {s u v : State} (h : EncodedFrom s u) (g : EncodedFrom u v) : EncodedFrom s v :=
  ⟨fun e => g.1 (h.1 e), fun e => g.2.1 (h.2.1 e), by rw [g.2.2, h.2.2]⟩

/-- `writeBits` with room: the bits follow the output stream. -/
theorem writeBits_encoded (bs : List Bool) (s : State) (hk : s.wk.toNat ≤ 8) (hl : s.AccLow) (hr : s.HasRoom bs.length) :
    ∃ t, writeBits bs s = .done t ∧ t.sentBits = s.sentBits ++ bs ∧ t.wk.toNat ≤ 7 ∧ t.AccLow ∧ EncodedFrom s t ∧
      t.inFifo = s.inFifo := by
  obtain ⟨t, e⟩ := writeBits_room bs s hk hl hr
  obtain ⟨h1, h2, h3⟩ := writeBits_done bs s t hk hl e
  have hf := writeBits_done_frame bs s t e
  refine ⟨t, e, h1, h2, h3, ⟨fun h => ?_, fun h => ?_, ?_⟩, by rw [hf]⟩
  · have := writeBits_waitOut bs s h
    rwa [e] at this
  · rw [hf]; exact h
  · rw [hf]

/-- `writeBits` without room: a full byte waits, and the bits left are a tail of those asked for. -/
theorem writeBits_full (bs : List Bool) (s : State) (hk : s.wk.toNat ≤ 8) (hl : s.AccLow)
    (ho : s.outFifo.length ≤ s.params.outDepth) (hr : ¬ s.HasRoom bs.length) :
    ∃ left t, writeBits bs s = .held left t ∧ t.sentBits ++ left = s.sentBits ++ bs ∧ left <:+ bs ∧ t.wk = 8#4 ∧
      t.AccLow ∧ t.outFifo.length = s.params.outDepth ∧
      t = { s with wacc := t.wacc, wk := t.wk, outFifo := t.outFifo, waitOut := t.waitOut } := by
  have hp := (portsMoved_writeBits bs s).2.2.1 ho
  cases e : writeBits bs s with
  | done t =>
    exfalso
    apply hr
    obtain ⟨h1, h2, h3⟩ := writeBits_done bs s t hk hl e
    have := congrArg List.length h1
    rw [List.length_append, sentBits_length t (by omega), sentBits_length s hk] at this
    rw [e] at hp
    have hp : t.outFifo.length ≤ s.params.outDepth := hp
    unfold State.HasRoom
    omega
  | held left t =>
    obtain ⟨h1, h2, h3, h4⟩ := writeBits_held _ _ _ _ hk hl e
    have hf := writeBits_held_frame _ _ _ _ e
    rw [e] at hp
    have hp : t.outFifo.length ≤ s.params.outDepth := hp
    have h4 : t.params.outDepth ≤ t.outFifo.length := of_decide_eq_true h4
    have hpar : t.params = s.params := by rw [hf]
    rw [hpar] at h4
    refine ⟨left, t, rfl, h1, ?_, h2, h3, by omega, hf⟩
    have hsuf : left <:+ s.sentBits ++ bs := ⟨_, h1⟩
    have hlen := congrArg List.length h1
    rw [List.length_append, List.length_append, sentBits_length t (by simp [h2]), sentBits_length s hk] at hlen
    have hw : t.wk.toNat = 8 := by simp [h2]
    exact List.suffix_of_suffix_length_le hsuf (List.suffix_append _ _) (by omega)

/-- The head of the loop, met from wherever ENC_STREAM stands, once the bits it owes are written. -/
theorem encStream_resume {s : State} {n : Nat} {todo : List Bool} (h : s.EncStreamAt n todo) (hk : s.wk.toNat ≤ 8)
    (h8 : s.wk.toNat = 8 → s.prog.isWriting = true) (hl : s.AccLow) (hr : s.HasRoom todo.length) :
    ∃ u, execEncStream s = .next (encodeLoop s.inFifo n u) ∧ u.sentBits = s.sentBits ++ todo ∧ u.wk.toNat ≤ 7 ∧
      u.AccLow ∧ EncodedFrom s u ∧ u.inFifo = s.inFifo := by
  rcases h with ⟨hp, hc, rfl, rfl⟩ | ⟨hp, rfl⟩ | ⟨m, hp, rfl⟩
  · refine ⟨s, by simp [execEncStream, hp, hc], by simp, ?_, hl, EncodedFrom.refl s, rfl⟩
    by_contra hc; have := h8 (by omega); rw [hp] at this; cases this
  · refine ⟨s, by simp [execEncStream, hp], by simp, ?_, hl, EncodedFrom.refl s, rfl⟩
    by_contra hc; have := h8 (by omega); rw [hp] at this; cases this
  · obtain ⟨u, e, h1, h2, h3, h4, h5⟩ := writeBits_encoded todo s hk hl hr
    exact ⟨u, by simp only [execEncStream, hp, e]; rw [h5], h1, h2, h3, h4, h5⟩

/-- One byte of the loop, its code written. -/
theorem encodeLoop_byte (b : Byte) (ts : List Token) (n : Nat) (s : State) (hb : (s.codeAt b).len ≠ 0#8)
    (hk : s.wk.toNat ≤ 7) (hl : s.AccLow) (hr : s.HasRoom (s.codeAt b).path.length) :
    ∃ u, encodeLoop (.byte b :: ts) n s = encodeLoop ts (n + 1) u ∧ u.sentBits = s.sentBits ++ (s.codeAt b).path ∧
      u.wk.toNat ≤ 7 ∧ u.AccLow ∧ EncodedFrom s u := by
  obtain ⟨u, e, h1, h2, h3, h4, -⟩ := writeBits_encoded (s.codeAt b).path (s.popped ts) (by show s.wk.toNat ≤ 8; omega) hl hr
  refine ⟨u, by rw [encodeLoop, if_neg hb]; simp only [e], h1, h2, h3, ?_⟩
  exact EncodedFrom.trans (u := s.popped ts) ⟨id, fun _ => rfl, rfl⟩ h4

/-- The codes of a byte sequence are a function of the code table. -/
theorem codeBits_congr {s t : State} (h : EncodedFrom s t) (bs : List Byte) : t.codeBits bs = s.codeBits bs := by
  have : t.code = s.code := by rw [h.2.2]
  simp only [State.codeBits, State.codeAt, this]

/-- Bytes with codes, one after the other, with room for all. -/
theorem encodeLoop_codes (bs : List Byte) (ts : List Token) (n : Nat) (s : State) (hc : ∀ b ∈ bs, (s.codeAt b).len ≠ 0#8)
    (hk : s.wk.toNat ≤ 7) (hl : s.AccLow) (hr : s.HasRoom (s.codeBits bs).length) :
    ∃ u, encodeLoop (byteTokens bs ++ ts) n s = encodeLoop ts (n + bs.length) u ∧
      u.sentBits = s.sentBits ++ s.codeBits bs ∧ u.wk.toNat ≤ 7 ∧ u.AccLow ∧ EncodedFrom s u := by
  induction bs generalizing n s with
  | nil => exact ⟨s, rfl, by simp [State.codeBits], hk, hl, EncodedFrom.refl s⟩
  | cons x bs ih =>
    simp only [State.codeBits, State.HasRoom, List.flatMap_cons, List.length_append] at hr
    obtain ⟨t, e, h1, h2, h3, h4⟩ := encodeLoop_byte x (byteTokens bs ++ ts) n s (hc x (by simp)) hk hl
      (by unfold State.HasRoom; omega)
    have hpar : t.params = s.params := by rw [h4.2.2]
    have hcode : ∀ y, t.codeAt y = s.codeAt y := by intro y; rw [h4.2.2]; rfl
    have hlen := congrArg List.length h1
    rw [List.length_append, sentBits_length t (by omega), sentBits_length s (by omega)] at hlen
    obtain ⟨u, e', g1, g2, g3, g4⟩ := ih (n + 1) t (fun y hy => by rw [hcode]; exact hc y (by simp [hy])) h2 h3
      (by rw [codeBits_congr h4]; unfold State.HasRoom; rw [hpar]; simp only [State.codeBits]; omega)
    refine ⟨u, ?_, ?_, g2, g3, h4.trans g4⟩
    · show encodeLoop (.byte x :: (byteTokens bs ++ ts)) n s = _
      rw [e, e', List.length_cons]
      congr 1
      omega
    · rw [g1, h1, codeBits_congr h4]; simp [State.codeBits]

/-- ENC_STREAM over bytes that have codes, with room for all. -/
theorem encStream_codes {s : State} {n : Nat} {todo : List Bool} (h : s.EncStreamAt n todo) (bs : List Byte)
    (ts : List Token) (hi : s.inFifo = byteTokens bs ++ ts) (hc : ∀ b ∈ bs, (s.codeAt b).len ≠ 0#8) (hk : s.wk.toNat ≤ 8)
    (h8 : s.wk.toNat = 8 → s.prog.isWriting = true) (hl : s.AccLow) (hr : s.HasRoom (todo.length + (s.codeBits bs).length)) :
    ∃ u, execEncStream s = .next (encodeLoop ts (n + bs.length) u) ∧ u.sentBits = s.sentBits ++ todo ++ s.codeBits bs ∧
      u.wk.toNat ≤ 7 ∧ u.AccLow ∧ EncodedFrom s u := by
  unfold State.HasRoom at hr
  obtain ⟨t, e, h1, h2, h3, h4, -⟩ := encStream_resume h hk h8 hl (by unfold State.HasRoom; omega)
  have hpar : t.params = s.params := by rw [h4.2.2]
  have hcode : ∀ y, t.codeAt y = s.codeAt y := by intro y; rw [h4.2.2]; rfl
  have hlen := congrArg List.length h1
  rw [List.length_append, sentBits_length t (by omega), sentBits_length s hk] at hlen
  obtain ⟨u, e', g1, g2, g3, g4⟩ := encodeLoop_codes bs ts n t (fun y hy => by rw [hcode]; exact hc y hy) h2 h3
    (by rw [codeBits_congr h4]; unfold State.HasRoom; rw [hpar]; omega)
  exact ⟨u, by rw [e, hi, e'], by rw [g1, h1, codeBits_congr h4], g2, g3, h4.trans g4⟩

/-- Bytes with codes, without room for all: the loop holds inside the code of one of them. -/
theorem encodeLoop_full (bs : List Byte) (ts : List Token) (n : Nat) (s : State) (hc : ∀ b ∈ bs, (s.codeAt b).len ≠ 0#8)
    (hk : s.wk.toNat ≤ 7) (hl : s.AccLow) (ho : s.outFifo.length ≤ s.params.outDepth) (hw : s.waitIn = false)
    (hr : ¬ s.HasRoom (s.codeBits bs).length) :
    ∃ (t : State) (front later : List Byte) (b : Byte) (left : List Bool),
      encodeLoop (byteTokens bs ++ ts) n s = t ∧ bs = front ++ [b] ++ later ∧ left <:+ (s.codeAt b).path ∧
      t.sentBits ++ left = s.sentBits ++ s.codeBits (front ++ [b]) ∧ t.wk = 8#4 ∧ t.AccLow ∧
      t.outFifo.length = s.params.outDepth ∧
      t = { s with
        wacc := t.wacc, wk := t.wk, outFifo := t.outFifo, inFifo := byteTokens later ++ ts, waitOut := true
        prog := .encodeBits (n + front.length) left } := by
  induction bs generalizing n s with
  | nil =>
    exfalso
    apply hr
    simp only [State.HasRoom, State.codeBits, List.flatMap_nil, List.length_nil]
    omega
  | cons x bs ih =>
    by_cases hx : s.HasRoom (s.codeAt x).path.length
    · obtain ⟨t, e, h1, h2, h3, h4⟩ := encodeLoop_byte x (byteTokens bs ++ ts) n s (hc x (by simp)) hk hl hx
      have hpar : t.params = s.params := by rw [h4.2.2]
      have hcode : ∀ y, t.codeAt y = s.codeAt y := by intro y; rw [h4.2.2]; rfl
      have hlen := congrArg List.length h1
      rw [List.length_append, sentBits_length t (by omega), sentBits_length s (by omega)] at hlen
      unfold State.HasRoom at hx hr
      simp only [State.codeBits, List.flatMap_cons, List.length_append] at hr
      obtain ⟨u, front, later, b, left, i1, i2, i3, i4, i5, i6, i7, i8⟩ := ih (n + 1) t
        (fun y hy => by rw [hcode]; exact hc y (by simp [hy])) h2 h3 (by rw [hpar]; omega) (h4.2.1 hw)
        (by rw [codeBits_congr h4]; unfold State.HasRoom; rw [hpar]; simp only [State.codeBits]; omega)
      refine ⟨u, x :: front, later, b, left, ?_, by simp [i2], by rw [← hcode]; exact i3, ?_, i5, i6, by rw [i7, hpar], ?_⟩
      · show encodeLoop (.byte x :: (byteTokens bs ++ ts)) n s = _
        rw [e, i1]
      · rw [i4, h1, codeBits_congr h4]; simp [State.codeBits]
      · have hwi : t.waitIn = s.waitIn := by rw [hw, h4.2.1 hw]
        rw [i8, List.length_cons, show n + 1 + front.length = n + (front.length + 1) by omega]
        have hf := h4.2.2
        rw [hwi] at hf
        rw [hf]
    · obtain ⟨left, t, e, h1, h2, h3, h4, h5, h6⟩ := writeBits_full (s.codeAt x).path (s.popped (byteTokens bs ++ ts))
        (by show s.wk.toNat ≤ 8; omega) hl ho hx
      refine ⟨t.holdOut (.encodeBits n left), [], bs, x, left, ?_, rfl, h2, ?_, h3, h4, h5, ?_⟩
      · show encodeLoop (.byte x :: (byteTokens bs ++ ts)) n s = _
        rw [encodeLoop, if_neg (hc x (by simp))]
        simp only [e]
      · show t.sentBits ++ left = _
        rw [h1]
        simp [State.codeBits]
        rfl
      · rw [h6]
        simp only [State.holdOut, State.popped, hw]
        rfl

/-- ENC_STREAM without room for all the bits of the bytes at hand: it holds inside the code it was resumed in, or inside that
of one of the bytes. -/
theorem encStream_full {s : State} {n : Nat} {todo : List Bool} (h : s.EncStreamAt n todo) (bs : List Byte)
    (ts : List Token) (hi : s.inFifo = byteTokens bs ++ ts) (hc : ∀ b ∈ bs, (s.codeAt b).len ≠ 0#8) (hk : s.wk.toNat ≤ 8)
    (h8 : s.wk.toNat = 8 → s.prog.isWriting = true) (hl : s.AccLow) (ho : s.outFifo.length ≤ s.params.outDepth) :
    (¬ s.HasRoom todo.length → ∃ (t : State) (left : List Bool) (m : Nat), n = m + 1 ∧ execEncStream s = .next t ∧
      left <:+ todo ∧ t.sentBits ++ left = s.sentBits ++ todo ∧ t.wk = 8#4 ∧ t.AccLow ∧
      t.outFifo.length = s.params.outDepth ∧
      t = { s with wacc := t.wacc, wk := t.wk, outFifo := t.outFifo, waitOut := true, prog := .encodeBits m left }) ∧
    (s.HasRoom todo.length → ¬ s.HasRoom (todo.length + (s.codeBits bs).length) → s.waitIn = false →
      ∃ (t : State) (front later : List Byte) (b : Byte) (left : List Bool),
        execEncStream s = .next t ∧ bs = front ++ [b] ++ later ∧ left <:+ (s.codeAt b).path ∧
        t.sentBits ++ left = s.sentBits ++ todo ++ s.codeBits (front ++ [b]) ∧ t.wk = 8#4 ∧ t.AccLow ∧
        t.outFifo.length = s.params.outDepth ∧
        t = { s with
          wacc := t.wacc, wk := t.wk, outFifo := t.outFifo, inFifo := byteTokens later ++ ts, waitOut := true
          prog := .encodeBits (n + front.length) left }) := by
  refine ⟨fun hr => ?_, fun hr hr' hw => ?_⟩
  · rcases h with ⟨hp, -, -, rfl⟩ | ⟨hp, rfl⟩ | ⟨m, hp, rfl⟩
    · exfalso; apply hr; unfold State.HasRoom
      have : s.wk.toNat ≠ 8 := fun hc => by have := h8 hc; rw [hp] at this; cases this
      simp; omega
    · exfalso; apply hr; unfold State.HasRoom
      have : s.wk.toNat ≠ 8 := fun hc => by have := h8 hc; rw [hp] at this; cases this
      simp; omega
    · obtain ⟨left, t, e, h1, h2, h3, h4, h5, h6⟩ := writeBits_full todo s hk hl ho hr
      refine ⟨t.holdOut (.encodeBits m left), left, m, rfl, by simp only [execEncStream, hp, e], h2, h1, h3, h4, h5, ?_⟩
      rw [h6]
      rfl
  · obtain ⟨t, e, h1, h2, h3, h4, -⟩ := encStream_resume h hk h8 hl hr
    have hpar : t.params = s.params := by rw [h4.2.2]
    have hcode : ∀ y, t.codeAt y = s.codeAt y := by intro y; rw [h4.2.2]; rfl
    have hlen := congrArg List.length h1
    rw [List.length_append, sentBits_length t (by omega), sentBits_length s hk] at hlen
    unfold State.HasRoom at hr hr'
    obtain ⟨u, front, later, b, left, i1, i2, i3, i4, i5, i6, i7, i8⟩ := encodeLoop_full bs ts n t
      (fun y hy => by rw [hcode]; exact hc y hy) h2 h3 (by rw [hpar]; omega) (h4.2.1 hw)
      (by rw [codeBits_congr h4]; unfold State.HasRoom; rw [hpar]; omega)
    refine ⟨u, front, later, b, left, by rw [e, hi, i1], i2, by rw [← hcode]; exact i3, ?_, i5, i6, by rw [i7, hpar], ?_⟩
    · rw [i4, h1, codeBits_congr h4]
    · have hf := h4.2.2
      rw [h4.2.1 hw] at hf
      rw [i8, hf, hw]

end Sys2Proof.Machine
end

