-- ==== Sys2Proof/Laws/Header.lean ====
section
/-! SUPPORT. How HDR_READ reads a header, from wherever it stands and whatever RK is (spec/44_codec.md R213). -/

namespace Sys2Proof.Machine

/-! ## Lists of bytes, bits and entries -/

/-- Bits that begin with whole bytes fix those bytes. -/
theorem byteBits_cancel {a b : List Byte} {u v : List Bool} (h : byteBits a ++ u = byteBits b ++ v)
    (hl : a.length ≤ b.length) : ∃ c, b = a ++ c ∧ u = byteBits c ++ v := by
  induction a generalizing b with
  | nil => exact ⟨b, rfl, h⟩
  | cons x a ih =>
    cases b with
    | nil => simp at hl
    | cons y b =>
      simp only [byteBits, List.flatMap_cons, List.append_assoc] at h
      obtain ⟨h1, h2⟩ := List.append_inj h (by simp)
      have hxy : x = y := by
        have := congrArg pathValue h1
        rw [pathValue_msbBits, pathValue_msbBits, Nat.mod_eq_of_lt x.isLt, Nat.mod_eq_of_lt y.isLt] at this
        exact BitVec.eq_of_toNat_eq this
      obtain ⟨c, rfl, hc⟩ := ih h2 (by simpa using hl)
      exact ⟨c, by rw [hxy]; rfl, hc⟩

theorem entryBytes_append (a b : List (Byte × Word)) : entryBytes (a ++ b) = entryBytes a ++ entryBytes b :=
  List.flatMap_append

@[simp] theorem entryBytes_length (a : List (Byte × Word)) : (entryBytes a).length = 9 * a.length := by
  induction a with
  | nil => rfl
  | cons e a ih =>
    show ((e.1 :: leBytes e.2.toNat 8) ++ entryBytes a).length = _
    rw [List.length_append, ih]
    simp [leBytes_length]
    omega

/-- Bytes that begin with whole entries fix those entries. -/
theorem entryBytes_cancel {a b : List (Byte × Word)} {u v : List Byte} (h : entryBytes a ++ u = entryBytes b ++ v)
    (hl : a.length ≤ b.length) : ∃ c, b = a ++ c ∧ u = entryBytes c ++ v := by
  induction a generalizing b with
  | nil => exact ⟨b, rfl, h⟩
  | cons x a ih =>
    cases b with
    | nil => simp at hl
    | cons y b =>
      have h : (x.1 :: leBytes x.2.toNat 8) ++ (entryBytes a ++ u) = (y.1 :: leBytes y.2.toNat 8) ++ (entryBytes b ++ v) := by
        simpa [entryBytes] using h
      obtain ⟨h1, h2⟩ := List.append_inj h (by simp [leBytes_length])
      simp only [List.cons.injEq] at h1
      have hxy : x.2 = y.2 := by
        have := congrArg ofLeBytes h1.2
        rw [ofLeBytes_leBytes _ _ (by have := x.2.isLt; norm_num; omega),
          ofLeBytes_leBytes _ _ (by have := y.2.isLt; norm_num; omega)] at this
        exact BitVec.eq_of_toNat_eq this
      obtain ⟨c, rfl, hc⟩ := ih h2 (by simpa using hl)
      exact ⟨c, by rw [List.cons_append, Prod.ext h1.1 hxy], hc⟩

/-- The count field is fixed by its bytes. -/
theorem leBytes_four_inj {a b : Nat} (ha : a < 2 ^ 32) (hb : b < 2 ^ 32) (h : leBytes a 4 = leBytes b 4) : a = b := by
  have := congrArg ofLeBytes h
  rwa [ofLeBytes_leBytes _ _ (by norm_num; omega), ofLeBytes_leBytes _ _ (by norm_num; omega)] at this

/-- A table is fixed by its present symbols. -/
theorem present_inj {t u : Vector Word 256} (h : present t = present u) : t = u := by
  apply Vector.ext
  intro i hi
  have hi' : (BitVec.ofNat 8 i).toNat = i := by rw [BitVec.toNat_ofNat, Nat.mod_eq_of_lt hi]
  have key : ∀ (a b : Vector Word 256), present a = present b → a[i] ≠ 0#64 → b[i] = a[i] := by
    intro a b hab ha
    have h1 : (BitVec.ofNat 8 i, a[i]) ∈ present a := (mem_present a _ _).mpr ⟨by simp only [hi'], ha⟩
    rw [hab, mem_present] at h1
    simpa only [hi'] using h1.1
  by_cases ht : t[i] = 0#64
  · by_cases hu : u[i] = 0#64
    · rw [ht, hu]
    · exact key u t h.symm hu
  · exact (key t u h ht).symm

/-- A new entry above all present ones comes last. -/
theorem present_setFreq_above (t : Vector Word 256) (x : Byte) (f : Word) (hf : f ≠ 0#64)
    (h : ∀ e ∈ present t, e.1.toNat < x.toNat) : present (setFreq t x f) = present t ++ [(x, f)] := by
  have hasc : (present t ++ [(x, f)]).Pairwise fun a b : Byte × Word => a.1.toNat < b.1.toNat := by
    rw [List.pairwise_append]
    exact ⟨present_ascending t, by simp, by simpa using h⟩
  have nd : ∀ l : List (Byte × Word), (l.Pairwise fun a b => a.1.toNat < b.1.toNat) → l.Nodup :=
    fun l hl => hl.imp (fun {a b} hab e => by rw [e] at hab; omega)
  refine List.Perm.eq_of_pairwise (le := fun a b : Byte × Word => a.1.toNat < b.1.toNat)
    (fun a b _ _ h1 h2 => by omega) (present_ascending _) hasc
    ((List.perm_ext_iff_of_nodup (nd _ (present_ascending _)) (nd _ hasc)).mpr ?_)
  rintro ⟨y, g⟩
  rw [List.mem_append, mem_present, List.mem_singleton, Prod.mk.injEq]
  by_cases hy : y = x
  · subst hy
    rw [setFreq_self]
    constructor
    · rintro ⟨rfl, -⟩; exact Or.inr ⟨rfl, rfl⟩
    · rintro (hm | ⟨-, rfl⟩)
      · exact absurd (h _ hm) (by simp)
      · exact ⟨rfl, hf⟩
  · rw [setFreq_other t x y f hy, ← mem_present]
    simp [hy]

/-- The present entries of a table that keeps V1 and V2 are good. -/
theorem present_good {s : State} (h : s.TableOk) : GoodEntries (present s.freq) := by
  refine ⟨present_ascending _, fun e he => ?_, ?_⟩
  · obtain ⟨x, f⟩ := e
    exact ((mem_present _ x f).mp he).2
  · rw [present_sum, ← h.2]
    exact s.total.isLt

/-- V1 and V2 make SYMCNT and TOTAL a function of FREQ. -/
theorem tableOk_counts {s : State} (h : s.TableOk) :
    s.symCnt = BitVec.ofNat 9 (present s.freq).length ∧ s.total = BitVec.ofNat 64 (tableSum s.freq) := by
  refine ⟨BitVec.eq_of_toNat_eq ?_, BitVec.eq_of_toNat_eq ?_⟩
  · rw [h.1, BitVec.toNat_ofNat, Nat.mod_eq_of_lt (by have := s.symCnt.isLt; rw [h.1] at this; exact this)]
  · rw [h.2, BitVec.toNat_ofNat, Nat.mod_eq_of_lt (by have := s.total.isLt; rw [h.2] at this; exact this)]

theorem clearTable_tableOk {t : State} (h1 : t.freq = Vector.replicate 256 0#64) (h2 : t.symCnt = 0#9)
    (h3 : t.total = 0#64) : t.TableOk := by
  unfold State.TableOk
  rw [h1, h2, h3]
  simp

/-- An accepted entry of a symbol that was absent keeps V1 and V2 (44_codec R213). -/
theorem loadEntry_tableOk (s : State) (x : Byte) (f : Word) (h : s.TableOk) (h0 : s.freqAt x = 0#64) (hf : f ≠ 0#64)
    (hs : s.total.toNat + f.toNat < 2 ^ 64) : (s.loadEntry x f).TableOk := by
  have hl := present_length_setFreq s.freq x f
  have h256 := present_length_le s.freq
  have h256' := present_length_le (setFreq s.freq x f)
  have hx : s.freq[x.toNat]'x.isLt = s.freqAt x := rfl
  rw [hx, h0, if_neg hf] at hl
  simp only [if_true] at hl
  refine ⟨?_, ?_⟩
  · have h1 := h.1
    simp only [State.loadEntry, BitVec.toNat_add, BitVec.toNat_ofNat]
    omega
  · have hsum := tableSum_setFreq s.freq x f
    rw [hx, h0] at hsum
    have h2 := h.2
    have e0 : (0#64 : Word).toNat = 0 := rfl
    simp only [State.loadEntry, BitVec.toNat_add]
    omega

/-! ## Reading on -/

/-- From s to t the reader has moved on over bytes, and nothing else has changed but WAIT_IN. -/
def ReadOn (s t : State) : Prop :=
  (∃ taken, s.inFifo = byteTokens taken ++ t.inFifo) ∧
    t = { s with racc := t.racc, rk := t.rk, inFifo := t.inFifo, waitIn := t.waitIn }

theorem ReadOn.refl (s : State) : ReadOn s s := ⟨⟨[], rfl⟩, rfl⟩

theorem ReadOn.trans {s t u : State} (h : ReadOn s t) (g : ReadOn t u) : ReadOn s u := by
  obtain ⟨⟨a, ha⟩, h2⟩ := h
  obtain ⟨⟨b, hb⟩, g2⟩ := g
  exact ⟨⟨a ++ b, by rw [ha, hb]; simp [byteTokens]⟩, by rw [g2, h2]⟩

theorem readOn_readBit {s t : State} {b : Bool} (h : s.readBit = .bit b t) : ReadOn s t := by
  refine ⟨?_, readBit_frame s t b h⟩
  unfold State.readBit at h
  split at h
  · split at h <;> cases h
    rename_i c rest e
    exact ⟨[c], by rw [e]; rfl⟩
  · cases h
    exact ⟨[], rfl⟩

theorem readOn_readBits (left r k : Nat) (s : State) : ReadOn s (readBits left r k s).state := by
  induction left generalizing r k s with
  | zero => exact ReadOn.refl s
  | succ n ih =>
    rw [readBits]
    split
    · exact ReadOn.refl s
    · exact ReadOn.refl s
    · exact (readOn_readBit (by assumption)).trans (ih _ _ _)

/-- A bit taken leaves at most seven in the accumulator. -/
theorem readBits_seven {left r k v : Nat} {s t : State} (h : readBits left r k s = .got v t) (hl : left ≠ 0)
    (hk : s.rk.toNat ≤ 8) : t.rk.toNat ≤ 7 := by
  induction left generalizing r k s with
  | zero => exact absurd rfl hl
  | succ n ih =>
    rw [readBits] at h
    split at h
    · cases h
    · cases h
    · rename_i b u hb
      have hu : u.rk.toNat ≤ 7 := by
        rcases readBit_cases s hk with ⟨e, -⟩ | ⟨e, -⟩ | ⟨b', u', e, -, hu, -⟩
        · rw [hb] at e; cases e
        · rw [hb] at e; cases e
        · rw [hb] at e; cases e; exact hu
      by_cases hn : n = 0
      · subst hn
        rw [readBits] at h
        cases h
        exact hu
      · exact ih h hn (by omega)

/-- Where `readBits` is held, the number and its bits agree. -/
theorem readBits_held_lt {left r k r' k' : Nat} {s t : State} (h : readBits left r k s = .held r' k' t) (hr : r < 2 ^ k) :
    k' < k + left ∧ r' < 2 ^ k' := by
  induction left generalizing r k s with
  | zero => cases h
  | succ n ih =>
    rw [readBits] at h
    split at h
    · cases h
      exact ⟨by omega, hr⟩
    · cases h
    · rename_i b u hb
      obtain ⟨h1, h2⟩ := ih h (by rw [Nat.pow_succ]; cases b <;> simp <;> omega)
      exact ⟨by omega, h2⟩

/-! ## Bytes -/

/-- The bits of the byte being read. -/
def HdrPoint.partBits (h : HdrPoint) : List Bool := msbBits h.r h.k

/-- A byte is being read (40_bitio R135). -/
def HdrPoint.PartOk (h : HdrPoint) : Prop := h.k < 8 ∧ h.r < 2 ^ h.k

theorem partOk_zero (h : HdrPoint) (hr : h.r = 0) (hk : h.k = 0) : h.PartOk := by simp [HdrPoint.PartOk, hr, hk]

/-- The number read so far, and more bits. -/
theorem pathValue_part {h : HdrPoint} (hp : h.PartOk) (c : List Bool) :
    pathValue (h.partBits ++ c) = h.r * 2 ^ c.length + pathValue c := by
  rw [pathValue_append, HdrPoint.partBits, pathValue_msbBits, Nat.mod_eq_of_lt hp.2]

@[simp] theorem partBits_length (h : HdrPoint) : h.partBits.length = h.k := by simp [HdrPoint.partBits]

/-- `rdByte()` m times, where the bits at hand are m bytes and more (R213). -/
theorem readBytes_whole (bs : List Byte) (rest : List Bool) (h : HdrPoint) (s : State) (hp : h.PartOk)
    (hne : bs ≠ []) (hk : s.rk.toNat ≤ 8) (hs : h.partBits ++ s.pendingBits = byteBits bs ++ rest) :
    ∃ t, readBytes bs.length h s = .got { h with got := h.got ++ bs, used := h.used + bs.length, r := 0, k := 0 } t ∧
      t.pendingBits = rest ∧ t.rk.toNat ≤ 7 ∧ ReadOn s t := by
  induction bs generalizing h s with
  | nil => exact absurd rfl hne
  | cons b bs ih =>
    have hs' : h.partBits ++ s.pendingBits = msbBits b.toNat 8 ++ (byteBits bs ++ rest) := by
      rw [hs]; simp [byteBits]
    have hlen := congrArg List.length hs'
    simp only [List.length_append, partBits_length, msbBits_length] at hlen
    have hp8 := hp.1
    obtain ⟨h1, h2⟩ : h.partBits ++ s.pendingBits.take (8 - h.k) = msbBits b.toNat 8 ∧
        s.pendingBits.drop (8 - h.k) = byteBits bs ++ rest := by
      refine List.append_inj ?_ ?_
      · rw [List.append_assoc, List.take_append_drop]; exact hs'
      · simp; omega
    rcases readBits_cases (8 - h.k) h.r h.k s hk with ⟨t, e, hl, ht, htk⟩ | ⟨hl, -⟩
    · have hv : h.r * 2 ^ (8 - h.k) + pathValue (s.pendingBits.take (8 - h.k)) = b.toNat := by
        have := pathValue_part hp (s.pendingBits.take (8 - h.k))
        rw [h1, pathValue_msbBits, Nat.mod_eq_of_lt b.isLt, List.length_take, Nat.min_eq_left hl] at this
        exact this.symm
      rw [hv] at e
      have hro : ReadOn s t := by
        have := readOn_readBits (8 - h.k) h.r h.k s
        rwa [e] at this
      have ht7 := readBits_seven e (by omega) hk
      rw [h2] at ht
      let h' : HdrPoint := { h with got := h.got ++ [b], used := h.used + 1, r := 0, k := 0 }
      have hstep : readBytes (bs.length + 1) h s = readBytes bs.length h' t := by
        rw [readBytes]
        simp only [e, h']
        rw [show BitVec.ofNat 8 b.toNat = b by simp]
      by_cases hb : bs = []
      · subst hb
        refine ⟨t, ?_, by simpa [byteBits] using ht, ht7, hro⟩
        rw [List.length_singleton, show (1 : Nat) = ([] : List Byte).length + 1 from rfl, hstep]
        rfl
      · obtain ⟨u, i1, i2, i3, i4⟩ := ih h' t (partOk_zero _ rfl rfl) hb (by omega)
          (by simpa [h', HdrPoint.partBits, msbBits] using ht)
        refine ⟨u, ?_, i2, i3, hro.trans i4⟩
        rw [List.length_cons, hstep, i1]
        simp [h']
        omega
    · omega

/-- `rdByte()` more times than there are bytes, `part` being the bits of a byte cut short (R213). -/
theorem readBytes_part (bs : List Byte) (part : List Bool) (m : Nat) (h : HdrPoint) (s : State) (hp : h.PartOk)
    (hm : bs.length < m) (hk : s.rk.toNat ≤ 8) (h8 : part.length < 8)
    (hs : h.partBits ++ s.pendingBits = byteBits bs ++ part) :
    ∃ t, t.rk = 0#4 ∧ ReadOn s t ∧
      ((readBytes m h s = .held { h with
            got := h.got ++ bs, used := h.used + bs.length, r := pathValue part, k := part.length } t ∧ t.inFifo = []) ∨
        (readBytes m h s = .eos (h.used + bs.length) t ∧ ∃ more, t.inFifo = .fin :: more)) := by
  induction bs generalizing h s m with
  | nil =>
    obtain ⟨m, rfl⟩ : ∃ k, m = k + 1 := ⟨m - 1, by omega⟩
    have hs : h.partBits ++ s.pendingBits = part := hs
    have hlen := congrArg List.length hs
    simp only [List.length_append, partBits_length] at hlen
    have hv := pathValue_part hp s.pendingBits
    rw [hs] at hv
    rcases readBits_cases (8 - h.k) h.r h.k s hk with ⟨t, e, hl, ht, htk⟩ | ⟨hl, t, e, h0⟩
    · omega
    · rw [← hv, hlen] at e
      have hro := readOn_readBits (8 - h.k) h.r h.k s
      rcases e with ⟨e, hf⟩ | ⟨e, hf⟩
      · rw [e] at hro
        exact ⟨t, h0, hro, Or.inl ⟨by rw [readBytes]; simp only [e]; simp, hf⟩⟩
      · rw [e] at hro
        exact ⟨t, h0, hro, Or.inr ⟨by rw [readBytes]; simp only [e]; simp, hf⟩⟩
  | cons b bs ih =>
    obtain ⟨m, rfl⟩ : ∃ k, m = k + 1 := ⟨m - 1, by omega⟩
    obtain ⟨t, e, ht, ht7, hro⟩ := readBytes_whole [b] (byteBits bs ++ part) h s hp (by simp) hk
      (by rw [hs]; simp [byteBits])
    let h' : HdrPoint := { h with got := h.got ++ [b], used := h.used + 1, r := 0, k := 0 }
    have hstep : readBytes (m + 1) h s = readBytes m h' t := by
      rw [List.length_singleton, readBytes] at e
      rw [readBytes]
      cases hr : readBits (8 - h.k) h.r h.k s with
      | held r k v => rw [hr] at e; cases e
      | eos r k v => rw [hr] at e; cases e
      | got r v =>
        rw [hr] at e
        simp only [readBytes] at e ⊢
        injection e with e1 e2
        rw [e1, e2]
    obtain ⟨u, u1, u2, u3⟩ := ih m h' t (partOk_zero _ rfl rfl) (by simpa using hm) (by omega)
      (by simpa [h', HdrPoint.partBits, msbBits] using ht)
    refine ⟨u, u1, hro.trans u2, ?_⟩
    rw [hstep]
    rcases u3 with ⟨u3, hf⟩ | ⟨u3, hf⟩
    · refine Or.inl ⟨?_, hf⟩
      rw [u3]
      simp [h']
      omega
    · refine Or.inr ⟨?_, hf⟩
      rw [u3]
      simp [h']
      omega

/-- What a hold within `rdByte()` leaves: whole bytes and part of one. -/
theorem readBytes_held {m : Nat} {h h' : HdrPoint} {s t : State} (hp : h.PartOk) (e : readBytes m h s = .held h' t) :
    ∃ bs : List Byte, bs.length < m ∧ h'.PartOk ∧ h'.got = h.got ++ bs ∧ h'.used = h.used + bs.length ∧
      h'.prev = h.prev ∧ h'.entries = h.entries := by
  induction m generalizing h s with
  | zero => cases e
  | succ m ih =>
    rw [readBytes] at e
    split at e
    · rename_i r k u hr
      cases e
      obtain ⟨h1, h2⟩ := readBits_held_lt hr hp.2
      have := hp.1
      exact ⟨[], by simp, ⟨by show k < 8; omega, h2⟩, by simp, by simp, rfl, rfl⟩
    · cases e
    · rename_i r u hr
      obtain ⟨bs, b1, b2, b3, b4, b5, b6⟩ := ih (partOk_zero _ rfl rfl) e
      refine ⟨BitVec.ofNat 8 r :: bs, by simpa using b1, b2, by simp [b3], ?_, b5, b6⟩
      rw [b4]; simp; omega

/-- What m bytes read leave. -/
theorem readBytes_got {m : Nat} {h h' : HdrPoint} {s t : State} (hp : h.PartOk) (e : readBytes m h s = .got h' t)
    (h0 : m ≠ 0) :
    ∃ bs : List Byte, bs.length = m ∧ h' = { h with got := h.got ++ bs, used := h.used + m, r := 0, k := 0 } := by
  induction m generalizing h s with
  | zero => exact absurd rfl h0
  | succ m ih =>
    rw [readBytes] at e
    split at e
    · cases e
    · cases e
    · rename_i r u hr
      by_cases hm : m = 0
      · subst hm
        rw [readBytes] at e
        cases e
        exact ⟨[BitVec.ofNat 8 r], rfl, rfl⟩
      · obtain ⟨bs, b1, b2⟩ := ih (partOk_zero _ rfl rfl) e hm
        refine ⟨BitVec.ofNat 8 r :: bs, by simpa using b1, ?_⟩
        rw [b2]; simp; omega

theorem readOn_readBytes (m : Nat) (h : HdrPoint) (s : State) : ReadOn s (readBytes m h s).state := by
  induction m generalizing h s with
  | zero => exact ReadOn.refl s
  | succ m ih =>
    have := readOn_readBits (8 - h.k) h.r h.k s
    rw [readBytes]
    split
    · rename_i e; rw [e] at this; exact this
    · rename_i e; rw [e] at this; exact this
    · rename_i e; rw [e] at this; exact this.trans (ih _ _)

/-! ## Entries -/

/-- HDR_READ stands at h in the entries of a header whose count field says cnt, m of them still to be read. -/
structure EntryPoint (s : State) (h : HdrPoint) (cnt m : Nat) : Prop where
  part : h.PartOk
  table : s.TableOk
  tree : s.treeValid = false
  codes : s.codesValid = false
  prev : h.prev = (present s.freq).getLast?.map Prod.fst
  got : h.got.length < 9
  used : h.used = 4 + 9 * (present s.freq).length + h.got.length
  count : (present s.freq).length + m = cnt
  bound : cnt ≤ 256

/-- HDR_READ stands at h in the count field. -/
structure CountPoint (s : State) (h : HdrPoint) : Prop where
  part : h.PartOk
  table : s.TableOk
  tree : s.treeValid = false
  codes : s.codesValid = false
  absent : present s.freq = []
  prev : h.prev = none
  entries : h.entries = none
  got : h.got.length < 4
  used : h.used = h.got.length

/-- The symbols read so far are below one that is ascending. -/
theorem EntryPoint.below {s : State} {h : HdrPoint} {cnt m : Nat} (hp : EntryPoint s h cnt m) (x : Byte)
    (hx : ∀ p, h.prev = some p → p.toNat < x.toNat) : ∀ e ∈ present s.freq, e.1.toNat < x.toNat := by
  intro e he
  obtain ⟨front, last, hl⟩ : ∃ front last, present s.freq = front ++ [last] :=
    ⟨_, _, (List.dropLast_append_getLast (List.ne_nil_of_mem he)).symm⟩
  have hprev := hp.prev
  rw [hl, List.getLast?_concat] at hprev
  have h1 := hx _ hprev
  have hasc := present_ascending s.freq
  rw [hl] at he hasc
  rcases List.mem_append.mp he with he | he
  · have := (List.pairwise_append.mp hasc).2.2 e he last (by simp)
    omega
  · obtain rfl : e = last := by simpa using he
    exact h1

/-- A good whole entry is loaded, and HDR_READ stands before the next. -/
theorem EntryPoint.load {s t : State} {h h' : HdrPoint} {cnt m : Nat} (hp : EntryPoint s h cnt (m + 1)) (hr : ReadOn s t)
    (hv : h'.prev = h.prev) (hu : h'.used = h.used + (9 - h.got.length))
    (h0 : h'.r = 0) (hk : h'.k = 0) (hbad : t.badEntry h' = false) :
    EntryPoint (t.loadEntry h'.sym (BitVec.ofNat 64 h'.freq)) { h' with prev := some h'.sym, got := [] } cnt m ∧
      present (t.loadEntry h'.sym (BitVec.ofNat 64 h'.freq)).freq =
        present s.freq ++ [(h'.sym, BitVec.ofNat 64 h'.freq)] := by
  have hfreq : t.freq = s.freq := by rw [hr.2]
  have htab : t.TableOk := by
    have := hp.table
    unfold State.TableOk at *
    rw [hr.2]
    exact this
  simp only [State.badEntry, Bool.or_eq_false_iff, decide_eq_false_iff_not] at hbad
  obtain ⟨⟨hb1, hb2⟩, hb3⟩ := hbad
  have hn : (BitVec.ofNat 64 h'.freq).toNat = h'.freq := by
    rw [BitVec.toNat_ofNat, Nat.mod_eq_of_lt (by omega)]
  have hnz : BitVec.ofNat 64 h'.freq ≠ 0#64 := by
    intro hz
    rw [hz] at hn
    exact hb2 hn.symm
  have hbelow : ∀ e ∈ present t.freq, e.1.toNat < h'.sym.toNat := by
    rw [hfreq]
    refine hp.below _ fun p hpr => ?_
    rw [← hv] at hpr
    simpa [HdrPoint.notAscending, hpr] using hb1
  have habs : t.freqAt h'.sym = 0#64 := by
    by_contra hc
    exact Nat.lt_irrefl _ (hbelow _ ((mem_present t.freq h'.sym _).mpr ⟨rfl, hc⟩))
  have hpres : present (t.loadEntry h'.sym (BitVec.ofNat 64 h'.freq)).freq =
      present s.freq ++ [(h'.sym, BitVec.ofNat 64 h'.freq)] := by
    rw [← hfreq]
    exact present_setFreq_above t.freq _ _ hnz hbelow
  refine ⟨⟨partOk_zero _ h0 hk, loadEntry_tableOk t _ _ htab habs hnz (by rw [hn]; omega), rfl, rfl, ?_, by simp, ?_, ?_,
    hp.bound⟩, hpres⟩
  · rw [hpres]; simp
  · rw [hpres]
    have h1 := hp.used
    have h2 := hp.got
    simp
    omega
  · rw [hpres]
    have := hp.count
    simp
    omega

/-- The bytes of the entry at hand. -/
theorem entry_fields {h : HdrPoint} {x : Byte} {f : Word} (hg : h.got = x :: leBytes f.toNat 8) :
    h.sym = x ∧ h.freq = f.toNat ∧ h.got.length = 9 := by
  refine ⟨by simp [HdrPoint.sym, hg], ?_, by simp [hg, leBytes_length]⟩
  simp only [HdrPoint.freq, hg, List.tail_cons]
  exact ofLeBytes_leBytes _ _ (by have := f.isLt; norm_num; omega)

/-- The rest of an entry is read. -/
theorem EntryPoint.whole {s : State} {h : HdrPoint} {cnt m : Nat} (hp : EntryPoint s h cnt m) (x : Byte) (f : Word)
    (rest : List Bool) (hk : s.rk.toNat ≤ 8)
    (hs : byteBits h.got ++ (h.partBits ++ s.pendingBits) = byteBits (x :: leBytes f.toNat 8) ++ rest) :
    ∃ t h', readBytes (9 - h.got.length) h s = .got h' t ∧ h'.sym = x ∧ h'.freq = f.toNat ∧ h'.got.length = 9 ∧
      h'.prev = h.prev ∧ h'.used = h.used + (9 - h.got.length) ∧ h'.r = 0 ∧ h'.k = 0 ∧
      t.pendingBits = rest ∧ t.rk.toNat ≤ 7 ∧ ReadOn s t := by
  have h9 : (x :: leBytes f.toNat 8).length = 9 := by simp [leBytes_length]
  have hg := hp.got
  obtain ⟨more, hmore, hs'⟩ := byteBits_cancel hs (by omega)
  have hml := congrArg List.length hmore
  rw [List.length_append, h9] at hml
  obtain ⟨t, e, t1, t2, t3⟩ := readBytes_whole more rest h s hp.part (by rintro rfl; simp at hml; omega) hk hs'
  rw [show more.length = 9 - h.got.length by omega] at e
  obtain ⟨f1, f2, f3⟩ := entry_fields (x := x) (f := f)
    (h := { h with got := h.got ++ more, used := h.used + (9 - h.got.length), r := 0, k := 0 }) hmore.symm
  exact ⟨t, _, e, f1, f2, f3, rfl, rfl, rfl, rfl, t1, t2, t3⟩

/-- From s to t HDR_READ has moved on: the reader over bytes, and the table. -/
def HeaderOn (s t : State) : Prop :=
  (∃ taken, s.inFifo = byteTokens taken ++ t.inFifo) ∧
    t = { s with
      freq := t.freq, symCnt := t.symCnt, total := t.total, treeValid := false, codesValid := false
      racc := t.racc, rk := t.rk, inFifo := t.inFifo, waitIn := t.waitIn }

theorem HeaderOn.trans {s t u : State} (h : HeaderOn s t) (g : HeaderOn t u) : HeaderOn s u := by
  obtain ⟨⟨a, ha⟩, h2⟩ := h
  obtain ⟨⟨b, hb⟩, g2⟩ := g
  exact ⟨⟨a ++ b, by rw [ha, hb]; simp [byteTokens]⟩, by rw [g2, h2]⟩

theorem HeaderOn.of_readOn {s t : State} (h : ReadOn s t) (h1 : s.treeValid = false) (h2 : s.codesValid = false) :
    HeaderOn s t := by
  refine ⟨h.1, ?_⟩
  rw [h.2]
  simp [h1, h2]

/-- A rejection from wherever HDR_READ has moved on to (44_codec R213). -/
theorem HeaderOn.reject {s t : State} (h : HeaderOn s t) (e : ErrKind) (used : Nat) :
    t.rejectHeader e used = { s with
      freq := (t.rejectHeader e used).freq, symCnt := 0#9, total := 0#64, treeValid := false, codesValid := false
      racc := (t.rejectHeader e used).racc, rk := t.rk, inFifo := t.inFifo }.raise e (BitVec.ofNat 64 used) := by
  simp only [State.rejectHeader, State.raise, State.clearTable]
  rw [h.2]

/-- The entry loop over good entries (R213). -/
theorem readEntries_good (es : List (Byte × Word)) (m : Nat) (h : HdrPoint) (s : State) (cnt : Nat) (rest : List Bool)
    (hp : EntryPoint s h cnt (es.length + m)) (hk : s.rk.toNat ≤ 8) (hgood : GoodEntries (present s.freq ++ es))
    (hs : byteBits h.got ++ (h.partBits ++ s.pendingBits) = byteBits (entryBytes es) ++ rest) :
    ∃ (h' : HdrPoint) (t : State), readEntries (es.length + m) h s = readEntries m h' t ∧ EntryPoint t h' cnt m ∧
      present t.freq = present s.freq ++ es ∧ byteBits h'.got ++ (h'.partBits ++ t.pendingBits) = rest ∧
      (es ≠ [] ∨ (h.got = [] ∧ h.k = 0 ∧ s.rk.toNat ≤ 7) → h'.got = [] ∧ h'.k = 0 ∧ t.rk.toNat ≤ 7) ∧ t.rk.toNat ≤ 8 ∧ HeaderOn s t := by
  induction es generalizing h s with
  | nil =>
    refine ⟨h, s, by simp, by simpa using hp, by simp, by simpa [entryBytes, byteBits] using hs, by simp, hk, ?_⟩
    exact HeaderOn.of_readOn (ReadOn.refl s) hp.tree hp.codes
  | cons e es ih =>
    obtain ⟨x, f⟩ := e
    have hs' : byteBits h.got ++ (h.partBits ++ s.pendingBits) =
        byteBits (x :: leBytes f.toNat 8) ++ (byteBits (entryBytes es) ++ rest) := by
      rw [hs]; simp [entryBytes, byteBits]
    obtain ⟨t, h', e', f1, f2, f3, f4, f5, f6, f7, t1, t2, t3⟩ := hp.whole x f _ hk hs'
    obtain ⟨g1, g2, g3⟩ := hgood
    have hp' : EntryPoint s h cnt ((es.length + m) + 1) := by
      have := hp
      rwa [List.length_cons, show es.length + 1 + m = (es.length + m) + 1 by omega] at this
    have htot : t.total.toNat = ((present s.freq).map fun e => e.2.toNat).sum := by
      rw [present_sum, ← hp.table.2, t3.2]
    have hbad : t.badEntry h' = false := by
      simp only [State.badEntry, Bool.or_eq_false_iff, decide_eq_false_iff_not, f2]
      refine ⟨⟨?_, ?_⟩, ?_⟩
      · unfold HdrPoint.notAscending
        rw [f4, hp.prev]
        rcases List.eq_nil_or_concat (present s.freq) with hn | ⟨front, last, hl⟩
        · rw [hn]; rfl
        · rw [hl, List.concat_eq_append] at g1 ⊢
          rw [List.getLast?_concat]
          have : last.1.toNat < x.toNat := (List.pairwise_append.mp g1).2.2 last (by simp) (x, f) (by simp)
          simp only [Option.map_some, f1, decide_eq_false_iff_not]
          omega
      · intro h0
        exact g2 (x, f) (by simp) (BitVec.eq_of_toNat_eq (by simpa using h0))
      · rw [htot]
        simp only [List.map_append, List.map_cons, List.sum_append, List.sum_cons] at g3
        omega
    have hn : BitVec.ofNat 64 h'.freq = f := by rw [f2]; simp
    obtain ⟨l1, l2⟩ := hp'.load t3 f4 f5 f6 f7 hbad
    rw [hn, f1] at l1 l2
    obtain ⟨u, v, i1, i2, i3, i4, i5, i6, i7⟩ := ih { h' with prev := some x, got := [] } (t.loadEntry x f) l1
      (by show t.rk.toNat ≤ 8; omega) (by rw [l2]; simpa using ⟨g1, g2, g3⟩)
      (by
        show byteBits [] ++ (msbBits h'.r h'.k ++ t.pendingBits) = _
        rw [f7, t1]; rfl)
    refine ⟨u, v, ?_, i2, by rw [i3, l2]; simp, i4, fun _ => i5 (Or.inr ⟨rfl, f7, t2⟩), i6, ?_⟩
    · rw [List.length_cons, show es.length + 1 + m = (es.length + m) + 1 by omega, readEntries]
      simp only [e', hbad, Bool.false_eq_true, if_false]
      rw [hn, f1, i1]
    · refine HeaderOn.trans (t := t.loadEntry x f) ?_ i7
      refine ⟨t3.1, ?_⟩
      simp only [State.loadEntry]
      rw [t3.2]

/-! ## The whole command -/

/-- The count field is read through, and the entries begin (R213). -/
theorem CountPoint.whole {s : State} {h : HdrPoint} (hp : CountPoint s h) (cnt : Nat) (hc : cnt < 2 ^ 32)
    (rest : List Bool) (hk : s.rk.toNat ≤ 8)
    (hs : byteBits h.got ++ (h.partBits ++ s.pendingBits) = byteBits (leBytes cnt 4) ++ rest) :
    ∃ (h' : HdrPoint) (t : State),
      readHeader h s = (if cnt = 0 then t.rejectHeader .emptyArchive 4
        else if 256 < cnt then t.rejectHeader .corruptHeader 4 else readEntries cnt h' t) ∧
      t.pendingBits = rest ∧ t.rk.toNat ≤ 7 ∧ ReadOn s t ∧ h'.got = [] ∧ h'.k = 0 ∧
      (cnt ≤ 256 → EntryPoint t h' cnt cnt) := by
  have h4 : (leBytes cnt 4).length = 4 := leBytes_length cnt 4
  have hg := hp.got
  obtain ⟨more, hmore, hs'⟩ := byteBits_cancel hs (by omega)
  have hml := congrArg List.length hmore
  rw [List.length_append, h4] at hml
  obtain ⟨t, e, t1, t2, t3⟩ := readBytes_whole more rest h s hp.part (by rintro rfl; simp at hml; omega) hk hs'
  rw [show more.length = 4 - h.got.length by omega] at e
  refine ⟨{ h with got := [], used := h.used + (4 - h.got.length), r := 0, k := 0 }, t, ?_, t1, t2, t3, rfl, rfl, ?_⟩
  · rw [readHeader]
    simp only [e]
    rw [← hmore, ofLeBytes_leBytes _ _ (by norm_num; omega)]
  · intro hb
    have hfreq : t.freq = s.freq := by rw [t3.2]
    refine ⟨partOk_zero _ rfl rfl, ?_, ?_, ?_, ?_, by simp, ?_, ?_, hb⟩
    · have := hp.table
      unfold State.TableOk at *
      rw [t3.2]
      exact this
    · rw [t3.2]; exact hp.tree
    · rw [t3.2]; exact hp.codes
    · rw [hfreq, hp.absent]; exact hp.prev
    · rw [hfreq, hp.absent]
      have := hp.used
      simp
      omega
    · rw [hfreq, hp.absent]; simp

/-- Where HDR_READ stands when it has read `bits`, and how it goes on. -/
theorem headerRead_cases {s : State} {bits : List Bool} (h : s.HeaderRead bits) :
    (∃ (u : State) (g : HdrPoint), execHdrRead s = .next (readHeader g u) ∧ CountPoint u g ∧ HeaderOn s u ∧
        u.pendingBits = s.pendingBits ∧ u.rk = s.rk ∧ u.inFifo = s.inFifo ∧ u.waitIn = s.waitIn ∧
        bits = byteBits g.got ++ g.partBits) ∨
      ∃ (g : HdrPoint) (cnt m : Nat), execHdrRead s = .next (readEntries (m + 1) g s) ∧ EntryPoint s g cnt (m + 1) ∧
        bits = byteBits (leBytes cnt 4 ++ entryBytes (present s.freq) ++ g.got) ++ g.partBits := by
  rcases h with ⟨hp, rfl⟩ | ⟨g, bs, hp, rfl, hk, hr, hu, ht, hv, hc, hprev, h⟩
  · refine Or.inl ⟨s.clearTable, HdrPoint.start, by simp [execHdrRead, hp], ?_, ⟨⟨[], rfl⟩, rfl⟩, rfl, rfl, rfl, rfl, rfl⟩
    exact ⟨partOk_zero _ rfl rfl, clearTable_tableOk rfl rfl rfl, rfl, rfl, present_empty, rfl, rfl, by decide, rfl⟩
  · rcases h with ⟨he, h0, hg, h4⟩ | ⟨cnt, he, hlt, h256, hbs, hg⟩
    · refine Or.inl ⟨s, g, by simp [execHdrRead, hp, he], ?_, HeaderOn.of_readOn (ReadOn.refl s) hv hc, rfl, rfl, rfl, rfl,
        by rw [hg]; rfl⟩
      refine ⟨⟨hk, hr⟩, ht, hv, hc, h0, ?_, he, by rw [hg]; exact h4, by rw [hg]; exact hu⟩
      rw [hprev, h0]; rfl
    · refine Or.inr ⟨g, cnt, cnt - (present s.freq).length - 1, ?_, ?_, by rw [hbs]; rfl⟩
      · simp only [execHdrRead, hp, he]
        rw [show cnt - (present s.freq).length - 1 + 1 = cnt - (present s.freq).length by omega]
      · refine ⟨⟨hk, hr⟩, ht, hv, hc, hprev, hg, ?_, by omega, h256⟩
        rw [hu, hbs]
        simp [leBytes_length]
        omega

/-- A hold in the entries is one of `State.HeaderRead`. -/
theorem EntryPoint.headerRead {s : State} {h : HdrPoint} {cnt m : Nat} (hp : EntryPoint s h cnt (m + 1)) :
    (s.holdIn (.header { h with entries := some (m + 1) })).HeaderRead
      (byteBits (leBytes cnt 4 ++ entryBytes (present s.freq) ++ h.got) ++ h.partBits) := by
  have hc := hp.count
  refine Or.inr ⟨_, _, rfl, rfl, hp.part.1, hp.part.2, ?_, hp.table, hp.tree, hp.codes, hp.prev, Or.inr ⟨cnt, ?_, ?_, hp.bound,
    rfl, hp.got⟩⟩
  · rw [hp.used]
    simp [leBytes_length]
    omega
  · show some (m + 1) = some (cnt - (present s.freq).length)
    rw [← hc]
    simp
  · show (present s.freq).length < cnt
    omega

/-- A hold in the count field is one of `State.HeaderRead`. -/
theorem CountPoint.headerRead {s : State} {h : HdrPoint} (hp : CountPoint s h) :
    (s.holdIn (.header h)).HeaderRead (byteBits h.got ++ h.partBits) := by
  refine Or.inr ⟨h, h.got, rfl, rfl, hp.part.1, hp.part.2, hp.used, hp.table, hp.tree, hp.codes, ?_,
    Or.inl ⟨hp.entries, hp.absent, rfl, hp.got⟩⟩
  show h.prev = (present s.freq).getLast?.map Prod.fst
  rw [hp.absent, hp.prev]
  rfl

/-- A point moves with the reader: the bytes read join `got`. -/
theorem EntryPoint.moved {s t : State} {h : HdrPoint} {cnt m : Nat} (hp : EntryPoint s h cnt m) (hr : ReadOn s t)
    (bs : List Byte) (r k : Nat) (hrk : k < 8 ∧ r < 2 ^ k) (hb : bs.length < 9 - h.got.length) :
    EntryPoint t { h with got := h.got ++ bs, used := h.used + bs.length, r := r, k := k } cnt m := by
  have hfreq : t.freq = s.freq := by rw [hr.2]
  refine ⟨hrk, ?_, ?_, ?_, ?_, ?_, ?_, ?_, hp.bound⟩
  · have := hp.table
    unfold State.TableOk at *
    rw [hr.2]
    exact this
  · rw [hr.2]; exact hp.tree
  · rw [hr.2]; exact hp.codes
  · rw [hfreq]; exact hp.prev
  · simp; omega
  · rw [hfreq]
    have := hp.used
    simp
    omega
  · rw [hfreq]; exact hp.count

theorem CountPoint.moved {s t : State} {h : HdrPoint} (hp : CountPoint s h) (hr : ReadOn s t)
    (bs : List Byte) (r k : Nat) (hrk : k < 8 ∧ r < 2 ^ k) (hb : bs.length < 4 - h.got.length) :
    CountPoint t { h with got := h.got ++ bs, used := h.used + bs.length, r := r, k := k } := by
  have hfreq : t.freq = s.freq := by rw [hr.2]
  refine ⟨hrk, ?_, ?_, ?_, ?_, hp.prev, hp.entries, ?_, ?_⟩
  · have := hp.table
    unfold State.TableOk at *
    rw [hr.2]
    exact this
  · rw [hr.2]; exact hp.tree
  · rw [hr.2]; exact hp.codes
  · rw [hfreq]; exact hp.absent
  · simp; omega
  · have := hp.used
    simp
    omega

/-- HDR_READ over a good count field and good entries, from wherever it stands: it comes to stand before the next entry, or
inside it (R213). -/
theorem hdrRead_good {s : State} {bits : List Bool} (h : s.HeaderRead bits) (hk : s.rk.toNat ≤ 8) (cnt : Nat)
    (es : List (Byte × Word)) (rest : List Bool) (h1 : 1 ≤ cnt) (h256 : cnt ≤ 256) (hl : es.length ≤ cnt)
    (hgood : GoodEntries es)
    (hle : 8 * (4 + 9 * (present s.freq).length) ≤ bits.length → (present s.freq).length ≤ es.length)
    (hs : bits ++ s.pendingBits = byteBits (leBytes cnt 4 ++ entryBytes es) ++ rest) :
    ∃ (g : HdrPoint) (t : State), execHdrRead s = .next (readEntries (cnt - es.length) g t) ∧
      EntryPoint t g cnt (cnt - es.length) ∧ present t.freq = es ∧
      byteBits g.got ++ (g.partBits ++ t.pendingBits) = rest ∧ t.rk.toNat ≤ 8 ∧
      (es.length = cnt → g.got = [] ∧ g.k = 0 ∧ t.rk.toNat ≤ 7) ∧ HeaderOn s t := by
  have hs2 : bits ++ s.pendingBits = byteBits (leBytes cnt 4) ++ (byteBits (entryBytes es) ++ rest) := by
    rw [hs, byteBits_append, List.append_assoc]
  obtain ⟨m, hm⟩ : ∃ m, cnt = es.length + m := ⟨cnt - es.length, by omega⟩
  have hsub : cnt - es.length = m := by omega
  rw [hsub]
  rcases headerRead_cases h with ⟨u, g, e, hp, hon, u1, u2, u3, u4, rfl⟩ | ⟨g, cnt', m', e, hp, rfl⟩
  · rw [← u1, List.append_assoc] at hs2
    obtain ⟨g', t, e', t1, t2, t3, t4, t5, t6⟩ := hp.whole cnt (by omega) _ (by rw [u2]; exact hk) hs2
    rw [if_neg (by omega), if_neg (by omega)] at e'
    have hpt := t6 h256
    have hpres : present t.freq = [] := by rw [t3.2]; exact hp.absent
    rw [hm] at hpt
    obtain ⟨g2, v, i1, i2, i3, i4, i5, i6, i7⟩ := readEntries_good es m g' t _ rest hpt (by omega)
      (by rw [hpres]; exact hgood)
      (by rw [t4, HdrPoint.partBits, t5, t1]; rfl)
    refine ⟨g2, v, by rw [e, e', hm, i1], by rw [hm]; exact i2, by rw [i3, hpres]; rfl, i4, i6, fun _ => i5 (Or.inr ⟨t4, t5, t2⟩),
      hon.trans ((HeaderOn.of_readOn t3 hp.tree hp.codes).trans i7)⟩
  · have hlen := hle (by simp [byteBits_length, leBytes_length]; omega)
    have hcnt' := hp.bound
    have hs3 : byteBits (leBytes cnt' 4) ++ (byteBits (entryBytes (present s.freq) ++ g.got) ++ (g.partBits ++ s.pendingBits)) =
        byteBits (leBytes cnt 4 ++ entryBytes es) ++ rest := by
      rw [← hs]; simp [byteBits_append]
    obtain ⟨x, hx, hs4⟩ := byteBits_cancel hs3 (by simp [leBytes_length])
    obtain ⟨hc, rfl⟩ := List.append_inj hx (by simp [leBytes_length])
    obtain rfl : cnt = cnt' := leBytes_four_inj (by omega) (by omega) hc
    rw [byteBits_append, List.append_assoc] at hs4
    obtain ⟨y, hy, hs5⟩ := byteBits_cancel hs4 (by simp; omega)
    obtain ⟨es', rfl, hy'⟩ := entryBytes_cancel (v := []) (by simpa using hy.symm) hlen
    simp only [List.append_nil] at hy'
    subst hy'
    have hmm : es'.length + m = m' + 1 := by
      have := hp.count
      simp only [List.length_append] at hm
      omega
    rw [← hmm] at hp e
    obtain ⟨g2, v, i1, i2, i3, i4, i5, i6, i7⟩ := readEntries_good es' m g s _ rest hp hk hgood hs5
    refine ⟨g2, v, by rw [e, i1], i2, i3, i4, i6, fun heq => i5 (Or.inl ?_), i7⟩
    rintro rfl
    have := hp.count
    simp at heq hmm
    omega

/-- HDR_READ that stands among the entries has read the count field at hand, and its entries begin those at hand. -/
theorem headerRead_entries {s : State} {bits : List Bool} (h : s.HeaderRead bits) (cnt : Nat) (hc : cnt < 2 ^ 32)
    (more : List Byte) (rest : List Bool) (hs : bits ++ s.pendingBits = byteBits (leBytes cnt 4 ++ more) ++ rest)
    (hl : 8 * (4 + 9 * (present s.freq).length) ≤ bits.length) :
    s.TableOk ∧ (present s.freq).length < cnt ∧ cnt ≤ 256 ∧
      ∃ tail, byteBits (entryBytes (present s.freq)) ++ tail = byteBits more ++ rest := by
  rcases headerRead_cases h with ⟨u, g, -, hp, -, -, -, -, -, rfl⟩ | ⟨g, cnt', m', -, hp, rfl⟩
  · exfalso
    have h1 := hp.got
    have h2 := hp.part.1
    rw [List.length_append, byteBits_length, partBits_length] at hl
    omega
  · have hb := hp.bound
    have hcnt := hp.count
    have hs' : byteBits (leBytes cnt' 4) ++ (byteBits (entryBytes (present s.freq)) ++
        (byteBits g.got ++ (g.partBits ++ s.pendingBits))) = byteBits (leBytes cnt 4) ++ (byteBits more ++ rest) := by
      have := hs
      simp only [byteBits_append, List.append_assoc] at this ⊢
      exact this
    obtain ⟨h1, h2⟩ := List.append_inj hs' (by simp [byteBits_length, leBytes_length])
    obtain ⟨c, hc1, -⟩ := byteBits_cancel (u := []) (v := []) (by simpa using h1) (by simp [leBytes_length])
    have hc2 := congrArg List.length hc1
    simp [leBytes_length] at hc2
    subst hc2
    obtain rfl : cnt = cnt' := leBytes_four_inj hc (by omega) (by simpa using hc1)
    exact ⟨hp.table, by omega, hb, _, h2⟩

/-- With bytes that leave the header open, HDR_READ reads them all and then holds or meets End (44_codec R213). -/
theorem hdrRead_part {s : State} {bits : List Bool} (h : s.HeaderRead bits) (hk : s.rk.toNat ≤ 8) (bs : List Byte)
    (part : List Bool) (ho : HeaderOpen bs) (h8 : part.length < 8) (hs : bits ++ s.pendingBits = byteBits bs ++ part) :
    ∃ t : State, t.rk = 0#4 ∧ HeaderOn s t ∧
      ((∃ h', execHdrRead s = .next (t.holdIn (.header h')) ∧ t.inFifo = [] ∧
          (t.holdIn (.header h')).HeaderRead (byteBits bs ++ part)) ∨
        (execHdrRead s = .next (t.rejectHeader .corruptHeader bs.length) ∧ ∃ more, t.inFifo = .fin :: more)) := by
  have hlen := congrArg List.length hs
  rw [List.length_append, List.length_append, byteBits_length] at hlen
  rcases ho with h4 | ⟨cnt, es, got, rfl, hgood, hlt, h256, hg⟩
  · rcases headerRead_cases h with ⟨u, g, e, hp, hon, u1, u2, u3, u4, rfl⟩ | ⟨g, cnt', m', e, hp, rfl⟩
    · have hgl : g.got.length ≤ bs.length := by
        rw [List.length_append, byteBits_length] at hlen; omega
      rw [← u1, List.append_assoc] at hs
      obtain ⟨more, rfl, hs'⟩ := byteBits_cancel hs hgl
      rw [List.length_append] at h4
      obtain ⟨t, t0, t1, t2⟩ := readBytes_part more part (4 - g.got.length) g u hp.part (by omega) (by rw [u2]; exact hk) h8 hs'
      refine ⟨t, t0, hon.trans (HeaderOn.of_readOn t1 hp.tree hp.codes), ?_⟩
      rcases t2 with ⟨t2, t3⟩ | ⟨t2, t3⟩
      · refine Or.inl ⟨_, by rw [e, readHeader]; simp only [t2]; rfl, t3, ?_⟩
        have := (hp.moved t1 more (pathValue part) part.length ⟨h8, pathValue_lt part⟩ (by omega)).headerRead
        simpa [HdrPoint.partBits, msbBits_pathValue] using this
      · refine Or.inr ⟨?_, t3⟩
        rw [e, readHeader]; simp only [t2]
        rw [hp.used]; simp
    · exfalso
      simp [byteBits_length, leBytes_length] at hlen
      omega
  · obtain ⟨g, t, e, hp, hpres, hs', hk', -, hon⟩ := hdrRead_good h hk cnt es (byteBits got ++ part) (by omega) h256 (by omega) hgood
      (by intro hle; simp [leBytes_length] at hlen; omega) (by rw [hs]; simp [byteBits_append])
    have hlen' := congrArg List.length hs'
    simp only [List.length_append, byteBits_length, partBits_length] at hlen'
    obtain ⟨more, rfl, hs2⟩ := byteBits_cancel hs' (by omega)
    obtain ⟨m, hm⟩ : ∃ m, cnt - es.length = m + 1 := ⟨cnt - es.length - 1, by omega⟩
    rw [hm] at e hp
    rw [List.length_append] at hg
    obtain ⟨v, v0, v1, v2⟩ := readBytes_part more part (9 - g.got.length) g t hp.part (by omega) hk' h8 hs2
    have hfreq : present v.freq = es := by rw [v1.2]; exact hpres
    refine ⟨v, v0, hon.trans (HeaderOn.of_readOn v1 hp.tree hp.codes), ?_⟩
    rcases v2 with ⟨v2, v3⟩ | ⟨v2, v3⟩
    · refine Or.inl ⟨_, by rw [e, readEntries]; simp only [v2]; rfl, v3, ?_⟩
      have := (hp.moved v1 more (pathValue part) part.length ⟨h8, pathValue_lt part⟩ (by omega)).headerRead
      rw [hfreq] at this
      simpa [HdrPoint.partBits, msbBits_pathValue] using this
    · refine Or.inr ⟨?_, v3⟩
      rw [e, readEntries]; simp only [v2]
      have hu : g.used + more.length = (leBytes cnt 4 ++ entryBytes es ++ (g.got ++ more)).length := by rw [hp.used, hpres]; simp [leBytes_length]; omega
      rw [hu]

end Sys2Proof.Machine
end

