-- ==== Sys2Proof/Laws/Merge.lean ====
section
/-! SUPPORT. The order in which the tree builder extracts (spec/42_tree.md R173..R175), as a property of the arena. -/

namespace Sys2Proof.Machine

/-- `State.Waiting` in an arena. -/
def WaitsIn (n0 : Nat) (A : List Node) (j x : Nat) : Prop :=
  x < j ∧ ∀ k, n0 ≤ k → k < j → ∀ nd, A[k]? = some nd → nd.left.toNat ≠ x ∧ nd.right.toNat ≠ x

/-- `State.KeyLe` in an arena. -/
def KeyLeIn (A : List Node) (i j : Nat) : Prop :=
  ∀ a b, A[i]? = some a → A[j]? = some b → a.f.toNat < b.f.toNat ∨ (a.f = b.f ∧ i ≤ j)

theorem waitsIn_append {n0 A B j x} (hj : j ≤ A.length) : WaitsIn n0 (A ++ B) j x ↔ WaitsIn n0 A j x := by
  unfold WaitsIn
  constructor
  · rintro ⟨h1, h2⟩; refine ⟨h1, fun k h3 h4 nd h5 => h2 k h3 h4 nd ?_⟩
    rw [List.getElem?_append_left (by omega)]; exact h5
  · rintro ⟨h1, h2⟩; refine ⟨h1, fun k h3 h4 nd h5 => h2 k h3 h4 nd ?_⟩
    rw [List.getElem?_append_left (by omega)] at h5; exact h5

theorem not_before {a b : Key} (h : b.before a = false) : a.f.toNat < b.f.toNat ∨ (a.f = b.f ∧ a.idx ≤ b.idx) := by
  simp only [Key.before, decide_eq_false_iff_not, not_or, not_and, not_lt] at h
  by_cases e : a.f.toNat < b.f.toNat
  · exact Or.inl e
  · right
    have : a.f = b.f := BitVec.eq_of_toNat_eq (by omega)
    exact ⟨this, h.2 this.symm⟩

/-- Every node the merge loop makes from a queue of exactly the waiting entries has the two least of them as children
(42_tree R173..R175). -/

theorem mergeLoop_least (n0 n : Nat) (arena : List Node) (pq : List Key) (hlen : pq.length = n + 1) (hn0 : n0 ≤ arena.length)
   (h511 : arena.length + n ≤ 511)
   (hW : ∀ x, (∃ k ∈ pq, k.idx = x) ↔ WaitsIn n0 arena arena.length x)
   (hF : ∀ k ∈ pq, ∃ nd, arena[k.idx]? = some nd ∧ nd.f = k.f) (hD : (pq.map Key.idx).Nodup)
   (hC : ∀ k, n0 ≤ k → k < arena.length → ∀ nd, arena[k]? = some nd → nd.left.toNat < k ∧ nd.right.toNat < k) :
   ∃ more, (mergeLoop n arena pq).1 = arena ++ more ∧ more.length = n ∧
   ∀ j, arena.length ≤ j → j < arena.length + n → ∃ nd, (arena ++ more)[j]? = some nd ∧
     WaitsIn n0 (arena ++ more) j nd.left.toNat ∧ WaitsIn n0 (arena ++ more) j nd.right.toNat ∧ nd.left.toNat ≠ nd.right.toNat ∧
     ∀ x, WaitsIn n0 (arena ++ more) j x → KeyLeIn (arena ++ more) nd.left.toNat x ∧ (x ≠ nd.left.toNat → KeyLeIn (arena ++ more) nd.right.toNat x) := by
  induction n generalizing arena pq with
  | zero => exact ⟨[], by simp [mergeLoop], rfl, fun j h1 h2 => by omega⟩
  | succ n ih =>
    obtain ⟨a, pq1, e1⟩ := extractMin_some pq (by intro h; rw [h] at hlen; simp at hlen)
    obtain ⟨p1, l1⟩ := extractMin_spec _ _ _ e1
    have len1 : pq1.length = n + 1 := by have := p1.length_eq; simp at this; omega
    obtain ⟨b, pq2, e2⟩ := extractMin_some pq1 (by intro h; rw [h] at len1; simp at len1)
    obtain ⟨p2, l2⟩ := extractMin_spec _ _ _ e2
    have len2 : pq2.length = n := by have := p2.length_eq; simp at this; omega
    have p3 : (a :: b :: pq2).Perm pq := (p2.cons a).trans p1
    have mem : ∀ k, k ∈ pq ↔ k = a ∨ k = b ∨ k ∈ pq2 := by intro k; rw [← p3.mem_iff]; simp
    have hD2 : ((a :: b :: pq2).map Key.idx).Nodup := (p3.map _).nodup_iff.mpr hD
    simp only [List.map_cons, List.nodup_cons, List.mem_cons, not_or] at hD2
    obtain ⟨⟨dab, da⟩, db, dr⟩ := hD2
    have ltA : ∀ k ∈ pq, k.idx < arena.length := fun k hk => ((hW k.idx).mp ⟨k, hk, rfl⟩).1
    have la := ltA a ((mem a).mpr (Or.inl rfl))
    have lb := ltA b ((mem b).mpr (Or.inr (Or.inl rfl)))
    have ta : (mergedNode (a.f + b.f) a.idx b.idx).left.toNat = a.idx := by
      show (BitVec.ofNat 9 a.idx).toNat = _; rw [BitVec.toNat_ofNat, Nat.mod_eq_of_lt]; omega
    have tb : (mergedNode (a.f + b.f) a.idx b.idx).right.toNat = b.idx := by
      show (BitVec.ofNat 9 b.idx).toNat = _; rw [BitVec.toNat_ofNat, Nat.mod_eq_of_lt]; omega
    have step : mergeLoop (n+1) arena pq = mergeLoop n (arena ++ [mergedNode (a.f + b.f) a.idx b.idx]) ({ f := a.f + b.f, idx := arena.length } :: pq2) := by
      simp [mergeLoop, e1, e2]
    have newget : (arena ++ [mergedNode (a.f + b.f) a.idx b.idx])[arena.length]? = some (mergedNode (a.f + b.f) a.idx b.idx) := by simp
    have wcut : ∀ x, WaitsIn n0 (arena ++ [mergedNode (a.f + b.f) a.idx b.idx]) (arena.length + 1) x ↔ (x = arena.length ∨ WaitsIn n0 arena arena.length x) ∧ x ≠ a.idx ∧ x ≠ b.idx := by
        intro x
        unfold WaitsIn
        constructor
        · rintro ⟨h1, h2⟩
          obtain ⟨q1, q2⟩ := h2 arena.length hn0 (by omega) _ newget
          rw [ta] at q1; rw [tb] at q2
          refine ⟨?_, fun e => q1 e.symm, fun e => q2 e.symm⟩
          by_cases hx : x = arena.length
          · exact Or.inl hx
          · right
            refine ⟨by omega, fun k h3 h4 nd h5 => h2 k h3 (by omega) nd ?_⟩
            rw [List.getElem?_append_left (by omega)]; exact h5
        · rintro ⟨h1, q1, q2⟩
          refine ⟨by rcases h1 with h | h <;> [omega; exact Nat.lt_succ_of_lt h.1], ?_⟩
          intro k h3 h4 nd h5
          by_cases hk : k = arena.length
          · subst hk; rw [newget] at h5; cases h5; rw [ta, tb]; exact ⟨fun e => q1 e.symm, fun e => q2 e.symm⟩
          · rw [List.getElem?_append_left (by omega)] at h5
            rcases h1 with h | h
            · have := hC k h3 (by omega) nd h5
              omega
            · exact h.2 k h3 (by omega) nd h5
    have W2 : ∀ x, (∃ k ∈ ({ f := a.f + b.f, idx := arena.length } :: pq2 : List Key), k.idx = x) ↔ WaitsIn n0 (arena ++ [mergedNode (a.f + b.f) a.idx b.idx]) (arena ++ [mergedNode (a.f + b.f) a.idx b.idx]).length x := by
      intro x
      rw [List.length_append, List.length_singleton, wcut, ← hW]
      constructor
      · rintro ⟨k, hk, rfl⟩
        rcases List.mem_cons.mp hk with rfl | hk
        · exact ⟨Or.inl rfl, by simp; omega, by simp; omega⟩
        · refine ⟨Or.inr ⟨k, (mem k).mpr (Or.inr (Or.inr hk)), rfl⟩, ?_, ?_⟩
          · intro e; exact da (by rw [← e]; exact List.mem_map_of_mem hk)
          · intro e; exact db (by rw [← e]; exact List.mem_map_of_mem hk)
      · rintro ⟨h | ⟨k, hk, rfl⟩, q1, q2⟩
        · exact ⟨_, List.mem_cons_self, h.symm⟩
        · rcases (mem k).mp hk with rfl | rfl | hk
          · exact absurd rfl q1
          · exact absurd rfl q2
          · exact ⟨k, List.mem_cons_of_mem _ hk, rfl⟩
    have F2 : ∀ k ∈ ({ f := a.f + b.f, idx := arena.length } :: pq2 : List Key), ∃ nd, (arena ++ [mergedNode (a.f + b.f) a.idx b.idx])[k.idx]? = some nd ∧ nd.f = k.f := by
      intro k hk
      rcases List.mem_cons.mp hk with rfl | hk
      · exact ⟨_, newget, rfl⟩
      · have hk' := (mem k).mpr (Or.inr (Or.inr hk))
        rw [List.getElem?_append_left (ltA k hk')]; exact hF k hk'
    have D2 : (({ f := a.f + b.f, idx := arena.length } :: pq2 : List Key).map Key.idx).Nodup := by
      rw [List.map_cons, List.nodup_cons]
      refine ⟨?_, dr⟩
      intro h
      obtain ⟨k, hk, e⟩ := List.mem_map.mp h
      have := ltA k ((mem k).mpr (Or.inr (Or.inr hk))); have e : k.idx = arena.length := e; omega
    have C2 : ∀ k, n0 ≤ k → k < (arena ++ [mergedNode (a.f + b.f) a.idx b.idx]).length → ∀ nd, (arena ++ [mergedNode (a.f + b.f) a.idx b.idx])[k]? = some nd → nd.left.toNat < k ∧ nd.right.toNat < k := by
      intro k h1 h2 nd h3
      by_cases hk : k = arena.length
      · subst hk; rw [newget] at h3; cases h3; rw [ta, tb]; exact ⟨la, lb⟩
      · simp at h2
        rw [List.getElem?_append_left (by omega)] at h3
        exact hC k h1 (by omega) nd h3
    obtain ⟨more, m1, m2, m3⟩ := ih (arena ++ [mergedNode (a.f + b.f) a.idx b.idx]) ({ f := a.f + b.f, idx := arena.length } :: pq2) (by simp [len2]) (by simp; omega) (by simp; omega) W2 F2 D2 C2
    refine ⟨mergedNode (a.f + b.f) a.idx b.idx :: more, by rw [step, m1]; simp, by simp [m2], ?_⟩
    have ass : arena ++ mergedNode (a.f + b.f) a.idx b.idx :: more = (arena ++ [mergedNode (a.f + b.f) a.idx b.idx]) ++ more := by simp
    intro j h1 h2
    by_cases hj : j = arena.length
    · subst hj
      refine ⟨mergedNode (a.f + b.f) a.idx b.idx, by simp, ?_⟩
      rw [ta, tb]
      simp only [waitsIn_append (Nat.le_refl _)]
      refine ⟨(hW _).mp ⟨a, (mem a).mpr (Or.inl rfl), rfl⟩, (hW _).mp ⟨b, (mem b).mpr (Or.inr (Or.inl rfl)), rfl⟩, dab, ?_⟩
      intro x hx
      obtain ⟨k, hk, rfl⟩ := (hW x).mpr hx
      have nodeOf : ∀ k ∈ pq, ∀ nd, (arena ++ mergedNode (a.f + b.f) a.idx b.idx :: more)[k.idx]? = some nd → nd.f = k.f := by
        intro k hk nd h
        rw [List.getElem?_append_left (ltA k hk)] at h
        obtain ⟨nd', h', e⟩ := hF k hk
        rw [h'] at h; cases h; exact e
      have hma : a ∈ pq := (mem a).mpr (Or.inl rfl)
      have hmb : b ∈ pq := (mem b).mpr (Or.inr (Or.inl rfl))
      constructor
      · intro n1 n2 g1 g2
        rw [nodeOf a hma _ g1, nodeOf k hk _ g2]
        rcases (mem k).mp hk with rfl | hk'
        · exact Or.inr ⟨rfl, Nat.le_refl _⟩
        · have : k ∈ pq1 := by rw [← p2.mem_iff]; simpa using hk'
          exact not_before (l1 k this)
      · intro hne n1 n2 g1 g2
        rw [nodeOf b hmb _ g1, nodeOf k hk _ g2]
        rcases (mem k).mp hk with rfl | rfl | hk'
        · exact absurd rfl hne
        · exact Or.inr ⟨rfl, Nat.le_refl _⟩
        · exact not_before (l2 k hk')
    · have := m3 j (by simp; omega) (by simp; omega)
      rw [ass]; exact this

end Sys2Proof.Machine
end

