-- ==== Sys2Proof/Laws/PerInstr.lean ====
section
/-! SUPPORT. What holds of every command's word, one lemma per command: the fields the encoder leaves in it
(spec/30_encoding.md R111..R114). -/

namespace Sys2Proof.Laws

open Sys2Proof

theorem opOf_cmdWord (op sym cnt : Byte) : opOf (cmdWord op sym cnt) = op := by
  ext i hi
  simp only [opOf, cmdWord, BitVec.getElem_extractLsb', BitVec.getLsbD_append]
  simp [hi]

theorem symOf_cmdWord (op sym cnt : Byte) : symOf (cmdWord op sym cnt) = sym := by
  ext i hi
  simp only [symOf, cmdWord, BitVec.getElem_extractLsb', BitVec.getLsbD_append]
  simp [hi]

theorem cntOf_cmdWord (op sym cnt : Byte) : cntOf (cmdWord op sym cnt) = cnt := by
  ext i hi
  simp only [cntOf, cmdWord, BitVec.getElem_extractLsb', BitVec.getLsbD_append]
  simp [hi, show ¬ 16 + i < 8 by omega, show ¬ 16 + i - 8 < 8 by omega, show 16 + i - 8 - 8 = i by omega]

theorem rsvOf_cmdWord (op sym cnt : Byte) : rsvOf (cmdWord op sym cnt) = 0#40 := by
  ext i hi
  simp only [rsvOf, cmdWord, BitVec.getElem_extractLsb', BitVec.getLsbD_append]
  simp [show ¬ 24 + i < 8 by omega, show ¬ 24 + i - 8 < 8 by omega, show ¬ 24 + i - 8 - 8 < 8 by omega]

namespace OpcodeField

/-- The command's word carries its opcode in OP, its operands (or 0) in SYM and CNT, and 0 in RSV. -/
def Statement (i : Instr) : Prop :=
  opOf (encode i) = opcode i ∧ symOf (encode i) = symField i ∧ cntOf (encode i) = cntField i ∧ rsvOf (encode i) = 0#40

theorem statement_of_fields (i : Instr) : Statement i :=
  ⟨opOf_cmdWord _ _ _, symOf_cmdWord _ _ _, cntOf_cmdWord _ _ _, rsvOf_cmdWord _ _ _⟩

theorem nop : Statement .nop := statement_of_fields _
theorem freqClear : Statement .freqClear := statement_of_fields _
theorem freqAccum (sym : Byte) : Statement (.freqAccum sym) := statement_of_fields _
theorem freqAccumStream : Statement .freqAccumStream := statement_of_fields _
theorem freqLoad (sym : Byte) : Statement (.freqLoad sym) := statement_of_fields _
theorem freqRead (sym : Byte) : Statement (.freqRead sym) := statement_of_fields _
theorem wrBits (cnt : Byte) : Statement (.wrBits cnt) := statement_of_fields _
theorem wrFlush : Statement .wrFlush := statement_of_fields _
theorem rdBits (cnt : Byte) : Statement (.rdBits cnt) := statement_of_fields _
theorem rdAlign : Statement .rdAlign := statement_of_fields _
theorem rdDrain : Statement .rdDrain := statement_of_fields _
theorem treeBuild : Statement .treeBuild := statement_of_fields _
theorem treeNode : Statement .treeNode := statement_of_fields _
theorem codeGen : Statement .codeGen := statement_of_fields _
theorem codeLookup (sym cnt : Byte) : Statement (.codeLookup sym cnt) := statement_of_fields _
theorem hdrWrite : Statement .hdrWrite := statement_of_fields _
theorem encSym (sym : Byte) : Statement (.encSym sym) := statement_of_fields _
theorem encStream : Statement .encStream := statement_of_fields _
theorem hdrRead : Statement .hdrRead := statement_of_fields _
theorem decSym : Statement .decSym := statement_of_fields _
theorem decStream : Statement .decStream := statement_of_fields _

end OpcodeField

end Sys2Proof.Laws
end

