-- ==== Sys2Proof/Laws/Reader.lean ====
section
/-! SUPPORT. The reader takes bytes, no End, and no byte ahead of need (spec/20_memory.md R85, 40_bitio.md R134). -/

namespace Sys2Proof.Machine

theorem State.TakesBytes.refl (s : State) : s.TakesBytes s := ⟨[], rfl, Or.inr ⟨rfl, Nat.le_refl _⟩⟩

theorem State.TakesBytes.trans {s t u : State} (h : s.TakesBytes t) (g : t.TakesBytes u) : s.TakesBytes u := by
  obtain ⟨a, ha, h⟩ := h
  obtain ⟨b, hb, g⟩ := g
  refine ⟨a ++ b, by rw [ha, hb]; simp [byteTokens], ?_⟩
  rcases g with g | ⟨rfl, g⟩
  · exact Or.inl g
  · rcases h with h | ⟨rfl, h⟩
    · exact Or.inl (by omega)
    · exact Or.inr ⟨rfl, by omega⟩

/-- TakesBytes is about RK and the IN FIFO alone. -/
theorem State.TakesBytes.congr {s t u : State} (h : s.TakesBytes t) (h1 : u.rk = t.rk) (h2 : u.inFifo = t.inFifo) :
    s.TakesBytes u := by unfold State.TakesBytes at *; rw [h1, h2]; exact h

theorem State.TakesBytes.congr_left {s t u : State} (h : t.TakesBytes u) (h1 : t.rk = s.rk) (h2 : t.inFifo = s.inFifo) :
    s.TakesBytes u := by unfold State.TakesBytes at *; rw [← h1, ← h2]; exact h

/-- The reader of a header, which stands within a byte. -/
theorem HeaderOn.takesBytes {s t : State} (h : HeaderOn s t) (hk : t.rk.toNat ≤ 7) : s.TakesBytes t := by
  obtain ⟨taken, e⟩ := h.1
  exact ⟨taken, e, Or.inl hk⟩

theorem takesBytes_readBit {s t : State} {b : Bool} (h : s.readBit = .bit b t) : s.TakesBytes t := by
  unfold State.readBit at h
  split at h
  · split at h <;> cases h
    rename_i c rest e
    exact ⟨[c], e, Or.inl (Nat.le_refl 7)⟩
  · rename_i h0
    cases h
    refine ⟨[], rfl, Or.inr ⟨rfl, ?_⟩⟩
    have h1 : s.rk.toNat ≠ 0 := fun hc => h0 (BitVec.eq_of_toNat_eq hc)
    show (s.rk - 1#4).toNat ≤ _
    rw [BitVec.toNat_sub, BitVec.toNat_ofNat]
    omega

theorem takesBytes_readBits (left r k : Nat) (s : State) : s.TakesBytes (readBits left r k s).state := by
  induction left generalizing r k s with
  | zero => exact .refl s
  | succ n ih =>
    rw [readBits]
    split
    · exact .refl s
    · exact .refl s
    · rename_i b t h
      exact (takesBytes_readBit h).trans (ih _ _ t)

theorem takesBytes_decodeOne (n : Nat) (p : DecPoint) (s : State) : s.TakesBytes (decodeOne n p s).state := by
  induction n generalizing p s with
  | zero => exact .refl s
  | succ n ih =>
    rw [decodeOne]
    split
    · exact .refl s
    · exact .refl s
    · rename_i b t h
      have ht : s.TakesBytes (t.spend n) := (takesBytes_readBit h).congr rfl rfl
      split
      · split <;> exact ht
      · split
        · exact ht
        · exact ht.trans (ih _ _)

/-- The push of a symbol is nothing to the reader. -/
theorem takesBytes_outPush {s t : State} {x : Byte} (h : s.outPush x = some t) : s.TakesBytes t := by
  obtain ⟨h1, -⟩ := outPush_frame _ _ _ h
  exact (State.TakesBytes.refl s).congr (by rw [h1]) (by rw [h1])

theorem takesBytes_decodeLoop (turns count : Nat) (p : DecPoint) (s : State) : s.TakesBytes (decodeLoop turns count p s) := by
  induction turns generalizing count p s with
  | zero => exact (State.TakesBytes.refl s).congr rfl rfl
  | succ n ih =>
    have h := takesBytes_decodeOne s.budget.toNat p s
    rw [decodeLoop]
    cases e : decodeOne s.budget.toNat p s with
    | held p' t => rw [e] at h; exact h.congr rfl rfl
    | err k info used t => rw [e] at h; exact h.congr rfl rfl
    | sym x used t =>
      rw [e] at h
      cases hp : t.outPush x with
      | none => simp only [hp]; exact h.congr rfl rfl
      | some u =>
        have hu : s.TakesBytes u := State.TakesBytes.trans h (takesBytes_outPush hp)
        simp only [hp]
        split
        · exact hu.congr rfl rfl
        · exact hu.trans (ih _ _ u)

theorem takesBytes_decodeFrom (s : State) (count used : Nat) : s.TakesBytes (s.decodeFrom count used) := by
  unfold State.decodeFrom
  split
  · exact (State.TakesBytes.refl s).congr rfl rfl
  · exact takesBytes_decodeLoop _ _ _ s

/-- RD_BITS, wherever it stands and however it ends (40_bitio R138). -/
theorem rdBits_takesBytes {n : Byte} {s t : State} (h : execRdBits n s = .next t) : s.TakesBytes t := by
  have hr := takesBytes_readBits (n.toNat - s.rdBitsSoFar.2) s.rdBitsSoFar.1 s.rdBitsSoFar.2 s
  unfold execRdBits at h
  split at h <;> rename_i e <;> (rw [e] at hr; cases h; exact hr.congr rfl rfl)

/-- DEC_SYM, wherever it stands and however it ends (44_codec R215). -/
theorem decSym_takesBytes {s t : State} (h : execDecSym s = .next t) : s.TakesBytes t := by
  have key : ∀ p, s.TakesBytes (finishDecSym (decodeOne s.budget.toNat p s)) := by
    intro p
    have hd := takesBytes_decodeOne s.budget.toNat p s
    cases e : decodeOne s.budget.toNat p s <;> (rw [e] at hd; exact State.TakesBytes.congr hd rfl rfl)
  unfold execDecSym at h
  split at h
  · cases h; exact key _
  · split at h <;> cases h
    · exact (State.TakesBytes.refl s).congr rfl rfl
    · exact key _

/-- DEC_STREAM, wherever it stands and however it ends (44_codec R216). -/
theorem decStream_takesBytes {s t : State} (h : execDecStream s = .next t) : s.TakesBytes t := by
  unfold execDecStream at h
  split at h
  · cases h; exact takesBytes_decodeLoop _ _ _ s
  · split at h <;> cases h
    · exact (State.TakesBytes.refl s).congr rfl rfl
    · rename_i u hp
      exact (takesBytes_outPush hp).trans (takesBytes_decodeFrom u _ _)
  · split at h <;> cases h
    · exact (State.TakesBytes.refl s).congr rfl rfl
    · exact takesBytes_decodeFrom s _ _

end Sys2Proof.Machine
end

