-- ==== Sys2Proof/Laws/Sound.lean ====
section
/-! SUPPORT. What the loops and the operations keep of V1 to V4 (spec/10_state.md R60). -/

namespace Sys2Proof.Machine

/-- V1 to V4. -/
def TablesOk (s : State) : Prop := s.TableOk ∧ s.TreeOk ∧ s.CodesOk

/-- V1 to V4 speak of the table, the tree and the codes alone. -/

theorem tablesOk_same {s t : State} (h : TablesOk s) (h1 : t.freq = s.freq) (h2 : t.symCnt = s.symCnt) (h3 : t.total = s.total)
   (h4 : t.treeValid = s.treeValid) (h5 : t.codesValid = s.codesValid) (h6 : t.node = s.node) (h7 : t.root = s.root)
   (h8 : t.nodeCnt = s.nodeCnt) (h9 : t.code = s.code) : TablesOk t := by
  obtain ⟨a, b, c⟩ := h
  refine ⟨?_, ?_, codesOk_congr h6 h7 h9 h4 h5 c⟩
  · unfold State.TableOk at *; rw [h1, h2, h3]; exact a
  · unfold State.TreeOk at *; rw [h1, h2, h4, h6, h7, h8]; exact b

theorem tablesOk_changed {t : State} (h : t.TableOk) (h4 : t.treeValid = false) (h5 : t.codesValid = false) : TablesOk t :=
  ⟨h, (by intro h'; rw [h4] at h'; cases h'), (by intro h'; rw [h5] at h'; cases h')⟩

theorem countLoop_tablesOk (ts n) (s : State) (h : TablesOk s) : TablesOk (countLoop ts n s) := by
  induction ts generalizing n s with
  | nil => exact tablesOk_same h rfl rfl rfl rfl rfl rfl rfl rfl rfl
  | cons a ts ih =>
    cases a with
    | fin => rw [countLoop]; split <;> exact tablesOk_same h rfl rfl rfl rfl rfl rfl rfl rfl rfl
    | byte b =>
      rw [countLoop]; split
      · exact tablesOk_same h rfl rfl rfl rfl rfl rfl rfl rfl rfl
      · rename_i hf
        exact ih _ _ (tablesOk_changed (accumulate_tableOk s b h.1 (by simpa using hf)).1 rfl rfl)

/-- V1 to V4, and what HDR_READ needs at a hold. -/

def ArchiveOk (s : State) : Prop := TablesOk s ∧ s.HdrOk

theorem archiveOk_none {t : State} (h : TablesOk t) (hp : t.prog = .none) : ArchiveOk t := ⟨h, fun h' e => by rw [hp] at e; cases e⟩

theorem rejectHeader_archiveOk (t : State) (e u) : ArchiveOk (t.rejectHeader e u) := archiveOk_none (tablesOk_changed (clearTable_tableOk rfl rfl rfl) rfl rfl) rfl

/-- The tables are no part of what the reader moves. -/
theorem readOn_tablesOk {s t : State} (h : TablesOk s) (hr : ReadOn s t) : TablesOk t := by
  refine tablesOk_same h ?_ ?_ ?_ ?_ ?_ ?_ ?_ ?_ ?_ <;> rw [hr.2]

/-- A point is its fields. -/
theorem hdrPoint_moved {h h' : HdrPoint} {bs : List Byte} (h1 : h'.got = h.got ++ bs) (h2 : h'.used = h.used + bs.length)
    (h3 : h'.prev = h.prev) (h4 : h'.entries = h.entries) :
    h' = { h with got := h.got ++ bs, used := h.used + bs.length, r := h'.r, k := h'.k } := by
  cases h'
  simp_all

/-- The entries leave a sound table, and a hold among them is one of `State.HeaderRead` (44_codec R213). -/
theorem readEntries_archiveOk (m : Nat) (h : HdrPoint) (s : State) (cnt : Nat) (ht : TablesOk s)
    (hp : EntryPoint s h cnt m) : ArchiveOk (readEntries m h s) := by
  induction m generalizing h s with
  | zero => exact archiveOk_none (tablesOk_same ht rfl rfl rfl rfl rfl rfl rfl rfl rfl) rfl
  | succ m ih =>
    have hro := readOn_readBytes (9 - h.got.length) h s
    have hg := hp.got
    rw [readEntries]
    split
    · rename_i h' t e
      replace hro : ReadOn s t := by rw [e] at hro; exact hro
      obtain ⟨bs, b1, b2, b3, b4, b5, b6⟩ := readBytes_held hp.part e
      have hh : EntryPoint t h' cnt (m + 1) := by
        rw [hdrPoint_moved b3 b4 b5 b6]
        exact hp.moved hro bs _ _ b2 b1
      exact ⟨tablesOk_same (readOn_tablesOk ht hro) rfl rfl rfl rfl rfl rfl rfl rfl rfl, fun _ _ => ⟨_, hh.headerRead⟩⟩
    · exact rejectHeader_archiveOk _ _ _
    · rename_i h' t e
      replace hro : ReadOn s t := by rw [e] at hro; exact hro
      split
      · exact rejectHeader_archiveOk _ _ _
      · rename_i hb
        obtain ⟨bs, b1, rfl⟩ := readBytes_got hp.part e (by omega)
        obtain ⟨hl, -⟩ := hp.load (t := t)
          (h' := { h with got := h.got ++ bs, used := h.used + (9 - h.got.length), r := 0, k := 0 })
          hro rfl rfl rfl rfl (by simpa using hb)
        exact ih _ _ (tablesOk_changed hl.table rfl rfl) hl

/-- The count field and the entries leave a sound table, and a hold is one of `State.HeaderRead` (44_codec R213). -/
theorem readHeader_archiveOk (h : HdrPoint) (s : State) (ht : TablesOk s) (hp : CountPoint s h) :
    ArchiveOk (readHeader h s) := by
  have hro := readOn_readBytes (4 - h.got.length) h s
  have hg := hp.got
  rw [readHeader]
  split
  · rename_i h' t e
    replace hro : ReadOn s t := by rw [e] at hro; exact hro
    obtain ⟨bs, b1, b2, b3, b4, b5, b6⟩ := readBytes_held hp.part e
    have hh : CountPoint t h' := by
      rw [hdrPoint_moved b3 b4 b5 b6]
      exact hp.moved hro bs _ _ b2 b1
    exact ⟨tablesOk_same (readOn_tablesOk ht hro) rfl rfl rfl rfl rfl rfl rfl rfl rfl, fun _ _ => ⟨_, hh.headerRead⟩⟩
  · exact rejectHeader_archiveOk _ _ _
  · rename_i h' t e
    replace hro : ReadOn s t := by rw [e] at hro; exact hro
    have hto := readOn_tablesOk ht hro
    split
    · exact rejectHeader_archiveOk _ _ _
    · split
      · exact rejectHeader_archiveOk _ _ _
      · rename_i h0 h256
        obtain ⟨bs, b1, rfl⟩ := readBytes_got hp.part e (by omega)
        have hfreq : t.freq = s.freq := by rw [hro.2]
        refine readEntries_archiveOk _ _ _ (ofLeBytes (h.got ++ bs)) hto
          ⟨partOk_zero _ rfl rfl, hto.1, ?_, ?_, ?_, by simp, ?_, ?_, by simpa using h256⟩
        · have := hro.2; rw [this]; exact hp.tree
        · have := hro.2; rw [this]; exact hp.codes
        · rw [hfreq, hp.absent]; exact hp.prev
        · rw [hfreq, hp.absent]
          have := hp.used
          simp
          omega
        · rw [hfreq, hp.absent]; simp

/-- HDR_READ keeps V1 to V4, and its holds are those of `State.HeaderRead` (44_codec R213). -/
theorem hdrRead_archiveOk {s t : State} {bits : List Bool} (ht : TablesOk s) (h : s.HeaderRead bits)
    (e : execHdrRead s = .next t) : ArchiveOk t := by
  have nx : ∀ {u : State}, (Host.Outcome.next u : Host.Outcome State Fault Refusal) = .next t → u = t := by
    intro u hu; injection hu
  rcases headerRead_cases h with ⟨u, g, e', hp, hon, -⟩ | ⟨g, cnt, m, e', hp, -⟩
  · rw [e'] at e
    rw [← nx e]
    exact readHeader_archiveOk g u (tablesOk_changed hp.table hp.tree hp.codes) hp
  · rw [e'] at e
    rw [← nx e]
    exact readEntries_archiveOk _ g s cnt ht hp

/-- FREQ_LOAD past its check keeps V1 and V2 (41_frequency R155). -/

theorem freqLoad_tableOk (s : State) (x : Byte) (h : s.TableOk) (hn : s.totalAfterLoad x < 2 ^ 64) (t : State) (h1 : t.freq = setFreq s.freq x s.a) (h2 : t.total = BitVec.ofNat 64 (s.totalAfterLoad x)) (h3 : t.symCnt = s.symCntAfterLoad x) : t.TableOk := by
  have hl := present_length_setFreq s.freq x s.a
  have h256 := present_length_le s.freq
  have h256' := present_length_le (setFreq s.freq x s.a)
  have hx : s.freq[x.toNat]'x.isLt = s.freqAt x := rfl
  have hsum := tableSum_setFreq s.freq x s.a
  have hle : (s.freqAt x).toNat ≤ s.total.toNat := by rw [h.2]; exact freq_le_tableSum s.freq x
  rw [hx] at hl hsum
  have e1 := h.1
  have e2 := h.2
  unfold State.TableOk
  rw [h1, h2, h3]
  refine ⟨?_, ?_⟩
  · unfold State.symCntAfterLoad
    by_cases a1 : s.freqAt x = 0#64 <;> by_cases a2 : s.a = 0#64 <;> simp [a1, a2, BitVec.toNat_add, BitVec.toNat_sub] at hl ⊢ <;> omega
  · rw [BitVec.toNat_ofNat, Nat.mod_eq_of_lt hn]; unfold State.totalAfterLoad; omega

/-- TREE_BUILD establishes V3 (42_tree R177). -/

theorem treeBuild_treeOk (s : State) (h : s.TableOk) (h0 : s.symCnt ≠ 0#9) (t : State) (h1 : t.freq = s.freq) (h2 : t.symCnt = s.symCnt)
  (h3 : t.node = writeArena s.node (buildTree s.freq).1) (h4 : t.root = BitVec.ofNat 9 (rootOf (buildTree s.freq).2)) (h5 : t.nodeCnt = BitVec.ofNat 10 (buildTree s.freq).1.length) : t.TreeOk := by
  intro _
  obtain ⟨k, tree, more, e, hm, hk, -⟩ := buildTree_spec s.freq (present_ne_nil s h h0) (tableSum_lt s h)
  have hle := present_length_le s.freq
  have hpos : 1 ≤ (present s.freq).length := List.length_pos_iff.mpr (present_ne_nil s h h0)
  have hs := h.1
  have hlen : (buildTree s.freq).1.length = 2 * (present s.freq).length - 1 := by
    rw [e]; simp [leaves, hm]; omega
  rw [h1, h2, h3, h4, h5]
  have hc : (BitVec.ofNat 10 (buildTree s.freq).1.length).toNat = (buildTree s.freq).1.length := by rw [BitVec.toNat_ofNat, Nat.mod_eq_of_lt]; omega
  refine ⟨h0, by rw [hc]; omega, ?_, ?_⟩
  · intro i hi; rw [hc] at hi; exact writeArena_get _ _ _ hi (by omega)
  · rw [e]; simp only [rootOf, List.head?_cons, Option.map_some, Option.getD_some, BitVec.toNat_ofNat]; rw [Nat.mod_eq_of_lt]; omega

end Sys2Proof.Machine
end

