-- ==== Sys2Proof/Laws/State.lean ====
section
/-! SUPPORT. What each named update of the state leaves in each field. -/

namespace Sys2Proof.Machine

/-! ## `State.complete` -/

@[simp] theorem State.complete_params (s : State) : s.complete.params = s.params := rfl
@[simp] theorem State.complete_ieDone (s : State) : s.complete.ieDone = s.ieDone := rfl
@[simp] theorem State.complete_ieErr (s : State) : s.complete.ieErr = s.ieErr := rfl
@[simp] theorem State.complete_busy (s : State) : s.complete.busy = false := rfl
@[simp] theorem State.complete_done (s : State) : s.complete.done = true := rfl
@[simp] theorem State.complete_err (s : State) : s.complete.err = s.err := rfl
@[simp] theorem State.complete_cmdOvr (s : State) : s.complete.cmdOvr = s.cmdOvr := rfl
@[simp] theorem State.complete_inOvf (s : State) : s.complete.inOvf = s.inOvf := rfl
@[simp] theorem State.complete_treeValid (s : State) : s.complete.treeValid = s.treeValid := rfl
@[simp] theorem State.complete_codesValid (s : State) : s.complete.codesValid = s.codesValid := rfl
@[simp] theorem State.complete_waitIn (s : State) : s.complete.waitIn = false := rfl
@[simp] theorem State.complete_waitOut (s : State) : s.complete.waitOut = false := rfl
@[simp] theorem State.complete_errCode (s : State) : s.complete.errCode = s.errCode := rfl
@[simp] theorem State.complete_pad (s : State) : s.complete.pad = s.pad := rfl
@[simp] theorem State.complete_arg0 (s : State) : s.complete.arg0 = s.arg0 := rfl
@[simp] theorem State.complete_budget (s : State) : s.complete.budget = s.budget := rfl
@[simp] theorem State.complete_result0 (s : State) : s.complete.result0 = s.result0 := rfl
@[simp] theorem State.complete_result1 (s : State) : s.complete.result1 = s.result1 := rfl
@[simp] theorem State.complete_errInfo (s : State) : s.complete.errInfo = s.errInfo := rfl
@[simp] theorem State.complete_symCnt (s : State) : s.complete.symCnt = s.symCnt := rfl
@[simp] theorem State.complete_total (s : State) : s.complete.total = s.total := rfl
@[simp] theorem State.complete_freq (s : State) : s.complete.freq = s.freq := rfl
@[simp] theorem State.complete_node (s : State) : s.complete.node = s.node := rfl
@[simp] theorem State.complete_root (s : State) : s.complete.root = s.root := rfl
@[simp] theorem State.complete_nodeCnt (s : State) : s.complete.nodeCnt = s.nodeCnt := rfl
@[simp] theorem State.complete_code (s : State) : s.complete.code = s.code := rfl
@[simp] theorem State.complete_c (s : State) : s.complete.c = s.c := rfl
@[simp] theorem State.complete_a (s : State) : s.complete.a = s.a := rfl
@[simp] theorem State.complete_wacc (s : State) : s.complete.wacc = s.wacc := rfl
@[simp] theorem State.complete_wk (s : State) : s.complete.wk = s.wk := rfl
@[simp] theorem State.complete_racc (s : State) : s.complete.racc = s.racc := rfl
@[simp] theorem State.complete_rk (s : State) : s.complete.rk = s.rk := rfl
@[simp] theorem State.complete_inFifo (s : State) : s.complete.inFifo = s.inFifo := rfl
@[simp] theorem State.complete_outFifo (s : State) : s.complete.outFifo = s.outFifo := rfl
@[simp] theorem State.complete_prog (s : State) : s.complete.prog = .none := rfl
@[simp] theorem State.complete_agenda (s : State) : s.complete.agenda = s.agenda := rfl
@[simp] theorem State.complete_busReads (s : State) : s.complete.busReads = s.busReads := rfl
@[simp] theorem State.complete_draws (s : State) : s.complete.draws = s.draws := rfl

/-! ## `State.raise` -/

@[simp] theorem State.raise_params (s : State) (e : ErrKind) (i : Word) : (s.raise e i).params = s.params := rfl
@[simp] theorem State.raise_ieDone (s : State) (e : ErrKind) (i : Word) : (s.raise e i).ieDone = s.ieDone := rfl
@[simp] theorem State.raise_ieErr (s : State) (e : ErrKind) (i : Word) : (s.raise e i).ieErr = s.ieErr := rfl
@[simp] theorem State.raise_busy (s : State) (e : ErrKind) (i : Word) : (s.raise e i).busy = false := rfl
@[simp] theorem State.raise_done (s : State) (e : ErrKind) (i : Word) : (s.raise e i).done = true := rfl
@[simp] theorem State.raise_err (s : State) (e : ErrKind) (i : Word) : (s.raise e i).err = true := rfl
@[simp] theorem State.raise_cmdOvr (s : State) (e : ErrKind) (i : Word) : (s.raise e i).cmdOvr = s.cmdOvr := rfl
@[simp] theorem State.raise_inOvf (s : State) (e : ErrKind) (i : Word) : (s.raise e i).inOvf = s.inOvf := rfl
@[simp] theorem State.raise_treeValid (s : State) (e : ErrKind) (i : Word) :
    (s.raise e i).treeValid = s.treeValid := rfl
@[simp] theorem State.raise_codesValid (s : State) (e : ErrKind) (i : Word) :
    (s.raise e i).codesValid = s.codesValid := rfl
@[simp] theorem State.raise_waitIn (s : State) (e : ErrKind) (i : Word) : (s.raise e i).waitIn = false := rfl
@[simp] theorem State.raise_waitOut (s : State) (e : ErrKind) (i : Word) : (s.raise e i).waitOut = false := rfl
@[simp] theorem State.raise_errCode (s : State) (e : ErrKind) (i : Word) : (s.raise e i).errCode = e.code := rfl
@[simp] theorem State.raise_pad (s : State) (e : ErrKind) (i : Word) : (s.raise e i).pad = s.pad := rfl
@[simp] theorem State.raise_arg0 (s : State) (e : ErrKind) (i : Word) : (s.raise e i).arg0 = s.arg0 := rfl
@[simp] theorem State.raise_budget (s : State) (e : ErrKind) (i : Word) : (s.raise e i).budget = s.budget := rfl
@[simp] theorem State.raise_result0 (s : State) (e : ErrKind) (i : Word) : (s.raise e i).result0 = s.result0 := rfl
@[simp] theorem State.raise_result1 (s : State) (e : ErrKind) (i : Word) : (s.raise e i).result1 = s.result1 := rfl
@[simp] theorem State.raise_errInfo (s : State) (e : ErrKind) (i : Word) : (s.raise e i).errInfo = i := rfl
@[simp] theorem State.raise_symCnt (s : State) (e : ErrKind) (i : Word) : (s.raise e i).symCnt = s.symCnt := rfl
@[simp] theorem State.raise_total (s : State) (e : ErrKind) (i : Word) : (s.raise e i).total = s.total := rfl
@[simp] theorem State.raise_freq (s : State) (e : ErrKind) (i : Word) : (s.raise e i).freq = s.freq := rfl
@[simp] theorem State.raise_node (s : State) (e : ErrKind) (i : Word) : (s.raise e i).node = s.node := rfl
@[simp] theorem State.raise_root (s : State) (e : ErrKind) (i : Word) : (s.raise e i).root = s.root := rfl
@[simp] theorem State.raise_nodeCnt (s : State) (e : ErrKind) (i : Word) : (s.raise e i).nodeCnt = s.nodeCnt := rfl
@[simp] theorem State.raise_code (s : State) (e : ErrKind) (i : Word) : (s.raise e i).code = s.code := rfl
@[simp] theorem State.raise_c (s : State) (e : ErrKind) (i : Word) : (s.raise e i).c = s.c := rfl
@[simp] theorem State.raise_a (s : State) (e : ErrKind) (i : Word) : (s.raise e i).a = s.a := rfl
@[simp] theorem State.raise_wacc (s : State) (e : ErrKind) (i : Word) : (s.raise e i).wacc = s.wacc := rfl
@[simp] theorem State.raise_wk (s : State) (e : ErrKind) (i : Word) : (s.raise e i).wk = s.wk := rfl
@[simp] theorem State.raise_racc (s : State) (e : ErrKind) (i : Word) : (s.raise e i).racc = s.racc := rfl
@[simp] theorem State.raise_rk (s : State) (e : ErrKind) (i : Word) : (s.raise e i).rk = s.rk := rfl
@[simp] theorem State.raise_inFifo (s : State) (e : ErrKind) (i : Word) : (s.raise e i).inFifo = s.inFifo := rfl
@[simp] theorem State.raise_outFifo (s : State) (e : ErrKind) (i : Word) : (s.raise e i).outFifo = s.outFifo := rfl
@[simp] theorem State.raise_prog (s : State) (e : ErrKind) (i : Word) : (s.raise e i).prog = .none := rfl
@[simp] theorem State.raise_agenda (s : State) (e : ErrKind) (i : Word) : (s.raise e i).agenda = s.agenda := rfl
@[simp] theorem State.raise_busReads (s : State) (e : ErrKind) (i : Word) : (s.raise e i).busReads = s.busReads := rfl
@[simp] theorem State.raise_draws (s : State) (e : ErrKind) (i : Word) : (s.raise e i).draws = s.draws := rfl

/-! ## `State.clearErr` -/

@[simp] theorem State.clearErr_params (s : State) : s.clearErr.params = s.params := rfl
@[simp] theorem State.clearErr_ieDone (s : State) : s.clearErr.ieDone = s.ieDone := rfl
@[simp] theorem State.clearErr_ieErr (s : State) : s.clearErr.ieErr = s.ieErr := rfl
@[simp] theorem State.clearErr_busy (s : State) : s.clearErr.busy = s.busy := rfl
@[simp] theorem State.clearErr_done (s : State) : s.clearErr.done = s.done := rfl
@[simp] theorem State.clearErr_err (s : State) : s.clearErr.err = false := rfl
@[simp] theorem State.clearErr_cmdOvr (s : State) : s.clearErr.cmdOvr = s.cmdOvr := rfl
@[simp] theorem State.clearErr_inOvf (s : State) : s.clearErr.inOvf = s.inOvf := rfl
@[simp] theorem State.clearErr_treeValid (s : State) : s.clearErr.treeValid = s.treeValid := rfl
@[simp] theorem State.clearErr_codesValid (s : State) : s.clearErr.codesValid = s.codesValid := rfl
@[simp] theorem State.clearErr_waitIn (s : State) : s.clearErr.waitIn = s.waitIn := rfl
@[simp] theorem State.clearErr_waitOut (s : State) : s.clearErr.waitOut = s.waitOut := rfl
@[simp] theorem State.clearErr_errCode (s : State) : s.clearErr.errCode = 0#8 := rfl
@[simp] theorem State.clearErr_pad (s : State) : s.clearErr.pad = s.pad := rfl
@[simp] theorem State.clearErr_arg0 (s : State) : s.clearErr.arg0 = s.arg0 := rfl
@[simp] theorem State.clearErr_budget (s : State) : s.clearErr.budget = s.budget := rfl
@[simp] theorem State.clearErr_result0 (s : State) : s.clearErr.result0 = s.result0 := rfl
@[simp] theorem State.clearErr_result1 (s : State) : s.clearErr.result1 = s.result1 := rfl
@[simp] theorem State.clearErr_errInfo (s : State) : s.clearErr.errInfo = 0#64 := rfl
@[simp] theorem State.clearErr_symCnt (s : State) : s.clearErr.symCnt = s.symCnt := rfl
@[simp] theorem State.clearErr_total (s : State) : s.clearErr.total = s.total := rfl
@[simp] theorem State.clearErr_freq (s : State) : s.clearErr.freq = s.freq := rfl
@[simp] theorem State.clearErr_node (s : State) : s.clearErr.node = s.node := rfl
@[simp] theorem State.clearErr_root (s : State) : s.clearErr.root = s.root := rfl
@[simp] theorem State.clearErr_nodeCnt (s : State) : s.clearErr.nodeCnt = s.nodeCnt := rfl
@[simp] theorem State.clearErr_code (s : State) : s.clearErr.code = s.code := rfl
@[simp] theorem State.clearErr_c (s : State) : s.clearErr.c = s.c := rfl
@[simp] theorem State.clearErr_a (s : State) : s.clearErr.a = s.a := rfl
@[simp] theorem State.clearErr_wacc (s : State) : s.clearErr.wacc = s.wacc := rfl
@[simp] theorem State.clearErr_wk (s : State) : s.clearErr.wk = s.wk := rfl
@[simp] theorem State.clearErr_racc (s : State) : s.clearErr.racc = s.racc := rfl
@[simp] theorem State.clearErr_rk (s : State) : s.clearErr.rk = s.rk := rfl
@[simp] theorem State.clearErr_inFifo (s : State) : s.clearErr.inFifo = s.inFifo := rfl
@[simp] theorem State.clearErr_outFifo (s : State) : s.clearErr.outFifo = s.outFifo := rfl
@[simp] theorem State.clearErr_prog (s : State) : s.clearErr.prog = s.prog := rfl
@[simp] theorem State.clearErr_agenda (s : State) : s.clearErr.agenda = s.agenda := rfl
@[simp] theorem State.clearErr_busReads (s : State) : s.clearErr.busReads = s.busReads := rfl
@[simp] theorem State.clearErr_draws (s : State) : s.clearErr.draws = s.draws := rfl

/-! ## `State.latch` -/

@[simp] theorem State.latch_params (s : State) (w : Word) : (s.latch w).params = s.params := rfl
@[simp] theorem State.latch_ieDone (s : State) (w : Word) : (s.latch w).ieDone = s.ieDone := rfl
@[simp] theorem State.latch_ieErr (s : State) (w : Word) : (s.latch w).ieErr = s.ieErr := rfl
@[simp] theorem State.latch_busy (s : State) (w : Word) : (s.latch w).busy = true := rfl
@[simp] theorem State.latch_done (s : State) (w : Word) : (s.latch w).done = false := rfl
@[simp] theorem State.latch_err (s : State) (w : Word) : (s.latch w).err = s.err := rfl
@[simp] theorem State.latch_cmdOvr (s : State) (w : Word) : (s.latch w).cmdOvr = s.cmdOvr := rfl
@[simp] theorem State.latch_inOvf (s : State) (w : Word) : (s.latch w).inOvf = s.inOvf := rfl
@[simp] theorem State.latch_treeValid (s : State) (w : Word) : (s.latch w).treeValid = s.treeValid := rfl
@[simp] theorem State.latch_codesValid (s : State) (w : Word) : (s.latch w).codesValid = s.codesValid := rfl
@[simp] theorem State.latch_waitIn (s : State) (w : Word) : (s.latch w).waitIn = s.waitIn := rfl
@[simp] theorem State.latch_waitOut (s : State) (w : Word) : (s.latch w).waitOut = s.waitOut := rfl
@[simp] theorem State.latch_errCode (s : State) (w : Word) : (s.latch w).errCode = s.errCode := rfl
@[simp] theorem State.latch_pad (s : State) (w : Word) : (s.latch w).pad = s.pad := rfl
@[simp] theorem State.latch_arg0 (s : State) (w : Word) : (s.latch w).arg0 = s.arg0 := rfl
@[simp] theorem State.latch_budget (s : State) (w : Word) : (s.latch w).budget = s.budget := rfl
@[simp] theorem State.latch_result0 (s : State) (w : Word) : (s.latch w).result0 = s.result0 := rfl
@[simp] theorem State.latch_result1 (s : State) (w : Word) : (s.latch w).result1 = s.result1 := rfl
@[simp] theorem State.latch_errInfo (s : State) (w : Word) : (s.latch w).errInfo = s.errInfo := rfl
@[simp] theorem State.latch_symCnt (s : State) (w : Word) : (s.latch w).symCnt = s.symCnt := rfl
@[simp] theorem State.latch_total (s : State) (w : Word) : (s.latch w).total = s.total := rfl
@[simp] theorem State.latch_freq (s : State) (w : Word) : (s.latch w).freq = s.freq := rfl
@[simp] theorem State.latch_node (s : State) (w : Word) : (s.latch w).node = s.node := rfl
@[simp] theorem State.latch_root (s : State) (w : Word) : (s.latch w).root = s.root := rfl
@[simp] theorem State.latch_nodeCnt (s : State) (w : Word) : (s.latch w).nodeCnt = s.nodeCnt := rfl
@[simp] theorem State.latch_code (s : State) (w : Word) : (s.latch w).code = s.code := rfl
@[simp] theorem State.latch_c (s : State) (w : Word) : (s.latch w).c = w := rfl
@[simp] theorem State.latch_a (s : State) (w : Word) : (s.latch w).a = s.arg0 := rfl
@[simp] theorem State.latch_wacc (s : State) (w : Word) : (s.latch w).wacc = s.wacc := rfl
@[simp] theorem State.latch_wk (s : State) (w : Word) : (s.latch w).wk = s.wk := rfl
@[simp] theorem State.latch_racc (s : State) (w : Word) : (s.latch w).racc = s.racc := rfl
@[simp] theorem State.latch_rk (s : State) (w : Word) : (s.latch w).rk = s.rk := rfl
@[simp] theorem State.latch_inFifo (s : State) (w : Word) : (s.latch w).inFifo = s.inFifo := rfl
@[simp] theorem State.latch_outFifo (s : State) (w : Word) : (s.latch w).outFifo = s.outFifo := rfl
@[simp] theorem State.latch_prog (s : State) (w : Word) : (s.latch w).prog = .start := rfl
@[simp] theorem State.latch_agenda (s : State) (w : Word) : (s.latch w).agenda = s.agenda := rfl
@[simp] theorem State.latch_busReads (s : State) (w : Word) : (s.latch w).busReads = s.busReads := rfl
@[simp] theorem State.latch_draws (s : State) (w : Word) : (s.latch w).draws = s.draws := rfl

/-! ## `State.holdIn` -/

@[simp] theorem State.holdIn_params (s : State) (p : Prog) : (s.holdIn p).params = s.params := rfl
@[simp] theorem State.holdIn_ieDone (s : State) (p : Prog) : (s.holdIn p).ieDone = s.ieDone := rfl
@[simp] theorem State.holdIn_ieErr (s : State) (p : Prog) : (s.holdIn p).ieErr = s.ieErr := rfl
@[simp] theorem State.holdIn_busy (s : State) (p : Prog) : (s.holdIn p).busy = s.busy := rfl
@[simp] theorem State.holdIn_done (s : State) (p : Prog) : (s.holdIn p).done = s.done := rfl
@[simp] theorem State.holdIn_err (s : State) (p : Prog) : (s.holdIn p).err = s.err := rfl
@[simp] theorem State.holdIn_cmdOvr (s : State) (p : Prog) : (s.holdIn p).cmdOvr = s.cmdOvr := rfl
@[simp] theorem State.holdIn_inOvf (s : State) (p : Prog) : (s.holdIn p).inOvf = s.inOvf := rfl
@[simp] theorem State.holdIn_treeValid (s : State) (p : Prog) : (s.holdIn p).treeValid = s.treeValid := rfl
@[simp] theorem State.holdIn_codesValid (s : State) (p : Prog) : (s.holdIn p).codesValid = s.codesValid := rfl
@[simp] theorem State.holdIn_waitIn (s : State) (p : Prog) : (s.holdIn p).waitIn = true := rfl
@[simp] theorem State.holdIn_waitOut (s : State) (p : Prog) : (s.holdIn p).waitOut = s.waitOut := rfl
@[simp] theorem State.holdIn_errCode (s : State) (p : Prog) : (s.holdIn p).errCode = s.errCode := rfl
@[simp] theorem State.holdIn_pad (s : State) (p : Prog) : (s.holdIn p).pad = s.pad := rfl
@[simp] theorem State.holdIn_arg0 (s : State) (p : Prog) : (s.holdIn p).arg0 = s.arg0 := rfl
@[simp] theorem State.holdIn_budget (s : State) (p : Prog) : (s.holdIn p).budget = s.budget := rfl
@[simp] theorem State.holdIn_result0 (s : State) (p : Prog) : (s.holdIn p).result0 = s.result0 := rfl
@[simp] theorem State.holdIn_result1 (s : State) (p : Prog) : (s.holdIn p).result1 = s.result1 := rfl
@[simp] theorem State.holdIn_errInfo (s : State) (p : Prog) : (s.holdIn p).errInfo = s.errInfo := rfl
@[simp] theorem State.holdIn_symCnt (s : State) (p : Prog) : (s.holdIn p).symCnt = s.symCnt := rfl
@[simp] theorem State.holdIn_total (s : State) (p : Prog) : (s.holdIn p).total = s.total := rfl
@[simp] theorem State.holdIn_freq (s : State) (p : Prog) : (s.holdIn p).freq = s.freq := rfl
@[simp] theorem State.holdIn_node (s : State) (p : Prog) : (s.holdIn p).node = s.node := rfl
@[simp] theorem State.holdIn_root (s : State) (p : Prog) : (s.holdIn p).root = s.root := rfl
@[simp] theorem State.holdIn_nodeCnt (s : State) (p : Prog) : (s.holdIn p).nodeCnt = s.nodeCnt := rfl
@[simp] theorem State.holdIn_code (s : State) (p : Prog) : (s.holdIn p).code = s.code := rfl
@[simp] theorem State.holdIn_c (s : State) (p : Prog) : (s.holdIn p).c = s.c := rfl
@[simp] theorem State.holdIn_a (s : State) (p : Prog) : (s.holdIn p).a = s.a := rfl
@[simp] theorem State.holdIn_wacc (s : State) (p : Prog) : (s.holdIn p).wacc = s.wacc := rfl
@[simp] theorem State.holdIn_wk (s : State) (p : Prog) : (s.holdIn p).wk = s.wk := rfl
@[simp] theorem State.holdIn_racc (s : State) (p : Prog) : (s.holdIn p).racc = s.racc := rfl
@[simp] theorem State.holdIn_rk (s : State) (p : Prog) : (s.holdIn p).rk = s.rk := rfl
@[simp] theorem State.holdIn_inFifo (s : State) (p : Prog) : (s.holdIn p).inFifo = s.inFifo := rfl
@[simp] theorem State.holdIn_outFifo (s : State) (p : Prog) : (s.holdIn p).outFifo = s.outFifo := rfl
@[simp] theorem State.holdIn_prog (s : State) (p : Prog) : (s.holdIn p).prog = p := rfl
@[simp] theorem State.holdIn_agenda (s : State) (p : Prog) : (s.holdIn p).agenda = s.agenda := rfl
@[simp] theorem State.holdIn_busReads (s : State) (p : Prog) : (s.holdIn p).busReads = s.busReads := rfl
@[simp] theorem State.holdIn_draws (s : State) (p : Prog) : (s.holdIn p).draws = s.draws := rfl

/-! ## `State.holdOut` -/

@[simp] theorem State.holdOut_params (s : State) (p : Prog) : (s.holdOut p).params = s.params := rfl
@[simp] theorem State.holdOut_ieDone (s : State) (p : Prog) : (s.holdOut p).ieDone = s.ieDone := rfl
@[simp] theorem State.holdOut_ieErr (s : State) (p : Prog) : (s.holdOut p).ieErr = s.ieErr := rfl
@[simp] theorem State.holdOut_busy (s : State) (p : Prog) : (s.holdOut p).busy = s.busy := rfl
@[simp] theorem State.holdOut_done (s : State) (p : Prog) : (s.holdOut p).done = s.done := rfl
@[simp] theorem State.holdOut_err (s : State) (p : Prog) : (s.holdOut p).err = s.err := rfl
@[simp] theorem State.holdOut_cmdOvr (s : State) (p : Prog) : (s.holdOut p).cmdOvr = s.cmdOvr := rfl
@[simp] theorem State.holdOut_inOvf (s : State) (p : Prog) : (s.holdOut p).inOvf = s.inOvf := rfl
@[simp] theorem State.holdOut_treeValid (s : State) (p : Prog) : (s.holdOut p).treeValid = s.treeValid := rfl
@[simp] theorem State.holdOut_codesValid (s : State) (p : Prog) : (s.holdOut p).codesValid = s.codesValid := rfl
@[simp] theorem State.holdOut_waitIn (s : State) (p : Prog) : (s.holdOut p).waitIn = s.waitIn := rfl
@[simp] theorem State.holdOut_waitOut (s : State) (p : Prog) : (s.holdOut p).waitOut = true := rfl
@[simp] theorem State.holdOut_errCode (s : State) (p : Prog) : (s.holdOut p).errCode = s.errCode := rfl
@[simp] theorem State.holdOut_pad (s : State) (p : Prog) : (s.holdOut p).pad = s.pad := rfl
@[simp] theorem State.holdOut_arg0 (s : State) (p : Prog) : (s.holdOut p).arg0 = s.arg0 := rfl
@[simp] theorem State.holdOut_budget (s : State) (p : Prog) : (s.holdOut p).budget = s.budget := rfl
@[simp] theorem State.holdOut_result0 (s : State) (p : Prog) : (s.holdOut p).result0 = s.result0 := rfl
@[simp] theorem State.holdOut_result1 (s : State) (p : Prog) : (s.holdOut p).result1 = s.result1 := rfl
@[simp] theorem State.holdOut_errInfo (s : State) (p : Prog) : (s.holdOut p).errInfo = s.errInfo := rfl
@[simp] theorem State.holdOut_symCnt (s : State) (p : Prog) : (s.holdOut p).symCnt = s.symCnt := rfl
@[simp] theorem State.holdOut_total (s : State) (p : Prog) : (s.holdOut p).total = s.total := rfl
@[simp] theorem State.holdOut_freq (s : State) (p : Prog) : (s.holdOut p).freq = s.freq := rfl
@[simp] theorem State.holdOut_node (s : State) (p : Prog) : (s.holdOut p).node = s.node := rfl
@[simp] theorem State.holdOut_root (s : State) (p : Prog) : (s.holdOut p).root = s.root := rfl
@[simp] theorem State.holdOut_nodeCnt (s : State) (p : Prog) : (s.holdOut p).nodeCnt = s.nodeCnt := rfl
@[simp] theorem State.holdOut_code (s : State) (p : Prog) : (s.holdOut p).code = s.code := rfl
@[simp] theorem State.holdOut_c (s : State) (p : Prog) : (s.holdOut p).c = s.c := rfl
@[simp] theorem State.holdOut_a (s : State) (p : Prog) : (s.holdOut p).a = s.a := rfl
@[simp] theorem State.holdOut_wacc (s : State) (p : Prog) : (s.holdOut p).wacc = s.wacc := rfl
@[simp] theorem State.holdOut_wk (s : State) (p : Prog) : (s.holdOut p).wk = s.wk := rfl
@[simp] theorem State.holdOut_racc (s : State) (p : Prog) : (s.holdOut p).racc = s.racc := rfl
@[simp] theorem State.holdOut_rk (s : State) (p : Prog) : (s.holdOut p).rk = s.rk := rfl
@[simp] theorem State.holdOut_inFifo (s : State) (p : Prog) : (s.holdOut p).inFifo = s.inFifo := rfl
@[simp] theorem State.holdOut_outFifo (s : State) (p : Prog) : (s.holdOut p).outFifo = s.outFifo := rfl
@[simp] theorem State.holdOut_prog (s : State) (p : Prog) : (s.holdOut p).prog = p := rfl
@[simp] theorem State.holdOut_agenda (s : State) (p : Prog) : (s.holdOut p).agenda = s.agenda := rfl
@[simp] theorem State.holdOut_busReads (s : State) (p : Prog) : (s.holdOut p).busReads = s.busReads := rfl
@[simp] theorem State.holdOut_draws (s : State) (p : Prog) : (s.holdOut p).draws = s.draws := rfl

/-! ## `State.popped` -/

@[simp] theorem State.popped_params (s : State) (ts : List Token) : (s.popped ts).params = s.params := rfl
@[simp] theorem State.popped_ieDone (s : State) (ts : List Token) : (s.popped ts).ieDone = s.ieDone := rfl
@[simp] theorem State.popped_ieErr (s : State) (ts : List Token) : (s.popped ts).ieErr = s.ieErr := rfl
@[simp] theorem State.popped_busy (s : State) (ts : List Token) : (s.popped ts).busy = s.busy := rfl
@[simp] theorem State.popped_done (s : State) (ts : List Token) : (s.popped ts).done = s.done := rfl
@[simp] theorem State.popped_err (s : State) (ts : List Token) : (s.popped ts).err = s.err := rfl
@[simp] theorem State.popped_cmdOvr (s : State) (ts : List Token) : (s.popped ts).cmdOvr = s.cmdOvr := rfl
@[simp] theorem State.popped_inOvf (s : State) (ts : List Token) : (s.popped ts).inOvf = s.inOvf := rfl
@[simp] theorem State.popped_treeValid (s : State) (ts : List Token) : (s.popped ts).treeValid = s.treeValid := rfl
@[simp] theorem State.popped_codesValid (s : State) (ts : List Token) : (s.popped ts).codesValid = s.codesValid := rfl
@[simp] theorem State.popped_waitIn (s : State) (ts : List Token) : (s.popped ts).waitIn = false := rfl
@[simp] theorem State.popped_waitOut (s : State) (ts : List Token) : (s.popped ts).waitOut = s.waitOut := rfl
@[simp] theorem State.popped_errCode (s : State) (ts : List Token) : (s.popped ts).errCode = s.errCode := rfl
@[simp] theorem State.popped_pad (s : State) (ts : List Token) : (s.popped ts).pad = s.pad := rfl
@[simp] theorem State.popped_arg0 (s : State) (ts : List Token) : (s.popped ts).arg0 = s.arg0 := rfl
@[simp] theorem State.popped_budget (s : State) (ts : List Token) : (s.popped ts).budget = s.budget := rfl
@[simp] theorem State.popped_result0 (s : State) (ts : List Token) : (s.popped ts).result0 = s.result0 := rfl
@[simp] theorem State.popped_result1 (s : State) (ts : List Token) : (s.popped ts).result1 = s.result1 := rfl
@[simp] theorem State.popped_errInfo (s : State) (ts : List Token) : (s.popped ts).errInfo = s.errInfo := rfl
@[simp] theorem State.popped_symCnt (s : State) (ts : List Token) : (s.popped ts).symCnt = s.symCnt := rfl
@[simp] theorem State.popped_total (s : State) (ts : List Token) : (s.popped ts).total = s.total := rfl
@[simp] theorem State.popped_freq (s : State) (ts : List Token) : (s.popped ts).freq = s.freq := rfl
@[simp] theorem State.popped_node (s : State) (ts : List Token) : (s.popped ts).node = s.node := rfl
@[simp] theorem State.popped_root (s : State) (ts : List Token) : (s.popped ts).root = s.root := rfl
@[simp] theorem State.popped_nodeCnt (s : State) (ts : List Token) : (s.popped ts).nodeCnt = s.nodeCnt := rfl
@[simp] theorem State.popped_code (s : State) (ts : List Token) : (s.popped ts).code = s.code := rfl
@[simp] theorem State.popped_c (s : State) (ts : List Token) : (s.popped ts).c = s.c := rfl
@[simp] theorem State.popped_a (s : State) (ts : List Token) : (s.popped ts).a = s.a := rfl
@[simp] theorem State.popped_wacc (s : State) (ts : List Token) : (s.popped ts).wacc = s.wacc := rfl
@[simp] theorem State.popped_wk (s : State) (ts : List Token) : (s.popped ts).wk = s.wk := rfl
@[simp] theorem State.popped_racc (s : State) (ts : List Token) : (s.popped ts).racc = s.racc := rfl
@[simp] theorem State.popped_rk (s : State) (ts : List Token) : (s.popped ts).rk = s.rk := rfl
@[simp] theorem State.popped_inFifo (s : State) (ts : List Token) : (s.popped ts).inFifo = ts := rfl
@[simp] theorem State.popped_outFifo (s : State) (ts : List Token) : (s.popped ts).outFifo = s.outFifo := rfl
@[simp] theorem State.popped_prog (s : State) (ts : List Token) : (s.popped ts).prog = s.prog := rfl
@[simp] theorem State.popped_agenda (s : State) (ts : List Token) : (s.popped ts).agenda = s.agenda := rfl
@[simp] theorem State.popped_busReads (s : State) (ts : List Token) : (s.popped ts).busReads = s.busReads := rfl
@[simp] theorem State.popped_draws (s : State) (ts : List Token) : (s.popped ts).draws = s.draws := rfl

/-! ## `State.accumulate` -/

@[simp] theorem State.accumulate_params (s : State) (x : Byte) : (s.accumulate x).params = s.params := rfl
@[simp] theorem State.accumulate_ieDone (s : State) (x : Byte) : (s.accumulate x).ieDone = s.ieDone := rfl
@[simp] theorem State.accumulate_ieErr (s : State) (x : Byte) : (s.accumulate x).ieErr = s.ieErr := rfl
@[simp] theorem State.accumulate_busy (s : State) (x : Byte) : (s.accumulate x).busy = s.busy := rfl
@[simp] theorem State.accumulate_done (s : State) (x : Byte) : (s.accumulate x).done = s.done := rfl
@[simp] theorem State.accumulate_err (s : State) (x : Byte) : (s.accumulate x).err = s.err := rfl
@[simp] theorem State.accumulate_cmdOvr (s : State) (x : Byte) : (s.accumulate x).cmdOvr = s.cmdOvr := rfl
@[simp] theorem State.accumulate_inOvf (s : State) (x : Byte) : (s.accumulate x).inOvf = s.inOvf := rfl
@[simp] theorem State.accumulate_treeValid (s : State) (x : Byte) : (s.accumulate x).treeValid = false := rfl
@[simp] theorem State.accumulate_codesValid (s : State) (x : Byte) : (s.accumulate x).codesValid = false := rfl
@[simp] theorem State.accumulate_waitIn (s : State) (x : Byte) : (s.accumulate x).waitIn = s.waitIn := rfl
@[simp] theorem State.accumulate_waitOut (s : State) (x : Byte) : (s.accumulate x).waitOut = s.waitOut := rfl
@[simp] theorem State.accumulate_errCode (s : State) (x : Byte) : (s.accumulate x).errCode = s.errCode := rfl
@[simp] theorem State.accumulate_pad (s : State) (x : Byte) : (s.accumulate x).pad = s.pad := rfl
@[simp] theorem State.accumulate_arg0 (s : State) (x : Byte) : (s.accumulate x).arg0 = s.arg0 := rfl
@[simp] theorem State.accumulate_budget (s : State) (x : Byte) : (s.accumulate x).budget = s.budget := rfl
@[simp] theorem State.accumulate_result0 (s : State) (x : Byte) : (s.accumulate x).result0 = s.result0 := rfl
@[simp] theorem State.accumulate_result1 (s : State) (x : Byte) : (s.accumulate x).result1 = s.result1 := rfl
@[simp] theorem State.accumulate_errInfo (s : State) (x : Byte) : (s.accumulate x).errInfo = s.errInfo := rfl
@[simp] theorem State.accumulate_symCnt (s : State) (x : Byte) :
    (s.accumulate x).symCnt = if s.freqAt x = 0#64 then s.symCnt + 1#9 else s.symCnt := rfl
@[simp] theorem State.accumulate_total (s : State) (x : Byte) : (s.accumulate x).total = s.total + 1#64 := rfl
@[simp] theorem State.accumulate_freq (s : State) (x : Byte) :
    (s.accumulate x).freq = setFreq s.freq x (s.freqAt x + 1#64) := rfl
@[simp] theorem State.accumulate_node (s : State) (x : Byte) : (s.accumulate x).node = s.node := rfl
@[simp] theorem State.accumulate_root (s : State) (x : Byte) : (s.accumulate x).root = s.root := rfl
@[simp] theorem State.accumulate_nodeCnt (s : State) (x : Byte) : (s.accumulate x).nodeCnt = s.nodeCnt := rfl
@[simp] theorem State.accumulate_code (s : State) (x : Byte) : (s.accumulate x).code = s.code := rfl
@[simp] theorem State.accumulate_c (s : State) (x : Byte) : (s.accumulate x).c = s.c := rfl
@[simp] theorem State.accumulate_a (s : State) (x : Byte) : (s.accumulate x).a = s.a := rfl
@[simp] theorem State.accumulate_wacc (s : State) (x : Byte) : (s.accumulate x).wacc = s.wacc := rfl
@[simp] theorem State.accumulate_wk (s : State) (x : Byte) : (s.accumulate x).wk = s.wk := rfl
@[simp] theorem State.accumulate_racc (s : State) (x : Byte) : (s.accumulate x).racc = s.racc := rfl
@[simp] theorem State.accumulate_rk (s : State) (x : Byte) : (s.accumulate x).rk = s.rk := rfl
@[simp] theorem State.accumulate_inFifo (s : State) (x : Byte) : (s.accumulate x).inFifo = s.inFifo := rfl
@[simp] theorem State.accumulate_outFifo (s : State) (x : Byte) : (s.accumulate x).outFifo = s.outFifo := rfl
@[simp] theorem State.accumulate_prog (s : State) (x : Byte) : (s.accumulate x).prog = s.prog := rfl
@[simp] theorem State.accumulate_agenda (s : State) (x : Byte) : (s.accumulate x).agenda = s.agenda := rfl
@[simp] theorem State.accumulate_busReads (s : State) (x : Byte) : (s.accumulate x).busReads = s.busReads := rfl
@[simp] theorem State.accumulate_draws (s : State) (x : Byte) : (s.accumulate x).draws = s.draws := rfl

/-! ## `State.clearTable` -/

@[simp] theorem State.clearTable_params (s : State) : s.clearTable.params = s.params := rfl
@[simp] theorem State.clearTable_ieDone (s : State) : s.clearTable.ieDone = s.ieDone := rfl
@[simp] theorem State.clearTable_ieErr (s : State) : s.clearTable.ieErr = s.ieErr := rfl
@[simp] theorem State.clearTable_busy (s : State) : s.clearTable.busy = s.busy := rfl
@[simp] theorem State.clearTable_done (s : State) : s.clearTable.done = s.done := rfl
@[simp] theorem State.clearTable_err (s : State) : s.clearTable.err = s.err := rfl
@[simp] theorem State.clearTable_cmdOvr (s : State) : s.clearTable.cmdOvr = s.cmdOvr := rfl
@[simp] theorem State.clearTable_inOvf (s : State) : s.clearTable.inOvf = s.inOvf := rfl
@[simp] theorem State.clearTable_treeValid (s : State) : s.clearTable.treeValid = false := rfl
@[simp] theorem State.clearTable_codesValid (s : State) : s.clearTable.codesValid = false := rfl
@[simp] theorem State.clearTable_waitIn (s : State) : s.clearTable.waitIn = s.waitIn := rfl
@[simp] theorem State.clearTable_waitOut (s : State) : s.clearTable.waitOut = s.waitOut := rfl
@[simp] theorem State.clearTable_errCode (s : State) : s.clearTable.errCode = s.errCode := rfl
@[simp] theorem State.clearTable_pad (s : State) : s.clearTable.pad = s.pad := rfl
@[simp] theorem State.clearTable_arg0 (s : State) : s.clearTable.arg0 = s.arg0 := rfl
@[simp] theorem State.clearTable_budget (s : State) : s.clearTable.budget = s.budget := rfl
@[simp] theorem State.clearTable_result0 (s : State) : s.clearTable.result0 = s.result0 := rfl
@[simp] theorem State.clearTable_result1 (s : State) : s.clearTable.result1 = s.result1 := rfl
@[simp] theorem State.clearTable_errInfo (s : State) : s.clearTable.errInfo = s.errInfo := rfl
@[simp] theorem State.clearTable_symCnt (s : State) : s.clearTable.symCnt = 0#9 := rfl
@[simp] theorem State.clearTable_total (s : State) : s.clearTable.total = 0#64 := rfl
@[simp] theorem State.clearTable_freq (s : State) : s.clearTable.freq = Vector.replicate 256 0#64 := rfl
@[simp] theorem State.clearTable_node (s : State) : s.clearTable.node = s.node := rfl
@[simp] theorem State.clearTable_root (s : State) : s.clearTable.root = s.root := rfl
@[simp] theorem State.clearTable_nodeCnt (s : State) : s.clearTable.nodeCnt = s.nodeCnt := rfl
@[simp] theorem State.clearTable_code (s : State) : s.clearTable.code = s.code := rfl
@[simp] theorem State.clearTable_c (s : State) : s.clearTable.c = s.c := rfl
@[simp] theorem State.clearTable_a (s : State) : s.clearTable.a = s.a := rfl
@[simp] theorem State.clearTable_wacc (s : State) : s.clearTable.wacc = s.wacc := rfl
@[simp] theorem State.clearTable_wk (s : State) : s.clearTable.wk = s.wk := rfl
@[simp] theorem State.clearTable_racc (s : State) : s.clearTable.racc = s.racc := rfl
@[simp] theorem State.clearTable_rk (s : State) : s.clearTable.rk = s.rk := rfl
@[simp] theorem State.clearTable_inFifo (s : State) : s.clearTable.inFifo = s.inFifo := rfl
@[simp] theorem State.clearTable_outFifo (s : State) : s.clearTable.outFifo = s.outFifo := rfl
@[simp] theorem State.clearTable_prog (s : State) : s.clearTable.prog = s.prog := rfl
@[simp] theorem State.clearTable_agenda (s : State) : s.clearTable.agenda = s.agenda := rfl
@[simp] theorem State.clearTable_busReads (s : State) : s.clearTable.busReads = s.busReads := rfl
@[simp] theorem State.clearTable_draws (s : State) : s.clearTable.draws = s.draws := rfl

/-! ## `State.loadEntry` -/

@[simp] theorem State.loadEntry_params (s : State) (x : Byte) (f : Word) : (s.loadEntry x f).params = s.params := rfl
@[simp] theorem State.loadEntry_ieDone (s : State) (x : Byte) (f : Word) : (s.loadEntry x f).ieDone = s.ieDone := rfl
@[simp] theorem State.loadEntry_ieErr (s : State) (x : Byte) (f : Word) : (s.loadEntry x f).ieErr = s.ieErr := rfl
@[simp] theorem State.loadEntry_busy (s : State) (x : Byte) (f : Word) : (s.loadEntry x f).busy = s.busy := rfl
@[simp] theorem State.loadEntry_done (s : State) (x : Byte) (f : Word) : (s.loadEntry x f).done = s.done := rfl
@[simp] theorem State.loadEntry_err (s : State) (x : Byte) (f : Word) : (s.loadEntry x f).err = s.err := rfl
@[simp] theorem State.loadEntry_cmdOvr (s : State) (x : Byte) (f : Word) : (s.loadEntry x f).cmdOvr = s.cmdOvr := rfl
@[simp] theorem State.loadEntry_inOvf (s : State) (x : Byte) (f : Word) : (s.loadEntry x f).inOvf = s.inOvf := rfl
@[simp] theorem State.loadEntry_treeValid (s : State) (x : Byte) (f : Word) : (s.loadEntry x f).treeValid = false := rfl
@[simp] theorem State.loadEntry_codesValid (s : State) (x : Byte) (f : Word) :
    (s.loadEntry x f).codesValid = false := rfl
@[simp] theorem State.loadEntry_waitIn (s : State) (x : Byte) (f : Word) : (s.loadEntry x f).waitIn = s.waitIn := rfl
@[simp] theorem State.loadEntry_waitOut (s : State) (x : Byte) (f : Word) : (s.loadEntry x f).waitOut = s.waitOut := rfl
@[simp] theorem State.loadEntry_errCode (s : State) (x : Byte) (f : Word) : (s.loadEntry x f).errCode = s.errCode := rfl
@[simp] theorem State.loadEntry_pad (s : State) (x : Byte) (f : Word) : (s.loadEntry x f).pad = s.pad := rfl
@[simp] theorem State.loadEntry_arg0 (s : State) (x : Byte) (f : Word) : (s.loadEntry x f).arg0 = s.arg0 := rfl
@[simp] theorem State.loadEntry_budget (s : State) (x : Byte) (f : Word) : (s.loadEntry x f).budget = s.budget := rfl
@[simp] theorem State.loadEntry_result0 (s : State) (x : Byte) (f : Word) : (s.loadEntry x f).result0 = s.result0 := rfl
@[simp] theorem State.loadEntry_result1 (s : State) (x : Byte) (f : Word) : (s.loadEntry x f).result1 = s.result1 := rfl
@[simp] theorem State.loadEntry_errInfo (s : State) (x : Byte) (f : Word) : (s.loadEntry x f).errInfo = s.errInfo := rfl
@[simp] theorem State.loadEntry_symCnt (s : State) (x : Byte) (f : Word) :
    (s.loadEntry x f).symCnt = s.symCnt + 1#9 := rfl
@[simp] theorem State.loadEntry_total (s : State) (x : Byte) (f : Word) : (s.loadEntry x f).total = s.total + f := rfl
@[simp] theorem State.loadEntry_freq (s : State) (x : Byte) (f : Word) :
    (s.loadEntry x f).freq = setFreq s.freq x f := rfl
@[simp] theorem State.loadEntry_node (s : State) (x : Byte) (f : Word) : (s.loadEntry x f).node = s.node := rfl
@[simp] theorem State.loadEntry_root (s : State) (x : Byte) (f : Word) : (s.loadEntry x f).root = s.root := rfl
@[simp] theorem State.loadEntry_nodeCnt (s : State) (x : Byte) (f : Word) : (s.loadEntry x f).nodeCnt = s.nodeCnt := rfl
@[simp] theorem State.loadEntry_code (s : State) (x : Byte) (f : Word) : (s.loadEntry x f).code = s.code := rfl
@[simp] theorem State.loadEntry_c (s : State) (x : Byte) (f : Word) : (s.loadEntry x f).c = s.c := rfl
@[simp] theorem State.loadEntry_a (s : State) (x : Byte) (f : Word) : (s.loadEntry x f).a = s.a := rfl
@[simp] theorem State.loadEntry_wacc (s : State) (x : Byte) (f : Word) : (s.loadEntry x f).wacc = s.wacc := rfl
@[simp] theorem State.loadEntry_wk (s : State) (x : Byte) (f : Word) : (s.loadEntry x f).wk = s.wk := rfl
@[simp] theorem State.loadEntry_racc (s : State) (x : Byte) (f : Word) : (s.loadEntry x f).racc = s.racc := rfl
@[simp] theorem State.loadEntry_rk (s : State) (x : Byte) (f : Word) : (s.loadEntry x f).rk = s.rk := rfl
@[simp] theorem State.loadEntry_inFifo (s : State) (x : Byte) (f : Word) : (s.loadEntry x f).inFifo = s.inFifo := rfl
@[simp] theorem State.loadEntry_outFifo (s : State) (x : Byte) (f : Word) : (s.loadEntry x f).outFifo = s.outFifo := rfl
@[simp] theorem State.loadEntry_prog (s : State) (x : Byte) (f : Word) : (s.loadEntry x f).prog = s.prog := rfl
@[simp] theorem State.loadEntry_agenda (s : State) (x : Byte) (f : Word) : (s.loadEntry x f).agenda = s.agenda := rfl
@[simp] theorem State.loadEntry_busReads (s : State) (x : Byte) (f : Word) :
    (s.loadEntry x f).busReads = s.busReads := rfl
@[simp] theorem State.loadEntry_draws (s : State) (x : Byte) (f : Word) : (s.loadEntry x f).draws = s.draws := rfl

/-! ## `State.appendBit` -/

@[simp] theorem State.appendBit_params (s : State) (b : Bool) : (s.appendBit b).params = s.params := rfl
@[simp] theorem State.appendBit_ieDone (s : State) (b : Bool) : (s.appendBit b).ieDone = s.ieDone := rfl
@[simp] theorem State.appendBit_ieErr (s : State) (b : Bool) : (s.appendBit b).ieErr = s.ieErr := rfl
@[simp] theorem State.appendBit_busy (s : State) (b : Bool) : (s.appendBit b).busy = s.busy := rfl
@[simp] theorem State.appendBit_done (s : State) (b : Bool) : (s.appendBit b).done = s.done := rfl
@[simp] theorem State.appendBit_err (s : State) (b : Bool) : (s.appendBit b).err = s.err := rfl
@[simp] theorem State.appendBit_cmdOvr (s : State) (b : Bool) : (s.appendBit b).cmdOvr = s.cmdOvr := rfl
@[simp] theorem State.appendBit_inOvf (s : State) (b : Bool) : (s.appendBit b).inOvf = s.inOvf := rfl
@[simp] theorem State.appendBit_treeValid (s : State) (b : Bool) : (s.appendBit b).treeValid = s.treeValid := rfl
@[simp] theorem State.appendBit_codesValid (s : State) (b : Bool) : (s.appendBit b).codesValid = s.codesValid := rfl
@[simp] theorem State.appendBit_waitIn (s : State) (b : Bool) : (s.appendBit b).waitIn = s.waitIn := rfl
@[simp] theorem State.appendBit_waitOut (s : State) (b : Bool) : (s.appendBit b).waitOut = s.waitOut := rfl
@[simp] theorem State.appendBit_errCode (s : State) (b : Bool) : (s.appendBit b).errCode = s.errCode := rfl
@[simp] theorem State.appendBit_pad (s : State) (b : Bool) : (s.appendBit b).pad = s.pad := rfl
@[simp] theorem State.appendBit_arg0 (s : State) (b : Bool) : (s.appendBit b).arg0 = s.arg0 := rfl
@[simp] theorem State.appendBit_budget (s : State) (b : Bool) : (s.appendBit b).budget = s.budget := rfl
@[simp] theorem State.appendBit_result0 (s : State) (b : Bool) : (s.appendBit b).result0 = s.result0 := rfl
@[simp] theorem State.appendBit_result1 (s : State) (b : Bool) : (s.appendBit b).result1 = s.result1 := rfl
@[simp] theorem State.appendBit_errInfo (s : State) (b : Bool) : (s.appendBit b).errInfo = s.errInfo := rfl
@[simp] theorem State.appendBit_symCnt (s : State) (b : Bool) : (s.appendBit b).symCnt = s.symCnt := rfl
@[simp] theorem State.appendBit_total (s : State) (b : Bool) : (s.appendBit b).total = s.total := rfl
@[simp] theorem State.appendBit_freq (s : State) (b : Bool) : (s.appendBit b).freq = s.freq := rfl
@[simp] theorem State.appendBit_node (s : State) (b : Bool) : (s.appendBit b).node = s.node := rfl
@[simp] theorem State.appendBit_root (s : State) (b : Bool) : (s.appendBit b).root = s.root := rfl
@[simp] theorem State.appendBit_nodeCnt (s : State) (b : Bool) : (s.appendBit b).nodeCnt = s.nodeCnt := rfl
@[simp] theorem State.appendBit_code (s : State) (b : Bool) : (s.appendBit b).code = s.code := rfl
@[simp] theorem State.appendBit_c (s : State) (b : Bool) : (s.appendBit b).c = s.c := rfl
@[simp] theorem State.appendBit_a (s : State) (b : Bool) : (s.appendBit b).a = s.a := rfl
@[simp] theorem State.appendBit_wacc (s : State) (b : Bool) :
    (s.appendBit b).wacc = if b = true then s.wacc ||| (0x80#8 >>> s.wk.toNat) else s.wacc &&& ~~~(0x80#8 >>> s.wk.toNat) := rfl
@[simp] theorem State.appendBit_wk (s : State) (b : Bool) : (s.appendBit b).wk = s.wk + 1#4 := rfl
@[simp] theorem State.appendBit_racc (s : State) (b : Bool) : (s.appendBit b).racc = s.racc := rfl
@[simp] theorem State.appendBit_rk (s : State) (b : Bool) : (s.appendBit b).rk = s.rk := rfl
@[simp] theorem State.appendBit_inFifo (s : State) (b : Bool) : (s.appendBit b).inFifo = s.inFifo := rfl
@[simp] theorem State.appendBit_outFifo (s : State) (b : Bool) : (s.appendBit b).outFifo = s.outFifo := rfl
@[simp] theorem State.appendBit_prog (s : State) (b : Bool) : (s.appendBit b).prog = s.prog := rfl
@[simp] theorem State.appendBit_agenda (s : State) (b : Bool) : (s.appendBit b).agenda = s.agenda := rfl
@[simp] theorem State.appendBit_busReads (s : State) (b : Bool) : (s.appendBit b).busReads = s.busReads := rfl
@[simp] theorem State.appendBit_draws (s : State) (b : Bool) : (s.appendBit b).draws = s.draws := rfl

/-! ## `State.spend` -/

@[simp] theorem State.spend_params (s : State) (n : Nat) : (s.spend n).params = s.params := rfl
@[simp] theorem State.spend_ieDone (s : State) (n : Nat) : (s.spend n).ieDone = s.ieDone := rfl
@[simp] theorem State.spend_ieErr (s : State) (n : Nat) : (s.spend n).ieErr = s.ieErr := rfl
@[simp] theorem State.spend_busy (s : State) (n : Nat) : (s.spend n).busy = s.busy := rfl
@[simp] theorem State.spend_done (s : State) (n : Nat) : (s.spend n).done = s.done := rfl
@[simp] theorem State.spend_err (s : State) (n : Nat) : (s.spend n).err = s.err := rfl
@[simp] theorem State.spend_cmdOvr (s : State) (n : Nat) : (s.spend n).cmdOvr = s.cmdOvr := rfl
@[simp] theorem State.spend_inOvf (s : State) (n : Nat) : (s.spend n).inOvf = s.inOvf := rfl
@[simp] theorem State.spend_treeValid (s : State) (n : Nat) : (s.spend n).treeValid = s.treeValid := rfl
@[simp] theorem State.spend_codesValid (s : State) (n : Nat) : (s.spend n).codesValid = s.codesValid := rfl
@[simp] theorem State.spend_waitIn (s : State) (n : Nat) : (s.spend n).waitIn = s.waitIn := rfl
@[simp] theorem State.spend_waitOut (s : State) (n : Nat) : (s.spend n).waitOut = s.waitOut := rfl
@[simp] theorem State.spend_errCode (s : State) (n : Nat) : (s.spend n).errCode = s.errCode := rfl
@[simp] theorem State.spend_pad (s : State) (n : Nat) : (s.spend n).pad = s.pad := rfl
@[simp] theorem State.spend_arg0 (s : State) (n : Nat) : (s.spend n).arg0 = s.arg0 := rfl
@[simp] theorem State.spend_budget (s : State) (n : Nat) : (s.spend n).budget = BitVec.ofNat 64 n := rfl
@[simp] theorem State.spend_result0 (s : State) (n : Nat) : (s.spend n).result0 = s.result0 := rfl
@[simp] theorem State.spend_result1 (s : State) (n : Nat) : (s.spend n).result1 = s.result1 := rfl
@[simp] theorem State.spend_errInfo (s : State) (n : Nat) : (s.spend n).errInfo = s.errInfo := rfl
@[simp] theorem State.spend_symCnt (s : State) (n : Nat) : (s.spend n).symCnt = s.symCnt := rfl
@[simp] theorem State.spend_total (s : State) (n : Nat) : (s.spend n).total = s.total := rfl
@[simp] theorem State.spend_freq (s : State) (n : Nat) : (s.spend n).freq = s.freq := rfl
@[simp] theorem State.spend_node (s : State) (n : Nat) : (s.spend n).node = s.node := rfl
@[simp] theorem State.spend_root (s : State) (n : Nat) : (s.spend n).root = s.root := rfl
@[simp] theorem State.spend_nodeCnt (s : State) (n : Nat) : (s.spend n).nodeCnt = s.nodeCnt := rfl
@[simp] theorem State.spend_code (s : State) (n : Nat) : (s.spend n).code = s.code := rfl
@[simp] theorem State.spend_c (s : State) (n : Nat) : (s.spend n).c = s.c := rfl
@[simp] theorem State.spend_a (s : State) (n : Nat) : (s.spend n).a = s.a := rfl
@[simp] theorem State.spend_wacc (s : State) (n : Nat) : (s.spend n).wacc = s.wacc := rfl
@[simp] theorem State.spend_wk (s : State) (n : Nat) : (s.spend n).wk = s.wk := rfl
@[simp] theorem State.spend_racc (s : State) (n : Nat) : (s.spend n).racc = s.racc := rfl
@[simp] theorem State.spend_rk (s : State) (n : Nat) : (s.spend n).rk = s.rk := rfl
@[simp] theorem State.spend_inFifo (s : State) (n : Nat) : (s.spend n).inFifo = s.inFifo := rfl
@[simp] theorem State.spend_outFifo (s : State) (n : Nat) : (s.spend n).outFifo = s.outFifo := rfl
@[simp] theorem State.spend_prog (s : State) (n : Nat) : (s.spend n).prog = s.prog := rfl
@[simp] theorem State.spend_agenda (s : State) (n : Nat) : (s.spend n).agenda = s.agenda := rfl
@[simp] theorem State.spend_busReads (s : State) (n : Nat) : (s.spend n).busReads = s.busReads := rfl
@[simp] theorem State.spend_draws (s : State) (n : Nat) : (s.spend n).draws = s.draws := rfl

end Sys2Proof.Machine
end

