-- ==== Sys2Proof/Laws/Tables.lean ====
section
/-! SUPPORT. The loops that do not read NODE or CODE go the same way whatever those hold (spec/10_state.md R41, R43). -/

namespace Sys2Proof.Machine

/-- s with other contents of NODE and CODE. -/
def State.withTables (s : State) (n : Vector Node 511) (c : Vector Code 256) : State := { s with node := n, code := c }

/-- The result with its state changed by f. -/
def WriteRes.map (f : State → State) : WriteRes → WriteRes
  | .done t => .done (f t)
  | .held todo t => .held todo (f t)

/-- The result with its state changed by f. -/
def ReadRes.map (f : State → State) : ReadRes → ReadRes
  | .held r k t => .held r k (f t)
  | .eos r k t => .eos r k (f t)
  | .got r t => .got r (f t)

/-- The result with its state changed by f. -/
def BytesRes.map (f : State → State) : BytesRes → BytesRes
  | .held h t => .held h (f t)
  | .eos u t => .eos u (f t)
  | .got h t => .got h (f t)

theorem flushFull_withTables (s : State) (n c) : (s.withTables n c).flushFull = s.flushFull.map (·.withTables n c) := by
  rcases flushFull_cases s with ⟨h, e⟩ | ⟨h, hf, e⟩ | ⟨h, hf, e⟩ <;>
    rcases flushFull_cases (s.withTables n c) with ⟨h', e'⟩ | ⟨h', hf', e'⟩ | ⟨h', hf', e'⟩ <;>
    first | exact absurd h h' | exact absurd h' h | (rw [e, e']; rfl) | (exact absurd (hf.symm.trans hf') (by decide)) 

theorem writeBits_withTables (bs : List Bool) (s : State) (n c) :
    writeBits bs (s.withTables n c) = (writeBits bs s).map (·.withTables n c) := by
  induction bs generalizing s with
  | nil => simp only [writeBits, flushFull_withTables]; cases s.flushFull <;> rfl
  | cons b bs ih =>
    simp only [writeBits, flushFull_withTables]
    cases s.flushFull with
    | none => rfl
    | some t => exact ih (t.appendBit b)

theorem readBits_withTables (l r k : Nat) (s : State) (n c) :
    readBits l r k (s.withTables n c) = (readBits l r k s).map (·.withTables n c) := by
  induction l generalizing r k s with
  | zero => rfl
  | succ l ih =>
    have hb : (s.withTables n c).readBit = match s.readBit with | .empty => .empty | .eos => .eos | .bit b t => .bit b (t.withTables n c) := by
      by_cases h0 : s.rk = 0#4
      · rw [State.readBit, State.readBit, if_pos h0, if_pos (show (s.withTables n c).rk = 0#4 from h0),
          show (s.withTables n c).inFifo = s.inFifo from rfl]
        cases s.inFifo with
        | nil => rfl
        | cons t ts => cases t <;> rfl
      · rw [State.readBit, State.readBit, if_neg h0, if_neg (show ¬ (s.withTables n c).rk = 0#4 from h0)]
        rfl
    rw [readBits, readBits, hb]
    cases s.readBit with
    | empty => rfl
    | eos => rfl
    | bit b t => exact ih _ _ t

theorem readBytes_withTables (m : Nat) (h : HdrPoint) (s : State) (n c) :
    readBytes m h (s.withTables n c) = (readBytes m h s).map (·.withTables n c) := by
  induction m generalizing h s with
  | zero => rfl
  | succ m ih =>
    rw [readBytes, readBytes, readBits_withTables]
    cases readBits (8 - h.k) h.r h.k s with
    | held => rfl
    | eos => rfl
    | got r t => exact ih _ t

theorem readEntries_withTables (m : Nat) (h : HdrPoint) (s : State) (n c) :
    readEntries m h (s.withTables n c) = (readEntries m h s).withTables n c := by
  induction m generalizing h s with
  | zero => rfl
  | succ m ih =>
    rw [readEntries, readEntries, readBytes_withTables]
    cases readBytes (9 - h.got.length) h s with
    | held => rfl
    | eos => rfl
    | got h' t =>
      simp only [BytesRes.map]
      rw [show (t.withTables n c).badEntry h' = t.badEntry h' from rfl]
      split
      · rfl
      · exact ih _ (t.loadEntry _ _)

theorem readHeader_withTables (h : HdrPoint) (s : State) (n c) :
    readHeader h (s.withTables n c) = (readHeader h s).withTables n c := by
  rw [readHeader, readHeader, readBytes_withTables]
  cases readBytes (4 - h.got.length) h s with
  | held => rfl
  | eos => rfl
  | got h' t =>
    simp only [BytesRes.map]
    split
    · rfl
    · split
      · rfl
      · exact readEntries_withTables _ _ t n c

theorem countLoop_withTables (ts : List Token) (k : Nat) (s : State) (n c) :
    countLoop ts k (s.withTables n c) = (countLoop ts k s).withTables n c := by
  induction ts generalizing k s with
  | nil => rfl
  | cons t ts ih =>
    cases t with
    | fin => simp only [countLoop]; split <;> rfl
    | byte b =>
      simp only [countLoop, show (s.withTables n c).totalFull = s.totalFull from rfl]
      split
      · rfl
      · exact ih _ (s.accumulate b)

theorem drainLoop_withTables (ts : List Token) (k : Nat) (s : State) (n c) :
    drainLoop ts k (s.withTables n c) = (drainLoop ts k s).withTables n c := by
  induction ts generalizing k s with
  | nil => rfl
  | cons t ts ih => cases t with
    | fin => rfl
    | byte b => exact ih _ s

/-- The reader of header bytes leaves both valid bits alone. -/
theorem readBytes_valid (m : Nat) (h : HdrPoint) (s : State) :
    (readBytes m h s).state.treeValid = s.treeValid ∧ (readBytes m h s).state.codesValid = s.codesValid := by
  rw [readBytes_frame]
  exact ⟨rfl, rfl⟩

/-- HDR_READ leaves invalid what it finds invalid (41_frequency R150). -/
theorem readEntries_invalid (m : Nat) (h : HdrPoint) (s : State) (ht : s.treeValid = false) (hc : s.codesValid = false) :
    (readEntries m h s).treeValid = false ∧ (readEntries m h s).codesValid = false := by
  induction m generalizing h s with
  | zero => exact ⟨ht, hc⟩
  | succ m ih =>
    have hf := readBytes_valid (9 - h.got.length) h s
    rw [readEntries]
    cases e : readBytes (9 - h.got.length) h s with
    | held h' t => rw [e, ht, hc] at hf; exact hf
    | eos used t => exact ⟨rfl, rfl⟩
    | got h' t =>
      dsimp only
      split
      · exact ⟨rfl, rfl⟩
      · exact ih _ _ rfl rfl

theorem readHeader_invalid (h : HdrPoint) (s : State) (ht : s.treeValid = false) (hc : s.codesValid = false) :
    (readHeader h s).treeValid = false ∧ (readHeader h s).codesValid = false := by
  have hf := readBytes_valid (4 - h.got.length) h s
  rw [readHeader]
  cases e : readBytes (4 - h.got.length) h s with
  | held h' t => rw [e, ht, hc] at hf; exact hf
  | eos used t => exact ⟨rfl, rfl⟩
  | got h' t =>
    rw [e, ht, hc] at hf
    dsimp only
    split
    · exact ⟨rfl, rfl⟩
    · split
      · exact ⟨rfl, rfl⟩
      · exact readEntries_invalid _ _ t hf.1 hf.2

end Sys2Proof.Machine
end

