-- ==== Sys2Proof/Laws/Words.lean ====
section
/-! SUPPORT. Words made of fields, as numbers: a field at bit i counts 2^i, and fields apart from each other add. -/

namespace Sys2Proof.Machine

theorem fieldBits_getLsbD {n : Nat} (v : BitVec n) (i j : Nat) :
    (fieldBits v i).getLsbD j = (decide (i ≤ j) && decide (j < 64) && v.getLsbD (j - i)) := by
  by_cases h : j < i
  · simp [fieldBits, h]
  · by_cases h2 : j < 64
    · simp [fieldBits, h, h2, show i ≤ j by omega]
    · simp [fieldBits, h2]

theorem flagBit_getLsbD (b : Bool) (i j : Nat) :
    (flagBit b i).getLsbD j = (b && decide (j = i) && decide (j < 64)) := by
  cases b
  · simp [flagBit]
  · simp only [flagBit, if_true, BitVec.getLsbD_shiftLeft, BitVec.getLsbD_one]
    by_cases h1 : j = i <;> by_cases h2 : j < 64 <;> (simp [h1, h2]; try omega)

@[simp] theorem fieldBits_getElem {n : Nat} (v : BitVec n) (i j : Nat) (h : j < 64) :
    (fieldBits v i)[j] = (decide (i ≤ j) && v.getLsbD (j - i)) := by
  rw [← BitVec.getLsbD_eq_getElem, fieldBits_getLsbD]
  simp [h]

@[simp] theorem flagBit_getElem (b : Bool) (i j : Nat) (h : j < 64) : (flagBit b i)[j] = (b && decide (j = i)) := by
  rw [← BitVec.getLsbD_eq_getElem, flagBit_getLsbD]
  simp [h]

theorem fieldBits_toNat {n : Nat} (v : BitVec n) (i : Nat) (h : n + i ≤ 64) : (fieldBits v i).toNat = 2 ^ i * v.toNat := by
  have h1 : v.toNat < 2 ^ n := v.isLt
  have h2 : 2 ^ i * v.toNat < 2 ^ 64 :=
    calc 2 ^ i * v.toNat < 2 ^ i * 2 ^ n := Nat.mul_lt_mul_of_pos_left h1 (Nat.two_pow_pos i)
      _ = 2 ^ (i + n) := (Nat.pow_add 2 i n).symm
      _ ≤ 2 ^ 64 := Nat.pow_le_pow_right (by decide) (by omega)
  have h3 : v.toNat < 2 ^ 64 := Nat.lt_of_lt_of_le h1 (Nat.pow_le_pow_right (by decide) (by omega))
  rw [fieldBits, BitVec.toNat_shiftLeft, BitVec.toNat_setWidth, Nat.mod_eq_of_lt h3, Nat.shiftLeft_eq, Nat.mul_comm,
    Nat.mod_eq_of_lt h2]

theorem flagBit_toNat (b : Bool) (i : Nat) (h : i < 64) : (flagBit b i).toNat = 2 ^ i * b.toNat := by
  cases b
  · simp [flagBit]
  · have := fieldBits_toNat (n := 1) 1#1 i (by omega)
    simpa [flagBit, fieldBits] using this

/-- Two parts of a word that are apart add. -/
theorem or_toNat (x y : Word) (k a : Nat) (hx : x.toNat < 2 ^ k) (hy : y.toNat = 2 ^ k * a) :
    (x ||| y).toNat = x.toNat + y.toNat := by
  rw [BitVec.toNat_or, hy, Nat.or_comm, ← Nat.two_pow_add_eq_or_of_lt hx, Nat.add_comm]

/-- RESULT1 of TREE_NODE (42_tree R178) as a number. -/
theorem nodeWord_toNat (n : Node) (isRoot : Bool) : (nodeWord n isRoot).toNat =
    n.kind.isInternal.toNat + 2 * isRoot.toNat + 2 ^ 8 * n.sym.toNat + 2 ^ 16 * n.left.toNat + 2 ^ 32 * n.right.toNat := by
  have h0 := flagBit_toNat n.kind.isInternal 0 (by decide)
  have h1 := flagBit_toNat isRoot 1 (by decide)
  have h2 := fieldBits_toNat n.sym 8 (by decide)
  have h3 := fieldBits_toNat n.left 16 (by decide)
  have h4 := fieldBits_toNat n.right 32 (by decide)
  have b0 := n.kind.isInternal.toNat_lt
  have b1 := isRoot.toNat_lt
  have b2 := n.sym.isLt
  have b3 := n.left.isLt
  have e1 := or_toNat (flagBit n.kind.isInternal 0) (flagBit isRoot 1) 1 _ (by omega) h1
  have e2 := or_toNat (flagBit n.kind.isInternal 0 ||| flagBit isRoot 1) (fieldBits n.sym 8) 8 _ (by omega) h2
  have e3 := or_toNat (flagBit n.kind.isInternal 0 ||| flagBit isRoot 1 ||| fieldBits n.sym 8) (fieldBits n.left 16) 16 _
    (by omega) h3
  have e4 := or_toNat (flagBit n.kind.isInternal 0 ||| flagBit isRoot 1 ||| fieldBits n.sym 8 ||| fieldBits n.left 16)
    (fieldBits n.right 32) 32 _ (by omega) h4
  rw [nodeWord]
  omega

/-- A number below 2^64 at bit i, where it fits. -/
theorem ofNat_shiftLeft_toNat (n i : Nat) (h : 2 ^ i * n < 2 ^ 64) : (BitVec.ofNat 64 n <<< i).toNat = 2 ^ i * n := by
  have hn : n < 2 ^ 64 := Nat.lt_of_le_of_lt (Nat.le_mul_of_pos_left n (Nat.two_pow_pos i)) h
  rw [BitVec.toNat_shiftLeft, BitVec.toNat_ofNat, Nat.mod_eq_of_lt hn, Nat.shiftLeft_eq, Nat.mul_comm, Nat.mod_eq_of_lt h]

/-- FIFO_STAT (10_state R51) as a number, where the FIFOs are within 16 bits. -/
theorem fifoStat_toNat (s : State) (hi : s.inFifo.length < 2 ^ 16) (ho : s.outFifo.length < 2 ^ 16) :
    s.fifoStat.toNat = s.inFifo.length + 2 ^ 16 * s.outFifo.length := by
  have h1 := ofNat_shiftLeft_toNat s.outFifo.length 16 (by omega)
  have h0 : (BitVec.ofNat 64 s.inFifo.length).toNat = s.inFifo.length := by
    rw [BitVec.toNat_ofNat]; exact Nat.mod_eq_of_lt (by omega)
  have := or_toNat (BitVec.ofNat 64 s.inFifo.length) (BitVec.ofNat 64 s.outFifo.length <<< 16) 16 _ (by omega) h1
  rw [State.fifoStat]
  omega

/-- CFG (10_state R52) as a number. -/
theorem cfgWord_toNat (p : Params) : p.cfgWord.toNat = p.inDepth + 2 ^ 16 * p.outDepth + 2 ^ 32 * 64 := by
  have b1 := p.inDepthLess1.isLt
  have b2 := p.outDepthLess1.isLt
  have d1 : p.inDepth = p.inDepthLess1.val + 1 := rfl
  have d2 : p.outDepth = p.outDepthLess1.val + 1 := rfl
  have h1 := ofNat_shiftLeft_toNat p.outDepth 16 (by omega)
  have h0 : (BitVec.ofNat 64 p.inDepth).toNat = p.inDepth := by
    rw [BitVec.toNat_ofNat]; exact Nat.mod_eq_of_lt (by omega)
  have h2 := ofNat_shiftLeft_toNat 64 32 (by decide)
  have e1 := or_toNat (BitVec.ofNat 64 p.inDepth) (BitVec.ofNat 64 p.outDepth <<< 16) 16 _ (by omega) h1
  have e2 := or_toNat (BitVec.ofNat 64 p.inDepth ||| BitVec.ofNat 64 p.outDepth <<< 16) (BitVec.ofNat 64 64 <<< 32) 32 _
    (by omega) h2
  rw [Params.cfgWord]
  omega

/-! ## STATUS as it is read (70_reset R296) -/

theorem statusLooseBits_getElem (i : Nat) (h : i < 64) : statusLooseBits[i] =
    (decide (i = 5) || decide (i = 6) || (decide (24 ≤ i) && decide (i ≤ 34))) := by
  have : ∀ i : Fin 64, statusLooseBits.getLsbD i.val =
      (decide (i.val = 5) || decide (i.val = 6) || (decide (24 ≤ i.val) && decide (i.val ≤ 34))) := by decide +kernel
  rw [← BitVec.getLsbD_eq_getElem]
  exact this ⟨i, h⟩

/-- Each bit of a STATUS read is the draw's, where BUSY = 1 and the bit is a loose one, or the register's. -/
theorem statusRead_getElem (s : State) (draw : Word) (i : Nat) (h : i < 64) :
    (s.statusRead draw)[i] = if s.busy && statusLooseBits[i] then draw[i] else s.statusWord[i] := by
  unfold State.statusRead
  cases s.busy
  · simp
  · cases hl : statusLooseBits[i] <;> simp [hl]

end Sys2Proof.Machine
end

