-- ==== Sys2Proof/Tests/Slice0.lean ====
section
/-! SUPPORT. Tests. The expected values are those of spec/95_test_vectors.md (the vector is named at each test) or of
the spec's encodings; the witness theorems show states and operands that meet the hypotheses of the statements. -/

namespace Sys2Proof.Tests

open Sys2Proof Sys2Proof.Machine

/- One theorem after the other: each evaluation by the kernel would hold a thread of its own. -/
set_option Elab.async false

/-! ## States -/

/-- The state after reset of an instance with BASE = 0x100 and these depths. -/
def instanceOf (inDepth outDepth : Fin 65535) : State :=
  { State.reset with params := { basePage := 1, inDepthLess1 := inDepth, outDepthLess1 := outDepth } }

/-- Depths of 128, as the vectors ask for. -/
def idle : State := instanceOf 127 127

/-- A command at its start. -/
def begun : State := { idle with busy := true, prog := .start }

def withTable (es : List (Byte × Word)) (s : State) : State :=
  { s with
    freq := es.foldl (fun t e => setFreq t e.1 e.2) (Vector.replicate 256 0#64)
    symCnt := BitVec.ofNat 9 es.length, total := BitVec.ofNat 64 (es.map fun e => e.2.toNat).sum }

/-- The state a step answers; `idle` where it answers none. -/
def after : Host.Outcome State Fault Refusal → State
  | .next t => t
  | .fault _ => idle
  | .refused _ => idle

/-- A state that starts the next command from what the one before left. -/
def again (o : Host.Outcome State Fault Refusal) : State := { after o with busy := true, done := false, prog := .start }

/-- The table of the vector T3. -/
def tableABC : State := withTable [(0x61#8, 1#64), (0x62#8, 1#64), (0x63#8, 2#64)] begun
@[irreducible] def treeABC : State := again (exec .treeBuild tableABC)
@[irreducible] def codesABC : State := again (exec .codeGen treeABC)

/-- The table of "hello world" (W1). -/
@[irreducible] def tableHello : State :=
  withTable [(0x20#8, 1#64), (0x64#8, 1#64), (0x65#8, 1#64), (0x68#8, 1#64), (0x6C#8, 3#64), (0x6F#8, 2#64),
    (0x72#8, 1#64), (0x77#8, 1#64)] begun
@[irreducible] def treeHello : State := again (exec .treeBuild tableHello)
@[irreducible] def codesHello : State := again (exec .codeGen treeHello)

/-- The table of the vector T2. -/
def tableA : State := withTable [(0x61#8, 3#64)] begun
@[irreducible] def treeA : State := again (exec .treeBuild tableA)

def hello : List Byte := [0x68#8, 0x65#8, 0x6C#8, 0x6C#8, 0x6F#8, 0x20#8, 0x77#8, 0x6F#8, 0x72#8, 0x6C#8, 0x64#8]

/-! ## Well-formedness -/

theorem test_illformed_wrBits : (Instr.wrBits 65#8).wf = false := by decide
theorem test_illformed_rdBits : (Instr.rdBits 65#8).wf = false := by decide
theorem test_illformed_codeLookup : (Instr.codeLookup 0xFF#8 4#8).wf = false := by decide

/-! ## Decoding: every command's word, from the fields of 30_encoding R111 and the opcodes of R114 -/

theorem test_decode_nop : decode 0x0000000000000000#64 = .ok .nop := by decide
theorem test_decode_freqClear : decode 0x0000000000000001#64 = .ok .freqClear := by decide
theorem test_decode_freqAccum : decode 0x0000000000006802#64 = .ok (.freqAccum 0x68#8) := by decide
theorem test_decode_freqAccumStream : decode 0x0000000000000003#64 = .ok .freqAccumStream := by decide
theorem test_decode_freqLoad : decode 0x0000000000006104#64 = .ok (.freqLoad 0x61#8) := by decide
theorem test_decode_freqRead : decode 0x000000000000FF05#64 = .ok (.freqRead 0xFF#8) := by decide
theorem test_decode_wrBits : decode 0x0000000000080010#64 = .ok (.wrBits 8#8) := by decide
theorem test_decode_wrFlush : decode 0x0000000000000011#64 = .ok .wrFlush := by decide
theorem test_decode_rdBits : decode 0x0000000000400012#64 = .ok (.rdBits 64#8) := by decide
theorem test_decode_rdAlign : decode 0x0000000000000013#64 = .ok .rdAlign := by decide
theorem test_decode_rdDrain : decode 0x0000000000000014#64 = .ok .rdDrain := by decide
theorem test_decode_treeBuild : decode 0x0000000000000020#64 = .ok .treeBuild := by decide
theorem test_decode_treeNode : decode 0x0000000000000021#64 = .ok .treeNode := by decide
theorem test_decode_codeGen : decode 0x0000000000000030#64 = .ok .codeGen := by decide
theorem test_decode_codeLookup : decode 0x0000000000032031#64 = .ok (.codeLookup 0x20#8 3#8) := by decide
theorem test_decode_hdrWrite : decode 0x0000000000000040#64 = .ok .hdrWrite := by decide
theorem test_decode_encSym : decode 0x0000000000007A41#64 = .ok (.encSym 0x7A#8) := by decide
theorem test_decode_encStream : decode 0x0000000000000042#64 = .ok .encStream := by decide
theorem test_decode_hdrRead : decode 0x0000000000000043#64 = .ok .hdrRead := by decide
theorem test_decode_decSym : decode 0x0000000000000044#64 = .ok .decSym := by decide
theorem test_decode_decStream : decode 0x0000000000000045#64 = .ok .decStream := by decide

/-- I2..I7: the illegal words, one for each check. -/
theorem test_illegal_words :
    decode 0x0000000000000006#64 = .error .unknownOpcode ∧ decode 0x0000000100000000#64 = .error .reservedNonzero ∧
      decode 0x0000000000000100#64 = .error .symNonzero ∧ decode 0x0000000000016102#64 = .error .cntNonzero ∧
      decode 0x0000000000410010#64 = .error .cntRange ∧ decode 0x0000000000046131#64 = .error .cntRange := by decide

/-- I13. -/
theorem test_encode : encode (.freqAccum 0x68#8) = 0x6802#64 ∧ encode (.wrBits 8#8) = 0x080010#64 ∧
    encode (.codeLookup 0x20#8 3#8) = 0x032031#64 ∧ encode .treeBuild = 0x20#64 := by decide

/-! ## Commands -/

/-- I1: NOP, run by a step; STATUS = 0x02. -/
theorem test_nop : (after (step (idle.withFetchWord 64 0))).statusWord = 0x02#64 := by decide +kernel

/-- I2: an illegal word, run by a step. -/
theorem test_illegal : (fun t : State => (t.statusWord, t.errInfo)) (after (step (idle.withFetchWord 64 6))) =
    (0x0000000000010006#64, 0x06#64) := by decide +kernel

/-- F4. -/
theorem test_freqClear : (fun t : State => (t.freqAt 0x6C#8, t.symCnt, t.total)) (after (exec .freqClear tableHello)) =
    (0#64, 0#9, 0#64) := by decide +kernel

/-- F7, its first byte: a new symbol. -/
theorem test_freqAccum : (fun t : State => (t.freqAt 0x61#8, t.symCnt, t.total, t.result0))
    (after (exec (.freqAccum 0x61#8) tableHello)) = (1#64, 9#9, 12#64, 1#64) := by decide +kernel

/-- F11. -/
theorem test_freqAccum_overflow : (fun t : State => (t.errCode, t.errInfo, t.symCnt))
    (after (exec (.freqAccum 0x62#8) (withTable [(0x61#8, 0xFFFFFFFFFFFFFFFF#64)] begun))) =
    (0x06#8, 0x62#64, 1#9) := by decide +kernel

/-- F5. -/
theorem test_freqAccumStream : (fun t : State => (present t.freq, t.symCnt, t.total, t.result0, t.inFifo))
    (after (exec .freqAccumStream { begun with inFifo := byteTokens hello ++ [.fin] })) =
    ([(0x20#8, 1#64), (0x64#8, 1#64), (0x65#8, 1#64), (0x68#8, 1#64), (0x6C#8, 3#64), (0x6F#8, 2#64), (0x72#8, 1#64),
      (0x77#8, 1#64)], 8#9, 11#64, 11#64, []) := by decide +kernel

/-- F14. -/
theorem test_freqAccumStream_overflow : (fun t : State => (t.errCode, t.errInfo, t.result0, t.inFifo))
    (after (exec .freqAccumStream { withTable [(0x61#8, 0xFFFFFFFFFFFFFFFE#64)] begun with
      inFifo := [.byte 0x61#8, .byte 0x62#8, .fin] })) = (0x06#8, 0x62#64, 1#64, [.fin]) := by decide +kernel

/-- F13. -/
theorem test_freqLoad : (fun t : State => (t.total, t.symCnt, t.result0, t.err)) (after (exec (.freqLoad 0x61#8)
    { withTable [(0x61#8, 0xFFFFFFFFFFFFFFFF#64)] begun with a := 5#64 })) =
    (5#64, 1#9, 0xFFFFFFFFFFFFFFFF#64, false) := by decide +kernel

/-- F12. -/
theorem test_freqLoad_overflow : (fun t : State => (t.errCode, t.errInfo, t.symCnt)) (after (exec (.freqLoad 0x62#8)
    { withTable [(0x61#8, 0xFFFFFFFFFFFFFFFF#64)] begun with a := 1#64 })) = (0x06#8, 0x62#64, 1#9) := by decide +kernel

/-- The table of W1. -/
theorem test_freqRead : (after (exec (.freqRead 0x6C#8) tableHello)).result0 = 3#64 := by decide +kernel

/-- B4. -/
theorem test_wrBits : (fun t : State => (t.outFifo, t.wacc, t.wk, t.done))
    (after (exec (.wrBits 8#8) { begun with a := 0xFF#64, wacc := 0xA0#8, wk := 3#4 })) =
    ([0xBF#8], 0xE0#8, 3#4, true) := by decide +kernel

/-- B7: the hold on a full OUT FIFO. -/
theorem test_wrBits_holds : (fun t : State => (t.outFifo, t.waitOut, t.done)) (after (exec (.wrBits 16#8)
    { instanceOf 0 0 with busy := true, prog := .start, a := 0xABCD#64 })) = ([0xAB#8], true, false) := by decide +kernel

/-- B2. -/
theorem test_wrFlush : (fun t : State => (t.outFifo, t.pad, t.result0, t.result1, t.wk))
    (after (exec .wrFlush { begun with wacc := 0xA0#8, wk := 3#4 })) =
    ([0xA0#8], 5#3, 5#64, 1#64, 0#4) := by decide +kernel

/-- B8. -/
theorem test_rdBits : (fun t : State => (t.result0, t.result1, t.rk, t.inFifo))
    (after (exec (.rdBits 5#8) { begun with inFifo := [.byte 0xB7#8] })) = (22#64, 5#64, 3#4, []) := by decide +kernel

/-- B11. -/
theorem test_rdBits_truncated : (fun t : State => (t.errCode, t.errInfo, t.result0, t.result1, t.rk, t.inFifo))
    (after (exec (.rdBits 12#8) { begun with inFifo := [.byte 0xB7#8, .fin] })) =
    (0x0A#8, 8#64, 0xB7#64, 8#64, 0#4, [.fin]) := by decide +kernel

/-- B14. -/
theorem test_rdAlign : (fun t : State => (t.result0, t.rk)) (after (exec .rdAlign { begun with rk := 3#4 })) =
    (3#64, 0#4) := by decide +kernel

/-- B15. -/
theorem test_rdDrain : (fun t : State => (t.result0, t.result1, t.rk, t.inFifo))
    (after (exec .rdDrain { begun with rk := 5#4, inFifo := [.byte 0#8, .fin] })) =
    (1#64, 5#64, 0#4, []) := by decide +kernel

/-- T3. -/
theorem test_treeBuild : (fun t : State => (t.nodeAt 3#9, t.nodeAt 4#9, t.root, t.nodeCnt, t.treeValid))
    (after (exec .treeBuild tableABC)) =
    ({ kind := .internal, sym := 0#8, f := 2#64, left := 0#9, right := 1#9 },
      { kind := .internal, sym := 0#8, f := 4#64, left := 2#9, right := 3#9 }, 4#9, 5#10, true) := by decide +kernel

/-- W1: merge 4, where a leaf and an internal node have one frequency, and the root. -/
theorem test_treeBuild_tie : (fun t : State => (t.nodeAt 11#9, t.nodeAt 14#9, t.result0, t.result1))
    (after (exec .treeBuild tableHello)) =
    ({ kind := .internal, sym := 0#8, f := 4#64, left := 5#9, right := 8#9 },
      { kind := .internal, sym := 0#8, f := 11#64, left := 12#9, right := 13#9 }, 14#64, 15#64) := by decide +kernel

/-- T3. -/
theorem test_treeNode : (fun t : State => (t.result0, t.result1)) (after (exec .treeNode { treeABC with a := 4#64 })) =
    (4#64, 0x0000000300020003#64) := by decide +kernel

/-- T10. -/
theorem test_treeNode_badIndex : (fun t : State => (t.errCode, t.errInfo))
    (after (exec .treeNode { treeHello with a := 0x100000000#64 })) = (0x0D#8, 0x100000000#64) := by decide +kernel

/-- C1. -/
theorem test_codeGen : (fun t : State => ([0x61#8, 0x62#8, 0x63#8].map fun x => (t.codeAt x).path, t.result0, t.result1))
    (after (exec .codeGen treeABC)) =
    ([[true, false], [true, true], [false]], 2#64, 3#64) := by decide +kernel

/-- W1: the code table. -/
theorem test_codeGen_hello : (fun t : State => [0x65#8, 0x68#8, 0x72#8, 0x77#8, 0x6C#8, 0x6F#8, 0x20#8, 0x64#8].map
    fun x => (t.codeAt x).bits.toNat + 16 * (t.codeAt x).len.toNat) (after (exec .codeGen treeHello)) =
    [0x30, 0x31, 0x32, 0x33, 0x22, 0x36, 0x4E, 0x4F] := by decide +kernel

/-- W1. -/
theorem test_codeLookup : (fun t : State => (t.result0, t.result1))
    (after (exec (.codeLookup 0x64#8 0#8) codesHello)) = (0xF#64, 4#64) := by decide +kernel

/-- C12, word 1 of the code of 65 ones. -/
theorem test_codeLookup_word1 : (fun t : State => (t.result0, t.result1)) (after (exec (.codeLookup 1#8 1#8)
    { begun with codesValid := true, code := Vector.replicate 256 (Code.ofPath (List.replicate 65 true)) })) =
    (0x1#64, 65#64) := by decide +kernel

/-- X1. -/
theorem test_hdrWrite : (fun t : State => (t.outFifo, t.result0)) (after (exec .hdrWrite tableA)) =
    ([0x01#8, 0#8, 0#8, 0#8, 0x61#8, 0x03#8, 0#8, 0#8, 0#8, 0#8, 0#8, 0#8, 0#8], 13#64) := by decide +kernel

/-- X3. -/
theorem test_encSym : (fun t : State => (t.wacc, t.wk, t.result0)) (after (exec (.encSym 0x68#8) codesHello)) =
    (0x20#8, 3#4, 3#64) := by decide +kernel

/-- X9. -/
theorem test_encStream : (fun t : State => (t.outFifo, t.result0, t.wk))
    (after (exec .encStream { codesHello with inFifo := byteTokens hello ++ [.fin] })) =
    ([0x22#8, 0xB7#8, 0x3C#8, 0xAF#8], 11#64, 0#4) := by decide +kernel

/-- X7. -/
theorem test_encStream_absent : (fun t : State => (t.wacc, t.wk, t.errCode, t.errInfo, t.result0, t.inFifo))
    (after (exec .encStream { codesHello with inFifo := byteTokens [0x68#8, 0x65#8, 0x78#8] ++ [.fin] })) =
    (0x20#8, 6#4, 0x09#8, 0x78#64, 2#64, [.fin]) := by decide +kernel

/-- X10. -/
theorem test_hdrRead : (fun t : State => (present t.freq, t.result0, t.result1, t.inFifo)) (after (exec .hdrRead { begun with
    inFifo := byteTokens [0x01#8, 0#8, 0#8, 0#8, 0x61#8, 0x03#8, 0#8, 0#8, 0#8, 0#8, 0#8, 0#8, 0#8] ++ [.fin] })) =
    ([(0x61#8, 3#64)], 1#64, 13#64, [.fin]) := by decide +kernel

/-- X15: a repeated symbol. -/
theorem test_hdrRead_repeated : (fun t : State => (t.errCode, t.errInfo, t.symCnt)) (after (exec .hdrRead { begun with
    inFifo := byteTokens [0x02#8, 0#8, 0#8, 0#8, 0x61#8, 0x01#8, 0#8, 0#8, 0#8, 0#8, 0#8, 0#8, 0#8,
      0x61#8, 0x01#8, 0#8, 0#8, 0#8, 0#8, 0#8, 0#8, 0#8] })) = (0x04#8, 22#64, 0#9) := by decide +kernel

/-- X19. -/
theorem test_decSym : (fun t : State => (t.result0, t.result1, t.budget, t.rk))
    (after (exec .decSym { treeHello with budget := 32#64, inFifo := [.byte 0x22#8] })) =
    (0x68#64, 3#64, 29#64, 5#4) := by decide +kernel

/-- X24. -/
theorem test_decSym_invalid : (fun t : State => (t.errCode, t.errInfo, t.budget, t.rk))
    (after (exec .decSym { treeA with budget := 8#64, inFifo := [.byte 0x80#8] })) =
    (0x0C#8, 1#64, 7#64, 7#4) := by decide +kernel

/-- X29. -/
theorem test_decStream : (fun t : State => (t.outFifo, t.result0, t.result1, t.rk, t.inFifo))
    (after (exec .decStream { treeHello with
      budget := 28#64, inFifo := byteTokens [0x22#8, 0xB7#8, 0x3C#8, 0xAF#8] ++ [.fin] })) =
    (hello.take 10, 10#64, 28#64, 4#4, [.fin]) := by decide +kernel

/-- X27. -/
theorem test_decStream_truncated : (fun t : State => (t.outFifo, t.errCode, t.errInfo, t.result0, t.result1, t.budget))
    (after (exec .decStream { treeHello with
      budget := 40#64, inFifo := byteTokens [0x22#8, 0xB7#8, 0x3C#8, 0xAF#8] ++ [.fin] })) =
    (hello, 0x0A#8, 32#64, 11#64, 32#64, 8#64) := by decide +kernel

/-! ## The bus -/

/-- M2. -/
theorem test_cfg : (instanceOf 15 15).params.cfgWord = 0x0000004000100010#64 := by decide +kernel

/-- M4. -/
theorem test_outData : (fun t : State => (t.busReads, t.outFifo))
    (after (step { idle with agenda := [.read 0x168 64], outFifo := [0xAB#8] })) = ([0x1AB#64], []) := by decide +kernel

/-- M5, its third write. -/
theorem test_inOverflow : (fun t : State => (t.inFifo, t.inOvf)) (after (step { instanceOf 1 0 with
    agenda := [.write 0x160 64 0#64], inFifo := [.byte 0x61#8, .byte 0x62#8] })) =
    ([.byte 0x61#8, .byte 0x62#8], true) := by decide +kernel

/-- M9. -/
theorem test_narrowRead : step { idle with agenda := [.read 0x110 32] } = .refused (.unsupportedAccess 0x110 32) := rfl

/-- I10. -/
theorem test_cmd_locked : (fun t : State => (t.cmdOvr, t.errCode, t.errInfo, t.busy))
    (after (step { idle with agenda := [.write 0x118 64 0#64], err := true, errCode := 1#8, errInfo := 6#64 })) =
    (true, 1#8, 6#64, false) := by decide +kernel

/-- R1: SRST with the enables in the same write. -/
theorem test_softReset : (fun t : State => (present t.freq, t.symCnt, t.busy, t.prog, t.ieDone, t.ieErr))
    (after (step { tableHello with agenda := [.write 0x108 64 0x103#64] })) =
    ([], 0#9, false, .none, false, false) := by decide +kernel

/-- A next state of every command: what the frame statements' hypotheses ask for. -/
theorem next_after (i : Instr) (s : State) : exec i s = .next (after (exec i s)) := by
  have h : ∃ t, exec i s = .next t := by
    cases i <;>
      simp only [exec, execNop, execFreqClear, execFreqAccum, execFreqAccumStream, execFreqLoad, execFreqRead, execWrBits,
        execWrFlush, execRdBits, execRdAlign, execRdDrain, execTreeBuild, execTreeNode, execCodeGen, execCodeLookup,
        execHdrWrite, execEncSym, execEncStream, execHdrRead, execDecSym, execDecStream] <;>
      (repeat' split) <;> exact ⟨_, rfl⟩
  obtain ⟨t, h⟩ := h
  rw [h, after]

/-! ## Witnesses: encoding and steps -/

theorem witness_roundTrip : (Instr.wrBits 64#8).wf = true ∧ (Instr.codeLookup 0xFF#8 3#8).wf = true := by decide

theorem witness_legalWord : decode 0x0000000000400010#64 = .ok (.wrBits 64#8) := by decide

/-- One illegal word for each disjunct, and the legal words at the ends of the ranges. -/
theorem witness_illegalWords :
    (∀ w : Word, { begun with c := w }.coreEnabled = true) ∧
      0xFF % 256 ∉ [0x00, 0x01, 0x02, 0x03, 0x04, 0x05, 0x10, 0x11, 0x12, 0x13, 0x14, 0x20, 0x21, 0x30, 0x31, 0x40, 0x41,
        0x42, 0x43, 0x44, 0x45] ∧
      (0x1000000#64).toNat / 16777216 ≠ 0 ∧ (0x100#64).toNat / 256 % 256 ≠ 0 ∧ (0x16102#64).toNat / 65536 % 256 ≠ 0 ∧
      64 < (0x410010#64).toNat / 65536 % 256 ∧ 3 < (0x046131#64).toNat / 65536 % 256 ∧
      (0x400010#64).toNat / 65536 % 256 = 64 ∧ (0x036131#64).toNat / 65536 % 256 = 3 := by
  refine ⟨fun _ => rfl, ?_⟩
  decide

theorem witness_stepRunsCommand :
    begun.coreEnabled = true ∧ decode begun.c = .ok .nop ∧ begun.agenda = [] ∧
      { begun with agenda := [.core, .rstN] }.agenda = .core :: [.rstN] :=
  ⟨rfl, by decide, rfl, rfl⟩

theorem witness_placedCommand :
    64 ≤ 64 ∧ 0x400010 < 2 ^ 64 ∧ decode (BitVec.ofNat 64 0x400010) = .ok (.wrBits 64#8) ∧
      8 ≤ 64 ∧ 0x45 < 2 ^ 8 ∧ decode (BitVec.ofNat 64 0x45) = .ok .decStream := by decide

theorem witness_heldCore :
    idle.busy = false ∧ { begun with waitIn := true }.waitIn = true ∧ { begun with waitOut := true }.waitOut = true ∧
      { begun with waitIn := true }.agenda = [] ∧ { begun with waitIn := true, agenda := [.core] }.agenda = .core :: [] :=
  ⟨rfl, rfl, rfl, rfl, rfl⟩

/-! ## Witnesses: the bus -/

/-- A state whose next item is this one. -/
def facing (t : Turn) : State := { idle with agenda := [t] }

/-- Every offset of the aperture, read and written; BASE is 0x100. -/
theorem witness_access :
    (∀ off : Nat, (facing (.read (0x100 + off) 64)).agenda = .read (idle.params.base + off) 64 :: []) ∧
      ∀ (off : Nat) (v : Word), (facing (.write (0x100 + off) 64 v)).agenda = .write (idle.params.base + off) 64 v :: [] :=
  ⟨fun _ => rfl, fun _ _ => rfl⟩

theorem witness_unsupported :
    (facing (.read 0x110 32)).agenda = .read 0x110 32 :: [] ∧ ¬ (32 = 64 ∧ 0x110 % 8 = 0 ∧ 0x100 ≤ 0x110 ∧ 0x110 < 0x100 + 256) ∧
      (facing (.read 0x104 64)).agenda = .read 0x104 64 :: [] ∧ ¬ (64 = 64 ∧ 0x104 % 8 = 0 ∧ 0x100 ≤ 0x104 ∧ 0x104 < 0x100 + 256) ∧
      (facing (.write 0x200 64 0#64)).agenda = .write 0x200 64 0#64 :: [] ∧
      ¬ (64 = 64 ∧ 0x200 % 8 = 0 ∧ 0x100 ≤ 0x200 ∧ 0x200 < 0x100 + 256) ∧
      (facing (.write 0xF8 64 0#64)).agenda = .write 0xF8 64 0#64 :: [] ∧
      ¬ (64 = 64 ∧ 0xF8 % 8 = 0 ∧ 0x100 ≤ 0xF8 ∧ 0xF8 < 0x100 + 256) := by
  refine ⟨rfl, ?_, rfl, ?_, rfl, ?_, rfl, ?_⟩ <;> decide

theorem witness_cmdWrite :
    (facing (.write 0x118 64 3#64)).busy = false ∧ (facing (.write 0x118 64 3#64)).err = false ∧
      (facing (.write 0x118 64 3#64)).waitIn = false ∧ (facing (.write 0x118 64 3#64)).waitOut = false ∧
      { facing (.write 0x118 64 3#64) with busy := true }.busy = true ∧
      { facing (.write 0x118 64 3#64) with err := true }.err = true :=
  ⟨rfl, rfl, rfl, rfl, rfl, rfl⟩

/-- SRST set and clear, the enables set in both; and the reset input. -/
theorem witness_reset :
    (0x103#64 : Word).getLsbD 8 = true ∧ (0x003#64 : Word).getLsbD 8 = false ∧ (facing .rstN).agenda = .rstN :: [] :=
  ⟨by decide, by decide, rfl⟩

/-- OUT_DATA with a byte in the FIFO and with none. -/
theorem witness_outData :
    (facing (.read 0x168 64)).outFifo = [] ∧ { facing (.read 0x168 64) with outFifo := [0xAB#8] }.outFifo = 0xAB#8 :: [] :=
  ⟨rfl, rfl⟩

/-- The first and the last reserved offset. -/
theorem witness_reserved : (0x80 % 8 = 0 ∧ 0x80 ≤ 0x80 ∧ 0x80 < 0x100) ∧ (0xF8 % 8 = 0 ∧ 0x80 ≤ 0xF8 ∧ 0xF8 < 0x100) ∧
    0x68 ∈ [0x00, 0x30, 0x38, 0x40, 0x48, 0x50, 0x68, 0x70, 0x78] := by decide

theorem witness_exactReads : (facing (.read 0x170 64)).FifosOk := ⟨by decide, by decide⟩

/-- A loose read with BUSY = 0 and with BUSY = 1. -/
theorem witness_looseReads :
    (0x30, idle.result0) ∈ [(0x28, idle.budget), (0x30, idle.result0), (0x38, idle.result1),
        (0x40, idle.symCnt.setWidth 64), (0x48, idle.total)] ∧
      (facing (.read 0x130 64)).busy = false ∧ { facing (.read 0x130 64) with busy := true }.busy = true :=
  ⟨by simp, rfl, rfl⟩

/-- A command that completes, with IE_DONE; one that fails, with IE_ERR. -/
theorem witness_interrupt :
    exec .nop { begun with ieDone := true } = .next { begun with ieDone := true }.complete ∧
      { begun with ieDone := true }.complete.prog = .none ∧
      exec .treeBuild { begun with ieErr := true } = .next ({ begun with ieErr := true }.raise .emptyTable 0#64) ∧
      ({ begun with ieErr := true }.raise .emptyTable 0#64).err = true :=
  ⟨rfl, rfl, rfl, rfl⟩

theorem witness_hostKeeps :
    (facing (.read 0x168 64)).hostRead 0x168 64 = .next { facing (.read 0x168 64) with busReads := [0#64] } ∧
      (facing (.write 0x108 64 3#64)).hostWrite 0x108 64 3#64 =
        .next { facing (.write 0x108 64 3#64) with ieDone := true, ieErr := true } ∧
      ¬ (0x108 = idle.params.base + 0x08 ∧ (3#64 : Word).getLsbD 8 = true) :=
  ⟨rfl, rfl, by decide⟩

/-! ## Witnesses: the table -/

theorem tableABC_ok : tableABC.TableOk := ⟨by decide +kernel, by decide +kernel⟩

/-- The table whose sum is 2^64 − 1. -/
def tableFull : State := withTable [(0x61#8, 0xFFFFFFFFFFFFFFFF#64)] begun

theorem tableFull_ok : tableFull.TableOk := ⟨by decide +kernel, by decide +kernel⟩

theorem witness_freqAccum : tableFull.total.toNat = 2 ^ 64 - 1 ∧ tableABC.total.toNat ≠ 2 ^ 64 - 1 := by
  exact ⟨by decide +kernel, by decide +kernel⟩

/-- FREQ_LOAD 'b' one past the sum, and FREQ_LOAD 'a' at it. -/
theorem witness_freqLoad :
    { tableFull with a := 1#64 }.TableOk ∧
      2 ^ 64 ≤ tableFull.total.toNat - (tableFull.freqAt 0x62#8).toNat + (1#64 : Word).toNat ∧
      tableFull.total.toNat - (tableFull.freqAt 0x61#8).toNat + (0xFFFFFFFFFFFFFFFF#64 : Word).toNat < 2 ^ 64 :=
  ⟨tableFull_ok, by decide +kernel, by decide +kernel⟩

theorem witness_streamCounted :
    { tableABC with inFifo := byteTokens [0x61#8] ++ Token.fin :: [Token.fin] }.TableOk ∧ tableABC.prog = .start ∧
      0 + [0x61#8].length ≠ 0 ∧ tableABC.total.toNat + [0x61#8].length < 2 ^ 64 ∧
      { tableABC with prog := .counting 5 }.prog = .counting 5 ∧ 5 + ([] : List Byte).length ≠ 0 :=
  ⟨tableABC_ok, rfl, by decide, by decide +kernel, rfl, by decide⟩

theorem witness_streamCountingErrors :
    { begun with inFifo := .fin :: [] }.inFifo = .fin :: [] ∧ begun.prog = .start ∧
      { tableFull with inFifo := byteTokens [] ++ Token.byte 0x62#8 :: [Token.fin] }.TableOk ∧ tableFull.prog = .start ∧
      tableFull.total.toNat + ([] : List Byte).length = 2 ^ 64 - 1 :=
  ⟨rfl, rfl, tableFull_ok, rfl, by decide +kernel⟩

theorem witness_countingInPieces : begun.prog = .start ∧ begun.total.toNat + hello.length < 2 ^ 64 := by
  exact ⟨rfl, by decide +kernel⟩

/-! ## Witnesses: the bit writer and the bit reader -/

/-- Eight bits with room for one byte, no bits with no room, and a full byte that waits. -/
theorem witness_wrBits :
    begun.prog = .start ∧ begun.wk.toNat ≤ 8 ∧ begun.AccLow ∧
      { instanceOf 0 0 with prog := .start }.HasRoom (msbBits (0xAB#64 : Word).toNat (8#8 : Byte).toNat).length ∧
      { instanceOf 0 0 with prog := .writing [], outFifo := [0#8] }.HasRoom ([] : List Bool).length ∧
      { instanceOf 0 0 with prog := .writing [true], wk := 8#4 }.HasRoom [true].length ∧
      { instanceOf 0 0 with prog := .writing [true], wk := 8#4 }.AccLow := by
  refine ⟨rfl, by decide +kernel, fun i _ => ?_, ?_, ?_, ?_, fun i h => absurd h (by simp)⟩
  · exact BitVec.getLsbD_zero
  · unfold State.HasRoom; decide +kernel
  · unfold State.HasRoom; decide +kernel
  · unfold State.HasRoom; decide +kernel

/-- B7, for each of the three commands. -/
theorem witness_writersHold :
    ¬ { instanceOf 0 0 with prog := .start, a := 0xABCD#64 }.HasRoom (msbBits (0xABCD#64 : Word).toNat (16#8 : Byte).toNat).length ∧
      (instanceOf 0 0).outFifo.length ≤ (instanceOf 0 0).params.outDepth ∧ (instanceOf 0 0).wk.toNat ≤ 8 ∧
      (instanceOf 0 0).AccLow ∧
      tableABC.symCnt ≠ 0#9 ∧
      ¬ { tableABC with params := (instanceOf 0 0).params }.HasRoom
        (byteBits (headerBytes tableABC.symCnt.toNat tableABC.freq)).length ∧
      codesHello.codesValid = true ∧ (codesHello.codeAt 0x68#8).len ≠ 0#8 ∧
      ¬ { codesHello with params := (instanceOf 0 0).params, wk := 7#4, outFifo := [0#8] }.HasRoom
        (codesHello.codeAt 0x68#8).path.length := by
  refine ⟨?_, by decide +kernel, by decide +kernel, fun i _ => BitVec.getLsbD_zero, by decide +kernel, ?_,
    by decide +kernel, by decide +kernel, ?_⟩ <;> unfold State.HasRoom <;> decide +kernel

/-- ENC_STREAM with room for one byte: at its start with the 32 bits of W1, and resumed inside the code of 'd' with that byte
in OUT and a full one waiting in WACC. -/
theorem witness_encStreamHolds :
    { codesHello with params := (instanceOf 0 0).params, inFifo := byteTokens hello ++ [Token.fin] }.EncStreamAt 0 [] ∧
      (∀ b ∈ hello, (codesHello.codeAt b).len ≠ 0#8) ∧ codesHello.wk.toNat ≤ 7 ∧ codesHello.waitIn = false ∧
      codesHello.outFifo.length ≤ (instanceOf 0 0).params.outDepth ∧
      ¬ { codesHello with params := (instanceOf 0 0).params }.HasRoom
        (([] : List Bool).length + ({ codesHello with params := (instanceOf 0 0).params }.codeBits hello).length) ∧
      { codesHello with prog := .encodeBits 10 [true, true] }.EncStreamAt 11 [true, true] ∧
      (8#4 : BitVec 4).toNat ≤ 8 ∧ (Prog.encodeBits 10 [true, true]).isWriting = true ∧
      { codesHello with wk := 8#4 }.AccLow ∧ [0x22#8].length ≤ (instanceOf 0 0).params.outDepth ∧
      ¬ { codesHello with params := (instanceOf 0 0).params, wk := 8#4, outFifo := [0x22#8] }.HasRoom
        ([true, true].length + (codesHello.codeBits []).length) := by
  refine ⟨Or.inl ⟨by decide +kernel, by decide +kernel, rfl, rfl⟩, by decide +kernel, by decide +kernel, by decide +kernel,
    by decide +kernel, ?_, Or.inr (Or.inr ⟨10, rfl, rfl⟩), by decide, rfl, fun i h => absurd h (by simp), by decide +kernel,
    ?_⟩ <;> unfold State.HasRoom <;> decide +kernel

theorem witness_wrFlush :
    begun.wk.toNat ≤ 7 ∧ begun.wk = 0#4 ∧ { begun with wk := 7#4 }.wk.toNat ≤ 7 ∧ { begun with wk := 7#4 }.wk ≠ 0#4 ∧
      begun.outFifo.length < begun.params.outDepth ∧
      (instanceOf 0 0).params.outDepth ≤ { instanceOf 0 0 with outFifo := [0#8] }.outFifo.length := by decide +kernel

/-- B8, B11 and the hold, each at the last value of its clause. -/
theorem witness_rdBits :
    begun.prog = .start ∧ 0 ≤ (8#8 : Byte).toNat ∧ begun.rk.toNat ≤ 8 ∧
      (8#8 : Byte).toNat - 0 ≤ { begun with inFifo := [.byte 0xB7#8] }.pendingBits.length ∧
      { begun with inFifo := [.byte 0xB7#8] }.pendingBits.length < (9#8 : Byte).toNat - 0 ∧
      { begun with inFifo := [.byte 0xB7#8, .fin] }.pendingBits.length < (9#8 : Byte).toNat - 0 ∧
      ([.byte 0xB7#8] : List Token) = byteTokens [0xB7#8] ∧
      ([.byte 0xB7#8, .fin] : List Token) = byteTokens [0xB7#8] ++ .fin :: [] ∧
      { begun with prog := .reading 1 8 }.prog = .reading 1 8 ∧ 8 ≤ (8#8 : Byte).toNat := by decide +kernel

theorem witness_rdDrain :
    begun.prog = .start ∧ ([.byte 0#8, .fin] : List Token) = byteTokens [0#8] ++ .fin :: [] ∧ [0#8].length < 2 ^ 64 ∧
      [] = byteTokens [] ∧ { begun with prog := .draining 3 }.prog = .draining 3 ∧ 3 + [0#8].length < 2 ^ 64 := by decide +kernel

/-! ## Witnesses: tree and codes -/

theorem witness_treeBuild : begun.symCnt = 0#9 ∧ tableHello.TableOk ∧ tableHello.symCnt ≠ 0#9 :=
  ⟨rfl, ⟨by decide +kernel, by decide +kernel⟩, by decide +kernel⟩

/-- The first and the last internal node of the tree of W1. -/
theorem witness_leastKeys :
    exec .treeBuild tableHello = .next (after (exec .treeBuild tableHello)) ∧
      tableHello.symCnt.toNat ≤ (8#9 : BitVec 9).toNat ∧ (14#9 : BitVec 9).toNat < 2 * tableHello.symCnt.toNat - 1 :=
  ⟨next_after _ _, by decide +kernel, by decide +kernel⟩

theorem treeHello_ok : treeHello.TableOk ∧ treeHello.TreeOk := by
  refine ⟨⟨by decide +kernel, by decide +kernel⟩, fun _ => ⟨by decide +kernel, by decide +kernel, ?_, by decide +kernel⟩⟩
  decide +kernel

theorem treeA_ok : treeA.TableOk ∧ treeA.TreeOk := by
  refine ⟨⟨by decide +kernel, by decide +kernel⟩, fun _ => ⟨by decide +kernel, by decide +kernel, ?_, by decide +kernel⟩⟩
  decide +kernel

/-- No tree; the last index; the first index past it. -/
theorem witness_treeNode :
    begun.treeValid = false ∧ treeHello.treeValid = true ∧ (15#64 : Word).toNat ≤ 15 ∧
      treeHello.nodeCnt.toNat ≤ (15#64 : Word).toNat ∧ (14#64 : Word).toNat = (14#9 : BitVec 9).toNat ∧
      (14#9 : BitVec 9).toNat < treeHello.nodeCnt.toNat := by decide +kernel

theorem witness_codeGen : begun.treeValid = false ∧ treeHello.treeValid = true ∧ treeHello.freqAt 0x68#8 ≠ 0#64 ∧
    treeHello.freqAt 0x7A#8 = 0#64 := by decide +kernel

theorem codeGen_eq (s : State) (h : s.treeValid = true) : again (exec .codeGen s) = { s with
    code := codeTable s.treeCodes, codesValid := true, result0 := BitVec.ofNat 64 (longestCode s.treeCodes)
    result1 := s.symCnt.setWidth 64, prog := .start, waitIn := false, waitOut := false, busy := true, done := false } := by
  simp [again, after, exec, execCodeGen, h, State.complete]

theorem codeGen_sound (s : State) (hv : s.treeValid = true) (ht : s.TableOk) (hk : s.TreeOk) :
    (again (exec .codeGen s)).TableOk ∧ (again (exec .codeGen s)).TreeOk ∧ (again (exec .codeGen s)).CodesOk ∧
      (again (exec .codeGen s)).freq = s.freq := by
  rw [codeGen_eq s hv]
  refine ⟨ht, hk, fun _ => ⟨hv, ?_⟩, rfl⟩
  refine congrArg codeTable (Eq.symm ?_)
  exact treeCodes_congr rfl rfl

theorem codesHello_ok : codesHello.TableOk ∧ codesHello.TreeOk ∧ codesHello.CodesOk ∧
    codesHello.freq = treeHello.freq := by
  unfold codesHello
  exact codeGen_sound treeHello (by decide +kernel) treeHello_ok.1 treeHello_ok.2

theorem witness_prefixFree : codesHello.codesValid = true ∧ 0x68#8 ≠ 0x6C#8 ∧ codesHello.freqAt 0x68#8 ≠ 0#64 ∧
    codesHello.freqAt 0x6C#8 ≠ 0#64 := by decide +kernel

theorem witness_codeLookup : begun.codesValid = false ∧ codesHello.codesValid = true := by decide +kernel

/-! ## Witnesses: the archive -/

theorem witness_hdrWrite :
    begun.prog = .start ∧ begun.symCnt = 0#9 ∧ tableHello.prog = .start ∧ tableHello.symCnt ≠ 0#9 ∧
      tableHello.wk.toNat ≤ 8 ∧ tableHello.AccLow ∧
      tableHello.HasRoom (byteBits (headerBytes tableHello.symCnt.toNat tableHello.freq)).length := by
  refine ⟨rfl, rfl, by decide +kernel, by decide +kernel, by decide +kernel, fun i _ => by
    rw [show tableHello.wacc = 0#8 by decide +kernel]; exact BitVec.getLsbD_zero, ?_⟩
  unfold State.HasRoom; decide +kernel

theorem codesHello_writer : codesHello.wk.toNat ≤ 7 ∧ codesHello.AccLow := by
  refine ⟨by decide +kernel, fun i _ => ?_⟩
  rw [show codesHello.wacc = 0#8 by decide +kernel]
  exact BitVec.getLsbD_zero

theorem witness_encSym :
    begun.codesValid = false ∧ codesHello.prog = .start ∧ codesHello.codesValid = true ∧
      (codesHello.codeAt 0x7A#8).len = 0#8 ∧ (codesHello.codeAt 0x68#8).len ≠ 0#8 ∧
      codesHello.HasRoom (msbBits (codesHello.codeAt 0x68#8).bits.toNat (codesHello.codeAt 0x68#8).len.toNat).length := by
  refine ⟨rfl, by decide +kernel, by decide +kernel, by decide +kernel, by decide +kernel, ?_⟩
  unfold State.HasRoom; decide +kernel

/-- At its start, between two bytes, and inside the code of 'd' with a full byte waiting; and a byte without a code. -/
theorem witness_encStream :
    codesHello.EncStreamAt 0 [] ∧ { codesHello with prog := .encodePop 7 }.EncStreamAt 7 [] ∧
      { codesHello with prog := .encodeBits 10 [true, true] }.EncStreamAt 11 [true, true] ∧
      (∀ b ∈ hello, (codesHello.codeAt b).len ≠ 0#8) ∧ (codesHello.codeAt 0x78#8).len = 0#8 ∧
      codesHello.HasRoom (([] : List Bool).length + (codesHello.codeBits hello).length) ∧
      (Prog.encodeBits 10 [true, true]).isWriting = true ∧ { codesHello with wk := 8#4 }.AccLow ∧
      { codesHello with wk := 8#4 }.HasRoom ([true, true].length + (codesHello.codeBits hello).length) ∧
      0 + hello.length < 2 ^ 64 ∧ 11 + hello.length < 2 ^ 64 ∧ codesHello.waitOut = false ∧
      { codesHello with inFifo := byteTokens hello }.inFifo = byteTokens hello := by
  refine ⟨Or.inl ⟨by decide +kernel, by decide +kernel, rfl, rfl⟩, Or.inr (Or.inl ⟨rfl, rfl⟩), Or.inr (Or.inr ⟨10, rfl, rfl⟩),
    by decide +kernel, by decide +kernel, ?_, rfl, fun i h => absurd h (by simp), ?_, by decide, by decide,
    by decide +kernel, rfl⟩ <;> unfold State.HasRoom <;> decide +kernel

/-- HDR_READ at its start with RK = 3: the header of T2's table, 'a' with frequency 3, begins with the three bits in RACC. -/
def headerLate : State :=
  { begun with
    rk := 3#4, inFifo := byteTokens [0x08#8, 0#8, 0#8, 0x03#8, 0x08#8, 0x18#8, 0#8, 0#8, 0#8, 0#8, 0#8, 0#8, 0#8] }

/-- HDR_READ held in its count field: one byte and three bits read. -/
def headerCountHeld : State :=
  { begun with
    prog := .header { entries := none, prev := none, got := [0x02#8], used := 1, r := 0, k := 3 } }

/-- HDR_READ held in the second of two entries: 'a' is in FREQ, and 'b' with its next three bits is read. -/
def headerEntryHeld : State :=
  { tableA with
    prog := .header { entries := some 1, prev := some 0x61#8, got := [0x62#8], used := 14, r := 0, k := 3 } }

theorem headerCountHeld_read : headerCountHeld.HeaderRead (byteBits [0x02#8] ++ [false, false, false]) :=
  Or.inr ⟨_, [0x02#8], rfl, rfl, by decide, by decide, rfl, ⟨by decide +kernel, by decide +kernel⟩, rfl, rfl,
    by decide +kernel, Or.inl ⟨rfl, by decide +kernel, rfl, by decide⟩⟩

/-- The header bytes read before the hold of `headerEntryHeld`. -/
def entryHeldBytes : List Byte := leBytes 2 4 ++ entryBytes [(0x61#8, 3#64)] ++ [0x62#8]

theorem presentA : present tableA.freq = [(0x61#8, 3#64)] := by decide +kernel

theorem headerEntryHeld_read : headerEntryHeld.HeaderRead (byteBits entryHeldBytes ++ [false, false, false]) := by
  have hp : present headerEntryHeld.freq = [(0x61#8, 3#64)] := presentA
  refine Or.inr ⟨_, entryHeldBytes, rfl, rfl, by decide, by decide, by decide, ⟨by decide +kernel, by decide +kernel⟩, rfl, rfl,
    ?_, Or.inr ⟨2, ?_, ?_, by decide, ?_, by decide⟩⟩ <;> rw [hp] <;> decide

theorem headerOpen_count : HeaderOpen [0x02#8] := Or.inl (by decide)

theorem goodA : GoodEntries [(0x61#8, 3#64)] := ⟨by simp, by simp, by simp⟩

theorem headerOpen_entry : HeaderOpen entryHeldBytes := Or.inr ⟨2, _, [0x62#8], rfl, goodA, by decide, by decide, by decide⟩

/-- The table of the header that `headerEntryHeld` has begun. -/
def tableAB : Vector Word 256 := (withTable [(0x61#8, 3#64), (0x62#8, 5#64)] begun).freq

/-- RK ≠ 0 at the start, with the whole header; the whole of the rest after the hold in the entry; and both holds again,
with no bit more. -/
theorem witness_headerReadsBack :
    headerLate.HeaderRead [] ∧ headerLate.rk.toNat ≤ 8 ∧ headerLate.rk ≠ 0#4 ∧
      present tableA.freq ≠ [] ∧ tableSum tableA.freq < 2 ^ 64 ∧
      [] ++ headerLate.pendingBits = byteBits (leBytes (present tableA.freq).length 4 ++ entryBytes (present tableA.freq)) ++
        [false, false, false] ∧
      present tableAB ≠ [] ∧ tableSum tableAB < 2 ^ 64 ∧
      (byteBits entryHeldBytes ++ [false, false, false]) ++
          { headerEntryHeld with racc := 5#8, rk := 5#4, inFifo := byteTokens [0#8, 0#8, 0#8, 0#8, 0#8, 0#8, 0#8] }.pendingBits =
        byteBits (leBytes (present tableAB).length 4 ++ entryBytes (present tableAB)) ++ [] ∧
      (byteBits [0x02#8] ++ [false, false, false]) ++ headerCountHeld.pendingBits = byteBits [0x02#8] ++ [false, false, false] ∧
      (byteBits entryHeldBytes ++ [false, false, false]) ++ headerEntryHeld.pendingBits =
        byteBits entryHeldBytes ++ [false, false, false] ∧
      headerCountHeld.inFifo = byteTokens [] ∧ headerEntryHeld.inFifo = byteTokens [] ∧ [false, false, false].length < 8 := by
  refine ⟨Or.inl ⟨rfl, rfl⟩, ?_⟩
  decide +kernel

/-- One good entry before the fault: 'a' with frequency 2^64 − 1. -/
def goodEntries : List (Byte × Word) := [(0x61#8, 0xFFFFFFFFFFFFFFFF#64)]

/-- End at both holds; counts 0 and 257 after two bytes and three bits of the count field; after one good entry a repeated
symbol, a zero, and a sum of 2^64. -/
theorem witness_badHeader :
    (byteBits [0x02#8] ++ [false, false, false]) ++ { headerCountHeld with inFifo := [.fin] }.pendingBits =
        byteBits [0x02#8] ++ [false, false, false] ∧
      (byteBits entryHeldBytes ++ [false, false, false]) ++ { headerEntryHeld with inFifo := [.fin] }.pendingBits =
        byteBits entryHeldBytes ++ [false, false, false] ∧
      ([.fin] : List Token) = byteTokens [] ++ .fin :: [] ∧
      [] ++ { begun with inFifo := byteTokens [0#8, 0#8, 0#8, 0#8] }.pendingBits = byteBits (leBytes 0 4) ++ [] ∧
      [] ++ { begun with inFifo := byteTokens [1#8, 1#8, 0#8, 0#8] }.pendingBits = byteBits (leBytes 257 4) ++ [] ∧
      0 < 2 ^ 32 ∧ 257 < 2 ^ 32 ∧ 256 < 257 ∧ GoodEntries goodEntries ∧ goodEntries.length < 2 ∧ 2 ≤ 256 ∧
      (∃ e ∈ goodEntries, (0x61#8 : Byte).toNat ≤ e.1.toNat) ∧ 0#64 = 0#64 ∧
      2 ^ 64 ≤ (goodEntries.map fun e => e.2.toNat).sum + (1#64 : Word).toNat ∧
      (byteBits entryHeldBytes ++ [false, false, false]) ++
          { headerEntryHeld with racc := 0#8, rk := 5#4, inFifo := byteTokens [0#8, 0#8, 0#8, 0#8, 0#8, 0#8, 0#8] }.pendingBits =
        byteBits (leBytes 2 4 ++ entryBytes [(0x61#8, 3#64)] ++ 0x62#8 :: leBytes (0#64 : Word).toNat 8) ++ [] := by
  refine ⟨by decide +kernel, by decide +kernel, rfl, by decide +kernel, by decide +kernel, by decide, by decide, by decide,
    ⟨by simp [goodEntries], by simp [goodEntries], by simp [goodEntries]⟩, by decide, by decide,
    ⟨_, List.mem_singleton_self _, by decide⟩, rfl,
    by simp [goodEntries], by decide +kernel⟩

/-! ## Witnesses: decoding -/

theorem walkTo_of {s : State} {i : BitVec 9} {x : Byte} {c : List Bool} (hk : (s.nodeAt i).kind = .internal)
    (hl : (s.nodeAt (s.follow i c)).kind = .leaf) (hx : (s.nodeAt (s.follow i c)).sym = x)
    (hq : ∀ q ∈ c.inits, q ≠ c → (s.nodeAt (s.follow i q)).kind = .internal) : s.WalkTo i x c := by
  unfold State.WalkTo
  rw [hk]
  exact ⟨hl, hx, fun q h hn => hq q ((List.mem_inits _ _).mpr h) hn⟩

theorem walkOpen_of {s : State} {i : BitVec 9} {q : List Bool}
    (hq : ∀ q' ∈ q.inits, (s.nodeAt (s.follow i q')).kind = .internal) : s.WalkOpen i q :=
  Or.inr fun q' h => hq q' ((List.mem_inits _ _).mpr h)

/-- The codes of 'h' and 'e' (W1). -/
def codesHE : List (Byte × List Bool) := [(0x68#8, [false, false, true]), (0x65#8, [false, false, false])]

theorem codesHE_ok : ∀ e ∈ codesHE, treeHello.IsCode e.1 e.2 := by
  intro e he
  simp only [codesHE, List.mem_cons, List.not_mem_nil, or_false] at he
  rcases he with rfl | rfl <;>
    exact walkTo_of (by decide +kernel) (by decide +kernel) (by decide +kernel) (by decide +kernel)

theorem isCode_a : treeA.IsCode 0x61#8 [false] := by
  have hk : (treeA.nodeAt treeA.root).kind = .leaf := by decide +kernel
  unfold State.IsCode State.WalkTo
  rw [hk]
  exact ⟨by decide +kernel, rfl⟩

/-- Inside the code of a symbol, one bit 0 of it taken. -/
def insideHello : DecPoint := { i := treeHello.follow treeHello.root [false], k := 1, used := 1 }

theorem walkTo_inside : treeHello.WalkTo insideHello.i 0x68#8 [false, true] :=
  walkTo_of (by decide +kernel) (by decide +kernel) (by decide +kernel) (by decide +kernel)

/-- X19: the bits of 0x22 with BUDGET = 3, from the start; the bits after the first, from the hold behind it; and both holds
where no bit is left, and one bit on. -/
theorem witness_decSym :
    treeHello.DecSymAt (treeHello.rootPoint 0) ∧ treeHello.rk.toNat ≤ 8 ∧
      treeHello.WalkTo (treeHello.rootPoint 0).i 0x68#8 [false, false, true] ∧
      { treeHello with inFifo := [.byte 0x22#8] }.pendingBits =
        [false, false, true] ++ [false, false, false, true, false] ∧ [false, false, true].length ≤ (3#64 : Word).toNat ∧
      { treeHello with prog := .decSym insideHello }.DecSymAt insideHello ∧
      treeHello.WalkTo insideHello.i 0x68#8 [false, true] ∧
      { treeHello with racc := 0x22#8, rk := 7#4 }.pendingBits = [false, true] ++ [false, false, false, true, false] ∧
      [false, true].length ≤ (2#64 : Word).toNat ∧
      treeHello.WalkOpen insideHello.i [] ∧ treeHello.pendingBits = [] ∧ treeHello.inFifo = byteTokens [] ∧
      ([] : List Bool).length < (1#64 : Word).toNat ∧
      treeHello.WalkOpen insideHello.i [false] ∧ { treeHello with racc := 0#8, rk := 1#4 }.pendingBits = [false] ∧
      [false].length < (2#64 : Word).toNat := by
  refine ⟨Or.inl ⟨by decide +kernel, by decide +kernel, rfl⟩, by decide +kernel, codesHE_ok _ (List.mem_cons_self ..),
    by decide +kernel, by decide, Or.inr rfl, walkTo_inside, by decide +kernel, by decide, Or.inl rfl, by decide +kernel,
    by decide +kernel, by decide, walkOpen_of (by decide +kernel), by decide +kernel, by decide⟩

/-- X21 (two bits, BUDGET = 2), X23 (no bit, then End), X24 (the bit 1 at a single leaf); from a hold inside the code, BUDGET
= 1 and one bit, and End after it. -/
theorem witness_decSymErrors :
    begun.prog = .start ∧ begun.treeValid = false ∧
      treeHello.WalkOpen (treeHello.rootPoint 0).i [false, false] ∧
      { treeHello with inFifo := [.byte 0x22#8] }.pendingBits = [false, false] ++ [true, false, false, false, true, false] ∧
      (2#64 : Word).toNat = [false, false].length ∧
      treeHello.WalkOpen insideHello.i [false] ∧ (1#64 : Word).toNat = [false].length ∧
      { treeHello with racc := 0#8, rk := 1#4 }.pendingBits = [false] ++ [] ∧
      { treeHello with racc := 0#8, rk := 1#4, inFifo := [.fin] }.pendingBits = [false] ∧
      { treeHello with inFifo := [.fin] }.pendingBits = [] ∧ ([.fin] : List Token) = byteTokens [] ++ .fin :: [] ∧
      ([] : List Bool).length < (32#64 : Word).toNat ∧
      treeA.DecSymAt (treeA.rootPoint 0) ∧ (treeA.nodeAt (treeA.rootPoint 0).i).kind = .leaf ∧
      { treeA with inFifo := [.byte 0x80#8] }.pendingBits = true :: List.replicate 7 false ∧ 1 ≤ (1#64 : Word).toNat := by
  refine ⟨rfl, rfl, walkOpen_of (by decide +kernel), by decide +kernel, by decide, walkOpen_of (by decide +kernel), by decide,
    by decide +kernel, by decide +kernel, by decide +kernel, rfl, by decide,
    Or.inl ⟨by decide +kernel, by decide +kernel, rfl⟩, by decide +kernel, by decide +kernel, by decide⟩

/-- DEC_STREAM with four symbols pushed and twelve bits used, inside the code of the fifth. -/
def streamInside : State := { treeHello with prog := .decBits 4 { insideHello with used := 13 } }

/-- DEC_STREAM before the push of 'h', the fifth symbol. -/
def streamPushing : State := { treeHello with prog := .decPush 4 15 0x68#8 }

/-- From its start, from inside a walk and from before a push: 'h' and 'e' go out. -/
theorem streamTo_he :
    treeHello.DecStreamTo 0 0 [0x68#8, 0x65#8] [false, false, true, false, false, false] ∧
      streamInside.DecStreamTo 4 13 [0x68#8, 0x65#8] [false, true, false, false, false] ∧
      streamPushing.DecStreamTo 4 15 [0x68#8, 0x65#8] [false, false, false] ∧
      streamPushing.DecStreamTo 4 15 [0x68#8] [] := by
  have he : ∀ s : State, s.node = treeHello.node → s.root = treeHello.root →
      ∀ e ∈ codesHE.tail, s.IsCode e.1 e.2 :=
    fun s hn hr e h => (isCode_congr hn hr _ _).mpr (codesHE_ok e (List.mem_of_mem_tail h))
  refine ⟨⟨[], [], codesHE, rfl, rfl, codesHE_ok, Or.inl ⟨by decide +kernel, by decide +kernel, rfl, rfl, rfl, rfl⟩⟩,
    ⟨[0x68#8], [false, true], codesHE.tail, rfl, rfl, he _ rfl rfl, Or.inr (Or.inl ⟨_, _, _, rfl, ?_, rfl⟩)⟩,
    ⟨[0x68#8], [], codesHE.tail, rfl, rfl, he _ rfl rfl, Or.inr (Or.inr ⟨_, rfl, rfl, rfl⟩)⟩,
    ⟨[0x68#8], [], [], rfl, rfl, by simp, Or.inr (Or.inr ⟨_, rfl, rfl, rfl⟩)⟩⟩
  exact (walkTo_congr (s := treeHello) (t := streamInside) rfl _ _ _).mpr walkTo_inside

/-- The three ways of `streamTo_he` with their bits in RACC and the FIFO, BUDGET their length and room for both symbols; with
room for one; and before a push with no room. -/
theorem witness_decStream :
    { treeHello with inFifo := [.byte 0x22#8] }.pendingBits = [false, false, true, false, false, false] ++ [true, false] ∧
      (6#64 : Word).toNat = [false, false, true, false, false, false].length ∧
      treeHello.outFifo.length + [0x68#8, 0x65#8].length ≤ (instanceOf 0 1).params.outDepth ∧
      treeHello.outFifo.length + [0x68#8].length = (instanceOf 0 0).params.outDepth ∧ treeHello.waitIn = false ∧
      [0x68#8, 0x65#8] = [0x68#8] ++ [0x65#8] ∧
      { streamInside with racc := 0x22#8, rk := 7#4 }.pendingBits = [false, true, false, false, false] ++ [true, false] ∧
      (5#64 : Word).toNat = [false, true, false, false, false].length ∧
      { streamPushing with racc := 0x22#8, rk := 5#4 }.pendingBits = [false, false, false] ++ [true, false] ∧
      (3#64 : Word).toNat = [false, false, false].length ∧
      { streamPushing with outFifo := [0#8] }.outFifo.length + ([] : List Byte).length = (instanceOf 0 0).params.outDepth ∧
      ([0x68#8] : List Byte) = [] ++ [0x68#8] ∧ streamPushing.waitIn = false := by decide +kernel

/-- After 'h' from the start, and before any bit from the hold inside a code. -/
theorem streamAt_he :
    treeHello.DecStreamAt 0 [0x68#8] [false, false, true] (treeHello.rootPoint 3) ∧
      streamInside.DecStreamAt 4 [] [] { insideHello with used := 13 } :=
  ⟨Or.inl ⟨0, ⟨[], [], [codesHE.head (by decide)], rfl, rfl, fun e h => codesHE_ok e (by simp at h; simp [h]),
    Or.inl ⟨by decide +kernel, by decide +kernel, rfl, rfl, rfl, rfl⟩⟩, rfl⟩, Or.inr ⟨rfl, rfl, rfl⟩⟩

/-- The hold after 'h' and two bits more, and the hold inside a code with no bit left. -/
theorem witness_decStreamHolds :
    treeHello.WalkOpen (treeHello.rootPoint 3).i [false, false] ∧
      { treeHello with racc := 0x04#8, rk := 5#4 }.pendingBits = [false, false, true] ++ [false, false] ∧
      [false, false, true].length + [false, false].length < (6#64 : Word).toNat ∧ treeHello.inFifo = byteTokens [] ∧
      treeHello.outFifo.length + [0x68#8].length ≤ (instanceOf 0 0).params.outDepth ∧ treeHello.waitOut = false ∧
      streamInside.WalkOpen insideHello.i [] ∧ streamInside.pendingBits = [] ++ [] ∧
      ([] : List Bool).length + ([] : List Bool).length < (1#64 : Word).toNat :=
  ⟨walkOpen_of (by decide +kernel), by decide +kernel, by decide, by decide +kernel, by decide +kernel, by decide +kernel,
    Or.inl rfl, by decide +kernel, by decide⟩

/-- After 'h', one bit of the next symbol, with BUDGET = 4; End there, with BUDGET = 9; the same inside a code after no
symbol; and the bit 1 at a single leaf, at the start and after one symbol. -/
theorem witness_decStreamErrors :
    begun.prog = .start ∧ begun.treeValid = false ∧
      treeHello.WalkOpen (treeHello.rootPoint 3).i [false] ∧ [false] ≠ [] ∧
      { treeHello with inFifo := [.byte 0x22#8] }.pendingBits =
        [false, false, true] ++ [false] ++ [false, false, true, false] ∧
      (4#64 : Word).toNat = [false, false, true].length + [false].length ∧
      treeHello.outFifo.length + [0x68#8].length ≤ treeHello.params.outDepth ∧
      { treeHello with racc := 0x02#8, rk := 4#4, inFifo := [.fin] }.pendingBits = [false, false, true] ++ [false] ∧
      ([.fin] : List Token) = byteTokens [] ++ .fin :: [] ∧
      [false, false, true].length + [false].length < (9#64 : Word).toNat ∧
      streamInside.WalkOpen insideHello.i [false] ∧
      { streamInside with racc := 0#8, rk := 1#4 }.pendingBits = [] ++ [false] ++ [] ∧
      (1#64 : Word).toNat = ([] : List Bool).length + [false].length ∧
      treeA.DecStreamAt 0 [] [] (treeA.rootPoint 0) ∧ (treeA.nodeAt (treeA.rootPoint 0).i).kind = .leaf ∧
      { treeA with racc := 1#8, rk := 1#4 }.pendingBits = [] ++ true :: [] ∧
      ([] : List Bool).length + 1 ≤ (1#64 : Word).toNat ∧
      treeA.DecStreamAt 0 [0x61#8] [false] (treeA.rootPoint 1) ∧
      { treeA with racc := 1#8, rk := 2#4 }.pendingBits = [false] ++ true :: [] := by
  have h0 : treeA.prog = .start ∧ treeA.treeValid = true := by decide +kernel
  refine ⟨rfl, rfl, walkOpen_of (by decide +kernel), by decide, by decide +kernel, by decide, by decide +kernel,
    by decide +kernel, rfl, by decide, walkOpen_of (by decide +kernel),
    by decide +kernel, by decide, ?_, by decide +kernel, by decide +kernel, by decide, ?_, by decide +kernel⟩
  · exact Or.inl ⟨0, ⟨[], [], [], rfl, rfl, by simp, Or.inl ⟨h0.1, h0.2, rfl, rfl, rfl, rfl⟩⟩, rfl⟩
  · exact Or.inl ⟨0, ⟨[], [], [(0x61#8, [false])], rfl, rfl, by simpa using isCode_a,
      Or.inl ⟨h0.1, h0.2, rfl, rfl, rfl, rfl⟩⟩, rfl⟩

/-- A state at a command's start, not held, with no error, is sound where its table, tree and codes are. -/
theorem inv_start (s : State) (hs : s.c = 0#64 ∧ s.prog = .start ∧ s.busy = true ∧ s.done = false ∧ s.err = false ∧
      s.errCode = 0#8 ∧ s.errInfo = 0#64 ∧ s.waitIn = false ∧ s.waitOut = false ∧ s.wacc = 0#8 ∧ s.wk = 0#4 ∧ s.rk = 0#4)
    (hf : s.FifosOk) (ht : s.TableOk) (hk : s.TreeOk) (hc : s.CodesOk) : s.Inv := by
  obtain ⟨c, prog, busy, done, err, code, info, waitIn, waitOut, wacc, wk, rk⟩ := hs
  refine ⟨hf, ?_, ?_, ?_, ht, ?_, hk, hc⟩
  · simp [State.StatusOk, prog, busy, done, err, code, info, waitIn, waitOut]
  · simp only [State.CommandOk, c, prog, test_decode_nop, progFits]
  · simp [State.AccOk, State.AccLow, wacc, wk, rk]
  · intro h hp
    rw [prog] at hp
    cases hp

/-- Other input and another BUDGET leave it sound. -/
theorem inv_supplied (s : State) (h : s.Inv) (hw : s.waitIn = false) (ts : List Token) (b : Word)
    (hl : ts.length ≤ s.params.inDepth) : { s with inFifo := ts, budget := b }.Inv := by
  obtain ⟨hf, hst, hcm, ha, ht, hh, hk, hc⟩ := h
  refine ⟨⟨hl, hf.2⟩, ?_, hcm, ha, ht, hh, hk, codesOk_congr (s := s) rfl rfl rfl rfl rfl hc⟩
  · obtain ⟨h1, h2, h3, _, h5, h6⟩ := hst
    exact ⟨h1, h2, h3, (fun h' => by rw [hw] at h'; cases h'), h5, h6⟩

theorem codesHello_inv : codesHello.Inv := by
  have ⟨ht, hk, hc, _⟩ := codesHello_ok
  exact inv_start _ (by decide +kernel) ⟨by decide +kernel, by decide +kernel⟩ ht hk hc

theorem treeHello_inv : treeHello.Inv := by
  have ⟨ht, hk⟩ := treeHello_ok
  refine inv_start _ (by decide +kernel) ⟨by decide +kernel, by decide +kernel⟩ ht hk fun hv => ?_
  rw [show treeHello.codesValid = false by decide +kernel] at hv
  cases hv

/-- The encoder of "hello world" (W1). -/
def encoder : State := { codesHello with inFifo := byteTokens hello ++ .fin :: [], budget := 0#64 }

/-- Its decoder: the four payload bytes and BUDGET = 32. -/
def decoder : State :=
  { treeHello with inFifo := byteTokens [0x22#8, 0xB7#8, 0x3C#8, 0xAF#8] ++ [.fin], budget := 32#64 }

theorem witness_payload :
    encoder.Inv ∧ encoder.prog = .start ∧ encoder.codesValid = true ∧ (∀ b ∈ hello, encoder.freqAt b ≠ 0#64) ∧
      encoder.HasRoom (encoder.codeBits hello).length ∧ hello.length < 2 ^ 64 ∧
      exec .encStream encoder = .next (after (exec .encStream encoder)) ∧
      decoder.Inv ∧ decoder.prog = .start ∧ decoder.treeValid = true ∧ decoder.freq = encoder.freq ∧
      decoder.pendingBits = (after (exec .encStream encoder)).sentBits.drop encoder.sentBits.length ++ [] ∧
      decoder.budget.toNat = (after (exec .encStream encoder)).sentBits.length - encoder.sentBits.length ∧
      decoder.outFifo.length + hello.length ≤ decoder.params.outDepth := by
  have ⟨_, _, _, hf⟩ := codesHello_ok
  exact ⟨inv_supplied _ codesHello_inv (by decide +kernel) _ _ (by decide +kernel),
    by decide +kernel, by decide +kernel, by decide +kernel, (by unfold State.HasRoom; decide +kernel), by decide +kernel,
    next_after _ _, inv_supplied _ treeHello_inv (by decide +kernel) _ _ (by decide +kernel),
    by decide +kernel, by decide +kernel, hf.symm, by decide +kernel, by decide +kernel, by decide +kernel⟩

/-! ## Witnesses: invariants -/

theorem witness_invariants : codesHello.Inv ∧ step codesHello = .next (after (exec .nop codesHello)) := by
  refine ⟨codesHello_inv, ?_⟩
  rw [step, State.takeTurn, show codesHello.agenda = [] by decide +kernel, State.coreTurn,
    show codesHello.coreEnabled = true by decide +kernel, show codesHello.c = 0#64 by decide +kernel, test_decode_nop]
  dsimp only
  rw [if_pos rfl]
  exact next_after _ _

theorem witness_tableChange :
    exec (.freqAccum 0x61#8) treeHello = .next (after (exec (.freqAccum 0x61#8) treeHello)) ∧
      (after (exec (.freqAccum 0x61#8) treeHello)).freq ≠ treeHello.freq := by
  refine ⟨next_after _ _, fun h => ?_⟩
  exact absurd (congrArg (fun v : Vector Word 256 => v[0x61]) h) (by decide +kernel)

/-- At its start; and HDR_READ from its hold in an entry. -/
theorem witness_invalidTables :
    tableHello.prog = .start ∧ tableHello.treeValid = false ∧ tableHello.codesValid = false ∧
      (∀ x, Instr.hdrRead ≠ .encSym x) ∧ Instr.hdrRead ≠ .encStream ∧ Instr.hdrRead ≠ .decSym ∧
      Instr.hdrRead ≠ .decStream ∧ headerEntryHeld.prog ≠ .start ∧ headerEntryHeld.treeValid = false ∧
      headerEntryHeld.codesValid = false := by
  refine ⟨by decide +kernel, by decide +kernel, by decide +kernel, fun _ => Instr.noConfusion, by decide, by decide, by decide,
    by decide, rfl, rfl⟩

end Sys2Proof.Tests
end

namespace Sys2Proof.Machine

/-! ## Frames of the commands: the next state is the old one but for the named fields -/

theorem execNop_frame {s t : State} (h : execNop s = .next t) : t = s.withProgress t := by
  cases h
  rfl

theorem execFreqClear_frame {s t : State} (h : execFreqClear s = .next t) :
    t = { s.withProgress t with
      freq := t.freq, symCnt := t.symCnt, total := t.total, treeValid := t.treeValid, codesValid := t.codesValid } := by
  cases h
  rfl

theorem execFreqAccum_frame {x : Byte} {s t : State} (h : execFreqAccum x s = .next t) :
    t = { s.withProgress t with
      freq := t.freq, symCnt := t.symCnt, total := t.total, treeValid := t.treeValid, codesValid := t.codesValid
      result0 := t.result0 } := by
  unfold execFreqAccum at h
  split at h <;> cases h <;> rfl

theorem execFreqAccumStream_frame {s t : State} (h : execFreqAccumStream s = .next t) :
    t = { s.withProgress t with
      freq := t.freq, symCnt := t.symCnt, total := t.total, treeValid := t.treeValid, codesValid := t.codesValid
      result0 := t.result0, inFifo := t.inFifo } := by
  cases h
  exact countLoop_progress _ _ _

theorem execFreqLoad_frame {x : Byte} {s t : State} (h : execFreqLoad x s = .next t) :
    t = { s.withProgress t with
      freq := t.freq, symCnt := t.symCnt, total := t.total, treeValid := t.treeValid, codesValid := t.codesValid
      result0 := t.result0 } := by
  unfold execFreqLoad at h
  split at h <;> cases h <;> rfl

theorem execFreqRead_frame {x : Byte} {s t : State} (h : execFreqRead x s = .next t) :
    t = { s.withProgress t with result0 := t.result0 } := by
  cases h
  rfl

theorem execTreeBuild_frame {s t : State} (h : execTreeBuild s = .next t) :
    t = { s.withProgress t with
      node := t.node, root := t.root, nodeCnt := t.nodeCnt, treeValid := t.treeValid, codesValid := t.codesValid
      result0 := t.result0, result1 := t.result1 } := by
  unfold execTreeBuild at h
  split at h <;> cases h <;> rfl

theorem execTreeNode_frame {s t : State} (h : execTreeNode s = .next t) :
    t = { s.withProgress t with result0 := t.result0, result1 := t.result1 } := by
  unfold execTreeNode at h
  split at h
  · cases h; rfl
  · split at h <;> cases h <;> rfl

theorem execCodeGen_frame {s t : State} (h : execCodeGen s = .next t) :
    t = { s.withProgress t with
      code := t.code, codesValid := t.codesValid, result0 := t.result0, result1 := t.result1 } := by
  unfold execCodeGen at h
  split at h <;> cases h <;> rfl

theorem execCodeLookup_frame {x w : Byte} {s t : State} (h : execCodeLookup x w s = .next t) :
    t = { s.withProgress t with result0 := t.result0, result1 := t.result1 } := by
  unfold execCodeLookup at h
  split at h <;> cases h <;> rfl

theorem execWrBits_frame {n : Byte} {s t : State} (h : execWrBits n s = .next t) :
    t = { s.withProgress t with wacc := t.wacc, wk := t.wk, outFifo := t.outFifo } := by
  unfold execWrBits at h
  split at h
  · rename_i todo u hw
    cases h
    rw [writeBits_held_frame _ _ _ _ hw]
    rfl
  · rename_i u hw
    cases h
    rw [writeBits_done_frame _ _ _ hw]
    rfl

theorem execWrFlush_frame {s t : State} (h : execWrFlush s = .next t) :
    t = { s.withProgress t with
      wacc := t.wacc, wk := t.wk, outFifo := t.outFifo, pad := t.pad, result0 := t.result0, result1 := t.result1 } := by
  unfold execWrFlush at h
  split at h
  · cases h; rfl
  · rcases pushWacc_cases s with ⟨-, e⟩ | ⟨-, e⟩ <;> rw [e] at h <;> cases h <;> rfl

theorem execRdBits_frame {n : Byte} {s t : State} (h : execRdBits n s = .next t) :
    t = { s.withProgress t with
      racc := t.racc, rk := t.rk, inFifo := t.inFifo, result0 := t.result0, result1 := t.result1 } := by
  have hf := readBits_frame (n.toNat - s.rdBitsSoFar.2) s.rdBitsSoFar.1 s.rdBitsSoFar.2 s
  unfold execRdBits at h
  split at h <;> rename_i u e <;> rw [e] at hf <;> dsimp only [ReadRes.state] at hf <;> cases h <;> rw [hf] <;> rfl

theorem execRdAlign_frame {s t : State} (h : execRdAlign s = .next t) :
    t = { s.withProgress t with rk := t.rk, result0 := t.result0 } := by
  cases h
  rfl

theorem execRdDrain_frame {s t : State} (h : execRdDrain s = .next t) :
    t = { s.withProgress t with
      rk := t.rk, inFifo := t.inFifo, result0 := t.result0, result1 := t.result1 } := by
  unfold execRdDrain at h
  split at h <;> cases h <;> rw [drainLoop_frame] <;> rfl

/-- HDR_WRITE and ENC_SYM end in `finishWrite` of a run of the writer. -/
theorem finishWrite_frame (r : Word) (bs : List Bool) (s : State) :
    finishWrite r (writeBits bs s) = { s.withProgress (finishWrite r (writeBits bs s)) with
      wacc := (finishWrite r (writeBits bs s)).wacc, wk := (finishWrite r (writeBits bs s)).wk
      outFifo := (finishWrite r (writeBits bs s)).outFifo, result0 := (finishWrite r (writeBits bs s)).result0 } := by
  cases hw : writeBits bs s with
  | done t =>
    rw [writeBits_done_frame _ _ _ hw]
    rfl
  | held todo t =>
    rw [writeBits_held_frame _ _ _ _ hw]
    rfl

theorem execHdrWrite_frame {s t : State} (h : execHdrWrite s = .next t) :
    t = { s.withProgress t with wacc := t.wacc, wk := t.wk, outFifo := t.outFifo, result0 := t.result0 } := by
  unfold execHdrWrite at h
  split at h
  · cases h; exact finishWrite_frame _ _ _
  · split at h
    · cases h; rfl
    · cases h; exact finishWrite_frame _ _ _

theorem execEncSym_frame {x : Byte} {s t : State} (h : execEncSym x s = .next t) :
    t = { s.withProgress t with wacc := t.wacc, wk := t.wk, outFifo := t.outFifo, result0 := t.result0 } := by
  unfold execEncSym at h
  split at h
  · cases h; exact finishWrite_frame _ _ _
  · split at h
    · cases h; rfl
    · split at h
      · cases h; rfl
      · cases h; exact finishWrite_frame _ _ _

theorem execEncStream_frame {s t : State} (h : execEncStream s = .next t) :
    t = { s.withProgress t with
      wacc := t.wacc, wk := t.wk, outFifo := t.outFifo, inFifo := t.inFifo, result0 := t.result0 } := by
  unfold execEncStream at h
  split at h
  · cases h; exact encodeLoop_frame _ _ _
  · split at h
    · rename_i todo u hw
      cases h
      rw [writeBits_held_frame _ _ _ _ hw]
      rfl
    · rename_i u hw
      cases h
      rw [encodeLoop_frame, writeBits_done_frame _ _ _ hw]
      rfl
  · split at h
    · cases h; rfl
    · cases h; exact encodeLoop_frame _ _ _

theorem execHdrRead_frame {s t : State} (h : execHdrRead s = .next t) :
    t = { s.withProgress t with
      freq := t.freq, symCnt := t.symCnt, total := t.total, treeValid := t.treeValid, codesValid := t.codesValid
      racc := t.racc, rk := t.rk, inFifo := t.inFifo, result0 := t.result0, result1 := t.result1 } := by
  unfold execHdrRead at h
  split at h
  · split at h
    · cases h; exact readHeader_frame _ _
    · cases h; exact readEntries_frame _ _ _
  · cases h
    exact readHeader_frame _ _

theorem finishDecSym_frame (n : Nat) (p : DecPoint) (s : State) :
    finishDecSym (decodeOne n p s) = { s.withProgress (finishDecSym (decodeOne n p s)) with
      racc := (finishDecSym (decodeOne n p s)).racc, rk := (finishDecSym (decodeOne n p s)).rk
      inFifo := (finishDecSym (decodeOne n p s)).inFifo, budget := (finishDecSym (decodeOne n p s)).budget
      result0 := (finishDecSym (decodeOne n p s)).result0, result1 := (finishDecSym (decodeOne n p s)).result1 } := by
  have hf := decodeOne_frame n p s
  cases e : decodeOne n p s <;> rw [e] at hf <;> dsimp only [DecRes.state] at hf <;> rw [hf] <;> rfl

theorem execDecSym_frame {s t : State} (h : execDecSym s = .next t) :
    t = { s.withProgress t with
      racc := t.racc, rk := t.rk, inFifo := t.inFifo, budget := t.budget
      result0 := t.result0, result1 := t.result1 } := by
  unfold execDecSym at h
  split at h
  · cases h; exact finishDecSym_frame _ _ _
  · split at h
    · cases h; rfl
    · cases h; exact finishDecSym_frame _ _ _

theorem execDecStream_frame {s t : State} (h : execDecStream s = .next t) :
    t = { s.withProgress t with
      racc := t.racc, rk := t.rk, inFifo := t.inFifo, budget := t.budget, outFifo := t.outFifo
      result0 := t.result0, result1 := t.result1 } := by
  unfold execDecStream at h
  split at h
  · cases h; exact decodeLoop_frame _ _ _ _
  · split at h
    · cases h; rfl
    · rename_i u hp
      cases h
      rw [decodeFrom_frame, (outPush_frame _ _ _ hp).1]
      rfl
  · split at h
    · cases h; rfl
    · cases h; exact decodeFrom_frame _ _ _

end Sys2Proof.Machine

namespace Sys2Proof.Machine

/-! ## What a command keeps, whatever it is -/

/-- The parameters, CTRL, CMD_OVR, IN_OVF, ARG0, the latched C and A, and the outside world's record. -/
def State.hostPart (s : State) :
    Params × Bool × Bool × Bool × Bool × Word × Word × Word × List Turn × List Word × Nat :=
  (s.params, s.ieDone, s.ieErr, s.cmdOvr, s.inOvf, s.arg0, s.c, s.a, s.agenda, s.busReads, s.draws)

/-- All that V1 to V4 speak of: FREQ with SYMCNT and TOTAL, the tree, the codes and the two valid bits. -/
def State.tablePart (s : State) :
    Vector Word 256 × BitVec 9 × Word × Bool × Bool × Vector Node 511 × BitVec 9 × BitVec 10 ×
      Vector Code 256 :=
  (s.freq, s.symCnt, s.total, s.treeValid, s.codesValid, s.node, s.root, s.nodeCnt, s.code)

/-- WACC and WK. -/
def State.writerPart (s : State) : Byte × BitVec 4 := (s.wacc, s.wk)

/-- The commands that write FREQ, NODE or CODE, or what belongs to them. -/
def changesTables : Instr → Bool
  | .freqClear | .freqAccum _ | .freqAccumStream | .freqLoad _ | .treeBuild | .codeGen | .hdrRead => true
  | _ => false

/-- The commands that move the bit writer. -/
def movesWriter : Instr → Bool
  | .wrBits _ | .wrFlush | .hdrWrite | .encSym _ | .encStream => true
  | _ => false

/-- The commands that move the bit reader. -/
def movesReader : Instr → Bool
  | .rdBits _ | .rdAlign | .rdDrain | .hdrRead | .decSym | .decStream => true
  | _ => false

/-- Command i, from s to t, keeps the host's part, and the tables, the writer and RK unless it is one of those that
move them. -/
structure KeptBy (i : Instr) (s t : State) : Prop where
  host : t.hostPart = s.hostPart
  tables : changesTables i = false → t.tablePart = s.tablePart
  writer : movesWriter i = false → t.writerPart = s.writerPart
  rk : movesReader i = false → t.rk = s.rk

/-- Of a command's frame only the equation of each part is needed. -/
theorem keptBy_of_frame {i : Instr} {s t u : State} (e : t = u) (host : u.hostPart = s.hostPart)
    (tables : changesTables i = false → u.tablePart = s.tablePart)
    (writer : movesWriter i = false → u.writerPart = s.writerPart)
    (rk : movesReader i = false → u.rk = s.rk) : KeptBy i s t :=
  e ▸ ⟨host, tables, writer, rk⟩

theorem exec_keptBy {i : Instr} {s t : State} (h : exec i s = .next t) : KeptBy i s t := by
  cases i with
  | nop => exact keptBy_of_frame (execNop_frame h) rfl (fun _ => rfl) (fun _ => rfl) (fun _ => rfl)
  | freqClear => exact keptBy_of_frame (execFreqClear_frame h) rfl nofun (fun _ => rfl) (fun _ => rfl)
  | freqAccum x => exact keptBy_of_frame (execFreqAccum_frame h) rfl nofun (fun _ => rfl) (fun _ => rfl)
  | freqAccumStream => exact keptBy_of_frame (execFreqAccumStream_frame h) rfl nofun (fun _ => rfl) (fun _ => rfl)
  | freqLoad x => exact keptBy_of_frame (execFreqLoad_frame h) rfl nofun (fun _ => rfl) (fun _ => rfl)
  | freqRead x => exact keptBy_of_frame (execFreqRead_frame h) rfl (fun _ => rfl) (fun _ => rfl) (fun _ => rfl)
  | wrBits n => exact keptBy_of_frame (execWrBits_frame h) rfl (fun _ => rfl) nofun (fun _ => rfl)
  | wrFlush => exact keptBy_of_frame (execWrFlush_frame h) rfl (fun _ => rfl) nofun (fun _ => rfl)
  | rdBits n => exact keptBy_of_frame (execRdBits_frame h) rfl (fun _ => rfl) (fun _ => rfl) nofun
  | rdAlign => exact keptBy_of_frame (execRdAlign_frame h) rfl (fun _ => rfl) (fun _ => rfl) nofun
  | rdDrain => exact keptBy_of_frame (execRdDrain_frame h) rfl (fun _ => rfl) (fun _ => rfl) nofun
  | treeBuild => exact keptBy_of_frame (execTreeBuild_frame h) rfl nofun (fun _ => rfl) (fun _ => rfl)
  | treeNode => exact keptBy_of_frame (execTreeNode_frame h) rfl (fun _ => rfl) (fun _ => rfl) (fun _ => rfl)
  | codeGen => exact keptBy_of_frame (execCodeGen_frame h) rfl nofun (fun _ => rfl) (fun _ => rfl)
  | codeLookup x w => exact keptBy_of_frame (execCodeLookup_frame h) rfl (fun _ => rfl) (fun _ => rfl) (fun _ => rfl)
  | hdrWrite => exact keptBy_of_frame (execHdrWrite_frame h) rfl (fun _ => rfl) nofun (fun _ => rfl)
  | encSym x => exact keptBy_of_frame (execEncSym_frame h) rfl (fun _ => rfl) nofun (fun _ => rfl)
  | encStream => exact keptBy_of_frame (execEncStream_frame h) rfl (fun _ => rfl) nofun (fun _ => rfl)
  | hdrRead => exact keptBy_of_frame (execHdrRead_frame h) rfl nofun (fun _ => rfl) nofun
  | decSym => exact keptBy_of_frame (execDecSym_frame h) rfl (fun _ => rfl) (fun _ => rfl) nofun
  | decStream => exact keptBy_of_frame (execDecStream_frame h) rfl (fun _ => rfl) (fun _ => rfl) nofun

/-- Settles O53: no command's frame names a field of the host's part. -/
theorem commandsKeepHostState : Obligations.CommandsKeepHostState := by
  intro i s t h
  simpa only [State.hostPart, Prod.mk.injEq] using (exec_keptBy h).host

end Sys2Proof.Machine

namespace Sys2Proof.Machine

/-! ## The error record: a command leaves it alone or ends in its one error (60_exceptions R253) -/

/-- ERR, ERRCODE and ERRINFO. -/
def State.errPart (s : State) : Bool × Byte × Word := (s.err, s.errCode, s.errInfo)

/-- From s to t the error record stays, or the command is over with an error. -/
def ErrKept (s t : State) : Prop := t.errPart = s.errPart ∨ (t.err = true ∧ t.prog = .none)

theorem raise_errKept (s u : State) (e : ErrKind) (info : Word) : ErrKept s (u.raise e info) := .inr ⟨rfl, rfl⟩

theorem ErrKept.after {s u t : State} (h : u.errPart = s.errPart) (g : ErrKept u t) : ErrKept s t := by
  unfold ErrKept at *
  rwa [h] at g

theorem countLoop_errKept (ts : List Token) (n : Nat) (s : State) : ErrKept s (countLoop ts n s) := by
  induction ts generalizing n s with
  | nil => exact .inl rfl
  | cons t ts ih =>
    cases t with
    | fin => rw [countLoop]; split; exacts [raise_errKept _ _ _ _, .inl rfl]
    | byte b => rw [countLoop]; split; exacts [raise_errKept _ _ _ _, (ih _ (s.accumulate b)).after rfl]

theorem drainLoop_errKept (ts : List Token) (n : Nat) (s : State) : ErrKept s (drainLoop ts n s) := by
  induction ts generalizing n s with
  | nil => exact .inl rfl
  | cons t ts ih =>
    cases t with
    | fin => exact .inl rfl
    | byte b => exact ih _ s

theorem writeBits_errPart (bs : List Bool) (s : State) : (writeBits bs s).state.errPart = s.errPart := by
  rw [writeBits_frame]
  rfl

theorem encodeLoop_errKept (ts : List Token) (n : Nat) (s : State) : ErrKept s (encodeLoop ts n s) := by
  induction ts generalizing n s with
  | nil => exact .inl rfl
  | cons t ts ih =>
    cases t with
    | fin => exact .inl rfl
    | byte b =>
      have hw := writeBits_errPart (s.codeAt b).path (s.popped ts)
      rw [encodeLoop]
      split
      · exact raise_errKept _ _ _ _
      · split
        · rename_i e; rw [e] at hw; exact .inl hw
        · rename_i e; rw [e] at hw; exact (ih _ _).after hw

theorem readBytes_errPart (m : Nat) (h : HdrPoint) (s : State) : (readBytes m h s).state.errPart = s.errPart := by
  rw [readBytes_frame]
  rfl

theorem readEntries_errKept (m : Nat) (h : HdrPoint) (s : State) : ErrKept s (readEntries m h s) := by
  induction m generalizing h s with
  | zero => exact .inl rfl
  | succ m ih =>
    have hr := readBytes_errPart (9 - h.got.length) h s
    rw [readEntries]
    split
    · rename_i e; rw [e] at hr; exact .inl hr
    · exact raise_errKept _ _ _ _
    · rename_i h' t e
      rw [e] at hr
      split
      · exact raise_errKept _ _ _ _
      · exact (ih _ (t.loadEntry _ _)).after hr

theorem readHeader_errKept (h : HdrPoint) (s : State) : ErrKept s (readHeader h s) := by
  have hr := readBytes_errPart (4 - h.got.length) h s
  rw [readHeader]
  split
  · rename_i e; rw [e] at hr; exact .inl hr
  · exact raise_errKept _ _ _ _
  · rename_i e
    rw [e] at hr
    split
    · exact raise_errKept _ _ _ _
    · split
      · exact raise_errKept _ _ _ _
      · exact (readEntries_errKept _ _ _).after hr

theorem decodeOne_errPart (n : Nat) (p : DecPoint) (s : State) : (decodeOne n p s).state.errPart = s.errPart := by
  rw [decodeOne_frame]
  rfl

theorem outPush_errPart {s t : State} {b : Byte} (h : s.outPush b = some t) : t.errPart = s.errPart := by
  rw [(outPush_frame _ _ _ h).1]
  rfl

theorem decodeLoop_errKept (turns count : Nat) (p : DecPoint) (s : State) : ErrKept s (decodeLoop turns count p s) := by
  induction turns generalizing count p s with
  | zero => exact .inl rfl
  | succ turns ih =>
    have hd := decodeOne_errPart s.budget.toNat p s
    rw [decodeLoop]
    split
    · rename_i e; rw [e] at hd; exact .inl hd
    · exact raise_errKept _ _ _ _
    · rename_i e
      rw [e] at hd
      split
      · exact .inl hd
      · rename_i hp
        have hu := (outPush_errPart hp).trans hd
        split
        · exact .inl hu
        · exact (ih _ _ _).after hu

theorem decodeFrom_errKept (s : State) (count used : Nat) : ErrKept s (s.decodeFrom count used) := by
  unfold State.decodeFrom
  split
  · exact .inl rfl
  · exact decodeLoop_errKept _ _ _ _

/-! ## Runs: from the state a CORE step finds to the state it leaves (20_memory R86) -/

/-- u is met on the way of a command that began this step in s: only the ports have moved, of what the end of the step
is judged by. -/
structure MidRun (s u : State) : Prop where
  ports : PortsMoved s u
  errs : u.errPart = s.errPart
  busy : u.busy = s.busy
  done : u.done = s.done
  waitIn : s.waitIn = false → u.waitIn = false
  waitOut : s.waitOut = false → u.waitOut = false

/-- A step of command i from s ends in t: in a completion, with or without an error, or in a hold that is its own. -/
structure RunTo (i : Instr) (s t : State) : Prop where
  ports : PortsMoved s t
  ends : s.EndsFrom t
  errs : ErrKept s t
  fits : progFits i t.prog = true

/-- The ports, the flags of completion and waiting, and the error record. -/
def State.controlPart (s : State) :
    Params × List Token × List Byte × (Bool × Byte × Word) × Bool × Bool × Bool × Bool :=
  (s.params, s.inFifo, s.outFifo, s.errPart, s.busy, s.done, s.waitIn, s.waitOut)

theorem midRun_same {s u : State} (h : u.controlPart = s.controlPart) : MidRun s u := by
  simp only [State.controlPart, Prod.mk.injEq] at h
  obtain ⟨hp, hi, ho, he, hb, hd, hwi, hwo⟩ := h
  exact ⟨portsMoved_same hi ho hp, he, hb, hd, fun h => hwi.trans h, fun h => hwo.trans h⟩

theorem MidRun.trans {s u v : State} (h : MidRun s u) (g : MidRun u v) : MidRun s v :=
  ⟨portsMoved_trans h.ports g.ports, g.errs.trans h.errs, g.busy.trans h.busy, g.done.trans h.done,
    fun hw => g.waitIn (h.waitIn hw), fun hw => g.waitOut (h.waitOut hw)⟩

theorem RunTo.after {i : Instr} {s u t : State} (m : MidRun s u) (r : RunTo i u t) : RunTo i s t :=
  ⟨portsMoved_trans m.ports r.ports, EndsFrom.mono m.busy m.done m.waitIn m.waitOut r.ends, r.errs.after m.errs,
    r.fits⟩

theorem progFits_none (i : Instr) : progFits i .none = true := by cases i <;> rfl

/-! ### The four ends of a run -/

theorem RunTo.complete {i : Instr} {s u : State} (m : MidRun s u) : RunTo i s u.complete :=
  .after m ⟨portsMoved_same rfl rfl rfl, complete_ends _ _, .inl rfl, progFits_none i⟩

theorem RunTo.raise {i : Instr} {s u : State} {e : ErrKind} {info : Word} (m : MidRun s u) :
    RunTo i s (u.raise e info) :=
  .after m ⟨portsMoved_same rfl rfl rfl, raise_ends _ _ _ _, raise_errKept _ _ _ _, progFits_none i⟩

theorem RunTo.holdIn {i : Instr} {s u : State} {p : Prog} (m : MidRun s u) (hi : u.inFifo = [])
    (hp : p ≠ .none ∧ p ≠ .start) (fits : progFits i p = true) : RunTo i s (u.holdIn p) :=
  .after m ⟨portsMoved_same rfl rfl rfl, holdIn_ends _ _ _ hp rfl rfl hi id, .inl rfl, fits⟩

theorem RunTo.holdOut {i : Instr} {s u : State} {p : Prog} (m : MidRun s u) (ho : u.outFull = true)
    (hp : p ≠ .none ∧ p ≠ .start) (fits : progFits i p = true) : RunTo i s (u.holdOut p) :=
  .after m ⟨portsMoved_same rfl rfl rfl, holdOut_ends _ _ _ hp rfl rfl ho id, .inl rfl, fits⟩

/-! ### Runs of the writer and the reader -/

theorem writeBits_midRun (bs : List Bool) (s : State) : MidRun s (writeBits bs s).state where
  ports := portsMoved_writeBits bs s
  errs := writeBits_errPart bs s
  busy := by rw [writeBits_frame]
  done := by rw [writeBits_frame]
  waitIn := by rw [writeBits_frame]; exact id
  waitOut := writeBits_waitOut bs s

theorem readBits_midRun (left r k : Nat) (s : State) : MidRun s (readBits left r k s).state where
  ports := portsMoved_readBits left r k s
  errs := by rw [readBits_frame]; rfl
  busy := by rw [readBits_frame]
  done := by rw [readBits_frame]
  waitIn := readBits_waitIn left r k s
  waitOut := by rw [readBits_frame]; exact id

theorem decodeOne_midRun (n : Nat) (p : DecPoint) (s : State) : MidRun s (decodeOne n p s).state where
  ports := portsMoved_decodeOne n p s
  errs := decodeOne_errPart n p s
  busy := by rw [decodeOne_frame]
  done := by rw [decodeOne_frame]
  waitIn := decodeOne_waitIn n p s
  waitOut := by rw [decodeOne_frame]; exact id

theorem outPush_midRun {s t : State} {b : Byte} (h : s.outPush b = some t) : MidRun s t where
  ports := portsMoved_push h
  errs := outPush_errPart h
  busy := by rw [(outPush_frame _ _ _ h).1]
  done := by rw [(outPush_frame _ _ _ h).1]
  waitIn := by rw [(outPush_frame _ _ _ h).1]; exact id
  waitOut := by rw [(outPush_frame _ _ _ h).1]; exact fun _ => rfl

/-! ### Runs of the commands -/

theorem execFreqAccum_runTo {x : Byte} {s t : State} (h : execFreqAccum x s = .next t) : RunTo (.freqAccum x) s t := by
  unfold execFreqAccum at h
  split at h <;> cases h
  · exact .raise (midRun_same rfl)
  · exact .complete (midRun_same rfl)

theorem execFreqAccumStream_runTo {s t : State} (h : execFreqAccumStream s = .next t) :
    RunTo .freqAccumStream s t := by
  cases h
  exact ⟨portsMoved_count _ _ _ [] rfl, countLoop_ends _ _ _, countLoop_errKept _ _ _, progFits_countLoop _ _ _⟩

theorem execFreqLoad_runTo {x : Byte} {s t : State} (h : execFreqLoad x s = .next t) : RunTo (.freqLoad x) s t := by
  unfold execFreqLoad at h
  split at h <;> cases h
  · exact .raise (midRun_same rfl)
  · exact .complete (midRun_same rfl)

theorem execWrBits_runTo {n : Byte} {s t : State} (h : execWrBits n s = .next t) : RunTo (.wrBits n) s t := by
  have hm := writeBits_midRun (s.wrBitsTodo n) s
  unfold execWrBits at h
  split at h <;> rename_i hw <;> rw [hw] at hm <;> cases h
  · exact .holdOut hm (writeBits_heldFull _ _ _ _ hw) (by simp) rfl
  · exact .complete hm

theorem execWrFlush_runTo {s t : State} (h : execWrFlush s = .next t) : RunTo .wrFlush s t := by
  unfold execWrFlush at h
  split at h
  · cases h; exact .complete (midRun_same rfl)
  · unfold State.pushWacc at h
    cases hp : s.outPush s.wacc with
    | none =>
      rw [hp] at h
      cases h
      exact .holdOut (midRun_same rfl) (outPush_none _ _ hp) (by simp) rfl
    | some u =>
      rw [hp] at h
      cases h
      exact .complete ((outPush_midRun hp).trans (midRun_same rfl))

theorem execRdBits_runTo {n : Byte} {s t : State} (h : execRdBits n s = .next t) : RunTo (.rdBits n) s t := by
  have hm := readBits_midRun (n.toNat - s.rdBitsSoFar.2) s.rdBitsSoFar.1 s.rdBitsSoFar.2 s
  unfold execRdBits at h
  split at h <;> rename_i e <;> rw [e] at hm <;> cases h
  · exact .holdIn hm (readBits_heldEmpty _ _ _ _ _ _ _ e) (by simp) rfl
  · exact .raise (hm.trans (midRun_same rfl))
  · exact .complete (hm.trans (midRun_same rfl))

theorem drainLoop_runTo {ts : List Token} (d : Nat) {s : State} (h : s.inFifo = ts) :
    RunTo .rdDrain s (drainLoop ts d s) :=
  ⟨portsMoved_drain _ _ _ [] h, drainLoop_ends _ _ _, drainLoop_errKept _ _ _, progFits_drainLoop _ _ _⟩

theorem execRdDrain_runTo {s t : State} (h : execRdDrain s = .next t) : RunTo .rdDrain s t := by
  unfold execRdDrain at h
  split at h <;> cases h
  · exact drainLoop_runTo _ rfl
  · exact .after (midRun_same (u := { s with result1 := s.rk.setWidth 64, rk := 0#4 }) rfl) (drainLoop_runTo 0 rfl)

theorem execTreeBuild_runTo {s t : State} (h : execTreeBuild s = .next t) : RunTo .treeBuild s t := by
  unfold execTreeBuild at h
  split at h <;> cases h
  · exact .raise (midRun_same rfl)
  · exact .complete (midRun_same rfl)

theorem execTreeNode_runTo {s t : State} (h : execTreeNode s = .next t) : RunTo .treeNode s t := by
  unfold execTreeNode at h
  split at h
  · cases h; exact .raise (midRun_same rfl)
  · split at h <;> cases h
    · exact .raise (midRun_same rfl)
    · exact .complete (midRun_same rfl)

theorem execCodeGen_runTo {s t : State} (h : execCodeGen s = .next t) : RunTo .codeGen s t := by
  unfold execCodeGen at h
  split at h <;> cases h
  · exact .raise (midRun_same rfl)
  · exact .complete (midRun_same rfl)

theorem execCodeLookup_runTo {x w : Byte} {s t : State} (h : execCodeLookup x w s = .next t) :
    RunTo (.codeLookup x w) s t := by
  unfold execCodeLookup at h
  split at h <;> cases h
  · exact .raise (midRun_same rfl)
  · exact .complete (midRun_same rfl)

/-- The common end of HDR_WRITE and ENC_SYM, whose only hold is inside the writer. -/
theorem finishWrite_runTo {i : Instr} (fits : ∀ todo, progFits i (.writing todo) = true) (r : Word) (bs : List Bool)
    (s : State) : RunTo i s (finishWrite r (writeBits bs s)) := by
  have hm := writeBits_midRun bs s
  cases hw : writeBits bs s with
  | done t => rw [hw] at hm; exact .complete (hm.trans (midRun_same rfl))
  | held todo t => rw [hw] at hm; exact .holdOut hm (writeBits_heldFull _ _ _ _ hw) (by simp) (fits todo)

theorem execHdrWrite_runTo {s t : State} (h : execHdrWrite s = .next t) : RunTo .hdrWrite s t := by
  unfold execHdrWrite at h
  split at h
  · cases h; exact finishWrite_runTo (fun _ => rfl) _ _ _
  · split at h <;> cases h
    · exact .raise (midRun_same rfl)
    · exact finishWrite_runTo (fun _ => rfl) _ _ _

theorem execEncSym_runTo {x : Byte} {s t : State} (h : execEncSym x s = .next t) : RunTo (.encSym x) s t := by
  unfold execEncSym at h
  split at h
  · cases h; exact finishWrite_runTo (fun _ => rfl) _ _ _
  · split at h
    · cases h; exact .raise (midRun_same rfl)
    · split at h <;> cases h
      · exact .raise (midRun_same rfl)
      · exact finishWrite_runTo (fun _ => rfl) _ _ _

theorem encodeLoop_runTo (n : Nat) (s : State) : RunTo .encStream s (encodeLoop s.inFifo n s) :=
  ⟨portsMoved_encode _ _ _ rfl, encodeLoop_ends _ _ _, encodeLoop_errKept _ _ _, progFits_encodeLoop _ _ _⟩

theorem execEncStream_runTo {s t : State} (h : execEncStream s = .next t) : RunTo .encStream s t := by
  unfold execEncStream at h
  split at h
  · cases h; exact encodeLoop_runTo _ s
  · rename_i n todo _
    have hm := writeBits_midRun todo s
    split at h <;> rename_i hw <;> rw [hw] at hm <;> cases h
    · exact .holdOut hm (writeBits_heldFull _ _ _ _ hw) (by simp) rfl
    · exact .after hm (encodeLoop_runTo _ _)
  · split at h <;> cases h
    · exact .raise (midRun_same rfl)
    · exact encodeLoop_runTo _ s

theorem readHeader_runTo (h : HdrPoint) (s : State) : RunTo .hdrRead s (readHeader h s) :=
  ⟨portsMoved_header _ _, readHeader_ends _ _, readHeader_errKept _ _, progFits_readHeader _ _⟩

theorem execHdrRead_runTo {s t : State} (h : execHdrRead s = .next t) : RunTo .hdrRead s t := by
  unfold execHdrRead at h
  split at h
  · split at h <;> cases h
    · exact readHeader_runTo _ s
    · exact ⟨portsMoved_entries _ _ _, readEntries_ends _ _ _, readEntries_errKept _ _ _,
        progFits_readEntries _ _ _⟩
  · cases h
    exact .after (midRun_same (u := s.clearTable) rfl) (readHeader_runTo _ _)

theorem finishDecSym_runTo (n : Nat) (p : DecPoint) (s : State) : RunTo .decSym s (finishDecSym (decodeOne n p s)) := by
  have hm := decodeOne_midRun n p s
  cases e : decodeOne n p s with
  | held p' t => rw [e] at hm; exact .holdIn hm (decodeOne_heldEmpty _ _ _ _ _ e) (by simp) rfl
  | err k info used t => rw [e] at hm; exact .raise hm
  | sym x used t => rw [e] at hm; exact .complete (hm.trans (midRun_same rfl))

theorem execDecSym_runTo {s t : State} (h : execDecSym s = .next t) : RunTo .decSym s t := by
  unfold execDecSym at h
  split at h
  · cases h; exact finishDecSym_runTo _ _ _
  · split at h <;> cases h
    · exact .raise (midRun_same rfl)
    · exact finishDecSym_runTo _ _ _

theorem decodeFrom_runTo (s : State) (count used : Nat) : RunTo .decStream s (s.decodeFrom count used) :=
  ⟨portsMoved_dfrom _ _ _, decodeFrom_ends _ _ _, decodeFrom_errKept _ _ _, progFits_decodeFrom _ _ _⟩

theorem execDecStream_runTo {s t : State} (h : execDecStream s = .next t) : RunTo .decStream s t := by
  unfold execDecStream at h
  split at h
  · cases h
    exact ⟨portsMoved_dloop _ _ _ _, decodeLoop_ends _ _ _ _, decodeLoop_errKept _ _ _ _,
      progFits_decodeLoop _ _ _ _⟩
  · split at h <;> rename_i hp <;> cases h
    · exact .holdOut (midRun_same rfl) (outPush_none _ _ hp) (by simp) rfl
    · exact .after (outPush_midRun hp) (decodeFrom_runTo _ _ _)
  · split at h <;> cases h
    · exact .raise (midRun_same rfl)
    · exact decodeFrom_runTo _ _ _

/-- Every command's step ends in its completion or in a hold that is its own. -/
theorem exec_runTo {i : Instr} {s t : State} (h : exec i s = .next t) : RunTo i s t := by
  cases i with
  | nop | freqClear | freqRead | rdAlign => cases h; exact .complete (midRun_same rfl)
  | freqAccum x => exact execFreqAccum_runTo h
  | freqAccumStream => exact execFreqAccumStream_runTo h
  | freqLoad x => exact execFreqLoad_runTo h
  | wrBits n => exact execWrBits_runTo h
  | wrFlush => exact execWrFlush_runTo h
  | rdBits n => exact execRdBits_runTo h
  | rdDrain => exact execRdDrain_runTo h
  | treeBuild => exact execTreeBuild_runTo h
  | treeNode => exact execTreeNode_runTo h
  | codeGen => exact execCodeGen_runTo h
  | codeLookup x w => exact execCodeLookup_runTo h
  | hdrWrite => exact execHdrWrite_runTo h
  | encSym x => exact execEncSym_runTo h
  | encStream => exact execEncStream_runTo h
  | hdrRead => exact execHdrRead_runTo h
  | decSym => exact execDecSym_runTo h
  | decStream => exact execDecStream_runTo h

end Sys2Proof.Machine

namespace Sys2Proof.Machine

/-! ## The accumulators over a whole command (10_state R54, R55, R60 V5) -/

/-- V5 of the accumulators where a full byte may wait in OutPush. -/
structure AccWide (s : State) : Prop where
  wk : s.wk.toNat ≤ 8
  low : s.AccLow
  rk : s.rk.toNat ≤ 8

/-- V5 of the accumulators where none waits: WK ≤ 7. -/
structure AccIdle (s : State) : Prop where
  wk : s.wk.toNat ≤ 7
  low : s.AccLow
  rk : s.rk.toNat ≤ 8

/-- All that `AccWide` and `AccIdle` speak of. -/
def State.accPart (s : State) : (Byte × BitVec 4) × BitVec 4 := (s.writerPart, s.rk)

theorem State.AccOk.wide {s : State} (h : s.AccOk) : AccWide s := by
  obtain ⟨hwk, -, hlow, hrk⟩ := h
  exact ⟨hwk, hlow, hrk⟩

theorem State.AccOk.idle {s : State} (h : s.AccOk) (hp : s.prog.isWriting = false) : AccIdle s := by
  obtain ⟨hwk, h8, hlow, hrk⟩ := h
  rw [hp] at h8
  exact ⟨Nat.le_of_lt_succ (Nat.lt_of_le_of_ne hwk fun e => nomatch h8 e), hlow, hrk⟩

theorem AccWide.accOk {u t : State} (h : AccWide u) (e : t.accPart = u.accPart) (hp : t.prog.isWriting = true) :
    t.AccOk := by
  obtain ⟨hwk, hlow, hrk⟩ := h
  simp only [State.accPart, State.writerPart, Prod.mk.injEq] at e
  obtain ⟨⟨ea, ek⟩, er⟩ := e
  unfold State.AccOk State.AccLow
  rw [ea, ek, er]
  exact ⟨hwk, fun _ => hp, hlow, hrk⟩

theorem AccIdle.accOk {u t : State} (h : AccIdle u) (e : t.accPart = u.accPart) : t.AccOk := by
  obtain ⟨hwk, hlow, hrk⟩ := h
  simp only [State.accPart, State.writerPart, Prod.mk.injEq] at e
  obtain ⟨⟨ea, ek⟩, er⟩ := e
  unfold State.AccOk State.AccLow
  rw [ea, ek, er]
  exact ⟨by omega, by omega, hlow, hrk⟩

theorem writeBits_accIdle {bs : List Bool} {s t : State} (h : AccWide s) (e : writeBits bs s = .done t) : AccIdle t := by
  obtain ⟨hwk, hlow, hrk⟩ := h
  obtain ⟨-, hwk', hlow'⟩ := writeBits_done _ _ _ hwk hlow e
  exact ⟨hwk', hlow', by rw [writeBits_done_frame _ _ _ e]; exact hrk⟩

theorem writeBits_accWide {bs todo : List Bool} {s t : State} (h : AccWide s) (e : writeBits bs s = .held todo t) :
    AccWide t := by
  obtain ⟨hwk, hlow, hrk⟩ := h
  obtain ⟨-, hwk', hlow', -⟩ := writeBits_held _ _ _ _ hwk hlow e
  exact ⟨by rw [hwk']; decide, hlow', by rw [writeBits_held_frame _ _ _ _ e]; exact hrk⟩

theorem finishWrite_accOk (r : Word) (bs : List Bool) {s : State} (h : AccWide s) :
    (finishWrite r (writeBits bs s)).AccOk := by
  cases e : writeBits bs s with
  | done t => exact (writeBits_accIdle h e).accOk rfl
  | held todo t => exact (writeBits_accWide h e).accOk rfl rfl

theorem encodeLoop_accIdle (ts : List Token) (n : Nat) {s : State} (h : AccIdle s) : (encodeLoop ts n s).AccOk :=
  encodeLoop_accOk ts n s h.wk h.low h.rk

/-- The empty writer. -/
theorem accIdle_empty {u : State} (hw : u.writerPart = (0#8, 0#4)) (hr : u.rk.toNat ≤ 8) : AccIdle u := by
  simp only [State.writerPart, Prod.mk.injEq] at hw
  obtain ⟨ha, hk⟩ := hw
  exact ⟨by simp [hk], fun i _ => by simp [ha], hr⟩

/-! ### Who stands inside `writeBits` -/

theorem isWriting_false {p : Prog} (h1 : ∀ todo, p ≠ .writing todo) (h2 : ∀ n todo, p ≠ .encodeBits n todo) :
    p.isWriting = false := by
  cases p with
  | writing todo => exact absurd rfl (h1 todo)
  | encodeBits n todo => exact absurd rfl (h2 n todo)
  | _ => rfl

theorem writing_misfit {i : Instr} {p : Prog} (fits : progFits i p = true) (h : progFits i (.writing []) = false)
    (todo : List Bool) : p ≠ .writing todo := by
  rintro rfl
  rw [show progFits i (.writing todo) = progFits i (.writing []) by cases i <;> rfl, h] at fits
  cases fits

theorem encodeBits_misfit {i : Instr} {p : Prog} (fits : progFits i p = true)
    (h : progFits i (.encodeBits 0 []) = false) (n : Nat) (todo : List Bool) : p ≠ .encodeBits n todo := by
  rintro rfl
  rw [show progFits i (.encodeBits n todo) = progFits i (.encodeBits 0 []) by cases i <;> rfl, h] at fits
  cases fits

/-- A command that does not move the writer never stands inside it. -/
theorem isWriting_of_fits {i : Instr} (hi : movesWriter i = false) {p : Prog} (fits : progFits i p = true) :
    p.isWriting = false :=
  have none : progFits i (.writing []) = false ∧ progFits i (.encodeBits 0 []) = false := by
    cases i with
    | wrBits _ | wrFlush | hdrWrite | encSym _ | encStream => cases hi
    | _ => exact ⟨rfl, rfl⟩
  isWriting_false (writing_misfit fits none.1) (encodeBits_misfit fits none.2)

/-! ### The commands that move the writer -/

theorem execWrBits_accOk {n : Byte} {s t : State} (h : execWrBits n s = .next t) (ha : s.AccOk) : t.AccOk := by
  unfold execWrBits at h
  split at h <;> rename_i e <;> cases h
  · exact (writeBits_accWide ha.wide e).accOk rfl rfl
  · exact (writeBits_accIdle ha.wide e).accOk rfl

theorem execWrFlush_accOk {s t : State} (h : execWrFlush s = .next t) (ha : AccIdle s) : t.AccOk := by
  unfold execWrFlush at h
  split at h
  · cases h; exact ha.accOk rfl
  · rcases pushWacc_cases s with ⟨-, e⟩ | ⟨-, e⟩ <;> rw [e] at h <;> cases h
    · exact ha.accOk rfl
    · exact (accIdle_empty (u := { s with wacc := 0, wk := 0 }) rfl ha.rk).accOk rfl

theorem execHdrWrite_accOk {s t : State} (h : execHdrWrite s = .next t) (ha : s.AccOk)
    (fits : progFits .hdrWrite s.prog = true) : t.AccOk := by
  unfold execHdrWrite at h
  split at h
  · cases h; exact finishWrite_accOk _ _ ha.wide
  · rename_i hp
    split at h <;> cases h
    · exact (ha.idle (isWriting_false hp (encodeBits_misfit fits rfl))).accOk rfl
    · exact finishWrite_accOk _ _ ha.wide

theorem execEncSym_accOk {x : Byte} {s t : State} (h : execEncSym x s = .next t) (ha : s.AccOk)
    (fits : progFits (.encSym x) s.prog = true) : t.AccOk := by
  unfold execEncSym at h
  split at h
  · cases h; exact finishWrite_accOk _ _ ha.wide
  · rename_i hp
    have hi := ha.idle (isWriting_false hp (encodeBits_misfit fits rfl))
    split at h
    · cases h; exact hi.accOk rfl
    · split at h <;> cases h
      · exact hi.accOk rfl
      · exact finishWrite_accOk _ _ ha.wide

theorem execEncStream_accOk {s t : State} (h : execEncStream s = .next t) (ha : s.AccOk)
    (fits : progFits .encStream s.prog = true) : t.AccOk := by
  unfold execEncStream at h
  split at h
  · rename_i n hp
    cases h
    exact encodeLoop_accIdle _ _ (ha.idle (by rw [hp]; rfl))
  · split at h <;> rename_i e <;> cases h
    · exact (writeBits_accWide ha.wide e).accOk rfl rfl
    · exact encodeLoop_accIdle _ _ (writeBits_accIdle ha.wide e)
  · rename_i hb
    have hi := ha.idle (isWriting_false (writing_misfit fits rfl) hb)
    split at h <;> cases h
    · exact hi.accOk rfl
    · exact encodeLoop_accIdle _ _ hi

/-! ### The commands that move the reader -/

theorem execRdBits_rk {n : Byte} {s t : State} (h : execRdBits n s = .next t) (hk : s.rk.toNat ≤ 8) :
    t.rk.toNat ≤ 8 := by
  have hr := readBits_rk (n.toNat - s.rdBitsSoFar.2) s.rdBitsSoFar.1 s.rdBitsSoFar.2 s hk
  unfold execRdBits at h
  split at h <;> rename_i e <;> rw [e] at hr <;> cases h <;> exact hr

theorem execRdDrain_rk {s t : State} (h : execRdDrain s = .next t) (hk : s.rk.toNat ≤ 8) : t.rk.toNat ≤ 8 := by
  unfold execRdDrain at h
  split at h <;> cases h <;> rw [drainLoop_frame]
  · exact hk
  · exact Nat.zero_le 8

theorem execHdrRead_rk {s t : State} (h : execHdrRead s = .next t) (hk : s.rk.toNat ≤ 8) : t.rk.toNat ≤ 8 := by
  unfold execHdrRead at h
  split at h
  · split at h <;> cases h
    · exact readHeader_rk _ _ hk
    · exact readEntries_rk _ _ _ hk
  · cases h; exact readHeader_rk _ _ hk

theorem finishDecSym_rk (n : Nat) (p : DecPoint) (s : State) (hk : s.rk.toNat ≤ 8) :
    (finishDecSym (decodeOne n p s)).rk.toNat ≤ 8 := by
  have hr := decodeOne_rk n p s hk
  cases e : decodeOne n p s <;> rw [e] at hr <;> exact hr

theorem execDecSym_rk {s t : State} (h : execDecSym s = .next t) (hk : s.rk.toNat ≤ 8) : t.rk.toNat ≤ 8 := by
  unfold execDecSym at h
  split at h
  · cases h; exact finishDecSym_rk _ _ _ hk
  · split at h <;> cases h
    · exact hk
    · exact finishDecSym_rk _ _ _ hk

theorem execDecStream_rk {s t : State} (h : execDecStream s = .next t) (hk : s.rk.toNat ≤ 8) : t.rk.toNat ≤ 8 := by
  unfold execDecStream at h
  split at h
  · cases h; exact decodeLoop_rk _ _ _ _ hk
  · split at h <;> rename_i hp <;> cases h
    · exact hk
    · exact decodeFrom_rk _ _ _ (by rw [(outPush_frame _ _ _ hp).1]; exact hk)
  · split at h <;> cases h
    · exact hk
    · exact decodeFrom_rk _ _ _ hk

theorem exec_rk {i : Instr} {s t : State} (h : exec i s = .next t) (hk : s.rk.toNat ≤ 8) : t.rk.toNat ≤ 8 := by
  cases hi : movesReader i with
  | false => rw [(exec_keptBy h).rk hi]; exact hk
  | true =>
    cases i with
    | rdBits n => exact execRdBits_rk h hk
    | rdAlign => cases h; exact Nat.zero_le 8
    | rdDrain => exact execRdDrain_rk h hk
    | hdrRead => exact execHdrRead_rk h hk
    | decSym => exact execDecSym_rk h hk
    | decStream => exact execDecStream_rk h hk
    | _ => cases hi

/-- Every command keeps V5. -/
theorem exec_accOk {i : Instr} {s t : State} (h : exec i s = .next t) (ha : s.AccOk)
    (fits : progFits i s.prog = true) : t.AccOk := by
  cases hi : movesWriter i with
  | false =>
    have hidle := ha.idle (isWriting_of_fits hi fits)
    have hrk := exec_rk h hidle.rk
    exact AccIdle.accOk (u := { s with rk := t.rk }) ⟨hidle.wk, hidle.low, hrk⟩
      (congrArg (·, t.rk) ((exec_keptBy h).writer hi))
  | true =>
    cases i with
    | wrBits n => exact execWrBits_accOk h ha
    | wrFlush =>
      exact execWrFlush_accOk h
        (ha.idle (isWriting_false (writing_misfit fits rfl) (encodeBits_misfit fits rfl)))
    | hdrWrite => exact execHdrWrite_accOk h ha fits
    | encSym x => exact execEncSym_accOk h ha fits
    | encStream => exact execEncStream_accOk h ha fits
    | _ => cases hi

end Sys2Proof.Machine

namespace Sys2Proof.Machine

/-! ## V1 to V4 over a whole command, and what a held HDR_READ needs -/

theorem tablesOk_of_part {s t : State} (h : TablesOk s) (e : t.tablePart = s.tablePart) : TablesOk t := by
  simp only [State.tablePart, Prod.mk.injEq] at e
  obtain ⟨hf, hs, ht, htv, hcv, hn, hr, hnc, hc⟩ := e
  exact tablesOk_same h hf hs ht htv hcv hn hr hnc hc

theorem execFreqAccum_tablesOk {x : Byte} {s t : State} (h : execFreqAccum x s = .next t) (hs : TablesOk s) :
    TablesOk t := by
  unfold execFreqAccum at h
  split at h <;> rename_i hf <;> cases h
  · exact tablesOk_of_part hs rfl
  · exact tablesOk_changed (accumulate_tableOk s x hs.1 (by simpa using hf)).1 rfl rfl

theorem execFreqLoad_tablesOk {x : Byte} {s t : State} (h : execFreqLoad x s = .next t) (hs : TablesOk s) :
    TablesOk t := by
  unfold execFreqLoad at h
  split at h <;> rename_i hf <;> cases h
  · exact tablesOk_of_part hs rfl
  · exact tablesOk_changed (freqLoad_tableOk s x hs.1 (by omega) _ rfl rfl rfl) rfl rfl

theorem execTreeBuild_tablesOk {s t : State} (h : execTreeBuild s = .next t) (hs : TablesOk s) : TablesOk t := by
  unfold execTreeBuild at h
  split at h <;> rename_i h0 <;> cases h
  · exact tablesOk_of_part hs rfl
  · exact ⟨hs.1, treeBuild_treeOk s hs.1 h0 _ rfl rfl rfl rfl rfl, nofun⟩

/-- CODE_GEN establishes V4 (43_codegen R193). -/
theorem codesOk_generated {s t : State} (hv : t.treeValid = true) (hn : t.node = s.node) (hr : t.root = s.root)
    (hc : t.code = codeTable s.treeCodes) : t.CodesOk :=
  fun _ => ⟨hv, by rw [hc, treeCodes_congr hn hr]⟩

theorem execCodeGen_tablesOk {s t : State} (h : execCodeGen s = .next t) (hs : TablesOk s) : TablesOk t := by
  unfold execCodeGen at h
  split at h <;> rename_i hv <;> cases h
  · exact tablesOk_of_part hs rfl
  · obtain ⟨htable, htree, -⟩ := hs
    exact ⟨htable, htree, codesOk_generated (s := s) (by simpa using hv) rfl rfl rfl⟩

theorem exec_tablesOk {i : Instr} {s t : State} (h : exec i s = .next t) (hs : TablesOk s) (hi : i ≠ .hdrRead) :
    TablesOk t := by
  cases hc : changesTables i with
  | false => exact tablesOk_of_part hs ((exec_keptBy h).tables hc)
  | true =>
    cases i with
    | freqClear => cases h; exact tablesOk_changed (clearTable_tableOk rfl rfl rfl) rfl rfl
    | freqAccum x => exact execFreqAccum_tablesOk h hs
    | freqAccumStream => cases h; exact countLoop_tablesOk _ _ _ hs
    | freqLoad x => exact execFreqLoad_tablesOk h hs
    | treeBuild => exact execTreeBuild_tablesOk h hs
    | codeGen => exact execCodeGen_tablesOk h hs
    | hdrRead => exact absurd rfl hi
    | _ => cases hc

/-- Only HDR_READ is ever held in a header. -/
theorem header_misfit {i : Instr} {p : Prog} (fits : progFits i p = true) (hi : i ≠ .hdrRead) (h : HdrPoint) :
    p ≠ .header h := by
  rintro rfl
  cases i with
  | hdrRead => exact hi rfl
  | _ => cases fits

theorem hdrOk_of_no_header {s : State} (h : ∀ g, s.prog ≠ .header g) : s.HdrOk := fun g hg => absurd hg (h g)

/-- HDR_READ stands at its start or at a hold, and so has read some bits of a header. -/
theorem headerRead_of_fits {s : State} (hh : s.HdrOk) (fits : progFits .hdrRead s.prog = true) (hp : s.prog ≠ .none) :
    ∃ bits, s.HeaderRead bits := by
  cases e : s.prog with
  | none => exact absurd e hp
  | start => exact ⟨[], .inl ⟨e, rfl⟩⟩
  | header g => exact hh g e
  | _ => rw [e] at fits; cases fits

theorem exec_archiveOk {i : Instr} {s t : State} (h : exec i s = .next t) (hs : ArchiveOk s)
    (fits : progFits i s.prog = true) (hp : s.prog ≠ .none) : ArchiveOk t := by
  obtain ⟨htables, hhdr⟩ := hs
  by_cases hi : i = .hdrRead
  · subst hi
    obtain ⟨bits, hb⟩ := headerRead_of_fits hhdr fits hp
    exact hdrRead_archiveOk htables hb h
  · exact ⟨exec_tablesOk h htables hi, hdrOk_of_no_header (header_misfit (exec_runTo h).fits hi)⟩

/-! ## V6 and the FIFOs over a whole command -/

theorem State.FifosOk.moved {s t : State} (h : s.FifosOk) (m : PortsMoved s t) : t.FifosOk := by
  obtain ⟨⟨taken, hi⟩, -, ho, hp⟩ := m
  obtain ⟨hin, hout⟩ := h
  rw [hi, List.length_append] at hin
  unfold State.FifosOk
  rw [hp]
  exact ⟨by omega, ho hout⟩

theorem coreEnabled_iff (s : State) : s.coreEnabled = true ↔ s.busy = true ∧ s.waitIn = false ∧ s.waitOut = false := by
  simp [State.coreEnabled, and_assoc]

/-- The end of a run leaves consistent status bits: a completion clears BUSY and the WAITs; a hold has its reason, and
the run recorded no error before it. -/
theorem State.StatusOk.ended {s t : State} (h : s.StatusOk) (he : s.coreEnabled = true) (ends : s.EndsFrom t)
    (errs : ErrKept s t) : t.StatusOk := by
  obtain ⟨hbusy, hin, hout⟩ := (coreEnabled_iff s).1 he
  obtain ⟨-, hclean, hcode, -, -, -⟩ := h
  obtain ⟨herr, hdone⟩ := hclean hbusy
  have kept : t.errPart = s.errPart → t.err = false ∧ t.errCode = 0#8 ∧ t.errInfo = 0#64 := fun e => by
    simp only [State.errPart, Prod.mk.injEq] at e
    obtain ⟨e1, e2, e3⟩ := e
    rw [e1, e2, e3]
    exact ⟨herr, hcode herr⟩
  have code : t.err = false → t.errCode = 0#8 ∧ t.errInfo = 0#64 := fun h0 =>
    errs.elim (fun e => (kept e).2) fun e => absurd (h0.symm.trans e.1) nofun
  have held : t.prog ≠ .none → t.err = false := fun hp => errs.elim (fun e => (kept e).1) fun e => absurd e.2 hp
  rcases ends with ⟨hp, hb, hd, hwi, hwo⟩ | ⟨hp, -, hb, hd, hwi, hempty, hwo⟩ | ⟨hp, -, hb, hd, hwo, hfull, hwi⟩
  · simpa [State.StatusOk, hp, hb, hwi, hwo] using code
  · simp [State.StatusOk, hp, hb, hbusy, hd, hdone, held hp, hwi, hempty, hwo hout, code]
  · simp [State.StatusOk, State.outFull, hp, hb, hbusy, hd, hdone, held hp, hwi hin, hfull, hwo, code]

/-! ## The whole invariant -/

theorem State.Inv.archiveOk {s : State} (h : s.Inv) : ArchiveOk s := ⟨⟨h.table, h.tree, h.codes⟩, h.hdr⟩

theorem inv_intro {s : State} (fifos : s.FifosOk) (status : s.StatusOk) (command : s.CommandOk) (acc : s.AccOk)
    (archive : ArchiveOk s) : s.Inv := by
  obtain ⟨⟨htable, htree, hcodes⟩, hhdr⟩ := archive
  exact ⟨fifos, status, command, acc, htable, hhdr, htree, hcodes⟩

theorem commandOk_ok {s : State} {i : Instr} (hd : decode s.c = .ok i) : s.CommandOk ↔ progFits i s.prog = true := by
  simp [State.CommandOk, hd]

theorem commandOk_error {s : State} {e : DecodeError} (hd : decode s.c = .error e) :
    s.CommandOk ↔ s.prog = .none ∨ s.prog = .start := by
  simp [State.CommandOk, hd]

/-- A CORE step of the latched command keeps the invariant. -/
theorem exec_inv {i : Instr} {s t : State} (h : exec i s = .next t) (hs : s.Inv) (he : s.coreEnabled = true)
    (hd : decode s.c = .ok i) : t.Inv := by
  have hrun := exec_runTo h
  have hhost := (exec_keptBy h).host
  simp only [State.hostPart, Prod.mk.injEq] at hhost
  obtain ⟨-, -, -, -, -, -, hc, -⟩ := hhost
  have fits := (commandOk_ok hd).1 hs.command
  have hp : s.prog ≠ .none := fun hn => by
    obtain ⟨hidle, -⟩ := hs.status
    obtain ⟨hbusy, -⟩ := (coreEnabled_iff s).1 he
    exact absurd (hbusy.symm.trans (hidle.2 hn)) nofun
  exact inv_intro (hs.fifos.moved hrun.ports) (hs.status.ended he hrun.ends hrun.errs)
    ((commandOk_ok (hc ▸ hd)).2 hrun.fits) (exec_accOk h hs.acc fits) (exec_archiveOk h hs.archiveOk fits hp)

/-- So does the raising of ILLEGAL_CMD. -/
theorem raise_illegal_inv {s : State} (hs : s.Inv) (he : s.coreEnabled = true) {k : DecodeError}
    (hd : decode s.c = .error k) (info : Word) : (s.raise .illegalCmd info).Inv := by
  have hidle : s.prog.isWriting = false := by
    rcases (commandOk_error hd).1 hs.command with e | e <;> rw [e] <;> rfl
  exact inv_intro hs.fifos (hs.status.ended he (raise_ends _ _ _ _) (raise_errKept _ _ _ _))
    ((commandOk_error (s := s.raise .illegalCmd info) hd).2 (.inl rfl)) ((hs.acc.idle hidle).accOk rfl)
    (archiveOk_none (tablesOk_of_part hs.archiveOk.1 rfl) rfl)

theorem coreTurn_inv {s t : State} (h : s.coreTurn = .next t) (hs : s.Inv) : t.Inv := by
  unfold State.coreTurn at h
  split at h
  · rename_i he
    split at h
    · rename_i hd
      cases h
      exact raise_illegal_inv hs he hd _
    · rename_i hd
      exact exec_inv h hs he hd
  · cases h; exact hs

end Sys2Proof.Machine

namespace Sys2Proof.Machine

/-! ## What the invariant speaks of -/

/-- Every field the invariant speaks of. -/
def State.invPart (s : State) :=
  (s.controlPart, s.tablePart, s.accPart, s.c, s.prog)

theorem State.FifosOk.congr {s t : State} (h : s.FifosOk) (e : t.controlPart = s.controlPart) : t.FifosOk :=
  h.moved (midRun_same e).ports

theorem State.StatusOk.congr {s t : State} (h : s.StatusOk) (e : t.controlPart = s.controlPart) (hp : t.prog = s.prog) :
    t.StatusOk := by
  simp only [State.controlPart, State.errPart, Prod.mk.injEq] at e
  obtain ⟨hpar, hi, ho, ⟨he, hc, hinfo⟩, hb, hd, hwi, hwo⟩ := e
  unfold State.StatusOk State.outFull
  rw [hpar, hi, ho, he, hc, hinfo, hb, hd, hwi, hwo, hp]
  exact h

theorem State.CommandOk.congr {s t : State} (h : s.CommandOk) (hc : t.c = s.c) (hp : t.prog = s.prog) : t.CommandOk := by
  unfold State.CommandOk
  rw [hc, hp]
  exact h

theorem State.AccOk.congr {s t : State} (h : s.AccOk) (e : t.accPart = s.accPart) (hp : t.prog = s.prog) : t.AccOk := by
  simp only [State.accPart, State.writerPart, Prod.mk.injEq] at e
  obtain ⟨⟨ha, hk⟩, hr⟩ := e
  unfold State.AccOk State.AccLow
  rw [ha, hk, hr, hp]
  exact h

theorem State.HdrOk.congr {s t : State} (h : s.HdrOk) (e : t.tablePart = s.tablePart) (hp : t.prog = s.prog) :
    t.HdrOk := by
  simp only [State.tablePart, Prod.mk.injEq] at e
  obtain ⟨hf, hs, ht, htv, hcv, -⟩ := e
  unfold State.HdrOk State.HeaderRead State.TableOk
  rw [hf, hs, ht, htv, hcv, hp]
  exact h

theorem ArchiveOk.congr {s t : State} (h : ArchiveOk s) (e : t.tablePart = s.tablePart) (hp : t.prog = s.prog) :
    ArchiveOk t :=
  ⟨tablesOk_of_part h.1 e, h.2.congr e hp⟩

theorem State.Inv.congr {s t : State} (h : s.Inv) (e : t.invPart = s.invPart) : t.Inv := by
  simp only [State.invPart, Prod.mk.injEq] at e
  obtain ⟨hcontrol, htable, hacc, hc, hp⟩ := e
  exact inv_intro (h.fifos.congr hcontrol) (h.status.congr hcontrol hp) (h.command.congr hc hp) (h.acc.congr hacc hp)
    (h.archiveOk.congr htable hp)

/-! ## Reset -/

theorem resetCore_inv (s : State) : s.resetCore.Inv :=
  inv_intro ⟨Nat.zero_le _, Nat.zero_le _⟩ (by simp [State.StatusOk, State.resetCore, State.reset])
    (by unfold State.CommandOk; split; exacts [progFits_none _, .inl rfl])
    (AccIdle.accOk (u := s.resetCore) (accIdle_empty rfl (Nat.zero_le 8)) rfl)
    (archiveOk_none (tablesOk_changed (clearTable_tableOk rfl rfl rfl) rfl rfl) rfl)

/-- Settles O57: the state after reset is one that a reset leaves. -/
theorem resetIsSound : Obligations.ResetIsSound := resetCore_inv State.reset

/-! ## The HOST's operations -/

theorem State.looseRead_snd (s : State) (v : Word) :
    (s.looseRead v).2 = if s.busy then { s with draws := s.draws + 1 } else s := by
  unfold State.looseRead
  split <;> rfl

theorem readReg_status (s : State) : s.readReg .status =
    (s.statusRead (Config.anyRead s.draws), { s with draws := if s.busy = true then s.draws + 1 else s.draws }) := by
  rw [State.readReg, State.statusRead]
  by_cases hb : s.busy = true
  · rw [if_pos hb, if_pos hb, if_pos hb]
  · rw [if_neg hb, if_neg hb, if_neg hb]

theorem looseRead_inv {s : State} (h : s.Inv) (v : Word) : (s.looseRead v).2.Inv := by
  rw [s.looseRead_snd]
  split
  · exact h.congr rfl
  · exact h

/-- A byte that leaves the OUT FIFO makes room, which ends a hold on it (60_exceptions R267). -/
theorem readOut_inv {s : State} (h : s.Inv) : s.readOut.2.Inv := by
  unfold State.readOut
  split
  · exact h
  · rename_i b rest e
    obtain ⟨hin, hout⟩ := h.fifos
    obtain ⟨hb, hclean, hcode, hwi, -, -⟩ := h.status
    rw [e, List.length_cons] at hout
    exact inv_intro ⟨hin, show rest.length ≤ s.params.outDepth by omega⟩ ⟨hb, hclean, hcode, hwi, nofun, by simp⟩
      (h.command.congr rfl rfl) (h.acc.congr rfl rfl) (h.archiveOk.congr rfl rfl)

theorem readReg_inv {s : State} (h : s.Inv) (r : Reg) : (s.readReg r).2.Inv := by
  cases r with
  | status =>
    rw [readReg_status]
    exact h.congr rfl
  | budget | result0 | result1 | symCnt | total => exact looseRead_inv h _
  | outData => exact readOut_inv h
  | _ => exact h

/-- A token that joins the IN FIFO ends a hold on it (60_exceptions R267). -/
theorem pushIn_inv {s : State} (h : s.Inv) (t : Token) : (s.pushIn t).Inv := by
  unfold State.pushIn State.inFull
  split
  · exact h.congr rfl
  · rename_i hroom
    rw [decide_eq_true_eq] at hroom
    obtain ⟨hb, hclean, hcode, -, hwo, -⟩ := h.status
    refine inv_intro ⟨?_, h.fifos.2⟩ ⟨hb, hclean, hcode, nofun, hwo, by simp⟩ (h.command.congr rfl rfl)
      (h.acc.congr rfl rfl) (h.archiveOk.congr rfl rfl)
    show (s.inFifo ++ [t]).length ≤ s.params.inDepth
    rw [List.length_append, List.length_singleton]
    omega

/-- The four W1C bits at once (10_state R24..R27; 60_exceptions R256). -/
theorem writeStatus_eq (s : State) (v : Word) : s.writeStatus v = { s with
    done := s.done && !v.getLsbD 1
    err := s.err && !v.getLsbD 2
    errCode := if v.getLsbD 2 = true then 0#8 else s.errCode
    errInfo := if v.getLsbD 2 = true then 0#64 else s.errInfo
    cmdOvr := s.cmdOvr && !v.getLsbD 3
    inOvf := s.inOvf && !v.getLsbD 4 } := by
  unfold State.writeStatus State.clearErr
  cases v.getLsbD 1 <;> cases v.getLsbD 2 <;> cases v.getLsbD 3 <;> cases v.getLsbD 4 <;> simp

theorem writeStatus_inv {s : State} (h : s.Inv) (v : Word) : (s.writeStatus v).Inv := by
  rw [writeStatus_eq]
  obtain ⟨hb, hclean, hcode, hwi, hwo, hnot⟩ := h.status
  refine inv_intro h.fifos ⟨hb, fun h1 => ?_, fun h2 => ?_, hwi, hwo, hnot⟩ (h.command.congr rfl rfl) (h.acc.congr rfl rfl)
    (h.archiveOk.congr rfl rfl)
  · obtain ⟨he, hd⟩ := hclean h1
    exact ⟨by simp [he], by simp [hd]⟩
  · replace h2 : (s.err && !v.getLsbD 2) = false := h2
    dsimp only
    cases hv : v.getLsbD 2 with
    | true => exact ⟨rfl, rfl⟩
    | false => exact hcode (by rw [hv] at h2; simpa using h2)

theorem writeCtrl_inv {s : State} (h : s.Inv) (v : Word) : (s.writeCtrl v).Inv := by
  unfold State.writeCtrl
  split
  · exact resetCore_inv s
  · exact h.congr rfl

/-- An accepted command word finds the core idle, so no hold and no waiting byte is left over (30_encoding R110). -/
theorem issue_inv {s : State} (h : s.Inv) (w : Word) : (s.issue w).Inv := by
  unfold State.issue
  split
  · exact h.congr rfl
  · rename_i hidle
    obtain ⟨hbusy, herr⟩ : s.busy = false ∧ s.err = false := by simpa using hidle
    obtain ⟨hb, -, hcode, hwi, hwo, hnot⟩ := h.status
    have hacc := h.acc.idle (show s.prog.isWriting = false by rw [hb.1 hbusy]; rfl)
    refine inv_intro h.fifos ⟨by simp [State.latch], fun _ => ⟨herr, rfl⟩, hcode, fun h1 => ⟨rfl, (hwi h1).2⟩,
      fun h1 => ⟨rfl, (hwo h1).2⟩, hnot⟩ ?_ (hacc.accOk rfl)
      ⟨tablesOk_of_part h.archiveOk.1 rfl, hdrOk_of_no_header nofun⟩
    unfold State.CommandOk
    split
    · rename_i i _; cases i <;> rfl
    · exact .inr rfl

theorem writeReg_inv {s : State} (h : s.Inv) (v : Word) (r : Reg) : (s.writeReg v r).Inv := by
  cases r with
  | ctrl => exact writeCtrl_inv h v
  | status => exact writeStatus_inv h v
  | cmd => exact issue_inv h v
  | arg0 => exact h.congr rfl
  | budget =>
    rw [State.writeReg]
    split
    · exact h
    · exact h.congr rfl
  | inData | inEnd => exact pushIn_inv h _
  | _ => exact h

theorem hostRead_inv {s t : State} {addr width : Nat} (h : s.hostRead addr width = .next t) (hs : s.Inv) : t.Inv := by
  unfold State.hostRead at h
  split at h
  · split at h <;> cases h
    · exact hs.congr rfl
    · exact (readReg_inv hs _).congr rfl
  · cases h

theorem hostWrite_inv {s t : State} {addr width : Nat} {v : Word} (h : s.hostWrite addr width v = .next t)
    (hs : s.Inv) : t.Inv := by
  unfold State.hostWrite at h
  split at h
  · split at h <;> cases h
    · exact hs
    · exact writeReg_inv hs _ _
  · cases h

/-- Settles O58, by whose turn it is: the CORE's, a HOST access or a reset. -/
theorem stepKeepsInvariants : Obligations.StepKeepsInvariants := by
  intro s t hs h
  have moved : ∀ rest, { s with agenda := rest }.Inv := fun rest => hs.congr rfl
  unfold step State.takeTurn at h
  split at h
  · exact coreTurn_inv h hs
  · exact coreTurn_inv h (moved _)
  · exact hostRead_inv h (moved _)
  · exact hostWrite_inv h (moved _)
  · cases h; exact resetCore_inv _

end Sys2Proof.Machine

namespace Sys2Proof.Machine

/-! ## HOST accesses to a register, and what they read -/

theorem regAt_bound {off : Nat} {r : Reg} (h : regAt off = some r) : off % 8 = 0 ∧ off < 0x100 := by
  unfold regAt at h
  split at h <;> cases h <;> decide

/-- The aperture supports an aligned access at any of its offsets: BASE is 256-byte aligned (20_memory R71, R73). -/
theorem supports_offset (p : Params) {off : Nat} (h8 : off % 8 = 0) (hlt : off < 0x100) :
    p.supports (p.base + off) 64 = true := by
  have hbase : p.base = 256 * p.basePage := rfl
  exact decide_eq_true ⟨rfl, by omega, by omega, by omega⟩

/-- A HOST read of a register. -/
theorem step_read {s : State} {off : Nat} {r : Reg} {rest : List Turn}
    (ha : s.agenda = .read (s.params.base + off) 64 :: rest) (hr : regAt off = some r) :
    step s = .next { ({ s with agenda := rest }.readReg r).2 with
      busReads := s.busReads ++ [({ s with agenda := rest }.readReg r).1] } := by
  obtain ⟨h8, hlt⟩ := regAt_bound hr
  rw [step, State.takeTurn, ha]
  simp only [State.hostRead, supports_offset _ h8 hlt, if_true, Nat.add_sub_cancel_left, hr]

/-- A HOST write of a register. -/
theorem step_write {s : State} {off : Nat} {v : Word} {r : Reg} {rest : List Turn}
    (ha : s.agenda = .write (s.params.base + off) 64 v :: rest) (hr : regAt off = some r) :
    step s = .next ({ s with agenda := rest }.writeReg v r) := by
  obtain ⟨h8, hlt⟩ := regAt_bound hr
  rw [step, State.takeTurn, ha]
  simp only [State.hostWrite, supports_offset _ h8 hlt, if_true, Nat.add_sub_cancel_left, hr]

/-- Settles O11: STATUS is the register at 0x10, and a write to it the four W1C bits at once. -/
theorem statusWriteClears : Obligations.StatusWriteClears := by
  intro s v rest ha
  rw [step_write (r := .status) ha rfl, State.writeReg, writeStatus_eq]

/-- CTRL is read as the number its two enables form (10_state R22). -/
theorem ctrlWord_eq (s : State) : s.ctrlWord = BitVec.ofNat 64 (s.ieDone.toNat + 2 * s.ieErr.toNat) := by
  unfold State.ctrlWord
  cases s.ieDone <;> cases s.ieErr <;> rfl

/-- Settles O12: a write of CTRL with bit 8 and the reset input leave the same state. -/
theorem ctrlAndReset : Obligations.CtrlAndReset := by
  intro s v rest
  refine ⟨fun ha => ⟨fun hv => ⟨{ s with agenda := rest }.resetCore, ?_, rfl⟩, fun hv => ?_⟩,
    fun ha => ⟨{ s with agenda := rest }.resetCore, ?_, rfl⟩, fun ha => ?_⟩
  · rw [step_write (r := .ctrl) ha rfl, State.writeReg, State.writeCtrl, if_pos hv]
  · rw [step_write (r := .ctrl) ha rfl, State.writeReg, State.writeCtrl, if_neg (Bool.not_eq_true _ ▸ hv)]
  · rw [step, State.takeTurn, ha]
  · rw [step_read (r := .ctrl) ha rfl, State.readReg, ctrlWord_eq]

/-- Settles O13: each value is the one `State.reset` writes down; the table is zero at every symbol. -/
theorem resetValues : Obligations.ResetValues := by
  refine ⟨rfl, rfl, by decide, rfl, rfl, rfl, rfl, rfl, rfl, rfl, fun x => ?_, rfl, rfl, rfl, rfl, rfl, rfl, rfl, rfl, rfl, rfl,
    rfl, rfl⟩
  exact Vector.getElem_replicate _

/-- Appending a token where there is room, dropping it with IN_OVF where there is none (10_state R48, R49). -/
theorem pushIn_eq (s : State) (t : Token) : s.pushIn t =
    if s.inFifo.length < s.params.inDepth then { s with inFifo := s.inFifo ++ [t], waitIn := false }
    else { s with inOvf := true } := by
  unfold State.pushIn State.inFull
  by_cases h : s.inFifo.length < s.params.inDepth
  · rw [if_pos h, if_neg (by simpa using h)]
  · rw [if_neg h, if_pos (by simpa using h)]

/-- Settles O15: both offsets append their token, and read 0. -/
theorem inPortWrites : Obligations.InPortWrites := by
  intro s v rest
  refine ⟨fun ha => ?_, fun ha => ?_, fun ha => ?_⟩
  · rw [step_write (r := .inData) ha rfl, State.writeReg, pushIn_eq]
    rfl
  · rw [step_write (r := .inEnd) ha rfl, State.writeReg, pushIn_eq]
  · rcases ha with ha | ha
    · exact step_read (r := .inData) ha rfl
    · exact step_read (r := .inEnd) ha rfl

/-- 0x100 and a byte lie apart in a word, so they add (10_state R50). -/
theorem outWord_eq (b : Byte) : 0x100#64 ||| wordOf b = BitVec.ofNat 64 (0x100 + b.toNat) := by
  have hb : (wordOf b).toNat = b.toNat := by simp [wordOf]; omega
  have h := or_toNat (wordOf b) 0x100#64 8 1 (by rw [hb]; exact b.isLt) rfl
  apply BitVec.eq_of_toNat_eq
  rw [BitVec.or_comm, h, hb, BitVec.toNat_ofNat, BitVec.toNat_ofNat]
  omega

/-- Settles O16: a read takes the head byte, if there is one; the register ignores a write. -/
theorem outDataRead : Obligations.OutDataRead := by
  intro s v rest
  refine ⟨fun ha => ⟨fun he => ?_, fun b bs he => ?_⟩, fun ha => step_write (r := .outData) ha rfl⟩
  · rw [step_read (r := .outData) ha rfl, State.readReg, State.readOut]
    simp only [he]
  · rw [step_read (r := .outData) ha rfl, State.readReg, State.readOut]
    simp only [he, outWord_eq]

theorem Params.inDepth_bounds (p : Params) : 1 ≤ p.inDepth ∧ p.inDepth < 2 ^ 16 := by
  have := p.inDepthLess1.isLt
  unfold Params.inDepth
  omega

theorem Params.outDepth_bounds (p : Params) : 1 ≤ p.outDepth ∧ p.outDepth < 2 ^ 16 := by
  have := p.outDepthLess1.isLt
  unfold Params.outDepth
  omega

/-- A register that a read returns as it stands, its word being the number n. -/
theorem step_read_exact {s : State} {off n : Nat} {r : Reg} {rest : List Turn} {w : Word}
    (hr : regAt off = some r) (hread : { s with agenda := rest }.readReg r = (w, { s with agenda := rest }))
    (hn : w.toNat = n) (ha : s.agenda = .read (s.params.base + off) 64 :: rest) :
    n < 2 ^ 64 ∧ step s = .next { s with agenda := rest, busReads := s.busReads ++ [BitVec.ofNat 64 n] } := by
  subst hn
  refine ⟨w.isLt, ?_⟩
  rw [step_read ha hr, hread, BitVec.ofNat_toNat, BitVec.setWidth_eq]

/-- Settles O18: the five registers return their word whatever BUSY is, and each word is the sum of its fields. -/
theorem exactReads : Obligations.ExactReads := by
  intro s rest hfifos
  obtain ⟨hin, hout⟩ := hfifos
  obtain ⟨hi1, hi2⟩ := s.params.inDepth_bounds
  obtain ⟨ho1, ho2⟩ := s.params.outDepth_bounds
  have hin' : s.inFifo.length < 2 ^ 16 := Nat.lt_of_le_of_lt hin hi2
  have hout' : s.outFifo.length < 2 ^ 16 := Nat.lt_of_le_of_lt hout ho2
  exact ⟨step_read_exact (r := .id) rfl rfl rfl, step_read_exact (r := .arg0) rfl rfl rfl,
    step_read_exact (r := .errInfo) rfl rfl rfl, step_read_exact (r := .fifoStat) rfl rfl (fifoStat_toNat s hin' hout'),
    hin', hout', step_read_exact (r := .cfg) rfl rfl (cfgWord_toNat s.params), hi1, hi2, ho1, ho2⟩

/-- A register read through `looseRead`: exact while BUSY = 0, a fresh draw while BUSY = 1 (70_reset R296). -/
theorem step_read_loose {s : State} {off : Nat} {r : Reg} {rest : List Turn} {v : Word} (hr : regAt off = some r)
    (hread : { s with agenda := rest }.readReg r = { s with agenda := rest }.looseRead v)
    (ha : s.agenda = .read (s.params.base + off) 64 :: rest) :
    (s.busy = false → step s = .next { s with agenda := rest, busReads := s.busReads ++ [v] }) ∧
    (s.busy = true → ∃ u, step s = .next { s with
      agenda := rest, busReads := s.busReads ++ [u], draws := s.draws + 1 }) := by
  rw [step_read ha hr, hread, State.looseRead]
  refine ⟨fun hb => ?_, fun hb => ⟨Config.anyRead s.draws, ?_⟩⟩ <;> simp [hb]

/-- Settles O19: each of the five registers is read through `looseRead`. -/
theorem looseReads : Obligations.LooseReads := by
  intro s off v rest hmem ha
  simp only [List.mem_cons, Prod.mk.injEq, List.not_mem_nil, or_false] at hmem
  rcases hmem with ⟨rfl, rfl⟩ | ⟨rfl, rfl⟩ | ⟨rfl, rfl⟩ | ⟨rfl, rfl⟩ | ⟨rfl, rfl⟩
  · exact step_read_loose (r := .budget) rfl rfl ha
  · exact step_read_loose (r := .result0) rfl rfl ha
  · exact step_read_loose (r := .result1) rfl rfl ha
  · exact step_read_loose (r := .symCnt) rfl rfl ha
  · exact step_read_loose (r := .total) rfl rfl ha

/-! ## STATUS, field by field -/

/-- A part of a word that a flag is outside of. -/
theorem flagBit_extract (b : Bool) (k i n : Nat) (h : k < i ∨ i + n ≤ k) : (flagBit b k).extractLsb' i n = 0#n := by
  ext j hj
  rw [BitVec.getElem_extractLsb', flagBit_getLsbD, decide_eq_false (by omega : ¬ i + j = k)]
  simp

/-- A part of a word that a field is outside of. -/
theorem fieldBits_extract_apart {m : Nat} (v : BitVec m) (k i n : Nat) (h : k + m ≤ i ∨ i + n ≤ k) :
    (fieldBits v k).extractLsb' i n = 0#n := by
  ext j hj
  rw [BitVec.getElem_extractLsb', fieldBits_getLsbD]
  rcases h with h | h
  · simp [BitVec.getLsbD_of_ge v (i + j - k) (by omega)]
  · simp [show ¬ k ≤ i + j by omega]

theorem fieldBits_extract_self {n : Nat} (v : BitVec n) (i : Nat) (h : i + n ≤ 64) :
    (fieldBits v i).extractLsb' i n = v := by
  ext j hj
  rw [BitVec.getElem_extractLsb', fieldBits_getLsbD]
  simp [show i + j < 64 by omega, hj]

theorem statusWord_flags (s : State) :
    s.statusWord.getLsbD 0 = s.busy ∧ s.statusWord.getLsbD 1 = s.done ∧ s.statusWord.getLsbD 2 = s.err ∧
      s.statusWord.getLsbD 3 = s.cmdOvr ∧ s.statusWord.getLsbD 4 = s.inOvf ∧ s.statusWord.getLsbD 5 = s.treeValid ∧
      s.statusWord.getLsbD 6 = s.codesValid ∧ s.statusWord.getLsbD 7 = s.waitIn ∧
      s.statusWord.getLsbD 8 = s.waitOut ∧ s.statusWord.getLsbD 27 = false := by
  simp only [State.statusWord, BitVec.getLsbD_or, flagBit_getLsbD, fieldBits_getLsbD]
  simp

theorem statusWord_fields (s : State) :
    s.statusWord.extractLsb' 9 7 = 0#7 ∧ s.statusWord.extractLsb' 16 8 = s.errCode ∧
      s.statusWord.extractLsb' 24 3 = s.wk.setWidth 3 ∧ s.statusWord.extractLsb' 28 4 = s.rk ∧
      s.statusWord.extractLsb' 32 3 = s.pad ∧ s.statusWord.extractLsb' 35 29 = 0#29 := by
  refine ⟨?_, ?_, ?_, ?_, ?_, ?_⟩ <;>
    simp (disch := omega) only [State.statusWord, BitVec.extractLsb'_or, flagBit_extract, fieldBits_extract_apart,
      fieldBits_extract_self, BitVec.zero_or, BitVec.or_zero]

/-- A bit of STATUS reads as the register's unless BUSY = 1 and the bit is a loose one. -/
theorem statusRead_getLsbD (s : State) (draw : Word) (i : Nat)
    (h : s.busy = false ∨ statusLooseBits.getLsbD i = false) :
    (s.statusRead draw).getLsbD i = s.statusWord.getLsbD i := by
  by_cases hi : i < 64
  · have := statusRead_getElem s draw i hi
    rw [BitVec.getLsbD_eq_getElem hi] at h ⊢
    rw [BitVec.getLsbD_eq_getElem hi, this, if_neg]
    rcases h with h | h <;> simp [h]
  · rw [BitVec.getLsbD_of_ge _ _ (by omega), BitVec.getLsbD_of_ge _ _ (by omega)]

theorem statusRead_extract (s : State) (draw : Word) (i n : Nat)
    (h : s.busy = false ∨ ∀ j < n, statusLooseBits.getLsbD (i + j) = false) :
    (s.statusRead draw).extractLsb' i n = s.statusWord.extractLsb' i n := by
  ext j hj
  rw [BitVec.getElem_extractLsb', BitVec.getElem_extractLsb']
  exact statusRead_getLsbD s draw _ (h.imp_right fun h => h j hj)

/-- STATUS as it is read, with one draw more while BUSY = 1. -/
theorem step_read_status {s : State} {rest : List Turn} (ha : s.agenda = .read (s.params.base + 0x10) 64 :: rest) :
    step s = .next { s with
      agenda := rest, busReads := s.busReads ++ [s.statusRead (Config.anyRead s.draws)]
      draws := if s.busy = true then s.draws + 1 else s.draws } := by
  rw [step_read (r := .status) ha rfl, readReg_status]
  rfl

/-- Settles O20: the exact bits are none of the loose ones, and while BUSY = 0 every bit is the register's. -/
theorem statusRead : Obligations.StatusRead := by
  intro s rest ha
  have strict (i : Nat) (h : statusLooseBits.getLsbD i = false) :=
    statusRead_getLsbD s (Config.anyRead s.draws) i (.inr h)
  have idle (i : Nat) (h : s.busy = false) := statusRead_getLsbD s (Config.anyRead s.draws) i (.inl h)
  obtain ⟨h0, h1, h2, h3, h4, h5, h6, h7, h8, h27⟩ := statusWord_flags s
  obtain ⟨hres, hcode, hwk, hrk, hpad, htop⟩ := statusWord_fields s
  refine ⟨s.statusRead (Config.anyRead s.draws), step_read_status ha, (strict 0 rfl).trans h0, (strict 1 rfl).trans h1,
    (strict 2 rfl).trans h2, (strict 3 rfl).trans h3, (strict 4 rfl).trans h4, (strict 7 rfl).trans h7,
    (strict 8 rfl).trans h8, ?_, ?_, ?_, fun hb => ⟨(idle 5 hb).trans h5, (idle 6 hb).trans h6, ?_,
      (idle 27 hb).trans h27, ?_, ?_⟩⟩
  · rw [statusRead_extract _ _ _ _ (.inr (by decide)), hcode]
  · rw [statusRead_extract _ _ _ _ (.inr (by decide)), hres]
  · rw [statusRead_extract _ _ _ _ (.inr (by decide)), htop]
  · rw [statusRead_extract _ _ _ _ (.inl hb), hwk]
  · rw [statusRead_extract _ _ _ _ (.inl hb), hrk]
  · rw [statusRead_extract _ _ _ _ (.inl hb), hpad]

end Sys2Proof.Machine

namespace Sys2Proof.Machine

/-! ## NODE and CODE while they are invalid (10_state R41, R43, R59) -/

/-- Every leaf of every command's rule is a next state (60_exceptions R250). -/
theorem exec_next (i : Instr) (s : State) : ∃ t, exec i s = .next t := by
  cases i with
  | nop | freqClear | freqAccumStream | freqRead | rdAlign => exact ⟨_, rfl⟩
  | freqAccum x => rw [exec, execFreqAccum]; split <;> exact ⟨_, rfl⟩
  | freqLoad x => rw [exec, execFreqLoad]; split <;> exact ⟨_, rfl⟩
  | wrBits n => rw [exec, execWrBits]; split <;> exact ⟨_, rfl⟩
  | wrFlush => rw [exec, execWrFlush]; (repeat' split) <;> exact ⟨_, rfl⟩
  | rdBits n => rw [exec, execRdBits]; split <;> exact ⟨_, rfl⟩
  | rdDrain => rw [exec, execRdDrain]; split <;> exact ⟨_, rfl⟩
  | treeBuild => rw [exec, execTreeBuild]; split <;> exact ⟨_, rfl⟩
  | treeNode => rw [exec, execTreeNode]; (repeat' split) <;> exact ⟨_, rfl⟩
  | codeGen => rw [exec, execCodeGen]; split <;> exact ⟨_, rfl⟩
  | codeLookup x w => rw [exec, execCodeLookup]; split <;> exact ⟨_, rfl⟩
  | hdrWrite => rw [exec, execHdrWrite]; (repeat' split) <;> exact ⟨_, rfl⟩
  | encSym x => rw [exec, execEncSym]; (repeat' split) <;> exact ⟨_, rfl⟩
  | encStream => rw [exec, execEncStream]; (repeat' split) <;> exact ⟨_, rfl⟩
  | hdrRead => rw [exec, execHdrRead]; (repeat' split) <;> exact ⟨_, rfl⟩
  | decSym => rw [exec, execDecSym]; (repeat' split) <;> exact ⟨_, rfl⟩
  | decStream => rw [exec, execDecStream]; (repeat' split) <;> exact ⟨_, rfl⟩

/-- An outcome with its next state changed by f. -/
def mapNext (f : State → State) : Host.Outcome State Fault Refusal → Host.Outcome State Fault Refusal
  | .next t => .next (f t)
  | .fault r => .fault r
  | .refused r => .refused r

section
variable (s : State) (n : Vector Node 511) (c : Vector Code 256)

/-! ### Commands that read neither NODE nor CODE: other contents are passed on -/

theorem execFreqAccum_withTables (x : Byte) :
    execFreqAccum x (s.withTables n c) = mapNext (·.withTables n c) (execFreqAccum x s) := by
  rw [execFreqAccum, execFreqAccum, show (s.withTables n c).totalFull = s.totalFull from rfl]
  split <;> rfl

theorem execFreqAccumStream_withTables :
    execFreqAccumStream (s.withTables n c) = mapNext (·.withTables n c) (execFreqAccumStream s) :=
  congrArg Host.Outcome.next (countLoop_withTables _ _ s n c)

theorem execFreqLoad_withTables (x : Byte) :
    execFreqLoad x (s.withTables n c) = mapNext (·.withTables n c) (execFreqLoad x s) := by
  rw [execFreqLoad, execFreqLoad, show (s.withTables n c).totalAfterLoad x = s.totalAfterLoad x from rfl]
  split <;> rfl

theorem execWrBits_withTables (k : Byte) :
    execWrBits k (s.withTables n c) = mapNext (·.withTables n c) (execWrBits k s) := by
  rw [execWrBits, execWrBits, show (s.withTables n c).wrBitsTodo k = s.wrBitsTodo k from rfl, writeBits_withTables]
  cases writeBits (s.wrBitsTodo k) s <;> rfl

theorem pushWacc_withTables : (s.withTables n c).pushWacc = s.pushWacc.map (·.withTables n c) := by
  rw [State.pushWacc, State.pushWacc, State.outPush, State.outPush,
    show (s.withTables n c).outFull = s.outFull from rfl]
  cases s.outFull <;> rfl

theorem execWrFlush_withTables :
    execWrFlush (s.withTables n c) = mapNext (·.withTables n c) (execWrFlush s) := by
  rw [execWrFlush, execWrFlush, show (s.withTables n c).wk = s.wk from rfl, pushWacc_withTables]
  split
  · rfl
  · cases s.pushWacc <;> rfl

theorem execRdBits_withTables (k : Byte) :
    execRdBits k (s.withTables n c) = mapNext (·.withTables n c) (execRdBits k s) := by
  rw [execRdBits, execRdBits, show (s.withTables n c).rdBitsSoFar = s.rdBitsSoFar from rfl, readBits_withTables]
  cases readBits (k.toNat - s.rdBitsSoFar.2) s.rdBitsSoFar.1 s.rdBitsSoFar.2 s <;> rfl

theorem execRdDrain_withTables :
    execRdDrain (s.withTables n c) = mapNext (·.withTables n c) (execRdDrain s) := by
  rw [execRdDrain, execRdDrain, show (s.withTables n c).prog = s.prog from rfl]
  split
  · exact congrArg Host.Outcome.next (drainLoop_withTables _ _ s n c)
  · exact congrArg Host.Outcome.next
      (drainLoop_withTables _ _ { s with result1 := s.rk.setWidth 64, rk := 0#4 } n c)

theorem finishWrite_withTables (r : Word) (bs : List Bool) :
    finishWrite r (writeBits bs (s.withTables n c)) = (finishWrite r (writeBits bs s)).withTables n c := by
  rw [writeBits_withTables]
  cases writeBits bs s <;> rfl

theorem execHdrWrite_withTables :
    execHdrWrite (s.withTables n c) = mapNext (·.withTables n c) (execHdrWrite s) := by
  rw [execHdrWrite, execHdrWrite, show (s.withTables n c).prog = s.prog from rfl,
    show (s.withTables n c).symCnt = s.symCnt from rfl]
  split
  · exact congrArg Host.Outcome.next (finishWrite_withTables s n c _ _)
  · split
    · rfl
    · exact congrArg Host.Outcome.next (finishWrite_withTables s n c _ _)

theorem execHdrRead_withTables :
    execHdrRead (s.withTables n c) = mapNext (·.withTables n c) (execHdrRead s) := by
  rw [execHdrRead, execHdrRead, show (s.withTables n c).prog = s.prog from rfl]
  split
  · split
    · exact congrArg Host.Outcome.next (readHeader_withTables _ s n c)
    · exact congrArg Host.Outcome.next (readEntries_withTables _ _ s n c)
  · exact congrArg Host.Outcome.next (readHeader_withTables _ s.clearTable n c)

end

/-! ### Commands that ask for a tree or for codes: without them, the one error -/

theorem execTreeNode_invalid {s : State} (ht : s.treeValid = false) : execTreeNode s = .next (s.raise .noTree 0#64) := by
  rw [execTreeNode, if_pos ht]

theorem execCodeGen_invalid {s : State} (ht : s.treeValid = false) : execCodeGen s = .next (s.raise .noTree 0#64) := by
  rw [execCodeGen, if_pos ht]

theorem execCodeLookup_invalid {s : State} (x w : Byte) (hc : s.codesValid = false) :
    execCodeLookup x w s = .next (s.raise .noCodes 0#64) := by
  rw [execCodeLookup, if_pos hc]

theorem execEncSym_invalid {s : State} (x : Byte) (hp : s.prog = .start) (hc : s.codesValid = false) :
    execEncSym x s = .next (s.raise .noCodes 0#64) := by
  simp only [execEncSym, hp, if_pos hc]

theorem execEncStream_invalid {s : State} (hp : s.prog = .start) (hc : s.codesValid = false) :
    execEncStream s = .next (s.raise .noCodes 0#64) := by
  simp only [execEncStream, hp, if_pos hc]

theorem execDecSym_invalid {s : State} (hp : s.prog = .start) (ht : s.treeValid = false) :
    execDecSym s = .next (s.raise .noTree 0#64) := by
  simp only [execDecSym, hp, if_pos ht]

theorem execDecStream_invalid {s : State} (hp : s.prog = .start) (ht : s.treeValid = false) :
    execDecStream s = .next (s.raise .noTree 0#64) := by
  simp only [execDecStream, hp, if_pos ht]

/-- TREE_BUILD writes the same arena entries whatever NODE held. -/
theorem writeArena_congr (old old' : Vector Node 511) (arena : List Node) {j : Nat} (hj : j < arena.length) :
    (writeArena old arena)[j]? = (writeArena old' arena)[j]? := by
  by_cases h : j < 511
  · simp [writeArena, h, hj]
  · simp [writeArena, h]

/-! ### Every command but TREE_BUILD -/

/-- The command stands at its start, or can hold without valid codes or a valid tree. -/
def HoldsUnasked (i : Instr) (s : State) : Prop :=
  s.prog = .start ∨ ((∀ x, i ≠ .encSym x) ∧ i ≠ .encStream ∧ i ≠ .decSym ∧ i ≠ .decStream)

/-- With both bits 0, other contents of NODE and CODE are passed on and make no other difference. -/
theorem exec_withTables {i : Instr} {s : State} (hs : HoldsUnasked i s) (ht : s.treeValid = false)
    (hc : s.codesValid = false) (hi : i ≠ .treeBuild) (n : Vector Node 511) (c : Vector Code 256) :
    exec i (s.withTables n c) = mapNext (·.withTables n c) (exec i s) := by
  cases i with
  | nop | freqClear | freqRead | rdAlign => rfl
  | freqAccum x => exact execFreqAccum_withTables s n c x
  | freqAccumStream => exact execFreqAccumStream_withTables s n c
  | freqLoad x => exact execFreqLoad_withTables s n c x
  | wrBits k => exact execWrBits_withTables s n c k
  | wrFlush => exact execWrFlush_withTables s n c
  | rdBits k => exact execRdBits_withTables s n c k
  | rdDrain => exact execRdDrain_withTables s n c
  | treeBuild => exact absurd rfl hi
  | treeNode => rw [exec, exec, execTreeNode_invalid ht, execTreeNode_invalid (s := s.withTables n c) ht]; rfl
  | codeGen => rw [exec, exec, execCodeGen_invalid ht, execCodeGen_invalid (s := s.withTables n c) ht]; rfl
  | codeLookup x w =>
    rw [exec, exec, execCodeLookup_invalid x w hc, execCodeLookup_invalid (s := s.withTables n c) x w hc]; rfl
  | hdrWrite => exact execHdrWrite_withTables s n c
  | hdrRead => exact execHdrRead_withTables s n c
  | encSym x =>
    have hp : s.prog = .start := hs.resolve_right fun ⟨h, _⟩ => h x rfl
    rw [exec, exec, execEncSym_invalid x hp hc, execEncSym_invalid (s := s.withTables n c) x hp hc]; rfl
  | encStream =>
    have hp : s.prog = .start := hs.resolve_right fun ⟨_, h, _⟩ => h rfl
    rw [exec, exec, execEncStream_invalid hp hc, execEncStream_invalid (s := s.withTables n c) hp hc]; rfl
  | decSym =>
    have hp : s.prog = .start := hs.resolve_right fun ⟨_, _, h, _⟩ => h rfl
    rw [exec, exec, execDecSym_invalid hp ht, execDecSym_invalid (s := s.withTables n c) hp ht]; rfl
  | decStream =>
    have hp : s.prog = .start := hs.resolve_right fun ⟨_, _, _, h⟩ => h rfl
    rw [exec, exec, execDecStream_invalid hp ht, execDecStream_invalid (s := s.withTables n c) hp ht]; rfl

/-! ### The valid bits -/

theorem countLoop_invalid (ts : List Token) (k : Nat) (s : State) (ht : s.treeValid = false)
    (hc : s.codesValid = false) : (countLoop ts k s).treeValid = false ∧ (countLoop ts k s).codesValid = false := by
  induction ts generalizing k s with
  | nil => exact ⟨ht, hc⟩
  | cons t ts ih =>
    cases t with
    | fin => rw [countLoop]; split <;> exact ⟨ht, hc⟩
    | byte b => rw [countLoop]; split; exacts [⟨ht, hc⟩, ih _ (s.accumulate b) rfl rfl]

theorem execHdrRead_invalid {s t : State} (h : execHdrRead s = .next t) (ht : s.treeValid = false)
    (hc : s.codesValid = false) : t.treeValid = false ∧ t.codesValid = false := by
  unfold execHdrRead at h
  split at h
  · split at h <;> cases h
    · exact readHeader_invalid _ _ ht hc
    · exact readEntries_invalid _ _ _ ht hc
  · cases h
    exact readHeader_invalid _ s.clearTable rfl rfl

/-- Only TREE_BUILD makes anything valid where nothing is. -/
theorem exec_invalid {i : Instr} {s t : State} (h : exec i s = .next t) (ht : s.treeValid = false)
    (hc : s.codesValid = false) (hi : i ≠ .treeBuild) : t.treeValid = false ∧ t.codesValid = false := by
  cases hch : changesTables i with
  | false =>
    have e := (exec_keptBy h).tables hch
    simp only [State.tablePart, Prod.mk.injEq] at e
    obtain ⟨-, -, -, etv, ecv, -⟩ := e
    exact ⟨etv.trans ht, ecv.trans hc⟩
  | true =>
    cases i with
    | freqClear => cases h; exact ⟨rfl, rfl⟩
    | freqAccum x =>
      rw [exec, execFreqAccum] at h
      split at h <;> cases h
      exacts [⟨ht, hc⟩, ⟨rfl, rfl⟩]
    | freqAccumStream => cases h; exact countLoop_invalid _ _ s ht hc
    | freqLoad x =>
      rw [exec, execFreqLoad] at h
      split at h <;> cases h
      exacts [⟨ht, hc⟩, ⟨rfl, rfl⟩]
    | treeBuild => exact absurd rfl hi
    | codeGen => rw [exec, execCodeGen_invalid ht] at h; cases h; exact ⟨ht, hc⟩
    | hdrRead => exact execHdrRead_invalid h ht hc
    | _ => cases hch

/-- TREE_BUILD reads neither NODE nor CODE, and writes every entry below NODECNT. -/
theorem execTreeBuild_withTables (s : State) (n : Vector Node 511) (c : Vector Code 256) (hc : s.codesValid = false) :
    ∃ t u, execTreeBuild s = .next t ∧ execTreeBuild (s.withTables n c) = .next u ∧
      u = t.withTables u.node u.code ∧ t.codesValid = false ∧
      (s.treeValid = false → t.treeValid = true → ∀ j : Nat, j < t.nodeCnt.toNat → u.node[j]? = t.node[j]?) := by
  rw [execTreeBuild, execTreeBuild, show (s.withTables n c).symCnt = s.symCnt from rfl]
  by_cases h0 : s.symCnt = 0#9
  · rw [if_pos h0, if_pos h0]
    exact ⟨_, _, rfl, rfl, rfl, hc, fun ht hv => absurd (ht.symm.trans hv) nofun⟩
  · rw [if_neg h0, if_neg h0]
    refine ⟨_, _, rfl, rfl, rfl, rfl, fun _ _ j hj => writeArena_congr _ _ _ ?_⟩
    exact hj.trans_le ((BitVec.toNat_ofNat _ _).trans_le (Nat.mod_le _ _))

/-- Settles O60: TREE_BUILD writes what it makes valid; every other command passes NODE and CODE on and makes nothing
valid. -/
theorem invalidTablesUnobservable : Obligations.InvalidTablesUnobservable := by
  intro i s node code hs ht hc
  by_cases hi : i = .treeBuild
  · subst hi
    obtain ⟨t, u, h, h', hu, hcv, harena⟩ := execTreeBuild_withTables s node code hc
    exact ⟨t, u, h, h', hu, hcv, harena ht⟩
  · obtain ⟨t, h⟩ := exec_next i s
    have h' := exec_withTables hs ht hc hi node code
    rw [h] at h'
    obtain ⟨htv, hcv⟩ := exec_invalid h ht hc hi
    exact ⟨t, t.withTables node code, h, h', rfl, hcv, fun hv => absurd (htv.symm.trans hv) nofun⟩

end Sys2Proof.Machine

namespace Sys2Proof.Machine

/-! ## How a command's step ends, and what it does to the ports -/

/-- Settles O8: every command answers a next state, and its run ends as `exec_runTo` says. -/
theorem commandEndsOrHolds : Obligations.CommandEndsOrHolds := by
  intro i s
  obtain ⟨t, h⟩ := exec_next i s
  refine ⟨t, h, ?_⟩
  rcases (exec_runTo h).ends with hover | ⟨hp, hp', hb, hd, hw, hi, -⟩ | ⟨hp, hp', hb, hd, hw, ho, -⟩
  · exact .inl hover
  · exact .inr (.inl ⟨hp, hp', hb, hd, hw, hi⟩)
  · exact .inr (.inr ⟨hp, hp', hb, hd, hw, ho⟩)

/-- Settles O54: on the way from s to t only the ports have moved, each at its own end. -/
theorem portsKeepOrder : Obligations.PortsKeepOrder := by
  intro i s t h
  obtain ⟨htaken, hsent, -⟩ := (exec_runTo h).ports
  exact ⟨htaken, hsent⟩

/-! ## Whose turn it is (00_scope R7, 20_memory R86) -/

theorem step_empty {s : State} (ha : s.agenda = []) : step s = s.coreTurn := by
  rw [step, State.takeTurn, ha]

theorem step_core {s : State} {rest : List Turn} (ha : s.agenda = .core :: rest) :
    step s = { s with agenda := rest }.coreTurn := by
  rw [step, State.takeTurn, ha]

theorem step_hostRead {s : State} {addr width : Nat} {rest : List Turn} (ha : s.agenda = .read addr width :: rest) :
    step s = { s with agenda := rest }.hostRead addr width := by
  rw [step, State.takeTurn, ha]

theorem step_hostWrite {s : State} {addr width : Nat} {v : Word} {rest : List Turn}
    (ha : s.agenda = .write addr width v :: rest) :
    step s = { s with agenda := rest }.hostWrite addr width v := by
  rw [step, State.takeTurn, ha]

theorem coreTurn_runs {s : State} {i : Instr} (he : s.coreEnabled = true) (hd : decode s.c = .ok i) :
    s.coreTurn = exec i s := by
  rw [State.coreTurn, if_pos he, hd]

theorem coreTurn_waits {s : State} (h : s.busy = false ∨ s.waitIn = true ∨ s.waitOut = true) :
    s.coreTurn = .next s := by
  have he : ¬ s.coreEnabled = true := by
    rw [coreEnabled_iff]
    rintro ⟨hb, hi, ho⟩
    simp [hb, hi, ho] at h
  rw [State.coreTurn, if_neg he]

theorem coreTurn_next (s : State) : ∃ t, s.coreTurn = .next t := by
  unfold State.coreTurn
  split
  · split
    · exact ⟨_, rfl⟩
    · exact exec_next _ s
  · exact ⟨s, rfl⟩

/-- Settles O5: taking an item off the agenda touches neither C nor what enables the CORE. -/
theorem stepRunsCommand : Obligations.StepRunsCommand := by
  intro s i he hd
  refine ⟨fun ha => ?_, fun rest ha => ?_⟩
  · rw [step_empty ha, coreTurn_runs he hd]
  · rw [step_core ha, coreTurn_runs (s := { s with agenda := rest }) he hd]

/-- Settles O7: a CORE turn that waits leaves the state it finds. -/
theorem heldCoreWaits : Obligations.HeldCoreWaits := by
  intro s h
  refine ⟨fun ha => ?_, fun rest ha => ?_⟩
  · rw [step_empty ha, coreTurn_waits h]
  · rw [step_core ha, coreTurn_waits (s := { s with agenda := rest }) h]

/-! ## Which accesses the bus refuses (20_memory R73, R99) -/

theorem supports_iff (p : Params) (addr width : Nat) :
    p.supports addr width = true ↔ width = 64 ∧ addr % 8 = 0 ∧ p.base ≤ addr ∧ addr < p.base + 256 :=
  decide_eq_true_iff

theorem hostRead_refused {s : State} {addr width : Nat} (h : ¬ s.params.supports addr width = true) :
    s.hostRead addr width = .refused (.unsupportedAccess addr width) := by
  rw [State.hostRead, if_neg h]

theorem hostWrite_refused {s : State} {addr width : Nat} (v : Word) (h : ¬ s.params.supports addr width = true) :
    s.hostWrite addr width v = .refused (.unsupportedAccess addr width) := by
  rw [State.hostWrite, if_neg h]

theorem hostRead_next {s : State} {addr width : Nat} (h : s.params.supports addr width = true) :
    ∃ t, s.hostRead addr width = .next t := by
  rw [State.hostRead, if_pos h]
  split <;> exact ⟨_, rfl⟩

theorem hostWrite_next {s : State} {addr width : Nat} (v : Word) (h : s.params.supports addr width = true) :
    ∃ t, s.hostWrite addr width v = .next t := by
  rw [State.hostWrite, if_pos h]
  split <;> exact ⟨_, rfl⟩

/-- A step answers a next state, unless it is an access that the aperture does not support: that one is refused. -/
theorem step_next_or_refused (s : State) :
    (∃ t, step s = .next t) ∨ ∃ addr width, step s = .refused (.unsupportedAccess addr width) ∧
      ¬ s.params.supports addr width = true := by
  match ha : s.agenda with
  | [] => rw [step_empty ha]; exact .inl (coreTurn_next s)
  | .core :: rest => rw [step_core ha]; exact .inl (coreTurn_next _)
  | .rstN :: rest => rw [step, State.takeTurn, ha]; exact .inl ⟨_, rfl⟩
  | .read addr width :: rest =>
    rw [step_hostRead ha]
    by_cases h : s.params.supports addr width = true
    · exact .inl (hostRead_next h)
    · exact .inr ⟨addr, width, hostRead_refused h, h⟩
  | .write addr width v :: rest =>
    rw [step_hostWrite ha]
    by_cases h : s.params.supports addr width = true
    · exact .inl (hostWrite_next v h)
    · exact .inr ⟨addr, width, hostWrite_refused v h, h⟩

/-- Settles O9: the aperture supports just the accesses that are 64 bits wide, aligned and within it. -/
theorem unsupportedAccessRefused : Obligations.UnsupportedAccessRefused := by
  intro s
  simp only [← supports_iff]
  refine ⟨fun addr width rest ha h => ?_, fun addr width v rest ha h => ?_, step_next_or_refused s⟩
  · exact (step_hostRead ha).trans (hostRead_refused (s := { s with agenda := rest }) h)
  · exact (step_hostWrite ha).trans (hostWrite_refused (s := { s with agenda := rest }) v h)

/-! ## Offsets at which a write does nothing (20_memory R75, R76) -/

theorem regAt_lt {off : Nat} {r : Reg} (h : regAt off = some r) : off < 0x80 := by
  unfold regAt at h
  split at h <;> cases h <;> decide

theorem regAt_reserved {off : Nat} (h : 0x80 ≤ off) : regAt off = none := by
  cases hr : regAt off with
  | none => rfl
  | some r => exact absurd (regAt_lt hr) (Nat.not_lt.2 h)

theorem step_read_reserved {s : State} {off : Nat} {rest : List Turn} (h8 : off % 8 = 0) (hlo : 0x80 ≤ off)
    (hhi : off < 0x100) (ha : s.agenda = .read (s.params.base + off) 64 :: rest) :
    step s = .next { s with agenda := rest, busReads := s.busReads ++ [0#64] } := by
  rw [step_hostRead ha]
  simp only [State.hostRead, supports_offset _ h8 hhi, if_true, Nat.add_sub_cancel_left, regAt_reserved hlo]

theorem step_write_reserved {s : State} {off : Nat} {v : Word} {rest : List Turn} (h8 : off % 8 = 0) (hlo : 0x80 ≤ off)
    (hhi : off < 0x100) (ha : s.agenda = .write (s.params.base + off) 64 v :: rest) :
    step s = .next { s with agenda := rest } := by
  rw [step_hostWrite ha]
  simp only [State.hostWrite, supports_offset _ h8 hhi, if_true, Nat.add_sub_cancel_left, regAt_reserved hlo]

/-- The offsets of ID, RESULT0, RESULT1, SYMCNT, TOTAL, ERRINFO, OUT_DATA, FIFO_STAT and CFG. -/
theorem regAt_readOnly {off : Nat} (h : off ∈ [0x00, 0x30, 0x38, 0x40, 0x48, 0x50, 0x68, 0x70, 0x78]) :
    ∃ r, regAt off = some r ∧ ∀ (s : State) (v : Word), s.writeReg v r = s := by
  simp only [List.mem_cons, List.not_mem_nil, or_false] at h
  rcases h with rfl | rfl | rfl | rfl | rfl | rfl | rfl | rfl | rfl <;> exact ⟨_, rfl, fun _ _ => rfl⟩

/-- Settles O17: a read-only register ignores the write, and a reserved offset names no register. -/
theorem readOnlyWritesIgnored : Obligations.ReadOnlyWritesIgnored := by
  intro s off v rest
  refine ⟨fun hoff ha => ?_, fun ⟨h8, hlo, hhi⟩ ha => step_read_reserved h8 hlo hhi ha⟩
  rcases hoff with hoff | ⟨h8, hlo, hhi⟩
  · obtain ⟨r, hr, hkeeps⟩ := regAt_readOnly hoff
    rw [step_write ha hr, hkeeps]
  · exact step_write_reserved h8 hlo hhi ha

/-! ## What a HOST access leaves alone (20_memory R70, R78) -/

/-- s with what a HOST read can change taken from t. -/
def State.withRead (s t : State) : State :=
  { s with outFifo := t.outFifo, waitOut := t.waitOut, busReads := t.busReads, draws := t.draws }

/-- s with what a HOST write that is no reset can change taken from t. -/
def State.withWritten (s t : State) : State :=
  { s with
    ieDone := t.ieDone, ieErr := t.ieErr, busy := t.busy, done := t.done, err := t.err, cmdOvr := t.cmdOvr
    inOvf := t.inOvf, waitIn := t.waitIn, errCode := t.errCode, errInfo := t.errInfo, arg0 := t.arg0
    budget := t.budget, c := t.c, a := t.a, inFifo := t.inFifo, prog := t.prog }

theorem looseRead_withRead (s : State) (v : Word) : (s.looseRead v).2 = s.withRead (s.looseRead v).2 := by
  rw [s.looseRead_snd]
  split <;> rfl

theorem readOut_withRead (s : State) : s.readOut.2 = s.withRead s.readOut.2 := by
  unfold State.readOut
  split <;> rfl

theorem readReg_withRead (s : State) (r : Reg) : (s.readReg r).2 = s.withRead (s.readReg r).2 := by
  cases r with
  | status => rw [readReg_status]; rfl
  | budget | result0 | result1 | symCnt | total => exact looseRead_withRead s _
  | outData => exact readOut_withRead s
  | _ => rfl

theorem hostRead_withRead {s t : State} {addr width : Nat} (h : s.hostRead addr width = .next t) : t = s.withRead t := by
  unfold State.hostRead at h
  split at h
  · split at h <;> cases h
    · rfl
    · rw [readReg_withRead]
      rfl
  · cases h

/-- A write of CTRL with bit 8 is the soft reset; every other write changes no more than `withWritten` names. -/
theorem writeReg_withWritten (s : State) {v : Word} {r : Reg} (hr : ¬ (r = .ctrl ∧ v.getLsbD 8 = true)) :
    s.writeReg v r = s.withWritten (s.writeReg v r) := by
  cases r with
  | ctrl =>
    rw [State.writeReg, State.writeCtrl, if_neg fun hv => hr ⟨rfl, hv⟩]
    rfl
  | status =>
    rw [State.writeReg, writeStatus_eq]
    rfl
  | cmd => rw [State.writeReg, State.issue]; split <;> rfl
  | budget => rw [State.writeReg]; split <;> rfl
  | inData | inEnd => rw [State.writeReg, State.pushIn]; split <;> rfl
  | _ => rfl

theorem regAt_ctrl {off : Nat} (h : regAt off = some .ctrl) : off = 0x08 := by
  unfold regAt at h
  split at h <;> cases h
  rfl

theorem hostWrite_withWritten {s t : State} {addr width : Nat} {v : Word} (h : s.hostWrite addr width v = .next t)
    (hno : ¬ (addr = s.params.base + 0x08 ∧ v.getLsbD 8 = true)) : t = s.withWritten t := by
  unfold State.hostWrite at h
  split at h
  · rename_i hsup
    split at h <;> cases h
    · rfl
    · rename_i r hreg
      refine writeReg_withWritten s ?_
      rintro ⟨rfl, hv⟩
      have hoff := regAt_ctrl hreg
      obtain ⟨-, -, hlo, -⟩ := (supports_iff _ _ _).1 hsup
      exact hno ⟨by omega, hv⟩
  · cases h

/-- Settles O22: each register's read and write changes only what the statement names. -/
theorem hostAccessKeepsInternals : Obligations.HostAccessKeepsInternals :=
  fun _ _ => ⟨fun _ _ h => hostRead_withRead h, fun _ _ _ h hno => hostWrite_withWritten h hno⟩

/-! ## Writers on a full OUT FIFO (20_memory R84; 40_bitio R131) -/

/-- WR_BITS, HDR_WRITE or ENC_SYM stands, at its start or in a hold, where it goes on to write `todo`. -/
def WritesNext (i : Instr) (s : State) (todo : List Bool) : Prop :=
  (∃ n, i = .wrBits n ∧ ((s.prog = .start ∧ todo = msbBits s.a.toNat n.toNat) ∨ s.prog = .writing todo)) ∨
    (i = .hdrWrite ∧ ((s.prog = .start ∧ s.symCnt ≠ 0#9 ∧ todo = byteBits (headerBytes s.symCnt.toNat s.freq)) ∨
      s.prog = .writing todo)) ∨
    (∃ x, i = .encSym x ∧ ((s.prog = .start ∧ s.codesValid = true ∧ (s.codeAt x).len ≠ 0#8 ∧
      todo = (s.codeAt x).path) ∨ s.prog = .writing todo))

theorem exec_writes_held {i : Instr} {s t : State} {todo left : List Bool} (hi : WritesNext i s todo)
    (hw : writeBits todo s = .held left t) : exec i s = .next (t.holdOut (.writing left)) := by
  rcases hi with ⟨n, rfl, ⟨hp, rfl⟩ | hp⟩ | ⟨rfl, ⟨hp, h0, rfl⟩ | hp⟩ | ⟨x, rfl, ⟨hp, hc, hx, rfl⟩ | hp⟩
  · simp only [exec, execWrBits, State.wrBitsTodo, hp, hw]
  · simp only [exec, execWrBits, State.wrBitsTodo, hp, hw]
  · simp only [exec, execHdrWrite, hp, if_neg h0, hw, finishWrite]
  · simp only [exec, execHdrWrite, hp, hw, finishWrite]
  · simp only [exec, execEncSym, hp, hc, Bool.true_eq_false, if_false, if_neg hx, hw, finishWrite]
  · simp only [exec, execEncSym, hp, hw, finishWrite]

/-- Settles O32: a run of the writer without room is held on a full byte (`writeBits_full`), and so is the command;
ENC_STREAM in the code it was resumed in or in that of one of the bytes at hand (`encStream_full`). -/
theorem writersHoldOnFullOut : Obligations.WritersHoldOnFullOut := by
  refine ⟨fun i s todo hi hk hl ho hr => ?_, fun s n todo bs ts hat hin hcodes hk h8 hl hw ho hr => ?_⟩
  · obtain ⟨left, t, e, hsent, -, hwk, hlow, hfull, hframe⟩ := writeBits_full todo s hk hl ho hr
    refine ⟨t.holdOut (.writing left), left, exec_writes_held hi e, rfl, rfl, hfull, hsent, hwk, hlow, ?_⟩
    rw [hframe]
    rfl
  · obtain ⟨resumed, later⟩ := encStream_full hat bs ts hin hcodes hk h8 hl ho
    by_cases hroom : s.HasRoom todo.length
    · obtain ⟨t, front, rest, b, left, e, hbs, hleft, hsent, hwk, hlow, hfull, hframe⟩ := later hroom hr hw
      refine ⟨t, n + front.length, front ++ [b], rest, (s.codeAt b).path, left, e, hbs, ?_, .inr ⟨front, b, rfl, rfl⟩,
        hleft, hsent, hwk, hlow, hfull, hframe⟩
      rw [List.length_append, List.length_singleton, Nat.add_assoc]
    · obtain ⟨t, left, m, hn, e, hleft, hsent, hwk, hlow, hfull, hframe⟩ := resumed hroom
      refine ⟨t, m, [], bs, todo, left, e, rfl, hn, .inl ⟨rfl, rfl⟩, hleft, ?_, hwk, hlow, hfull, ?_⟩
      · rw [hsent, State.codeBits, List.flatMap_nil, List.append_nil]
      · rw [← hin]
        exact hframe

end Sys2Proof.Machine

namespace Sys2Proof.Machine

/-! ## The fields of a command word (30_encoding R111) -/

/-- The fields of w are those i is encoded with. -/
def Carries (w : Word) (i : Instr) : Prop :=
  opOf w = opcode i ∧ symOf w = symField i ∧ cntOf w = cntField i ∧ rsvOf w = 0#40

theorem carries_encode (i : Instr) : Carries (encode i) i := Laws.OpcodeField.statement_of_fields i

/-- A word with RSV = 0 is made of its three other fields. -/
theorem cmdWord_of_fields {w : Word} (hr : rsvOf w = 0#40) : cmdWord (opOf w) (symOf w) (cntOf w) = w := by
  rw [cmdWord, ← hr, rsvOf, cntOf, symOf, opOf]
  rw [BitVec.extractLsb'_append_extractLsb'_eq_extractLsb' (show 24 = 16 + 8 from rfl),
    BitVec.extractLsb'_append_extractLsb'_eq_extractLsb' (show 16 = 8 + 8 from rfl),
    BitVec.extractLsb'_append_extractLsb'_eq_extractLsb' (show 8 = 0 + 8 from rfl)]
  exact BitVec.extractLsb'_eq_self

theorem encode_eq_iff_carries (w : Word) (i : Instr) : encode i = w ↔ Carries w i := by
  constructor
  · rintro rfl
    exact carries_encode i
  · rintro ⟨hop, hsym, hcnt, hrsv⟩
    rw [encode, ← hop, ← hsym, ← hcnt, cmdWord_of_fields hrsv]

theorem opOf_toNat (w : Word) : (opOf w).toNat = w.toNat % 256 := by
  simp [opOf]

theorem symOf_toNat (w : Word) : (symOf w).toNat = w.toNat / 256 % 256 := by
  simp [symOf, Nat.shiftRight_eq_div_pow]

theorem cntOf_toNat (w : Word) : (cntOf w).toNat = w.toNat / 65536 % 256 := by
  simp [cntOf, Nat.shiftRight_eq_div_pow]

theorem rsvOf_toNat (w : Word) : (rsvOf w).toNat = w.toNat / 16777216 := by
  have hlt := w.isLt
  rw [rsvOf, BitVec.extractLsb'_toNat, Nat.shiftRight_eq_div_pow]
  omega

/-! ## The four forms of a command (30_encoding R113, R115, R116) -/

theorem plainForm_ok_iff {w : Word} {i j : Instr} :
    plainForm w j = .ok i ↔ rsvOf w = 0#40 ∧ symOf w = 0#8 ∧ cntOf w = 0#8 ∧ j = i := by
  unfold plainForm
  split_ifs <;> simp_all

theorem symForm_ok_iff {w : Word} {i : Instr} {mk : Byte → Instr} :
    symForm w mk = .ok i ↔ rsvOf w = 0#40 ∧ cntOf w = 0#8 ∧ mk (symOf w) = i := by
  unfold symForm
  split_ifs <;> simp_all

theorem cntForm_ok_iff {w : Word} {i : Instr} {limit : Nat} {mk : Byte → Instr} :
    cntForm w limit mk = .ok i ↔ rsvOf w = 0#40 ∧ symOf w = 0#8 ∧ (cntOf w).toNat ≤ limit ∧ mk (cntOf w) = i := by
  unfold cntForm
  split_ifs <;> simp_all

theorem symCntForm_ok_iff {w : Word} {i : Instr} {limit : Nat} {mk : Byte → Byte → Instr} :
    symCntForm w limit mk = .ok i ↔ rsvOf w = 0#40 ∧ (cntOf w).toNat ≤ limit ∧ mk (symOf w) (cntOf w) = i := by
  unfold symCntForm
  split_ifs <;> simp_all

/-! ## Decoding and encoding (30_encoding R113, R114, R122) -/

/-- A decoded word carries the fields of its command, and its count is in range: one case for each form, the plain
commands last. -/
theorem carries_of_decode {w : Word} {i : Instr} (h : decode w = .ok i) : i.wf = true ∧ Carries w i := by
  unfold decode at h
  split at h
  case h_22 => cases h
  case h_15 hop =>
    obtain ⟨hr, hn, rfl⟩ := symCntForm_ok_iff.1 h
    exact ⟨decide_eq_true hn, BitVec.eq_of_toNat_eq hop, rfl, rfl, hr⟩
  case h_7 hop | h_9 hop =>
    obtain ⟨hr, hs, hn, rfl⟩ := cntForm_ok_iff.1 h
    exact ⟨decide_eq_true hn, BitVec.eq_of_toNat_eq hop, hs, rfl, hr⟩
  case h_3 hop | h_5 hop | h_6 hop | h_17 hop =>
    obtain ⟨hr, hn, rfl⟩ := symForm_ok_iff.1 h
    exact ⟨rfl, BitVec.eq_of_toNat_eq hop, rfl, hn, hr⟩
  all_goals
    rename_i hop
    obtain ⟨hr, hs, hn, rfl⟩ := plainForm_ok_iff.1 h
    exact ⟨rfl, BitVec.eq_of_toNat_eq hop, hs, hn, hr⟩

/-- A word with the fields of a well-formed command decodes to it. -/
theorem decode_of_carries {w : Word} {i : Instr} (hwf : i.wf = true) (h : Carries w i) : decode w = .ok i := by
  obtain ⟨hop, hs, hn, hr⟩ := h
  unfold decode
  rw [hop]
  cases i with
  | freqAccum x | freqLoad x | freqRead x | encSym x => exact symForm_ok_iff.2 ⟨hr, hn, congrArg _ hs⟩
  | wrBits n | rdBits n =>
    exact cntForm_ok_iff.2 ⟨hr, hs, hn ▸ of_decide_eq_true hwf, congrArg _ hn⟩
  | codeLookup x n =>
    exact symCntForm_ok_iff.2 ⟨hr, hn ▸ of_decide_eq_true hwf, congrArg₂ _ hs hn⟩
  | _ => exact plainForm_ok_iff.2 ⟨hr, hs, hn, rfl⟩

/-- A well-formed command is decoded from its encoding and from no other word; an ill-formed one from no word. -/
theorem decode_ok_iff {w : Word} {i : Instr} : decode w = .ok i ↔ i.wf = true ∧ encode i = w := by
  rw [encode_eq_iff_carries]
  exact ⟨carries_of_decode, fun ⟨hwf, h⟩ => decode_of_carries hwf h⟩

/-- Settles O1: the encoding carries the fields of its command, and the decoder reads them back. -/
theorem decodeEncodeRoundTrip : Obligations.DecodeEncodeRoundTrip :=
  fun _ hwf => decode_ok_iff.2 ⟨hwf, rfl⟩

/-- Settles O2: the fields of a legal word are those of its command, and RSV is 0. -/
theorem legalWordIsUniqueEncoding : Obligations.LegalWordIsUniqueEncoding :=
  fun _ _ h => decode_ok_iff.1 h

/-- Settles O4: each of the eleven words, evaluated. -/
theorem wordsOfTheSpecDecode : Obligations.WordsOfTheSpecDecode := by
  unfold Obligations.WordsOfTheSpecDecode
  decide

/-! ## Illegal words (30_encoding R116) -/

/-- The illegal words by the numbers of their fields. -/
def IllegalFields (op sym cnt rsv : Nat) : Prop :=
  op ∉ [0x00, 0x01, 0x02, 0x03, 0x04, 0x05, 0x10, 0x11, 0x12, 0x13, 0x14, 0x20, 0x21, 0x30, 0x31, 0x40, 0x41, 0x42,
      0x43, 0x44, 0x45] ∨
    rsv ≠ 0 ∨ (op ∉ [0x02, 0x04, 0x05, 0x31, 0x41] ∧ sym ≠ 0) ∨ (op ∉ [0x10, 0x12, 0x31] ∧ cnt ≠ 0) ∨
    (op ∈ [0x10, 0x12] ∧ 64 < cnt) ∨ (op = 0x31 ∧ 3 < cnt)

/-- The decoder finds a command exactly in the words that are not illegal: each form's checks are the disjuncts that
its opcode leaves open. -/
theorem exists_decode_iff (w : Word) : (∃ i, decode w = .ok i) ↔
    ¬ IllegalFields (opOf w).toNat (symOf w).toNat (cntOf w).toNat (rsvOf w).toNat := by
  have zero {n : Nat} (v : BitVec n) : v.toNat = 0 ↔ v = 0#n := BitVec.toNat_inj (y := 0#n)
  unfold decode
  split
  case h_22 => simp_all [IllegalFields]
  case h_15 hop => simp [IllegalFields, hop, symCntForm_ok_iff, zero, maxCodeWord]
  case h_7 hop | h_9 hop => simp [IllegalFields, hop, cntForm_ok_iff, zero, maxBits]
  case h_3 hop | h_5 hop | h_6 hop | h_17 hop => simp [IllegalFields, hop, symForm_ok_iff, zero]
  all_goals
    rename_i hop
    simp [IllegalFields, hop, plainForm_ok_iff, zero]

theorem coreTurn_illegal {s : State} {e : DecodeError} (he : s.coreEnabled = true) (hd : decode s.c = .error e) :
    s.coreTurn = .next (s.raise .illegalCmd s.c) := by
  rw [State.coreTurn, if_pos he, hd]

/-- Settles O3: the CORE's turn follows the decoder, which answers a command on the words that are not illegal. -/
theorem illegalWordsRaise : Obligations.IllegalWordsRaise := by
  intro s he op sym cnt rsv illegal
  have legal : (∃ i, decode s.c = .ok i) ↔ ¬ illegal := by
    have h := exists_decode_iff s.c
    rwa [opOf_toNat, symOf_toNat, cntOf_toNat, rsvOf_toNat] at h
  refine ⟨fun hill => ?_, fun hnot => ?_⟩
  · cases hd : decode s.c with
    | ok i => exact absurd hill (legal.1 ⟨i, hd⟩)
    | error e => exact coreTurn_illegal he hd
  · obtain ⟨i, hd⟩ := legal.2 hnot
    obtain ⟨-, hop, -⟩ := carries_of_decode hd
    exact ⟨i, by rw [← hop, opOf_toNat], hd, coreTurn_runs he hd⟩

/-! ## Issue (30_encoding R110) -/

theorem issue_dropped {s : State} (w : Word) (h : s.busy = true ∨ s.err = true) : s.issue w = { s with cmdOvr := true } := by
  rw [State.issue, if_pos (by simpa using h)]

theorem issue_accepted {s : State} (w : Word) (hb : s.busy = false) (he : s.err = false) : s.issue w = s.latch w := by
  simp [State.issue, hb, he]

/-- Settles O10: CMD is the register at 0x18; a write to it is an issue attempt, and a read of it returns 0. -/
theorem cmdWriteIssues : Obligations.CmdWriteIssues := by
  intro s w rest
  refine ⟨fun ha => ⟨fun hbusy => ?_, fun hb he => ?_⟩, fun ha => step_read (r := .cmd) ha rfl⟩
  · rw [step_write (r := .cmd) ha rfl, State.writeReg, issue_dropped (s := { s with agenda := rest }) w hbusy]
  · refine ⟨{ s with agenda := rest }.latch w, ?_, rfl, fun hi ho => ?_⟩
    · rw [step_write (r := .cmd) ha rfl, State.writeReg, issue_accepted (s := { s with agenda := rest }) w hb he]
    · have hon : ({ s with agenda := rest }.latch w).coreEnabled = true := (coreEnabled_iff _).2 ⟨rfl, hi, ho⟩
      cases hd : decode w with
      | ok i => exact coreTurn_runs hon hd
      | error e => exact coreTurn_illegal hon hd

/-- Settles O6: the placed word stands in C, with the CORE enabled and its turn next. -/
theorem placedCommandRuns : Obligations.PlacedCommandRuns := by
  intro s nbits w i _ hlt hd
  rw [State.withFetchWord, Nat.mod_eq_of_lt hlt, step_core (rest := s.agenda) rfl]
  exact coreTurn_runs (s := { s.withCommand (BitVec.ofNat 64 w) with agenda := s.agenda }) rfl hd

end Sys2Proof.Machine

namespace Sys2Proof.Machine

/-! ## The bit writer's commands (40_bitio R131..R133, R136, R137) -/

/-- Settles O31: with room the run of the writer is not held (`writeBits_room`), and it appends its bits
(`writeBits_done`). -/
theorem wrBitsWrites : Obligations.WrBitsWrites := by
  intro s n todo hat hk hl hroom
  have htodo : s.wrBitsTodo n = todo := by
    rcases hat with ⟨hp, rfl⟩ | hp <;> rw [State.wrBitsTodo, hp]
  obtain ⟨t, hw⟩ := writeBits_room todo s hk hl hroom
  obtain ⟨hsent, hwk, hlow⟩ := writeBits_done todo s t hk hl hw
  refine ⟨t.complete, ?_, hsent, hwk, hlow, ?_⟩
  · rw [exec, execWrBits, htodo, hw]
  · rw [writeBits_done_frame todo s t hw]
    rfl

/-- The unwritten bits of the accumulator are the padding of its byte. -/
theorem byteBits_wacc {s : State} (hk : s.wk.toNat ≤ 8) (hl : s.AccLow) :
    byteBits [s.wacc] = s.writerBits ++ List.replicate (8 - s.wk.toNat) false := by
  have hbyte : byteBits [s.wacc] = msbBits s.wacc.toNat 8 := List.append_nil _
  have hpad : (msbBits s.wacc.toNat 8).drop s.wk.toNat = List.replicate (8 - s.wk.toNat) false := by
    apply List.ext_getElem
    · simp
    · intro i hi _
      simp only [List.length_drop, msbBits_length] at hi
      rw [List.getElem_drop, msbBits_getElem, List.getElem_replicate]
      exact hl _ (by omega)
  rw [hbyte, State.writerBits, ← hpad, List.take_append_drop]

/-- A byte pushed out of the accumulator lengthens the stream by the padding alone (R133). -/
theorem sentBits_pushed {s t : State} (hk : s.wk.toNat ≤ 8) (hl : s.AccLow)
    (hout : t.outFifo = s.outFifo ++ [s.wacc]) (hwk : t.wk = 0#4) :
    t.sentBits = s.sentBits ++ List.replicate (8 - s.wk.toNat) false := by
  have hempty : t.writerBits = [] := by rw [State.writerBits, hwk]; rfl
  rw [State.sentBits, State.sentBits, hout, hempty, byteBits_append, byteBits_wacc hk hl, List.append_nil,
    List.append_assoc]

theorem padding_of_partial {s : State} (h : s.wk ≠ 0#4) : s.padding = 8 - s.wk.toNat := if_neg h

theorem pushWacc_full {s : State} (h : s.params.outDepth ≤ s.outFifo.length) : s.pushWacc = none := by
  rcases pushWacc_cases s with ⟨-, hpush⟩ | ⟨hroom, -⟩
  · exact hpush
  · exact absurd h (of_decide_eq_false hroom)

theorem pushWacc_room {s : State} (h : s.outFifo.length < s.params.outDepth) :
    s.pushWacc = some { s with outFifo := s.outFifo ++ [s.wacc], waitOut := false, wacc := 0#8, wk := 0#4 } := by
  rcases pushWacc_cases s with ⟨hfull, -⟩ | ⟨-, hpush⟩
  · exact absurd h (Nat.not_lt.2 (of_decide_eq_true hfull))
  · exact hpush

/-- Settles O33, by whether the writer holds bits and whether OUT has room for their byte. -/
theorem wrFlushPads : Obligations.WrFlushPads := by
  intro s hk
  refine ⟨fun h0 => ?_, fun h0 hfull => ?_, fun h0 hroom => ?_⟩
  · rw [exec, execWrFlush, if_pos h0]
  · rw [exec, execWrFlush, if_neg h0, pushWacc_full hfull]
    rfl
  · have hp : s.padding ≠ 0 := by rw [padding_of_partial h0]; omega
    refine ⟨_, by rw [exec, execWrFlush, if_neg h0, pushWacc_room hroom], fun hl => ?_, ?_⟩
    · exact sentBits_pushed (Nat.le_succ_of_le hk) hl rfl rfl
    · rw [if_neg hp, padding_of_partial h0]
      rfl

/-! ## The bit reader's commands (40_bitio R134, R135, R138, R140) -/

/-- A run of the reader that wants more bits than the bytes at hand give holds with none left. -/
theorem readBits_bytes {left r k : Nat} {s : State} {bs : List Byte} (hk : s.rk.toNat ≤ 8)
    (hin : s.inFifo = byteTokens bs) (hlen : s.pendingBits.length < left) :
    ∃ t, readBits left r k s = .held (r * 2 ^ s.pendingBits.length + pathValue s.pendingBits)
      (k + s.pendingBits.length) t ∧ t.inFifo = [] ∧ t.rk = 0#4 := by
  have htake := takesBytes_readBits left r k s
  rcases readBits_cases left r k s hk with ⟨t, -, hle, -⟩ | ⟨-, t, ⟨e, hf⟩ | ⟨e, rest, hf⟩, h0⟩
  · omega
  · exact ⟨t, e, hf, h0⟩
  · obtain ⟨taken, htaken, -⟩ := htake
    rw [e, ReadRes.state, hin, hf] at htaken
    exact absurd htaken byteTokens_ne_fin

/-- A run of the reader that wants more bits than the bytes before End give fails with End at the head. -/
theorem readBits_bytes_fin {left r k : Nat} {s : State} {bs : List Byte} {rest : List Token} (hk : s.rk.toNat ≤ 8)
    (hin : s.inFifo = byteTokens bs ++ .fin :: rest) (hlen : s.pendingBits.length < left) :
    ∃ t, readBits left r k s = .eos (r * 2 ^ s.pendingBits.length + pathValue s.pendingBits)
      (k + s.pendingBits.length) t ∧ t.inFifo = .fin :: rest ∧ t.rk = 0#4 := by
  have htake := takesBytes_readBits left r k s
  rcases readBits_cases left r k s hk with ⟨t, -, hle, -⟩ | ⟨-, t, ⟨e, hf⟩ | ⟨e, tail, hf⟩, h0⟩
  · omega
  · obtain ⟨taken, htaken, -⟩ := htake
    rw [e, ReadRes.state, hin, hf, List.append_nil] at htaken
    exact absurd htaken.symm byteTokens_ne_fin
  · obtain ⟨taken, htaken, -⟩ := htake
    rw [e, ReadRes.state, hin, hf] at htaken
    exact ⟨t, e, byteTokens_fin_inj htaken ▸ hf, h0⟩

theorem exec_rdBits_got {n : Byte} {s t : State} {r k r' : Nat} (hso : s.rdBitsSoFar = (r, k))
    (e : readBits (n.toNat - k) r k s = .got r' t) :
    exec (.rdBits n) s =
      .next { t with result0 := BitVec.ofNat 64 r', result1 := BitVec.ofNat 64 n.toNat }.complete := by
  rw [exec, execRdBits, hso, e, BitVec.ofNat_toNat]
  rfl

/-- Settles O34, by how the run of the reader ends: with the bits, held after the last byte, or before End. -/
theorem rdBitsReads : Obligations.RdBitsReads := by
  intro s n r k hat _ hk left have'
  have hso : s.rdBitsSoFar = (r, k) := by
    rcases hat with ⟨hp, rfl, rfl⟩ | hp <;> rw [State.rdBitsSoFar, hp]
  have hframe := readBits_frame left r k s
  refine ⟨fun hle => ?_, fun hlt bs hin => ?_, fun hlt bs rest hin => ?_⟩
  · have htake := takesBytes_readBits left r k s
    rcases readBits_cases left r k s hk with ⟨t, e, -, hrest, -⟩ | ⟨hlt, -⟩
    · rw [e, ReadRes.state] at hframe htake
      refine ⟨_, exec_rdBits_got hso e, ⟨hrest, htake.congr rfl rfl⟩, ?_⟩
      rw [hframe]
      rfl
    · exact absurd hle (Nat.not_le.2 hlt)
  · obtain ⟨t, e, hf, h0⟩ := readBits_bytes (r := r) (k := k) hk hin hlt
    rw [e, ReadRes.state, hf, h0] at hframe
    refine ⟨_, by rw [exec, execRdBits, hso, e], ?_⟩
    rw [hframe]
    rfl
  · obtain ⟨t, e, hf, h0⟩ := readBits_bytes_fin (r := r) (k := k) hk hin hlt
    rw [e, ReadRes.state, hf, h0] at hframe
    refine ⟨_, by rw [exec, execRdBits, hso, e], ?_⟩
    rw [hframe]
    rfl

theorem countWord_lt {n : Nat} (h : n < 2 ^ 64) : countWord n = BitVec.ofNat 64 n := if_pos h

/-- The loop of RD_DRAIN on bytes and an End: both are dropped, and the bytes counted (R140). -/
theorem drainLoop_fin {bs : List Byte} {d : Nat} (rest : List Token) (s : State) (h : d + bs.length < 2 ^ 64) :
    drainLoop (byteTokens bs ++ .fin :: rest) d s =
      { s with inFifo := rest, result0 := BitVec.ofNat 64 (d + bs.length) }.complete := by
  rw [drainLoop_bytes, drainLoop, countWord_lt h]
  rfl

/-- The loop of RD_DRAIN on bytes alone: it holds with all of them dropped (R140, 20_memory R82). -/
theorem drainLoop_held (bs : List Byte) (d : Nat) (s : State) :
    drainLoop (byteTokens bs) d s = { s with inFifo := [], waitIn := true, prog := .draining (d + bs.length) } := by
  rw [← List.append_nil (byteTokens bs), drainLoop_bytes, drainLoop]
  rfl

theorem exec_rdDrain_start {s : State} (h : s.prog = .start) :
    exec .rdDrain s = .next (drainLoop s.inFifo 0 { s with result1 := BitVec.ofNat 64 s.rk.toNat, rk := 0#4 }) := by
  rw [exec, execRdDrain, h, BitVec.ofNat_toNat]

theorem exec_rdDrain_held {s : State} {d : Nat} (h : s.prog = .draining d) :
    exec .rdDrain s = .next (drainLoop s.inFifo d s) := by
  rw [exec, execRdDrain, h]

/-- Settles O35, by where the command stands and whether an End follows the bytes. -/
theorem rdDrainDrops : Obligations.RdDrainDrops := by
  intro s bs rest
  refine ⟨fun hp hin hlen => ?_, fun hp hin => ?_, fun d hp => ⟨fun hin hlen => ?_, fun hin => ?_⟩⟩
  · rw [exec_rdDrain_start hp, hin, drainLoop_fin rest _ (by rwa [Nat.zero_add]), Nat.zero_add]
  · rw [exec_rdDrain_start hp, hin, drainLoop_held, Nat.zero_add]
  · rw [exec_rdDrain_held hp, hin, drainLoop_fin rest _ hlen]
  · rw [exec_rdDrain_held hp, hin, drainLoop_held]

/-! ## Frames -/

/-- Settles O56: each command's frame is its own lemma. -/
theorem portCommandFrames : Obligations.PortCommandFrames := by
  intro s t
  refine ⟨fun _ => execWrBits_frame, execWrFlush_frame, fun _ => execRdBits_frame, execRdAlign_frame, execRdDrain_frame,
    ?_, execEncStream_frame, execHdrRead_frame, execDecSym_frame, execDecStream_frame⟩
  rintro (h | ⟨x, h⟩)
  · exact execHdrWrite_frame h
  · exact execEncSym_frame h

end Sys2Proof.Machine

namespace Sys2Proof.Machine

/-! ## The frequency commands (41_frequency R151, R153, R155) -/

theorem wordOf_eq_ofNat (x : Byte) : wordOf x = BitVec.ofNat 64 x.toNat := (BitVec.ofNat_toNat 64 x).symm

theorem totalFull_iff (s : State) : s.totalFull = true ↔ s.total.toNat = 2 ^ 64 - 1 := by
  rw [State.totalFull, decide_eq_true_iff, ← BitVec.toNat_inj, BitVec.toNat_allOnes]

theorem accumulate_total_toNat {s : State} (x : Byte) (h : s.total.toNat ≠ 2 ^ 64 - 1) :
    (s.accumulate x).total.toNat = s.total.toNat + 1 := by
  have hlt := s.total.isLt
  rw [State.accumulate_total, BitVec.toNat_add, BitVec.toNat_ofNat]
  omega

theorem freqAt_le_total {s : State} (h : s.TableOk) (x : Byte) : (s.freqAt x).toNat ≤ s.total.toNat :=
  (freq_le_tableSum s.freq x).trans_eq h.2.symm

theorem freqAt_of_setFreq {s t : State} {x : Byte} {v : Word} (h : t.freq = setFreq s.freq x v) (y : Byte) :
    t.freqAt y = if y = x then v else s.freqAt y := by
  simp only [State.freqAt, h]
  split
  · next hy => subst hy; exact setFreq_self s.freq y v
  · next hy => exact setFreq_other s.freq x y v hy

/-- Settles O26: the two branches of FREQ_ACCUM; V1 and V2 are kept as by counting the one byte of a stream. -/
theorem freqAccumCounts : Obligations.FreqAccumCounts := by
  intro s x
  rw [exec, execFreqAccum, ← wordOf_eq_ofNat]
  refine ⟨fun hfull => if_pos ((totalFull_iff s).2 hfull), fun hroom => ?_⟩
  refine ⟨_, if_neg (mt (totalFull_iff s).1 hroom), accumulate_freqAt s x, accumulate_total_toNat x hroom,
    fun hok => ?_, rfl⟩
  have hlt := s.total.isLt
  obtain ⟨hok', -, hcount⟩ := accumulateAll_ok [x] s hok (by rw [List.length_singleton]; omega)
  exact ⟨hok', (hcount x).trans (by rw [List.count_singleton_self])⟩

/-- Settles O27: the two branches of FREQ_LOAD; past the check TOTAL − FREQ[x] + A is a word. -/
theorem freqLoadReplaces : Obligations.FreqLoadReplaces := by
  intro s x hok
  rw [exec, execFreqLoad, ← State.totalAfterLoad, ← wordOf_eq_ofNat]
  refine ⟨fun hover => if_pos hover, fun hfits => ?_⟩
  have hle := freqAt_le_total hok x
  have htotal : (BitVec.ofNat 64 (s.totalAfterLoad x)).toNat = s.totalAfterLoad x := by
    rw [BitVec.toNat_ofNat, Nat.mod_eq_of_lt hfits]
  refine ⟨_, if_neg (Nat.not_le.2 hfits), freqAt_of_setFreq rfl, freqLoad_tableOk s x hok hfits _ rfl rfl rfl, ?_, rfl⟩
  rw [State.complete_total, htotal, State.totalAfterLoad]
  omega

/-! ## Counting a stream (41_frequency R154) -/

theorem counted_of_point {s : State} {n : Nat} (h : (s.prog = .start ∧ n = 0) ∨ s.prog = .counting n) :
    s.counted = n := by
  rcases h with ⟨hp, rfl⟩ | hp <;> rw [State.counted, hp]

/-- FREQ_ACCUM_STREAM that has counted n bytes runs the counting loop on the tokens at IN. -/
theorem exec_freqAccumStream {s : State} {n : Nat} {ts : List Token}
    (h : (s.prog = .start ∧ n = 0) ∨ s.prog = .counting n) (hin : s.inFifo = ts) :
    exec .freqAccumStream s = .next (countLoop ts n s) := by
  rw [exec, execFreqAccumStream, counted_of_point h, hin]

/-- A byte counted leaves tree and codes invalid (R150). -/
theorem accumulateAll_valid (bs : List Byte) (s : State) :
    (s.accumulateAll bs).treeValid = (if bs = [] then s.treeValid else false) ∧
      (s.accumulateAll bs).codesValid = (if bs = [] then s.codesValid else false) := by
  induction bs generalizing s with
  | nil => exact ⟨rfl, rfl⟩
  | cons b bs ih =>
    obtain ⟨htv, hcv⟩ := ih (s.accumulate b)
    exact ⟨htv.trans (ite_self _), hcv.trans (ite_self _)⟩

/-- The state in which FREQ_ACCUM_STREAM ends, but for its completion or error: after n bytes it has counted `bs`
too and stands before `rest`. -/
def State.countedUpTo (s : State) (n : Nat) (bs : List Byte) (rest : List Token) : State :=
  { (s.accumulateAll bs).popped rest with result0 := BitVec.ofNat 64 (n + bs.length) }

theorem countedUpTo_frame (s : State) (n : Nat) (bs : List Byte) (rest : List Token) :
    s.countedUpTo n bs rest = { s with
      freq := (s.countedUpTo n bs rest).freq, symCnt := (s.countedUpTo n bs rest).symCnt
      total := (s.countedUpTo n bs rest).total, inFifo := rest, waitIn := false
      treeValid := if bs = [] then s.treeValid else false, codesValid := if bs = [] then s.codesValid else false
      result0 := BitVec.ofNat 64 (n + bs.length) } := by
  obtain ⟨htv, hcv⟩ := accumulateAll_valid bs s
  have hframe := accumulateAll_frame bs s
  rw [htv, hcv] at hframe
  exact congrArg (fun u : State => { u.popped rest with result0 := BitVec.ofNat 64 (n + bs.length) }) hframe

theorem countLoop_fin {n : Nat} {bs : List Byte} {rest : List Token} {s : State} (h0 : n + bs.length ≠ 0)
    (hroom : s.total.toNat + bs.length < 2 ^ 64) :
    countLoop (byteTokens bs ++ .fin :: rest) n s = (s.countedUpTo n bs rest).complete := by
  rw [countLoop_bytes bs _ n s hroom, countLoop, if_neg h0]
  rfl

theorem countLoop_overflow {n : Nat} {bs : List Byte} {b : Byte} {rest : List Token} {s : State}
    (hfull : (s.accumulateAll bs).total.toNat = 2 ^ 64 - 1) (hroom : s.total.toNat + bs.length < 2 ^ 64) :
    countLoop (byteTokens bs ++ .byte b :: rest) n s =
      (s.countedUpTo n bs rest).raise .countOverflow (wordOf b) := by
  rw [countLoop_bytes bs _ n s hroom, countLoop, if_pos ((totalFull_iff _).2 hfull)]
  rfl

/-- Settles O28: the loop stops at the End with `bs` counted, and completes. -/
theorem streamIsCounted : Obligations.StreamIsCounted := by
  intro s n bs rest hpoint hin hok h0 hroom
  obtain ⟨hok', htotal, hfreq⟩ := accumulateAll_ok bs s hok hroom
  refine ⟨_, exec_freqAccumStream hpoint hin, ?_⟩
  rw [countLoop_fin h0 hroom]
  exact ⟨hok', htotal, hfreq, (congrArg State.complete (countedUpTo_frame s n bs rest) :)⟩

/-- Settles O29: at once on End the loop has counted nothing, and on the byte past 2^64 − 1 it has counted `bs`. -/
theorem streamCountingErrors : Obligations.StreamCountingErrors := by
  refine fun s rest => ⟨fun hp hin => ?_, fun n bs b hpoint hin hok hfull => ?_⟩
  · rw [exec_freqAccumStream (.inl ⟨hp, rfl⟩) hin]
    rfl
  · have hroom : s.total.toNat + bs.length < 2 ^ 64 := by omega
    obtain ⟨hok', htotal, hfreq⟩ := accumulateAll_ok bs s hok hroom
    rw [hfull] at htotal
    refine ⟨_, exec_freqAccumStream hpoint hin, ?_⟩
    rw [countLoop_overflow htotal hroom, wordOf_eq_ofNat]
    exact ⟨hfreq, hok', htotal,
      (congrArg (State.raise · .countOverflow (BitVec.ofNat 64 b.toNat)) (countedUpTo_frame s n bs rest) :)⟩

/-- The counting loop is given its tokens and its count: of the state it reads neither IN nor the progress point. -/
theorem countLoop_resumed (ts : List Token) (n : Nat) (s : State) (fifo : List Token) (w : Bool) (p : Prog) :
    countLoop ts n { s with inFifo := fifo, waitIn := w, prog := p } = countLoop ts n s := by
  induction ts generalizing n s with
  | nil => rfl
  | cons t ts ih =>
    cases t with
    | fin => rfl
    | byte b =>
      rw [countLoop, countLoop]
      exact if_congr Iff.rfl rfl (ih (n + 1) (s.accumulate b))

/-- What IN holds is given in `ts`, and where the command stands in `p`. -/
theorem exec_freqAccumStream_given {n : Nat} {p : Prog} (s : State) (ts : List Token) (w : Bool)
    (h : (p = .start ∧ n = 0) ∨ p = .counting n) :
    exec .freqAccumStream { s with inFifo := ts, waitIn := w, prog := p } = .next (countLoop ts n s) := by
  rw [exec_freqAccumStream h rfl, countLoop_resumed]

/-- Settles O30: both ways the loop comes to `ts` with `bs` counted (`countLoop_bytes`). -/
theorem countingInPieces : Obligations.CountingInPieces := by
  intro s n bs ts hpoint hroom
  have hrun (more : List Token) : exec .freqAccumStream { s with inFifo := byteTokens bs ++ more } =
      .next (countLoop more (n + bs.length) (s.accumulateAll bs)) := by
    rw [← countLoop_bytes bs more n s hroom]
    exact exec_freqAccumStream_given s _ s.waitIn hpoint
  refine ⟨_, List.append_nil (byteTokens bs) ▸ hrun [], rfl, rfl, rfl, ?_⟩
  rw [hrun]
  exact exec_freqAccumStream_given (s.accumulateAll bs) ts false (.inr rfl)

/-! ## A changed table (41_frequency R150) -/

/-- From s to t the table stayed, or tree and codes are invalid. -/
def ChangeInvalidates (s t : State) : Prop := t.freq = s.freq ∨ (t.treeValid = false ∧ t.codesValid = false)

theorem countLoop_changeInvalidates (ts : List Token) (n : Nat) (s : State) :
    ChangeInvalidates s (countLoop ts n s) := by
  cases ts with
  | nil => exact .inl rfl
  | cons t ts =>
    cases t with
    | fin => rw [countLoop]; split <;> exact .inl rfl
    | byte b =>
      rw [countLoop]
      split
      · exact .inl rfl
      · exact .inr (countLoop_invalid ts _ (s.accumulate b) rfl rfl)

theorem readBytes_freq (m : Nat) (h : HdrPoint) (s : State) : (readBytes m h s).state.freq = s.freq :=
  (congrArg State.freq (readBytes_frame m h s) :)

theorem readEntries_changeInvalidates (m : Nat) (h : HdrPoint) (s : State) :
    ChangeInvalidates s (readEntries m h s) := by
  cases m with
  | zero => exact .inl rfl
  | succ m =>
    have hf := readBytes_freq (9 - h.got.length) h s
    rw [readEntries]
    cases e : readBytes (9 - h.got.length) h s with
    | held h' t => rw [e] at hf; exact .inl hf
    | eos used t => exact .inr ⟨rfl, rfl⟩
    | got h' t =>
      dsimp only
      split
      · exact .inr ⟨rfl, rfl⟩
      · exact .inr (readEntries_invalid _ _ _ rfl rfl)

theorem readHeader_changeInvalidates (h : HdrPoint) (s : State) : ChangeInvalidates s (readHeader h s) := by
  have hf := readBytes_freq (4 - h.got.length) h s
  rw [readHeader]
  cases e : readBytes (4 - h.got.length) h s with
  | held h' t => rw [e] at hf; exact .inl hf
  | eos used t => exact .inr ⟨rfl, rfl⟩
  | got h' t =>
    rw [e] at hf
    dsimp only
    split
    · exact .inr ⟨rfl, rfl⟩
    · split
      · exact .inr ⟨rfl, rfl⟩
      · exact (readEntries_changeInvalidates _ _ t).imp_left (·.trans hf)

theorem execHdrRead_changeInvalidates {s t : State} (h : execHdrRead s = .next t) : ChangeInvalidates s t := by
  unfold execHdrRead at h
  split at h
  · split at h <;> cases h
    · exact readHeader_changeInvalidates _ s
    · exact readEntries_changeInvalidates _ _ s
  · cases h
    exact .inr (readHeader_invalid _ s.clearTable rfl rfl)

theorem exec_changeInvalidates {i : Instr} {s t : State} (h : exec i s = .next t) : ChangeInvalidates s t := by
  cases hch : changesTables i with
  | false => exact .inl (congrArg Prod.fst ((exec_keptBy h).tables hch))
  | true =>
    cases i with
    | freqClear => cases h; exact .inr ⟨rfl, rfl⟩
    | freqAccum x =>
      rw [exec, execFreqAccum] at h
      split at h <;> cases h
      exacts [.inl rfl, .inr ⟨rfl, rfl⟩]
    | freqAccumStream => cases h; exact countLoop_changeInvalidates _ _ s
    | freqLoad x =>
      rw [exec, execFreqLoad] at h
      split at h <;> cases h
      exacts [.inl rfl, .inr ⟨rfl, rfl⟩]
    | treeBuild => exact .inl (congrArg State.freq (execTreeBuild_frame h) :)
    | codeGen => exact .inl (congrArg State.freq (execCodeGen_frame h) :)
    | hdrRead => exact execHdrRead_changeInvalidates h
    | _ => cases hch

/-- Settles O59: each command keeps the table or invalidates tree and codes. -/
theorem tableChangeInvalidates : Obligations.TableChangeInvalidates :=
  fun _ _ _ h hne => (exec_changeInvalidates h).resolve_left hne

end Sys2Proof.Machine

namespace Sys2Proof.Machine

/-! ## The tree (42_tree R170..R179) -/

theorem execTreeNode_badIndex {s : State} (hv : s.treeValid = true) (ha : s.nodeCnt.toNat ≤ s.a.toNat) :
    execTreeNode s = .next (s.raise .badIndex s.a) := by
  rw [execTreeNode, if_neg (by simp [hv]), if_pos ha]

theorem execTreeNode_read {s : State} (hv : s.treeValid = true) {i : BitVec 9} (ha : s.a = i.setWidth 64)
    (hi : i.toNat < s.nodeCnt.toNat) :
    execTreeNode s = .next
      { s with result0 := (s.nodeAt i).f, result1 := nodeWord (s.nodeAt i) (decide (i = s.root)) }.complete := by
  have hindex : s.a.setWidth 9 = i := by rw [ha, BitVec.setWidth_setWidth_of_le _ (by decide), BitVec.setWidth_eq]
  have hroot : s.a = s.root.setWidth 64 ↔ i = s.root := by
    rw [ha, ← BitVec.toNat_inj, ← BitVec.toNat_inj, BitVec.toNat_setWidth_of_le (by decide),
      BitVec.toNat_setWidth_of_le (by decide)]
  have hbound : ¬ s.nodeCnt.toNat ≤ s.a.toNat := by
    rw [ha, BitVec.toNat_setWidth_of_le (by decide)]
    exact Nat.not_le.2 hi
  rw [execTreeNode, if_neg (by simp [hv]), if_neg hbound, hindex, decide_eq_decide.2 hroot]

theorem isInternal_toNat (k : NodeKind) : k.isInternal.toNat = if k = .internal then 1 else 0 := by
  cases k <;> rfl

/-- Settles O38, by the two checks in their order; past both, A is the index of an entry. -/
theorem treeNodeReads : Obligations.TreeNodeReads := by
  intro s
  refine ⟨execTreeNode_invalid, execTreeNode_badIndex, fun hv i ha hi => ?_⟩
  have ha' : s.a = i.setWidth 64 := by rw [← BitVec.toNat_inj, ha, BitVec.toNat_setWidth_of_le (by decide)]
  refine ⟨_, execTreeNode_read hv ha' hi, rfl, ?_⟩
  rw [State.complete_result1, nodeWord_toNat, isInternal_toNat]
  by_cases hroot : i = s.root <;> simp [hroot]

/-! ### The arena of a table, and the state TREE_BUILD leaves -/

/-- What TREE_BUILD leaves where a symbol is present (R177). -/
def State.withTree (s : State) : State :=
  { s with
    node := writeArena s.node (buildTree s.freq).1
    root := BitVec.ofNat 9 (rootOf (buildTree s.freq).2)
    nodeCnt := BitVec.ofNat 10 (buildTree s.freq).1.length
    codesValid := false
    treeValid := true
    result0 := BitVec.ofNat 64 (rootOf (buildTree s.freq).2)
    result1 := BitVec.ofNat 64 (buildTree s.freq).1.length }.complete

theorem execTreeBuild_absent {s : State} (h0 : s.symCnt = 0#9) : execTreeBuild s = .next (s.raise .emptyTable 0#64) :=
  if_pos h0

theorem execTreeBuild_present {s : State} (h0 : s.symCnt ≠ 0#9) : execTreeBuild s = .next s.withTree :=
  if_neg h0

theorem leaves_length (t : Vector Word 256) : (leaves t).length = (present t).length :=
  List.length_map _

section
variable {s : State} (hok : s.TableOk) (h0 : s.symCnt ≠ 0#9)
include hok h0

theorem symCnt_bounds : 1 ≤ s.symCnt.toNat ∧ s.symCnt.toNat ≤ 256 := by
  rw [hok.1]
  exact ⟨List.length_pos_iff.mpr (present_ne_nil s hok h0), present_length_le s.freq⟩

/-- The counts of R179, and the leaves of R171 at the arena's start. -/
theorem buildTree_counts : (buildTree s.freq).1.length = 2 * s.symCnt.toNat - 1 ∧
    rootOf (buildTree s.freq).2 = 2 * s.symCnt.toNat - 2 ∧ leaves s.freq <+: (buildTree s.freq).1 := by
  obtain ⟨k, tree, more, he, hmore, hroot, -⟩ := buildTree_spec s.freq (present_ne_nil s hok h0) (tableSum_lt s hok)
  obtain ⟨hpos, -⟩ := symCnt_bounds hok h0
  rw [he, hok.1]
  refine ⟨?_, by simpa [rootOf] using hroot, List.prefix_append _ _⟩
  rw [List.length_append, leaves_length, hmore]
  have := hok.1
  omega

theorem buildTree_leaf {j : Nat} {e : Byte × Word} (he : (present s.freq)[j]? = some e) :
    (buildTree s.freq).1[j]? = some (leafNode e) := by
  obtain ⟨-, -, more, harena⟩ := buildTree_counts hok h0
  have hj : (leaves s.freq)[j]? = some (leafNode e) := by rw [leaves, List.getElem?_map, he]; rfl
  rw [← harena, List.getElem?_append_left (List.getElem?_eq_some_iff.1 hj).1, hj]

theorem buildTree_internal {j : Nat} (h1 : s.symCnt.toNat ≤ j) (h2 : j < 2 * s.symCnt.toNat - 1) :
    ∃ f a b na nb, (buildTree s.freq).1[j]? = some (mergedNode f a b) ∧ a < j ∧ b < j ∧
      (buildTree s.freq).1[a]? = some na ∧ (buildTree s.freq).1[b]? = some nb ∧ f.toNat = na.f.toNat + nb.f.toNat := by
  obtain ⟨hlen, -, -⟩ := buildTree_counts hok h0
  obtain ⟨k, tree, more, he, -, -, -, -, -, hinternal⟩ :=
    buildTree_spec s.freq (present_ne_nil s hok h0) (tableSum_lt s hok)
  rw [he] at hlen ⊢
  exact hinternal j (hok.1 ▸ h1) (hlen ▸ h2)

theorem buildTree_length_le : (buildTree s.freq).1.length ≤ 511 := by
  obtain ⟨hlen, -, -⟩ := buildTree_counts hok h0
  have := symCnt_bounds hok h0
  omega

theorem withTree_get : ∀ i, i < (buildTree s.freq).1.length → s.withTree.node[i]? = (buildTree s.freq).1[i]? :=
  fun i hi => writeArena_get s.node _ i hi (buildTree_length_le hok h0)

theorem withTree_root_freq : (s.withTree.nodeAt s.withTree.root).f = s.total := by
  have htree : s.withTree.TreeOk := treeBuild_treeOk s hok h0 _ rfl rfl rfl rfl rfl
  obtain ⟨arena, tree, hsound⟩ := soundTree_of_ok s.withTree hok htree rfl
  rw [← show tree.freq = s.total from hsound.freq]
  cases hsound.rep with
  | leaf _ _ _ h => rw [nodeAt_of_get hsound.get h]; rfl
  | node _ _ _ _ _ _ h => rw [nodeAt_of_get hsound.get h]; rfl

theorem withTree_internal {i : BitVec 9} (h1 : s.symCnt.toNat ≤ i.toNat) (h2 : i.toNat < 2 * s.symCnt.toNat - 1) :
    let t := s.withTree
    (t.nodeAt i).kind = .internal ∧ (t.nodeAt i).sym = 0#8 ∧ (t.nodeAt i).left.toNat < i.toNat ∧
      (t.nodeAt i).right.toNat < i.toNat ∧
      (t.nodeAt i).f.toNat = (t.nodeAt (t.nodeAt i).left).f.toNat + (t.nodeAt (t.nodeAt i).right).f.toNat := by
  intro t
  have hget := withTree_get hok h0
  obtain ⟨f, a, b, na, nb, hi, ha, hb, hna, hnb, hsum⟩ := buildTree_internal hok h0 h1 h2
  obtain ⟨hl, hr⟩ := child_toNat (f := f) (buildTree_length_le hok h0) (List.getElem?_eq_some_iff.1 hi).1 ha hb
  have hnode : t.nodeAt i = mergedNode f a b := nodeAt_of_get hget hi
  have hleft : (t.nodeAt i).left.toNat = a := hnode ▸ hl
  have hright : (t.nodeAt i).right.toNat = b := hnode ▸ hr
  have hna' : t.nodeAt (t.nodeAt i).left = na := nodeAt_of_get hget (hleft ▸ hna)
  have hnb' : t.nodeAt (t.nodeAt i).right = nb := nodeAt_of_get hget (hright ▸ hnb)
  rw [hna', hnb', hleft, hright, hnode]
  exact ⟨rfl, rfl, ha, hb, hsum⟩

end

/-- Settles O36: the arena is `buildTree`'s, which has the shape and the counts of R179. -/
theorem treeIsBuilt : Obligations.TreeIsBuilt := by
  refine ⟨fun s => execTreeBuild_absent, fun s hok h0 => ?_⟩
  obtain ⟨hlen, hroot, -⟩ := buildTree_counts hok h0
  refine ⟨s.withTree, execTreeBuild_present h0, hok.1.symm, fun j e he => ?_, fun i => withTree_internal hok h0,
    withTree_root_freq hok h0, ?_⟩
  · have hj := buildTree_leaf hok h0 he
    exact (withTree_get hok h0 j (List.getElem?_eq_some_iff.1 hj).1).trans hj
  · rw [← hlen, ← hroot]
    rfl

/-! ### The order of the merges (R173..R175) -/

theorem initialQueue_idx (ls : List Node) : (initialQueue ls).map Key.idx = List.range ls.length := by
  rw [initialQueue, List.map_map, List.range_eq_range', ← List.zipIdx_map_snd]
  rfl

theorem initialQueue_key (ls : List Node) : ∀ k ∈ initialQueue ls, ∃ nd, ls[k.idx]? = some nd ∧ nd.f = k.f := by
  intro k hk
  obtain ⟨⟨nd, i⟩, hmem, rfl⟩ := List.mem_map.1 hk
  exact ⟨nd, List.mem_zipIdx_iff_getElem?.1 hmem, rfl⟩

/-- Before the first merge the leaves wait, all of them. -/
theorem initialQueue_waits (ls : List Node) (x : Nat) :
    (∃ k ∈ initialQueue ls, k.idx = x) ↔ WaitsIn ls.length ls ls.length x := by
  rw [← List.mem_map, initialQueue_idx, List.mem_range]
  exact ⟨fun hx => ⟨hx, fun _ h1 h2 => absurd h2 (Nat.not_lt.2 h1)⟩, And.left⟩

/-- Entry j of an arena has the two least keys that wait when it is made as its children, the least at the left. -/
def MergesLeast (n : Nat) (arena : List Node) (j : Nat) (nd : Node) : Prop :=
  WaitsIn n arena j nd.left.toNat ∧ WaitsIn n arena j nd.right.toNat ∧ nd.left.toNat ≠ nd.right.toNat ∧
    ∀ x, WaitsIn n arena j x →
      KeyLeIn arena nd.left.toNat x ∧ (x ≠ nd.left.toNat → KeyLeIn arena nd.right.toNat x)

theorem buildTree_mergesLeast {s : State} (hok : s.TableOk) (h0 : s.symCnt ≠ 0#9) {j : Nat}
    (h1 : s.symCnt.toNat ≤ j) (h2 : j < 2 * s.symCnt.toNat - 1) :
    ∃ nd, (buildTree s.freq).1[j]? = some nd ∧ MergesLeast s.symCnt.toNat (buildTree s.freq).1 j nd := by
  have hbounds := symCnt_bounds hok h0
  have hlen : (leaves s.freq).length = s.symCnt.toNat := (leaves_length s.freq).trans hok.1.symm
  have hqueue : (initialQueue (leaves s.freq)).length = (leaves s.freq).length - 1 + 1 := by
    rw [initialQueue, List.length_map, List.length_zipIdx]
    omega
  obtain ⟨more, he, -, hleast⟩ := mergeLoop_least (leaves s.freq).length ((leaves s.freq).length - 1) (leaves s.freq)
    (initialQueue (leaves s.freq)) hqueue le_rfl (by omega) (initialQueue_waits _) (initialQueue_key _)
    (by rw [initialQueue_idx]; exact List.nodup_range) (fun k h1 h2 => absurd h2 (Nat.not_lt.2 h1))
  rw [buildTree, he, ← hlen]
  exact hleast j (by omega) (by omega)

section
variable {t : State} {arena : List Node} (hg : ∀ i, i < arena.length → t.node[i]? = arena[i]?)
include hg

theorem get_nodeAt {i : BitVec 9} (hi : i.toNat < arena.length) : arena[i.toNat]? = some (t.nodeAt i) := by
  have hnd := List.getElem?_eq_getElem hi
  rw [nodeAt_of_get hg hnd, hnd]

theorem waiting_iff_waitsIn {n : Nat} {i j : BitVec 9} (hi : i.toNat ≤ arena.length) :
    t.Waiting n i j ↔ WaitsIn n arena i.toNat j.toNat := by
  refine and_congr_right fun _ => ⟨fun h k h1 h2 nd hnd => ?_, fun h k h1 h2 => ?_⟩
  · have hk : (BitVec.ofNat 9 k).toNat = k := by
      rw [BitVec.toNat_ofNat, Nat.mod_eq_of_lt (h2.trans i.isLt)]
    have hnode : t.nodeAt (BitVec.ofNat 9 k) = nd := nodeAt_of_get hg (hk.symm ▸ hnd)
    simpa only [hnode, ne_eq, BitVec.toNat_inj] using h (BitVec.ofNat 9 k) (by rwa [hk]) (by rwa [hk])
  · simpa only [ne_eq, BitVec.toNat_inj] using h k.toNat h1 h2 _ (get_nodeAt hg (h2.trans_le hi))

theorem keyLe_of_keyLeIn {i j : BitVec 9} (hi : i.toNat < arena.length) (hj : j.toNat < arena.length)
    (h : KeyLeIn arena i.toNat j.toNat) : t.KeyLe i j :=
  h _ _ (get_nodeAt hg hi) (get_nodeAt hg hj)

end

/-- Settles O37: what waits in the state waits in the arena, where `mergeLoop_least` gives the order. -/
theorem leastKeysAreMerged : Obligations.LeastKeysAreMerged := by
  intro s t hok h0 hexec i h1 h2 l r
  obtain rfl : s.withTree = t := Host.Outcome.next.inj ((execTreeBuild_present h0).symm.trans hexec)
  have hg := withTree_get hok h0
  obtain ⟨nd, hnd, hl, hr, hne, hleast⟩ := buildTree_mergesLeast hok h0 h1 h2
  have hi : i.toNat < (buildTree s.freq).1.length := (List.getElem?_eq_some_iff.1 hnd).1
  obtain rfl : s.withTree.nodeAt i = nd := nodeAt_of_get hg hnd
  have hwait (j : BitVec 9) := waiting_iff_waitsIn hg (n := s.symCnt.toNat) (j := j) hi.le
  refine ⟨(hwait l).2 hl, (hwait r).2 hr, fun he => hne (congrArg BitVec.toNat he), fun j hj => ?_⟩
  have hj' := (hwait j).1 hj
  obtain ⟨hleft, hright⟩ := hleast j.toNat hj'
  refine ⟨keyLe_of_keyLeIn hg (hl.1.trans hi) (hj'.1.trans hi) hleft, fun hjl => ?_⟩
  exact keyLe_of_keyLeIn hg (hr.1.trans hi) (hj'.1.trans hi) (hright (mt BitVec.eq_of_toNat_eq hjl))

end Sys2Proof.Machine

namespace Sys2Proof.Machine

/-! ## The codes (43_codegen R190..R195) -/

theorem execCodeLookup_valid {s : State} (x w : Byte) (hv : s.codesValid = true) :
    execCodeLookup x w s = .next { s with
      result0 := ((s.codeAt x).bits.setWidth 256).extractLsb' (64 * w.toNat) 64
      result1 := wordOf (s.codeAt x).len }.complete := by
  rw [execCodeLookup, if_neg (by simp [hv])]

/-- Word i of a code, bit 255 reading 0 (R194), is that part of the number the code is held as. -/
theorem codeWord_eq_ofNat (b : BitVec 255) (i : Nat) :
    (b.setWidth 256).extractLsb' i 64 = BitVec.ofNat 64 (b.toNat / 2 ^ i) := by
  rw [← BitVec.toNat_inj, BitVec.extractLsb'_toNat, BitVec.toNat_setWidth_of_le (by decide), BitVec.toNat_ofNat,
    Nat.shiftRight_eq_div_pow]

/-- Settles O41, by the check for codes; a word past the last bit of the code is 0 on both sides. -/
theorem codeLookupReads : Obligations.CodeLookupReads := by
  refine fun s x w => ⟨execCodeLookup_invalid x w, fun hv => ?_⟩
  rw [← codeWord_eq_ofNat, ← wordOf_eq_ofNat]
  exact execCodeLookup_valid x w hv

/-! ### The greatest length, and the number a code is held as -/

theorem longestCode_append (cs : List (Byte × List Bool)) (e : Byte × List Bool) :
    longestCode (cs ++ [e]) = max (longestCode cs) e.2.length := by
  rw [longestCode, List.foldl_append, ← longestCode]
  rfl

theorem le_longestCode {cs : List (Byte × List Bool)} : ∀ e ∈ cs, e.2.length ≤ longestCode cs := by
  induction cs using List.reverseRecOn with
  | nil => exact nofun
  | append_singleton cs last ih =>
    intro e he
    rw [longestCode_append]
    obtain h | h := List.mem_append.1 he
    · exact (ih e h).trans (le_max_left _ _)
    · rw [List.mem_singleton.1 h]
      exact le_max_right _ _

theorem exists_longestCode {cs : List (Byte × List Bool)} (h : cs ≠ []) : ∃ e ∈ cs, longestCode cs = e.2.length := by
  induction cs using List.reverseRecOn with
  | nil => exact absurd rfl h
  | append_singleton cs last ih =>
    rw [longestCode_append]
    obtain hlast | hlast := le_total (longestCode cs) last.2.length
    · exact ⟨last, by simp, max_eq_right hlast⟩
    · rw [max_eq_left hlast]
      obtain rfl | hcs := eq_or_ne cs []
      · exact ⟨last, by simp, Nat.le_antisymm (Nat.zero_le _) hlast⟩
      · obtain ⟨e, he, hlen⟩ := ih hcs
        exact ⟨e, List.mem_append_left _ he, hlen⟩

theorem ofPath_bits {c : List Bool} (h : c.length ≤ 255) : (Code.ofPath c).bits.toNat = pathValue c :=
  Nat.mod_eq_of_lt ((pathValue_lt c).trans_le (Nat.pow_le_pow_right (by decide) h))

/-! ### What the codes of a sound tree are -/

section
variable {s : State} {arena : List Node} {tree : HTree} (h : SoundTree s arena tree)
include h

theorem treeCodes_syms : s.treeCodes.map Prod.fst = tree.leaves.map Prod.fst := by
  obtain ⟨-, y, f, rfl, he⟩ | ⟨-, he⟩ := treeCodes_sound h
  · rw [he]
    rfl
  · rw [he, HTree.codes_syms]

/-- The codes belong to the present symbols, one each. -/
theorem treeCodes_syms_perm : (s.treeCodes.map Prod.fst).Perm ((present s.freq).map Prod.fst) := by
  rw [treeCodes_syms h]
  exact h.leaves.map _

theorem treeCodes_length : s.treeCodes.length = (present s.freq).length := by
  simpa using (treeCodes_syms_perm h).length_eq

theorem freqAt_ne_zero_of_mem_treeCodes {x : Byte} {c : List Bool} (hc : (x, c) ∈ s.treeCodes) : s.freqAt x ≠ 0#64 := by
  have hx : x ∈ (present s.freq).map Prod.fst := (treeCodes_syms_perm h).subset (List.mem_map_of_mem hc)
  obtain ⟨⟨_, f⟩, hf, rfl⟩ := List.mem_map.1 hx
  obtain ⟨hfreq, hne⟩ := (mem_present s.freq _ f).1 hf
  exact fun h0 => hne (hfreq.symm.trans h0)

theorem treeCodes_of_present {x : Byte} (hx : s.freqAt x ≠ 0#64) : ∃ c, (x, c) ∈ s.treeCodes ∧ 1 ≤ c.length := by
  obtain ⟨-, hpresent, -⟩ := codeTable_sound h x
  obtain ⟨c, hc, hpos, -⟩ := hpresent hx
  exact ⟨c, hc, hpos⟩

/-- A code of the tree fits its record, and the table holds it for its symbol (R192). -/
theorem codeTable_of_mem {x : Byte} {c : List Bool} (hc : (x, c) ∈ s.treeCodes) :
    c.length ≤ 255 ∧ (codeTable s.treeCodes)[x.toNat]'x.isLt = Code.ofPath c := by
  obtain ⟨hnodup, hpresent, -⟩ := codeTable_sound h x
  obtain ⟨d, hd, -, hlen, hget⟩ := hpresent (freqAt_ne_zero_of_mem_treeCodes h hc)
  obtain rfl : c = d := congrArg Prod.snd (List.inj_on_of_nodup_map hnodup hc hd rfl)
  exact ⟨hlen, hget⟩

theorem longestCode_le : longestCode s.treeCodes ≤ 255 := by
  obtain hnil | hne := eq_or_ne s.treeCodes []
  · simp [hnil, longestCode]
  · obtain ⟨e, he, hlen⟩ := exists_longestCode hne
    exact hlen.trans_le (codeTable_of_mem h he).1

/-- No code is a prefix of another symbol's (R195); a single leaf has one code. -/
theorem treeCodes_prefixFree : s.treeCodes.Pairwise fun a b => ¬ a.2 <+: b.2 ∧ ¬ b.2 <+: a.2 := by
  obtain ⟨-, y, f, -, he⟩ | ⟨-, he⟩ := treeCodes_sound h
  · rw [he]
    exact List.pairwise_singleton _ _
  · rw [he]
    exact tree.codes_prefixFree []

theorem not_prefix_of_mem_treeCodes {x y : Byte} {c d : List Bool} (hne : x ≠ y) (hc : (x, c) ∈ s.treeCodes)
    (hd : (y, d) ∈ s.treeCodes) : ¬ c <+: d := by
  have : Std.Symm fun a b : Byte × List Bool => ¬ a.2 <+: b.2 ∧ ¬ b.2 <+: a.2 := ⟨fun _ _ => And.symm⟩
  exact ((treeCodes_prefixFree h).forall hc hd fun he => hne (congrArg Prod.fst he)).1

/-- The codes fill the code space, or half of it where there is the one code "0" (R195). -/
theorem treeCodes_kraft : (s.treeCodes.map fun e => 2 ^ (255 - e.2.length)).sum =
    if (present s.freq).length = 1 then 2 ^ 254 else 2 ^ 255 := by
  rw [← h.leaves.length_eq]
  obtain ⟨h1, y, f, -, he⟩ | ⟨h2, he⟩ := treeCodes_sound h
  · rw [if_pos h1, he]
    simp
  · have hle := h.leaves.length_eq.trans_le (present_length_le s.freq)
    rw [if_neg (by omega), he]
    exact tree.codes_kraft [] 255 (by simpa using hle)

end

/-! ### The state CODE_GEN leaves -/

/-- What CODE_GEN leaves where the tree is valid (R193). -/
def State.withCodes (s : State) : State :=
  { s with
    code := codeTable s.treeCodes
    codesValid := true
    result0 := BitVec.ofNat 64 (longestCode s.treeCodes)
    result1 := s.symCnt.setWidth 64 }.complete

theorem execCodeGen_valid {s : State} (hv : s.treeValid = true) : execCodeGen s = .next s.withCodes := by
  rw [execCodeGen, if_neg (by simp [hv]), State.withCodes]

theorem withCodes_codeAt (s : State) (x : Byte) : s.withCodes.codeAt x = (codeTable s.treeCodes)[x.toNat]'x.isLt := rfl

theorem withCodes_eq (s : State) : s.withCodes =
    { s with
      code := s.withCodes.code, codesValid := true, result0 := s.withCodes.result0
      result1 := BitVec.ofNat 64 s.symCnt.toNat }.complete := by
  rw [BitVec.ofNat_toNat]
  rfl

section
variable {s : State} {arena : List Node} {tree : HTree} (h : SoundTree s arena tree)
include h

theorem withCodes_result0 : s.withCodes.result0.toNat = longestCode s.treeCodes :=
  Nat.mod_eq_of_lt ((longestCode_le h).trans_lt (by decide))

theorem withCodes_present {x : Byte} (hx : s.freqAt x ≠ 0#64) :
    ∃ c, s.IsCode x c ∧ 1 ≤ c.length ∧ c.length ≤ 255 ∧ (s.withCodes.codeAt x).len.toNat = c.length ∧
      (s.withCodes.codeAt x).bits.toNat = pathValue c ∧ c.length ≤ s.withCodes.result0.toNat := by
  obtain ⟨c, hc, hpos⟩ := treeCodes_of_present h hx
  obtain ⟨h255, hget⟩ := codeTable_of_mem h hc
  rw [withCodes_codeAt, hget, withCodes_result0 h]
  exact ⟨c, isCode_of_mem h x c hc, hpos, h255, ofPath_len c h255, ofPath_bits h255, le_longestCode _ hc⟩

theorem withCodes_absent {x : Byte} (hx : s.freqAt x = 0#64) : s.withCodes.codeAt x = Code.zero := by
  obtain ⟨-, -, habsent⟩ := codeTable_sound h x
  exact habsent hx

theorem withCodes_longest (hne : present s.freq ≠ []) :
    ∃ x, s.withCodes.result0.toNat = (s.withCodes.codeAt x).len.toNat := by
  have hcodes : s.treeCodes ≠ [] := by
    rwa [← List.length_pos_iff, treeCodes_length h, List.length_pos_iff]
  obtain ⟨⟨x, c⟩, hc, hlen⟩ := exists_longestCode hcodes
  obtain ⟨h255, hget⟩ := codeTable_of_mem h hc
  exact ⟨x, by rw [withCodes_result0 h, withCodes_codeAt, hget, ofPath_len c h255, hlen]⟩

end

/-- Settles O39: the traversal lists each present symbol once, with the path to its leaf. -/
theorem codesAreThePaths : Obligations.CodesAreThePaths := by
  refine ⟨fun s => execCodeGen_invalid, fun s hv htable htree => ?_⟩
  obtain ⟨arena, tree, h⟩ := soundTree_of_ok s htable htree hv
  obtain ⟨hcnt, -⟩ := htree hv
  exact ⟨s.withCodes, execCodeGen_valid hv, fun x => withCodes_present h, fun x => withCodes_absent h,
    withCodes_longest h (present_ne_nil s htable hcnt), withCodes_eq s⟩

/-! ### The codes of a state with V1 to V4 -/

section
variable {s : State} {arena : List Node} {tree : HTree} (h : SoundTree s arena tree)
  (hcode : s.code = codeTable s.treeCodes)
include h hcode

theorem codeAt_of_mem {x : Byte} {c : List Bool} (hc : (x, c) ∈ s.treeCodes) :
    (s.codeAt x).path = c ∧ (s.codeAt x).len.toNat = c.length := by
  obtain ⟨h255, hget⟩ := codeTable_of_mem h hc
  have hat : s.codeAt x = Code.ofPath c := by simp only [State.codeAt, hcode, hget]
  rw [hat]
  exact ⟨ofPath_path c h255, ofPath_len c h255⟩

/-- The sum over the present symbols is the sum over the codes, in another order. -/
theorem codeAt_kraft :
    ((present s.freq).map fun e => 2 ^ (255 - (s.codeAt e.1).len.toNat)).sum =
      (s.treeCodes.map fun e => 2 ^ (255 - e.2.length)).sum := by
  have hperm := (treeCodes_syms_perm h).map fun x => 2 ^ (255 - (s.codeAt x).len.toNat)
  rw [List.map_map, List.map_map] at hperm
  calc
    _ = (s.treeCodes.map fun e => 2 ^ (255 - (s.codeAt e.1).len.toNat)).sum := hperm.sum_eq.symm
    _ = _ := congrArg List.sum (List.map_congr_left fun e he => by rw [(codeAt_of_mem h hcode he).2])

end

/-- Settles O40, from the codes of the tree: no leaf stands on the path to another, and the paths fill the code space. -/
theorem codesArePrefixFree : Obligations.CodesArePrefixFree := by
  intro s htable htree hcodes hv
  obtain ⟨ht, hcode⟩ := hcodes hv
  obtain ⟨arena, tree, h⟩ := soundTree_of_ok s htable htree ht
  constructor
  · intro x y hne hx hy
    obtain ⟨c, hc, -⟩ := treeCodes_of_present h hx
    obtain ⟨d, hd, -⟩ := treeCodes_of_present h hy
    obtain ⟨hpathx, -⟩ := codeAt_of_mem h hcode hc
    obtain ⟨hpathy, -⟩ := codeAt_of_mem h hcode hd
    rw [hpathx, hpathy]
    exact not_prefix_of_mem_treeCodes h hne hc hd
  · have hone : s.symCnt = 1#9 ↔ (present s.freq).length = 1 := by
      rw [← BitVec.toNat_inj, htable.1]
      rfl
    rw [codeAt_kraft h hcode, treeCodes_kraft h]
    simp only [hone]

end Sys2Proof.Machine

namespace Sys2Proof.Machine

/-! ## Encoding an archive (44_codec R210..R212) -/

/-- A run of the writer with room ends HDR_WRITE or ENC_SYM: the bits are in the output stream, and it completes. -/
theorem finishWrite_room (r : Word) {todo : List Bool} {s : State} (hk : s.wk.toNat ≤ 8) (hl : s.AccLow)
    (hroom : s.HasRoom todo.length) :
    ∃ t, finishWrite r (writeBits todo s) = t ∧ t.sentBits = s.sentBits ++ todo ∧ t.wk.toNat ≤ 7 ∧ t.AccLow ∧
      t = { s with wacc := t.wacc, wk := t.wk, outFifo := t.outFifo, result0 := r }.complete := by
  obtain ⟨t, hw, hsent, hwk, hlow, ⟨-, -, hframe⟩, hin⟩ := writeBits_encoded todo s hk hl hroom
  refine ⟨{ t with result0 := r }.complete, by rw [hw, finishWrite], hsent, hwk, hlow, ?_⟩
  rw [hframe, hin]
  rfl

/-- HDR_WRITE goes on to write `todo`. -/
theorem execHdrWrite_todo {s : State} {todo : List Bool}
    (h : (s.prog = .start ∧ s.symCnt ≠ 0#9 ∧ todo = byteBits (headerBytes s.symCnt.toNat s.freq)) ∨ s.prog = .writing todo) :
    execHdrWrite s = .next (finishWrite s.headerLength (writeBits todo s)) := by
  rcases h with ⟨hp, h0, rfl⟩ | hp
  · simp only [execHdrWrite, hp, if_neg h0]
  · simp only [execHdrWrite, hp]

/-- Settles O42: the bits to be written are the header's, and the writer has room (`finishWrite_room`). -/
theorem headerIsWritten : Obligations.HeaderIsWritten := by
  refine ⟨fun s hp h0 => ?_, fun s todo hat hk hl hroom => ?_⟩
  · simp only [exec, execHdrWrite, hp, if_pos h0]
  · obtain ⟨t, hfin, ht⟩ := finishWrite_room s.headerLength hk hl hroom
    exact ⟨t, by rw [exec, execHdrWrite_todo hat, hfin], ht⟩

/-- ENC_SYM goes on to write `todo`. -/
theorem execEncSym_todo {s : State} {x : Byte} {todo : List Bool}
    (h : (s.prog = .start ∧ s.codesValid = true ∧ (s.codeAt x).len ≠ 0#8 ∧ todo = (s.codeAt x).path) ∨
      s.prog = .writing todo) :
    execEncSym x s = .next (finishWrite (wordOf (s.codeAt x).len) (writeBits todo s)) := by
  rcases h with ⟨hp, hv, hlen, rfl⟩ | hp
  · simp only [execEncSym, hp, hv, Bool.true_eq_false, if_false, if_neg hlen]
  · simp only [execEncSym, hp]

/-- Settles O43: the bits to be written are the code's, and the writer has room (`finishWrite_room`). -/
theorem encSymWritesCode : Obligations.EncSymWritesCode := by
  intro s x
  refine ⟨execEncSym_invalid x, fun hp hv hlen => ?_, fun todo hat hk hl hroom => ?_⟩
  · rw [← wordOf_eq_ofNat]
    simp only [exec, execEncSym, hp, hv, Bool.true_eq_false, if_false, if_pos hlen]
  · obtain ⟨t, hfin, ht⟩ := finishWrite_room (wordOf (s.codeAt x).len) hk hl hroom
    rw [← wordOf_eq_ofNat]
    exact ⟨t, by rw [exec, execEncSym_todo hat, hfin], ht⟩

/-! ### ENC_STREAM -/

theorem EncodedFrom.codeAt {s u : State} (h : EncodedFrom s u) (x : Byte) : u.codeAt x = s.codeAt x := by
  rw [h.2.2]
  rfl

/-- The loop at an End, which is taken: completion (R212). -/
theorem encodeLoop_fin {s u : State} (h : EncodedFrom s u) {n : Nat} (rest : List Token) (hn : n < 2 ^ 64) :
    encodeLoop (.fin :: rest) n u =
      { s with
        wacc := u.wacc, wk := u.wk, outFifo := u.outFifo, inFifo := rest, result0 := BitVec.ofNat 64 n }.complete := by
  rw [encodeLoop, countWord_lt hn, State.popped, h.2.2]
  rfl

/-- The loop with no token left: the hold between two bytes (20_memory R82). -/
theorem encodeLoop_held {s u : State} (h : EncodedFrom s u) (n : Nat) (hw : s.waitOut = false) :
    encodeLoop [] n u =
      { s with
        wacc := u.wacc, wk := u.wk, outFifo := u.outFifo, inFifo := [], waitIn := true, prog := .encodePop n } := by
  have hwu : u.waitOut = s.waitOut := by rw [hw, h.1 hw]
  rw [encodeLoop, State.popped, State.holdIn, h.2.2, hwu]

/-- The loop at a byte without a code, which is taken: the error (R212). -/
theorem encodeLoop_absent {s u : State} (h : EncodedFrom s u) {n : Nat} {b : Byte} (rest : List Token)
    (hb : (s.codeAt b).len = 0#8) (hn : n < 2 ^ 64) :
    encodeLoop (.byte b :: rest) n u =
      { s with
        wacc := u.wacc, wk := u.wk, outFifo := u.outFifo, inFifo := rest
        result0 := BitVec.ofNat 64 n }.raise .symbolAbsent (BitVec.ofNat 64 b.toNat) := by
  rw [encodeLoop, if_pos (by rw [h.codeAt, hb]), countWord_lt hn, ← wordOf_eq_ofNat, State.popped, h.2.2]
  rfl

/-- Settles O44: the codes are written (`encStream_codes`), and the loop meets an End or has no token left. -/
theorem streamIsEncoded : Obligations.StreamIsEncoded := by
  intro s n todo bs hat hcodes hk h8 hl hroom
  refine ⟨fun rest hin hn => ?_, fun hin hw => ?_⟩
  · obtain ⟨u, e, hsent, hwk, hlow, hfrom⟩ := encStream_codes hat bs (.fin :: rest) hin hcodes hk h8 hl hroom
    rw [encodeLoop_fin hfrom rest hn] at e
    exact ⟨_, e, hsent, hwk, hlow, rfl⟩
  · rw [← List.append_nil (byteTokens bs)] at hin
    obtain ⟨u, e, hsent, hwk, hlow, hfrom⟩ := encStream_codes hat bs [] hin hcodes hk h8 hl hroom
    rw [encodeLoop_held hfrom _ hw] at e
    exact ⟨_, e, hsent, hwk, hlow, rfl⟩

/-- Settles O45: the codes before it are written (`encStream_codes`), and the loop meets the byte without a code. -/
theorem streamEncodingErrors : Obligations.StreamEncodingErrors := by
  refine fun s => ⟨execEncStream_invalid, fun n todo bs b rest hat hin hcodes hb hk h8 hl hroom hn => ?_⟩
  obtain ⟨u, e, hsent, -, -, hfrom⟩ := encStream_codes hat bs (.byte b :: rest) hin hcodes hk h8 hl hroom
  rw [encodeLoop_absent hfrom rest hb hn] at e
  exact ⟨_, e, hsent, rfl⟩

end Sys2Proof.Machine

namespace Sys2Proof.Machine

/-! ## HDR_READ (44_codec R210, R213) -/

/-- The header is read through: RESULT0 and RESULT1 are the count and the length (R213). -/
theorem readEntries_finish {s t : State} {g : HdrPoint} (hon : HeaderOn s t) (hok : t.TableOk) :
    readEntries 0 g t =
      { s with
        freq := t.freq, symCnt := BitVec.ofNat 9 (present t.freq).length, total := BitVec.ofNat 64 (tableSum t.freq)
        treeValid := false, codesValid := false, racc := t.racc, rk := t.rk, inFifo := t.inFifo
        result0 := BitVec.ofNat 64 (present t.freq).length
        result1 := BitVec.ofNat 64 (4 + 9 * (present t.freq).length) }.complete := by
  obtain ⟨hcnt, htot⟩ := tableOk_counts hok
  have hres : t.symCnt.setWidth 64 = BitVec.ofNat 64 (present t.freq).length := by
    rw [← hok.1, BitVec.ofNat_toNat]
  rw [readEntries, State.headerLength, hres, hok.1, ← hcnt, ← htot, State.complete, State.complete, hon.2]

/-- HDR_READ over the whole header of a table (R210, R213): it stands behind it, the table in FREQ. -/
theorem hdrRead_table {s : State} {bits : List Bool} (h : s.HeaderRead bits) (hk : s.rk.toNat ≤ 8)
    {table : Vector Word 256} {rest : List Bool} (hne : present table ≠ []) (hsum : tableSum table < 2 ^ 64)
    (hs : bits ++ s.pendingBits = byteBits (leBytes (present table).length 4 ++ entryBytes (present table)) ++ rest) :
    ∃ (g : HdrPoint) (t : State), exec .hdrRead s = .next (readEntries 0 g t) ∧ t.TableOk ∧ t.freq = table ∧
      t.pendingBits = rest ∧ t.rk.toNat ≤ 7 ∧ HeaderOn s t := by
  have h256 := present_length_le table
  have hgood : GoodEntries (present table) :=
    ⟨present_ascending table, fun e he => ((mem_present table e.1 e.2).1 he).2, by rwa [present_sum]⟩
  have hle : 8 * (4 + 9 * (present s.freq).length) ≤ bits.length → (present s.freq).length ≤ (present table).length := by
    intro hl
    obtain ⟨-, hlt, -⟩ := headerRead_entries h _ (by omega) _ rest hs hl
    exact hlt.le
  obtain ⟨g, t, e, hp, hpres, hrest, -, hend, hon⟩ := hdrRead_good h hk _ _ rest (List.length_pos_iff.2 hne) h256 le_rfl
    hgood hle hs
  obtain ⟨hgot, hpart, hrk⟩ := hend rfl
  refine ⟨g, t, by rw [exec, e, Nat.sub_self], hp.table, present_inj hpres, ?_, hrk, hon⟩
  rwa [hgot, HdrPoint.partBits, hpart] at hrest

/-- Settles O46: a run over good entries stands behind the last of them (`hdrRead_good`); one that bytes alone leave
open ends in a hold, for there is no End to meet (`hdrRead_part`). -/
theorem headerReadsBack : Obligations.HeaderReadsBack := by
  intro s bits h hk
  refine ⟨fun table rest hne hsum hs => ?_, fun bs ts part hopen hpart hs hin => ?_⟩
  · obtain ⟨g, t, e, hok, rfl, hrest, hrk, hon⟩ := hdrRead_table h hk hne hsum hs
    have hfin := readEntries_finish (g := g) hon hok
    exact ⟨_, e, hok, ⟨hrest, (hon.takesBytes hrk).congr rfl rfl⟩, hrk, hfin⟩
  · obtain ⟨t, hrk, hon, ⟨g, e, hempty, hread⟩ | ⟨-, more, hfin⟩⟩ := hdrRead_part h hk bs part hopen hpart hs
    · refine ⟨_, e, hread, Prog.noConfusion, ?_⟩
      rw [← hrk, ← hempty, State.holdIn, hon.2]
    · obtain ⟨taken, htaken⟩ := hon.1
      rw [hin, hfin] at htaken
      exact absurd htaken byteTokens_ne_fin

/-! ### What HDR_READ rejects -/

/-- Bits that begin with as many whole bytes begin with the same bytes. -/
theorem byteBits_inj {a b : List Byte} {u v : List Bool} (h : byteBits a ++ u = byteBits b ++ v)
    (hl : a.length = b.length) : a = b := by
  obtain ⟨c, rfl, -⟩ := byteBits_cancel h hl.le
  simpa using hl

theorem rejectHeader_freqAt (s : State) (e : ErrKind) (used : Nat) (x : Byte) : (s.rejectHeader e used).freqAt x = 0#64 := by
  simp [State.rejectHeader, State.clearTable, State.raise, State.freqAt]

theorem GoodEntries.of_append {es later : List (Byte × Word)} (h : GoodEntries (es ++ later)) : GoodEntries es := by
  obtain ⟨hasc, hne, hsum⟩ := h
  rw [List.map_append, List.sum_append] at hsum
  exact ⟨(List.pairwise_append.1 hasc).1, fun e he => hne e (List.mem_append_left _ he), by omega⟩

/-- The entry (x, f) is not to follow the entries `es`: out of order, zero or past the sum (R213). -/
def BadNext (es : List (Byte × Word)) (x : Byte) (f : Word) : Prop :=
  (∃ e ∈ es, x.toNat ≤ e.1.toNat) ∨ f = 0#64 ∨ 2 ^ 64 ≤ (es.map fun e => e.2.toNat).sum + f.toNat

theorem BadNext.not_good {es : List (Byte × Word)} {x : Byte} {f : Word} (h : BadNext es x f) :
    ¬ GoodEntries (es ++ [(x, f)]) := by
  rintro ⟨hasc, hne, hsum⟩
  rcases h with ⟨e, he, hle⟩ | hf | hover
  · have hlt := (List.pairwise_append.1 hasc).2.2 e he (x, f) (List.mem_singleton_self _)
    exact Nat.not_lt.2 hle hlt
  · exact hne (x, f) (by simp) hf
  · simp only [List.map_append, List.map_cons, List.map_nil, List.sum_append, List.sum_singleton] at hsum
    omega

/-- Such an entry fails the check (R213). -/
theorem EntryPoint.badEntry {s t : State} {g g' : HdrPoint} {cnt m : Nat} (hp : EntryPoint s g cnt m) (hr : ReadOn s t)
    (hprev : g'.prev = g.prev) {x : Byte} {f : Word} (hx : g'.sym = x) (hf : g'.freq = f.toNat)
    (h : BadNext (present s.freq) x f) : t.badEntry g' = true := by
  have htot : t.total.toNat = ((present s.freq).map fun e => e.2.toNat).sum := by
    rw [present_sum, ← hp.table.2, hr.2]
  simp only [State.badEntry, Bool.or_eq_true, decide_eq_true_eq, hf, htot]
  rcases h with ⟨e, he, hle⟩ | rfl | hover
  · refine .inl (.inl (Bool.eq_true_of_not_eq_false fun hasc => ?_))
    refine Nat.not_lt.2 hle (hp.below x (fun p hpr => ?_) e he)
    rw [HdrPoint.notAscending, hprev, hpr, hx] at hasc
    exact Nat.not_le.1 (of_decide_eq_false hasc)
  · exact .inl (.inr rfl)
  · exact .inr hover

/-- HDR_READ over good entries and then a bad one: the rejection, right behind it (R213). -/
theorem hdrRead_bad {s : State} {bits : List Bool} (h : s.HeaderRead bits) (hk : s.rk.toNat ≤ 8) {cnt : Nat}
    {es : List (Byte × Word)} {x : Byte} {f : Word} {rest : List Bool} (hgood : GoodEntries es) (hlt : es.length < cnt)
    (h256 : cnt ≤ 256)
    (hs : bits ++ s.pendingBits = byteBits (leBytes cnt 4 ++ entryBytes es ++ x :: leBytes f.toNat 8) ++ rest)
    (hbad : BadNext es x f) :
    ∃ t : State, exec .hdrRead s = .next (t.rejectHeader .corruptHeader (4 + 9 * es.length + 9)) ∧
      t.pendingBits = rest ∧ t.rk.toNat ≤ 7 ∧ HeaderOn s t := by
  have hbytes : entryBytes es ++ x :: leBytes f.toNat 8 = entryBytes (es ++ [(x, f)]) := by
    rw [entryBytes_append]
    simp [entryBytes]
  -- FREQ cannot hold the bad entry, so what it holds ends before it.
  have hle : 8 * (4 + 9 * (present s.freq).length) ≤ bits.length → (present s.freq).length ≤ es.length := by
    intro hl
    rw [List.append_assoc, hbytes] at hs
    obtain ⟨hok, -, -, tail, htail⟩ := headerRead_entries h cnt (by omega) _ rest hs hl
    by_contra hlong
    obtain ⟨c, hc, -⟩ := byteBits_cancel htail.symm (by simp; omega)
    obtain ⟨later, hlater, -⟩ := entryBytes_cancel (v := []) (by rw [← hc, List.append_nil])
      (show (es ++ [(x, f)]).length ≤ (present s.freq).length by simp; omega)
    exact hbad.not_good (GoodEntries.of_append (hlater ▸ present_good hok))
  obtain ⟨g, t, e, hp, hpres, hrest, hrk, -, hon⟩ := hdrRead_good h hk cnt es (byteBits (x :: leBytes f.toNat 8) ++ rest)
    (by omega) h256 hlt.le hgood hle (by rw [hs, byteBits_append, List.append_assoc])
  obtain ⟨m, hm⟩ : ∃ m, cnt - es.length = m + 1 := ⟨cnt - es.length - 1, by omega⟩
  rw [hm] at e hp
  obtain ⟨u, g', e', hx, hf, -, hprev, hused, -, -, hu, hurk, hread⟩ := hp.whole x f rest hrk hrest
  have hlen : g'.used = 4 + 9 * es.length + 9 := by
    have hgot := hp.got
    rw [hused, hp.used, hpres]
    omega
  refine ⟨u, ?_, hu, hurk, hon.trans (HeaderOn.of_readOn hread hp.tree hp.codes)⟩
  rw [exec, e, readEntries]
  simp only [e', hp.badEntry hread hprev hx hf (hpres ▸ hbad), if_true, hlen]

/-- HDR_READ on a count field of 0 or past 256: the rejection, right behind it (R213). -/
theorem hdrRead_badCount {s : State} {bits : List Bool} (h : s.HeaderRead bits) (hk : s.rk.toNat ≤ 8) {cnt : Nat}
    {rest : List Bool} (hc : cnt < 2 ^ 32) (hs : bits ++ s.pendingBits = byteBits (leBytes cnt 4) ++ rest)
    (hbad : cnt = 0 ∨ 256 < cnt) :
    ∃ t : State, exec .hdrRead s =
        .next (t.rejectHeader (if cnt = 0 then .emptyArchive else .corruptHeader) 4) ∧
      t.pendingBits = rest ∧ t.rk.toNat ≤ 7 ∧ HeaderOn s t := by
  rcases headerRead_cases h with ⟨u, g, e, hp, hon, hu, hrk, -, -, rfl⟩ | ⟨g, cnt', m, -, hp, rfl⟩
  · rw [← hu, List.append_assoc] at hs
    obtain ⟨g', t, e', ht, htk, hread, -⟩ := hp.whole cnt hc rest (by rwa [hrk]) hs
    refine ⟨t, ?_, ht, htk, hon.trans (HeaderOn.of_readOn hread hp.tree hp.codes)⟩
    rw [exec, e, e']
    split
    · rfl
    · rw [if_pos (by omega)]
  · -- Among the entries the count field was good.
    exfalso
    have hcount := hp.count
    have hbound := hp.bound
    simp only [byteBits_append, List.append_assoc] at hs
    have hcnt := byteBits_inj hs (by simp [leBytes_length])
    have heq := leBytes_four_inj (by omega) hc hcnt
    omega

/-- Settles O47, by where the header goes wrong: cut short by End (`hdrRead_part`), in the count field
(`hdrRead_badCount`) or in an entry (`hdrRead_bad`). -/
theorem badHeaderRejected : Obligations.BadHeaderRejected := by
  intro s bits h hk rejected
  have key : ∀ {t : State} {e : ErrKind} {used : Nat} {rest : List Bool},
      exec .hdrRead s = .next (t.rejectHeader e used) → t.pendingBits = rest ∧ t.rk.toNat ≤ 7 ∧ HeaderOn s t →
      rejected e used rest := by
    rintro t e used rest he ⟨ht, hrk, hon⟩
    exact ⟨_, he, rejectHeader_freqAt t e used, ⟨ht, (hon.takesBytes hrk).congr rfl rfl⟩, hrk, hon.reject e used⟩
  refine ⟨fun bs ts part more hopen hpart hs hin => ?_, fun cnt rest hc hs => ⟨fun h0 => ?_, fun h256 => ?_⟩,
    fun cnt es x f rest hgood hlt h256 hs hbad => ?_⟩
  · obtain ⟨t, hrk, hon, ⟨g, -, hempty, -⟩ | ⟨e, more', hfin⟩⟩ := hdrRead_part h hk bs part hopen hpart hs
    · obtain ⟨taken, htaken⟩ := hon.1
      rw [hin, hempty, List.append_nil] at htaken
      exact absurd htaken.symm byteTokens_ne_fin
    · obtain ⟨taken, htaken⟩ := hon.1
      rw [hin, hfin] at htaken
      obtain rfl := byteTokens_fin_inj htaken
      refine ⟨_, e, rejectHeader_freqAt t _ _, ?_⟩
      rw [← hfin, ← hrk]
      exact hon.reject _ _
  · obtain ⟨t, e, ht⟩ := hdrRead_badCount h hk hc hs (.inl h0)
    rw [if_pos h0] at e
    exact key e ht
  · obtain ⟨t, e, ht⟩ := hdrRead_badCount h hk hc hs (.inr h256)
    rw [if_neg (by omega)] at e
    exact key e ht
  · obtain ⟨t, e, ht⟩ := hdrRead_bad h hk hgood hlt h256 hs hbad
    exact key e ht

end Sys2Proof.Machine

namespace Sys2Proof.Machine

/-! ## How a walk ends (44_codec R214) -/

/-- The point that the bits q lead to from p. -/
def State.walked (s : State) (p : DecPoint) (q : List Bool) : DecPoint :=
  { i := s.follow p.i q, k := p.k + q.length, used := p.used + q.length }

section
variable {s : State} {p : DecPoint} {q : List Bool} (hk : s.rk.toNat ≤ 8)
include hk

/-- A walk through internal nodes goes on from where its bits lead, with what is left of the stream and of BUDGET. -/
theorem decodeOne_walked (hopen : s.WalkOpen p.i q) {rest : List Bool} (hp : s.pendingBits = q ++ rest)
    (hb : q.length ≤ s.budget.toNat) :
    ∃ t : State, decodeOne s.budget.toNat p s = decodeOne (s.budget.toNat - q.length) (s.walked p q) t ∧
      t.pendingBits = rest ∧ (∀ tail, s.BytesThen (.fin :: tail) → t.BytesThen (.fin :: tail)) ∧
      ((∃ bs, s.inFifo = byteTokens bs) → ∃ bs, t.inFifo = byteTokens bs) ∧
      t = { s with
        racc := t.racc, rk := t.rk, inFifo := t.inFifo, waitIn := t.waitIn
        budget := BitVec.ofNat 64 (s.budget.toNat - q.length) } := by
  have hsplit : s.budget.toNat = q.length + (s.budget.toNat - q.length) := by omega
  obtain ⟨t, e, ht, -, hbud, hfin, hbytes, hframe⟩ := decodeOne_prefix q rest _ p s hk hp hopen hsplit
  rw [← hsplit] at e
  refine ⟨t, e, ht, hfin, hbytes, ?_⟩
  rw [← hbud, BitVec.ofNat_toNat, BitVec.setWidth_eq]
  exact hframe

/-- BUDGET used up inside a code. -/
theorem decodeOne_spent (hopen : s.WalkOpen p.i q) {rest : List Bool} (hp : s.pendingBits = q ++ rest)
    (hb : s.budget.toNat = q.length) :
    ∃ t : State, decodeOne s.budget.toNat p s = .err .budgetExhausted (p.k + q.length) (p.used + q.length) t ∧
      t.pendingBits = rest ∧
      t = { s with racc := t.racc, rk := t.rk, inFifo := t.inFifo, waitIn := t.waitIn, budget := 0#64 } := by
  obtain ⟨t, e, ht, -, -, hframe⟩ := decodeOne_walked hk hopen hp hb.ge
  rw [hb, Nat.sub_self] at hframe e
  exact ⟨t, by rw [hb, e, decodeOne]; rfl, ht, hframe⟩

/-- End met inside a code: it stays at the head. -/
theorem decodeOne_meetsEnd (hopen : s.WalkOpen p.i q) {more : List Token} (hp : s.pendingBits = q)
    (hin : s.BytesThen (.fin :: more)) (hb : q.length < s.budget.toNat) :
    ∃ t : State, decodeOne s.budget.toNat p s = .err .truncatedStream (p.used + q.length) (p.used + q.length) t ∧
      t = { s with
        racc := t.racc, rk := 0#4, inFifo := .fin :: more, waitIn := t.waitIn
        budget := BitVec.ofNat 64 (s.budget.toNat - q.length) } := by
  obtain ⟨t, e, ht, hfin, -, hframe⟩ := decodeOne_walked hk hopen (by rw [hp, List.append_nil]) hb.le
  obtain ⟨hhead, hrk⟩ := bytesThen_drained (hfin _ hin) ht
  obtain ⟨m, hm⟩ : ∃ m, s.budget.toNat - q.length = m + 1 := ⟨s.budget.toNat - q.length - 1, by omega⟩
  refine ⟨t, by rw [e, hm, decodeOne_eos m _ t hrk ⟨more, hhead⟩]; rfl, ?_⟩
  rw [hhead, hrk] at hframe
  exact hframe

/-- The bytes run out inside a code, no End behind them: the hold at the node they lead to (20_memory R82). -/
theorem decodeOne_runsOut (hopen : s.WalkOpen p.i q) (hp : s.pendingBits = q) (hin : ∃ bs, s.inFifo = byteTokens bs)
    (hb : q.length < s.budget.toNat) :
    ∃ t : State, decodeOne s.budget.toNat p s = .held (s.walked p q) t ∧
      t = { s with
        racc := t.racc, rk := 0#4, inFifo := [], waitIn := t.waitIn
        budget := BitVec.ofNat 64 (s.budget.toNat - q.length) } := by
  obtain ⟨t, e, ht, -, hbytes, hframe⟩ := decodeOne_walked hk hopen (by rw [hp, List.append_nil]) hb.le
  obtain ⟨bs, hbs⟩ := hbytes hin
  obtain ⟨hnil, hrk⟩ := bytes_drained hbs ht
  obtain ⟨m, hm⟩ : ∃ m, s.budget.toNat - q.length = m + 1 := ⟨s.budget.toNat - q.length - 1, by omega⟩
  refine ⟨t, by rw [e, hm, decodeOne_held m _ t hrk hnil], ?_⟩
  rw [hnil, hrk] at hframe
  exact hframe

/-- The bit 1 at a single leaf. -/
theorem decodeOne_leafOne (hleaf : (s.nodeAt p.i).kind = .leaf) {rest : List Bool} (hp : s.pendingBits = true :: rest)
    (hb : 1 ≤ s.budget.toNat) :
    ∃ t : State, decodeOne s.budget.toNat p s = .err .invalidCode 1 (p.used + 1) t ∧ t.pendingBits = rest ∧
      t = { s with
        racc := t.racc, rk := t.rk, inFifo := t.inFifo, waitIn := t.waitIn
        budget := BitVec.ofNat 64 (s.budget.toNat - 1) } := by
  obtain ⟨m, hm⟩ : ∃ m, s.budget.toNat = m + 1 := ⟨s.budget.toNat - 1, by omega⟩
  obtain ⟨t, e, ht, -, hframe⟩ := decodeOne_leaf true rest m p s hk hp hleaf
  rw [hm]
  exact ⟨t, e, ht, hframe⟩

end

/-! ## DEC_SYM (44_codec R215) -/

theorem exec_decSym_at {s : State} {p : DecPoint} (h : s.DecSymAt p) :
    exec .decSym s = .next (finishDecSym (decodeOne s.budget.toNat p s)) := by
  rcases h with ⟨hp, hv, rfl⟩ | hp
  · simp only [exec, execDecSym, hp, hv, Bool.true_eq_false, if_false]
  · simp only [exec, execDecSym, hp]

theorem exec_decSym_err {s t : State} {p : DecPoint} {e : ErrKind} {info used : Nat} (h : s.DecSymAt p)
    (hw : decodeOne s.budget.toNat p s = .err e info used t) :
    exec .decSym s = .next (t.raise e (BitVec.ofNat 64 info)) := by
  rw [exec_decSym_at h, hw, finishDecSym]

/-- Settles O48: a whole code is followed to its leaf (`decodeOne_walk`), an open one to the hold (`decodeOne_runsOut`). -/
theorem decSymFollowsCode : Obligations.DecSymFollowsCode := by
  intro s p hat hk
  refine ⟨fun x c rest hwalk hp hb => ?_, fun q bs hopen hp hin hb => ?_⟩
  · obtain ⟨t, e, ht, -, hframe⟩ := decodeOne_walk hwalk rest s.budget.toNat hk hp hb
    have he := exec_decSym_at hat
    rw [e, finishDecSym, wordOf_eq_ofNat] at he
    refine ⟨_, he, ⟨ht, decSym_takesBytes he⟩, ?_, ?_⟩
    · show t.budget.toNat + c.length = s.budget.toNat
      have hlt := s.budget.isLt
      rw [hframe, BitVec.toNat_ofNat, Nat.mod_eq_of_lt (by omega)]
      omega
    · rw [hframe]
      rfl
  · obtain ⟨t, e, hframe⟩ := decodeOne_runsOut hk hopen hp ⟨bs, hin⟩ hb
    refine ⟨t.holdIn (.decSym (s.walked p q)), by rw [exec_decSym_at hat, e, finishDecSym], ?_⟩
    rw [hframe]
    rfl

/-- Settles O50, by how the walk ends without a symbol. -/
theorem decSymErrors : Obligations.DecSymErrors := by
  refine fun s => ⟨execDecSym_invalid, fun p hat hk => ⟨fun q rest hopen hp hb => ?_,
    fun q bs more hopen hp hin hb => ?_, fun hleaf rest hp hb => ?_⟩⟩
  · obtain ⟨t, e, ht, hframe⟩ := decodeOne_spent hk hopen hp hb
    have he := exec_decSym_err hat e
    refine ⟨_, he, ⟨ht, decSym_takesBytes he⟩, ?_⟩
    rw [hframe]
    rfl
  · obtain ⟨t, e, hframe⟩ := decodeOne_meetsEnd hk hopen hp ⟨bs, hin⟩ hb
    refine ⟨_, exec_decSym_err hat e, ?_⟩
    rw [hframe]
    rfl
  · obtain ⟨t, e, ht, hframe⟩ := decodeOne_leafOne hk hleaf hp hb
    have he := exec_decSym_err hat e
    refine ⟨_, he, ⟨ht, decSym_takesBytes he⟩, ?_⟩
    rw [hframe]
    rfl

/-! ## DEC_STREAM (44_codec R216) -/

theorem decodeLoop_err {s t : State} {p : DecPoint} {e : ErrKind} {info used : Nat} (turns count : Nat)
    (h : decodeOne s.budget.toNat p s = .err e info used t) :
    decodeLoop (turns + 1) count p s =
      { t with result0 := BitVec.ofNat 64 count, result1 := BitVec.ofNat 64 used }.raise e (BitVec.ofNat 64 info) := by
  rw [decodeLoop, h]

theorem decodeLoop_held {s t : State} {p p' : DecPoint} (turns count : Nat)
    (h : decodeOne s.budget.toNat p s = .held p' t) :
    decodeLoop (turns + 1) count p s = t.holdIn (.decBits count p') := by
  rw [decodeLoop, h]

/-- DEC_STREAM at its loop head with BUDGET used up: completion. -/
theorem loopHead_finish {s : State} (turns count used : Nat) (h : s.budget = 0#64) :
    s.loopHead turns count used = s.finishDecStream count used := by
  rw [State.loopHead, if_pos h]

/-- The walk that a run of the loop comes to is one of the state it started from. -/
theorem DecodedFrom.node {s u : State} {rest : List Bool} {out : List Byte} {spent : Nat}
    (h : DecodedFrom s u rest out spent) : u.node = s.node := by
  obtain ⟨-, -, -, -, -, -, -, -, hframe⟩ := h
  rw [hframe]

/-- A run of the loop and then a walk: what has moved since the run began. -/
theorem DecodedFrom.walk_frame {s u t : State} {rest : List Bool} {out : List Byte} {spent : Nat} {k : BitVec 4}
    {ts : List Token} {left : Word} (h : DecodedFrom s u rest out spent)
    (ht : t = { u with racc := t.racc, rk := k, inFifo := ts, waitIn := t.waitIn, budget := left }) :
    t = { s with
      racc := t.racc, rk := k, inFifo := ts, waitIn := t.waitIn, waitOut := u.waitOut, budget := left
      outFifo := s.outFifo ++ out } := by
  obtain ⟨-, -, hout, -, -, -, -, -, hframe⟩ := h
  rw [ht, ← hout, hframe]

/-- Settles O49: DEC_STREAM comes to its loop head with BUDGET used up (`decStream_head`), to a push without room
(`decStream_full`), or to a walk that the bytes leave open (`decStream_at`). -/
theorem decStreamFollowsCodes : Obligations.DecStreamFollowsCodes := by
  intro s n used out bits hk
  refine ⟨fun rest hto hp hb hroom => ?_, fun x rest hto hp hb hfull hw => ?_,
    fun p q bs hat hopen hp hin hb hroom hw => ?_⟩
  · obtain ⟨u, turns, he, -, hrest, -, hout, hbud, -, -, -, -, hframe⟩ := decStream_head hto rest hk hp hb.ge hroom
    have hzero : u.budget = 0#64 := BitVec.eq_of_toNat_eq (by rw [BitVec.toNat_zero]; omega)
    rw [loopHead_finish _ _ _ hzero] at he
    refine ⟨_, he, ⟨hrest, decStream_takesBytes he⟩, ?_⟩
    rw [← hout, ← hzero, hframe]
    rfl
  · obtain ⟨t, he, hrest, -, hframe⟩ := decStream_full hto rest hk hp hb hfull hw
    exact ⟨t, he, ⟨hrest, decStream_takesBytes he⟩, hframe⟩
  · obtain ⟨u, turns, he, hd⟩ := decStream_at hat q hk hp (by omega) hroom
    obtain ⟨hrest, hku, -, hbud, -, hbytes, hwait, -, -⟩ := id hd
    obtain ⟨t, e, hframe⟩ := decodeOne_runsOut hku ((walkOpen_congr hd.node _ _).2 hopen) hrest (hbytes ⟨bs, hin⟩) (by omega)
    have hleft : u.budget.toNat - q.length = s.budget.toNat - (bits.length + q.length) := by omega
    have hpoint : u.walked p q = s.walked p q := by rw [State.walked, follow_of_node hd.node]; rfl
    rw [decodeLoop_held _ _ e, hpoint] at he
    refine ⟨_, he, ?_⟩
    rw [hd.walk_frame hframe, hwait hw, hw, hleft]
    rfl

/-- Settles O51: DEC_STREAM comes to its walk (`decStream_at`), which ends without a symbol. -/
theorem decStreamErrors : Obligations.DecStreamErrors := by
  refine fun s => ⟨execDecStream_invalid, fun n out bits p hat hk hroom => ⟨fun q rest hopen hq hp hb => ?_,
    fun q bs more hopen hp hin hb => ?_, fun hleaf rest hp hb => ?_⟩⟩
  · have hpos := List.length_pos_iff.2 hq
    obtain ⟨u, turns, he, hd⟩ := decStream_at hat (q ++ rest) hk (by rw [hp, List.append_assoc]) (by omega) hroom
    obtain ⟨hrest, hku, -, hbud, -⟩ := id hd
    obtain ⟨t, e, ht, hframe⟩ := decodeOne_spent hku ((walkOpen_congr hd.node _ _).2 hopen) hrest (by omega)
    rw [decodeLoop_err _ _ e] at he
    refine ⟨_, he, ⟨ht, decStream_takesBytes he⟩, ?_⟩
    rw [hd.walk_frame hframe]
    rfl
  · obtain ⟨u, turns, he, hd⟩ := decStream_at hat q hk hp (by omega) hroom
    obtain ⟨hrest, hku, -, hbud, hfin, -⟩ := id hd
    obtain ⟨t, e, hframe⟩ := decodeOne_meetsEnd hku ((walkOpen_congr hd.node _ _).2 hopen) hrest (hfin more ⟨bs, hin⟩)
      (by omega)
    have hleft : u.budget.toNat - q.length = s.budget.toNat - (bits.length + q.length) := by omega
    rw [decodeLoop_err _ _ e] at he
    refine ⟨_, he, ?_⟩
    rw [hd.walk_frame hframe, hleft]
    rfl
  · obtain ⟨u, turns, he, hd⟩ := decStream_at hat (true :: rest) hk hp hb hroom
    obtain ⟨hrest, hku, -, hbud, -⟩ := id hd
    have hnode : u.nodeAt p.i = s.nodeAt p.i := by rw [State.nodeAt, hd.node]; rfl
    obtain ⟨t, e, ht, hframe⟩ := decodeOne_leafOne hku (by rw [hnode, hleaf]) hrest (by omega)
    have hleft : u.budget.toNat - 1 = s.budget.toNat - (bits.length + 1) := by omega
    rw [decodeLoop_err _ _ e] at he
    refine ⟨_, he, ⟨ht, decStream_takesBytes he⟩, ?_⟩
    rw [hd.walk_frame hframe, hleft]
    rfl

/-! ## The round trip (44_codec R220) -/

/-- On two sound states with one table, the code of a present symbol in the one's code table is its code in the other's
tree. -/
theorem isCode_codeAt_of_table {s d : State} (hs : s.Inv) (hv : s.codesValid = true) (hd : d.Inv) (hdv : d.treeValid = true)
    (hf : d.freq = s.freq) {x : Byte} (hx : s.freqAt x ≠ 0#64) :
    (s.codeAt x).len ≠ 0#8 ∧ d.IsCode x (s.codeAt x).path := by
  obtain ⟨ht, hcode⟩ := hs.codes hv
  obtain ⟨arena, tree, hsound⟩ := soundTree_of_ok s hs.table hs.tree ht
  obtain ⟨arena', tree', hsound'⟩ := soundTree_of_ok d hd.table hd.tree hdv
  obtain ⟨c, hc, hpos⟩ := treeCodes_of_present hsound hx
  obtain ⟨hpath, hlen⟩ := codeAt_of_mem hsound hcode hc
  refine ⟨fun h0 => ?_, ?_⟩
  · rw [h0, BitVec.toNat_zero] at hlen
    omega
  · rw [hpath]
    refine isCode_of_mem hsound' x c ?_
    rwa [treeCodes_of_table hf hs.table hs.tree ht hd.table hd.tree hdv]

/-- Settles O52: the encoder appends the codes of the bytes (`streamIsEncoded`), which are codes of the decoder's tree
(`isCode_codeAt_of_table`), and the decoder follows them (`decStreamFollowsCodes`). -/
theorem payloadRoundTrip : Obligations.PayloadRoundTrip := by
  intro s d e bs more rest hs hsp hv hin hbs hroom hlen henc hd hdp hdv hf hpend hbud hout
  have hcode := fun b hb => isCode_codeAt_of_table hs hv hd hdv hf (hbs b hb)
  obtain ⟨hwk, hfull, hlow, -⟩ := hs.acc
  have hat : s.EncStreamAt 0 [] := .inl ⟨hsp, hv, rfl, rfl⟩
  obtain ⟨hends, -⟩ := streamIsEncoded s 0 [] bs hat (fun b hb => (hcode b hb).1) hwk hfull hlow (by simpa using hroom)
  obtain ⟨e', he', hsent, -, -, hframe⟩ := hends more hin (by omega)
  obtain rfl : e = e' := Host.Outcome.next.inj (henc.symm.trans he')
  rw [List.append_nil] at hsent
  have hto : d.DecStreamTo 0 0 bs (s.codeBits bs) := by
    refine ⟨[], [], bs.map fun b => (b, (s.codeAt b).path), ?_, ?_, ?_, .inl ⟨hdp, hdv, rfl, rfl, rfl, rfl⟩⟩
    · simp [Function.comp_def]
    · simp [State.codeBits, List.flatMap_map]
    · simpa using fun b hb => (hcode b hb).2
  rw [hsent, List.drop_left] at hpend
  rw [hsent, List.length_append, Nat.add_sub_cancel_left] at hbud
  obtain ⟨follows, -, -⟩ := decStreamFollowsCodes d 0 0 bs (s.codeBits bs) hd.acc.2.2.2
  obtain ⟨t, ht, hread, htf⟩ := follows rest hto hpend hbud hout
  refine ⟨by rw [hframe]; rfl, t, ht, ?_⟩
  rw [htf] at hread ⊢
  exact ⟨rfl, rfl, rfl, rfl, hread, by rw [Nat.zero_add]; rfl⟩

end Sys2Proof.Machine

namespace Sys2Proof.Machine

/-! ## The control command and the table commands (45_control R240; 41_frequency R150..R156; 40_bitio R139) -/

theorem clearTable_freqAt (s : State) (x : Byte) : s.clearTable.freqAt x = 0#64 := Vector.getElem_replicate _

/-- Settles O25: each of the four commands is one assignment and completes. -/
theorem plainCommands : Obligations.PlainCommands := by
  refine fun s x => ⟨rfl, ⟨s.clearTable.complete, rfl, clearTable_freqAt s, rfl⟩, rfl, ?_⟩
  rw [exec, execRdAlign, BitVec.ofNat_toNat]

theorem accumulate_freqAt_other {s : State} {x y : Byte} (h : y ≠ x) : (s.accumulate x).freqAt y = s.freqAt y :=
  (accumulate_freqAt s x y).trans (if_neg h)

theorem execFreqAccum_freqAt_other {x y : Byte} {s t : State} (h : execFreqAccum x s = .next t) (hy : y ≠ x) :
    t.freqAt y = s.freqAt y := by
  unfold execFreqAccum at h
  split at h <;> cases h
  · rfl
  · exact accumulate_freqAt_other hy

theorem execFreqLoad_freqAt_other {x y : Byte} {s t : State} (h : execFreqLoad x s = .next t) (hy : y ≠ x) :
    t.freqAt y = s.freqAt y := by
  unfold execFreqLoad at h
  split at h <;> cases h
  · rfl
  · exact setFreq_other s.freq x y s.a hy

/-- The counting loop leaves the entry of a byte that is not among its tokens (R154). -/
theorem countLoop_freqAt_of_notMem {y : Byte} {ts : List Token} (hy : .byte y ∉ ts) (n : Nat) (s : State) :
    (countLoop ts n s).freqAt y = s.freqAt y := by
  induction ts generalizing n s with
  | nil => rfl
  | cons t ts ih =>
    obtain ⟨hne, hrest⟩ := List.ne_and_not_mem_of_not_mem_cons hy
    cases t with
    | fin => rw [countLoop]; split <;> rfl
    | byte b =>
      rw [countLoop]
      split
      · rfl
      · exact (ih hrest _ _).trans (accumulate_freqAt_other fun e => hne (congrArg Token.byte e))

theorem execFreqAccumStream_freqAt_of_notMem {y : Byte} {s t : State} (h : execFreqAccumStream s = .next t)
    (hy : .byte y ∉ s.inFifo) : t.freqAt y = s.freqAt y := by
  cases h
  exact countLoop_freqAt_of_notMem hy _ s

/-- Settles O55: each command's frame is its own lemma, and so is each command's rule for the other entries of FREQ. -/
theorem tableCommandFrames : Obligations.TableCommandFrames := by
  intro s t
  refine ⟨execNop_frame, execFreqClear_frame, ?_, fun _ => execFreqRead_frame,
    fun h => ⟨fun _ => execFreqAccumStream_freqAt_of_notMem h, execFreqAccumStream_frame h⟩,
    execTreeBuild_frame, execTreeNode_frame, execCodeGen_frame, fun _ _ => execCodeLookup_frame⟩
  rintro x (h | h)
  · exact ⟨fun _ => execFreqAccum_freqAt_other h, execFreqAccum_frame h⟩
  · exact ⟨fun _ => execFreqLoad_freqAt_other h, execFreqLoad_frame h⟩

end Sys2Proof.Machine

namespace Sys2Proof.Machine

/-! ## Which errors a command raises (60_exceptions R250, R251, R253) -/

/-- From s to t the error record stays, or t is the end of command i in an error that is its own. -/
def RaisesOwn (i : Instr) (s t : State) : Prop :=
  t.errPart = s.errPart ∨ ∃ (u : State) (e : ErrKind) (info : Word), e.code ∈ errorsOf i ∧ t = u.raise e info

theorem RaisesOwn.raise {i : Instr} {s u : State} {e : ErrKind} {info : Word}
    (he : e.code ∈ errorsOf i := by simp [errorsOf, ErrKind.code]) : RaisesOwn i s (u.raise e info) :=
  .inr ⟨u, e, info, he, rfl⟩

theorem RaisesOwn.after {i : Instr} {s u t : State} (h : u.errPart = s.errPart) (g : RaisesOwn i u t) :
    RaisesOwn i s t :=
  g.imp_left (·.trans h)

/-- A step that answers v keeps the error record where v does. -/
theorem RaisesOwn.kept {i : Instr} {s t v : State} (hv : v.errPart = s.errPart)
    (h : (.next v : Host.Outcome State Fault Refusal) = .next t) : RaisesOwn i s t := by
  cases h
  exact .inl hv

/-- A command's check: it raises an error of the command's own, or the rest o of the rule decides. -/
theorem RaisesOwn.check {i : Instr} {s t u : State} {e : ErrKind} {info : Word} {c : Prop} [Decidable c]
    {o : Host.Outcome State Fault Refusal} (h : (if c then .next (u.raise e info) else o) = .next t)
    (hrest : o = .next t → RaisesOwn i s t) (he : e.code ∈ errorsOf i := by simp [errorsOf, ErrKind.code]) :
    RaisesOwn i s t := by
  split at h
  · cases h; exact .raise he
  · exact hrest h

/-! ### Counting a stream -/

theorem countLoop_raisesOwn (ts : List Token) (n : Nat) (s : State) :
    RaisesOwn .freqAccumStream s (countLoop ts n s) := by
  induction ts generalizing n s with
  | nil => exact .inl rfl
  | cons t ts ih =>
    cases t with
    | fin => rw [countLoop]; split; exacts [.raise, .inl rfl]
    | byte b => rw [countLoop]; split; exacts [.raise, (ih _ (s.accumulate b)).after rfl]

/-! ### The ports -/

theorem execWrBits_errPart {n : Byte} {s t : State} (h : execWrBits n s = .next t) : t.errPart = s.errPart := by
  have hw := writeBits_errPart (s.wrBitsTodo n) s
  unfold execWrBits at h
  split at h <;> rename_i e <;> rw [e] at hw <;> cases h <;> exact hw

theorem execWrFlush_errPart {s t : State} (h : execWrFlush s = .next t) : t.errPart = s.errPart := by
  unfold execWrFlush at h
  split at h
  · cases h; rfl
  · unfold State.pushWacc at h
    cases hp : s.outPush s.wacc with
    | none => rw [hp] at h; cases h; rfl
    | some u => rw [hp] at h; cases h; exact (outPush_errPart hp :)

theorem execRdBits_raisesOwn {n : Byte} {s t : State} (h : execRdBits n s = .next t) : RaisesOwn (.rdBits n) s t := by
  have hr := (readBits_midRun (n.toNat - s.rdBitsSoFar.2) s.rdBitsSoFar.1 s.rdBitsSoFar.2 s).errs
  unfold execRdBits at h
  split at h <;> rename_i e <;> rw [e] at hr <;> cases h
  · exact .inl hr
  · exact .raise
  · exact .inl hr

theorem drainLoop_errPart (ts : List Token) (d : Nat) (s : State) : (drainLoop ts d s).errPart = s.errPart := by
  induction ts generalizing d with
  | nil => rfl
  | cons t ts ih =>
    cases t with
    | fin => rfl
    | byte b => exact ih _

theorem execRdDrain_errPart {s t : State} (h : execRdDrain s = .next t) : t.errPart = s.errPart := by
  unfold execRdDrain at h
  split at h <;> cases h
  · exact drainLoop_errPart _ _ s
  · exact drainLoop_errPart _ _ _

/-! ### Encoding -/

theorem finishWrite_errPart (r : Word) (bs : List Bool) (s : State) :
    (finishWrite r (writeBits bs s)).errPart = s.errPart := by
  have hw := writeBits_errPart bs s
  cases e : writeBits bs s <;> rw [e] at hw <;> exact hw

theorem execHdrWrite_raisesOwn {s t : State} (h : execHdrWrite s = .next t) : RaisesOwn .hdrWrite s t := by
  unfold execHdrWrite at h
  split at h
  · exact .kept (finishWrite_errPart _ _ s) h
  · exact .check h (.kept (finishWrite_errPart _ _ s))

theorem execEncSym_raisesOwn {x : Byte} {s t : State} (h : execEncSym x s = .next t) : RaisesOwn (.encSym x) s t := by
  unfold execEncSym at h
  split at h
  · exact .kept (finishWrite_errPart _ _ s) h
  · exact .check h fun h => .check h (.kept (finishWrite_errPart _ _ s))

theorem encodeLoop_raisesOwn (ts : List Token) (n : Nat) (s : State) : RaisesOwn .encStream s (encodeLoop ts n s) := by
  induction ts generalizing n s with
  | nil => exact .inl rfl
  | cons t ts ih =>
    cases t with
    | fin => exact .inl rfl
    | byte b =>
      have hw := writeBits_errPart (s.codeAt b).path (s.popped ts)
      rw [encodeLoop]
      split
      · exact .raise
      · split <;> rename_i e <;> rw [e] at hw
        · exact .inl hw
        · exact (ih _ _).after hw

theorem execEncStream_raisesOwn {s t : State} (h : execEncStream s = .next t) : RaisesOwn .encStream s t := by
  unfold execEncStream at h
  split at h
  · cases h; exact encodeLoop_raisesOwn _ _ s
  · rename_i n todo _
    have hw := writeBits_errPart todo s
    split at h <;> rename_i e <;> rw [e] at hw <;> cases h
    · exact .inl hw
    · exact (encodeLoop_raisesOwn _ _ _).after hw
  · split at h <;> cases h
    · exact .raise
    · exact encodeLoop_raisesOwn _ _ s

/-! ### HDR_READ -/

theorem readEntries_raisesOwn (m : Nat) (h : HdrPoint) (s : State) : RaisesOwn .hdrRead s (readEntries m h s) := by
  induction m generalizing h s with
  | zero => exact .inl rfl
  | succ m ih =>
    have hr := readBytes_errPart (9 - h.got.length) h s
    rw [readEntries]
    split <;> rename_i e <;> rw [e] at hr
    · exact .inl hr
    · exact .raise
    · rename_i h' t
      split
      · exact .raise
      · exact (ih _ (t.loadEntry _ _)).after hr

theorem readHeader_raisesOwn (h : HdrPoint) (s : State) : RaisesOwn .hdrRead s (readHeader h s) := by
  have hr := readBytes_errPart (4 - h.got.length) h s
  rw [readHeader]
  split <;> rename_i e <;> rw [e] at hr
  · exact .inl hr
  · exact .raise
  · split
    · exact .raise
    · split
      · exact .raise
      · exact (readEntries_raisesOwn _ _ _).after hr

theorem execHdrRead_raisesOwn {s t : State} (h : execHdrRead s = .next t) : RaisesOwn .hdrRead s t := by
  unfold execHdrRead at h
  split at h
  · split at h <;> cases h
    · exact readHeader_raisesOwn _ s
    · exact readEntries_raisesOwn _ _ s
  · cases h
    exact (readHeader_raisesOwn _ s.clearTable).after rfl

/-! ### Decoding -/

/-- `decodeOne()` fails with BUDGET_EXHAUSTED, TRUNCATED_STREAM or INVALID_CODE (44_codec R214). -/
theorem decodeOne_err_code {n info used : Nat} {p : DecPoint} {s t : State} {k : ErrKind}
    (h : decodeOne n p s = .err k info used t) : k.code ∈ [0x0A#8, 0x0B#8, 0x0C#8] := by
  induction n generalizing p s with
  | zero => cases h; decide
  | succ n ih =>
    rw [decodeOne] at h
    split at h
    · cases h
    · cases h; decide
    · split at h
      · split at h <;> cases h
        decide
      · split at h
        · cases h
        · exact ih h

theorem finishDecSym_raisesOwn (n : Nat) (p : DecPoint) (s : State) :
    RaisesOwn .decSym s (finishDecSym (decodeOne n p s)) := by
  have hd := decodeOne_errPart n p s
  cases e : decodeOne n p s <;> rw [e] at hd
  case held => exact .inl hd
  case err => exact .raise (.tail _ (decodeOne_err_code e))
  case sym => exact .inl hd

theorem execDecSym_raisesOwn {s t : State} (h : execDecSym s = .next t) : RaisesOwn .decSym s t := by
  unfold execDecSym at h
  split at h
  · cases h; exact finishDecSym_raisesOwn _ _ s
  · split at h <;> cases h
    · exact .raise
    · exact finishDecSym_raisesOwn _ _ s

theorem decodeLoop_raisesOwn (turns count : Nat) (p : DecPoint) (s : State) :
    RaisesOwn .decStream s (decodeLoop turns count p s) := by
  induction turns generalizing count p s with
  | zero => exact .inl rfl
  | succ turns ih =>
    have hd := decodeOne_errPart s.budget.toNat p s
    rw [decodeLoop]
    split <;> rename_i e <;> rw [e] at hd
    · exact .inl hd
    · exact .raise (.tail _ (decodeOne_err_code e))
    · split
      · exact .inl hd
      · rename_i hp
        have hu := (outPush_errPart hp).trans hd
        split
        · exact .inl hu
        · exact (ih _ _ _).after hu

theorem decodeFrom_raisesOwn (s : State) (count used : Nat) : RaisesOwn .decStream s (s.decodeFrom count used) := by
  unfold State.decodeFrom
  split
  · exact .inl rfl
  · exact decodeLoop_raisesOwn _ _ _ s

theorem execDecStream_raisesOwn {s t : State} (h : execDecStream s = .next t) : RaisesOwn .decStream s t := by
  unfold execDecStream at h
  split at h
  · cases h; exact decodeLoop_raisesOwn _ _ _ s
  · split at h <;> cases h
    · exact .inl rfl
    · rename_i hp
      exact (decodeFrom_raisesOwn _ _ _).after (outPush_errPart hp)
  · split at h <;> cases h
    · exact .raise
    · exact decodeFrom_raisesOwn s _ _

/-! ### Every command -/

theorem exec_raisesOwn {i : Instr} {s t : State} (h : exec i s = .next t) : RaisesOwn i s t := by
  cases i with
  | nop | freqClear | freqRead | rdAlign => cases h; exact .inl rfl
  | freqAccum x => exact .check h (.kept rfl)
  | freqAccumStream => cases h; exact countLoop_raisesOwn _ _ s
  | freqLoad x => exact .check h (.kept rfl)
  | wrBits n => exact .inl (execWrBits_errPart h)
  | wrFlush => exact .inl (execWrFlush_errPart h)
  | rdBits n => exact execRdBits_raisesOwn h
  | rdDrain => exact .inl (execRdDrain_errPart h)
  | treeBuild => exact .check h (.kept rfl)
  | treeNode => exact .check h fun h => .check h (.kept rfl)
  | codeGen => exact .check h (.kept rfl)
  | codeLookup x w => exact .check h (.kept rfl)
  | hdrWrite => exact execHdrWrite_raisesOwn h
  | encSym x => exact execEncSym_raisesOwn h
  | encStream => exact execEncStream_raisesOwn h
  | hdrRead => exact execHdrRead_raisesOwn h
  | decSym => exact execDecSym_raisesOwn h
  | decStream => exact execDecStream_raisesOwn h

/-- Settles O24: the error record stays, or the command ends in `raise` with a code of its own. -/
theorem errorsOfEachCommand : Obligations.ErrorsOfEachCommand := by
  intro i s t h
  rcases exec_raisesOwn h with hkept | ⟨u, e, info, he, rfl⟩
  · exact .inl (by simpa only [State.errPart, Prod.mk.injEq] using hkept)
  · exact .inr ⟨rfl, he, rfl, rfl, rfl⟩

/-- Settles O23: each entry is the assignment the definition makes, and each code the table's. -/
theorem completionEntries : Obligations.CompletionEntries := ⟨fun _ => rfl, fun _ _ _ => rfl, rfl⟩

/-! ## The interrupt output (60_exceptions R259) -/

theorem irq_iff (s : State) : s.irq = true ↔
    (s.ieDone = true ∧ s.done = true) ∨ (s.ieErr = true ∧ (s.err = true ∨ s.cmdOvr = true ∨ s.inOvf = true)) := by
  simp only [State.irq, Bool.or_eq_true, Bool.and_eq_true, or_assoc]

/-- A command whose progress point is gone has completed (60_exceptions R252). -/
theorem exec_done_of_prog_none {i : Instr} {s t : State} (h : exec i s = .next t) (hp : t.prog = .none) :
    t.done = true := by
  rcases (exec_runTo h).ends with ⟨-, -, hdone, -, -⟩ | ⟨hne, -⟩ | ⟨hne, -⟩
  · exact hdone
  · exact absurd hp hne
  · exact absurd hp hne

/-- The write 0x1E clears every cause of the interrupt. -/
theorem writeStatus_irq (s : State) : (s.writeStatus 0x1E#64).irq = false := by
  rw [writeStatus_eq]
  simp [State.irq]

/-- Settles O21: the level by its formula, its rise because a command leaves CTRL alone, its fall by the W1C bits. -/
theorem interruptLevel : Obligations.InterruptLevel := by
  refine ⟨irq_iff, fun i s t h hp => ?_, fun s rest ha => ⟨_, step_write (r := .status) ha rfl, writeStatus_irq _⟩⟩
  obtain ⟨-, hieDone, hieErr, -⟩ := commandsKeepHostState i s t h
  exact ⟨fun hs => (irq_iff t).2 (.inl ⟨hieDone.trans hs, exec_done_of_prog_none h hp⟩),
    fun hs he => (irq_iff t).2 (.inr ⟨hieErr.trans hs, .inl he⟩)⟩

end Sys2Proof.Machine

namespace Sys2Proof.Machine

/-! ## The operand registers (10_state R37, R38; 70_reset R297, R298) -/

/-- A write of BUDGET, as one assignment to the field (10_state R38, 70_reset R298). -/
theorem writeReg_budget (s : State) (v : Word) :
    s.writeReg v .budget = { s with budget := if s.busy = true then s.budget else v } := by
  rw [State.writeReg]
  split
  · rfl
  · rfl

/-- Settles O14: ARG0 is the register at 0x20, BUDGET the one at 0x28, and only a write of BUDGET looks at BUSY. -/
theorem operandWrites : Obligations.OperandWrites := by
  intro s v rest
  refine ⟨fun ha => step_write (r := .arg0) ha rfl, fun ha => ?_⟩
  rw [step_write (r := .budget) ha rfl, writeReg_budget]

end Sys2Proof.Machine
